-- ==== Sys2Proof/Word.lean ====
section
/-! DEFINITION. The word types of the CORE (00_scope.md R8, R9: every value is unsigned, of the width stated for it). -/

namespace Sys2Proof

/-- One byte of a stream, of a buffer or of the wire (20_memory.md R84). -/
abbrev Byte := BitVec 8

/-- `CSR_WIDTH`, `CTR_WIDTH` and `TIME_WIDTH`: registers, event counters, times and timeouts. -/
abbrev Word := BitVec 32

/-- `COUNT_WIDTH`: byte counts (N, capacities, pending, remaining). -/
abbrev Count := BitVec 24

/-- A position in a frame's wire image, `0 .. N+2` (10_state.md R52). -/
abbrev Pos := BitVec 25

/-- `CSR_ADDR_WIDTH`. -/
abbrev CsrAddr := BitVec 8

/-- `CMD_WIDTH`: one host command word (30_encoding.md R110). -/
abbrev CommandWord := BitVec 64

end Sys2Proof
end

