-- ==== Sys2Proof/Syntax.lean ====
section
/-! DEFINITION. The commands of the host command port (30_encoding.md R113), and the fields of a command word
(R111). -/

namespace Sys2Proof

/-- The six commands, one constructor per row of the opcode table. -/
inductive Instr where
  /-- NOP, 45_host_commands.md R303. -/
  | nop
  /-- BEGIN, 45_host_commands.md R306. -/
  | begin
  /-- STEP, 45_host_commands.md R310. -/
  | step
  /-- CSR_READ, 45_host_commands.md R316: the address is the `SEL` field, unchanged (30_encoding.md R112). -/
  | csrRead (addr : CsrAddr)
  /-- CSR_WRITE, 45_host_commands.md R321: the value is the `DATA` field, unchanged (30_encoding.md R112). -/
  | csrWrite (addr : CsrAddr) (value : Word)
  /-- RX_CANCEL, 45_host_commands.md R327. -/
  | rxCancel
  deriving DecidableEq, Repr

/-- The fields of a command word (30_encoding.md R111). -/
structure CommandFields where
  /-- Bits [63:56], the operation code. -/
  op : BitVec 8
  /-- Bits [55:48], the CSR address. -/
  sel : CsrAddr
  /-- Bits [47:32], reserved. -/
  rsv : BitVec 16
  /-- Bits [31:0], the value. -/
  data : Word
  deriving DecidableEq, Repr

/-- The fields each command has in its word (30_encoding.md R113). -/
def Instr.fields : Instr → CommandFields
  | .nop => ⟨0x00, 0, 0, 0⟩
  | .begin => ⟨0x01, 0, 0, 0⟩
  | .step => ⟨0x02, 0, 0, 0⟩
  | .csrRead addr => ⟨0x03, addr, 0, 0⟩
  | .csrWrite addr value => ⟨0x04, addr, 0, value⟩
  | .rxCancel => ⟨0x05, 0, 0, 0⟩

end Sys2Proof
end

