-- ==== Sys2Proof/WellFormed.lean ====
section
/-! DEFINITION. Which command fields are a command (30_encoding.md R115, read as four checks). An `Instr` has operands
of exactly its fields' widths, so every one is well formed; a word's fields may fail each check. -/

namespace Sys2Proof.CommandFields

/-- `OP` in 0x06..0xFF is reserved. -/
def opAssigned (f : CommandFields) : Bool := decide (f.op.toNat ≤ 0x05)

/-- `RSV` must be 0 in every command. -/
def rsvIsZero (f : CommandFields) : Bool := decide (f.rsv = 0)

/-- `SEL` must be 0 unless the command is CSR_READ or CSR_WRITE. -/
def selIsZeroUnlessUsed (f : CommandFields) : Bool :=
  decide (f.op = 0x03 ∨ f.op = 0x04 ∨ f.sel = 0)

/-- `DATA` must be 0 unless the command is CSR_WRITE. -/
def dataIsZeroUnlessUsed (f : CommandFields) : Bool :=
  decide (f.op = 0x04 ∨ f.data = 0)

/-- The fields are those of a command. -/
def wellFormed (f : CommandFields) : Bool :=
  f.opAssigned && f.rsvIsZero && f.selIsZeroUnlessUsed && f.dataIsZeroUnlessUsed

end Sys2Proof.CommandFields

/-- A command is well formed when its fields are. -/
def Sys2Proof.Instr.wellFormed (i : Sys2Proof.Instr) : Bool := i.fields.wellFormed
end

