-- ==== Sys2Proof/Decode.lean ====
section
/-! DEFINITION. Decoding a command word (30_encoding.md R111 to R115), and the encoder. -/

namespace Sys2Proof

/-- Why a word is an illegal command (30_encoding.md R115). -/
inductive IllegalWord where
  /-- `OP` is reserved. -/
  | reservedOp
  /-- `RSV` is not 0. -/
  | reservedField
  /-- `SEL` is not 0 in a command that does not use it. -/
  | unusedSel
  /-- `DATA` is not 0 in a command that does not use it. -/
  | unusedData
  deriving DecidableEq, Repr

/-- What the decoder reads from a word. -/
inductive Decoded where
  | command (i : Instr)
  | illegal (why : IllegalWord)
  deriving DecidableEq, Repr

/-- The fields of a word (30_encoding.md R111). -/
def fieldsOf (w : CommandWord) : CommandFields :=
  ⟨w.extractLsb' 56 8, w.extractLsb' 48 8, w.extractLsb' 32 16, w.extractLsb' 0 32⟩

/-- A word of these fields (30_encoding.md R111). -/
def wordOf (f : CommandFields) : CommandWord := f.op ++ f.sel ++ f.rsv ++ f.data

/-- `i`, if the unused `DATA` field is 0. -/
def decodeNoData (f : CommandFields) (i : Instr) : Decoded :=
  if f.data = 0 then .command i else .illegal .unusedData

/-- `i`, if the unused `SEL` and `DATA` fields are 0. -/
def decodeBare (f : CommandFields) (i : Instr) : Decoded :=
  if f.sel = 0 then decodeNoData f i else .illegal .unusedSel

/-- The decoder, total on all 2^64 words (30_encoding.md R114). It depends on the word alone. -/
def decode (w : CommandWord) : Decoded :=
  let f := fieldsOf w
  if f.rsv ≠ 0 then .illegal .reservedField
  else if f.op = 0x00 then decodeBare f .nop
  else if f.op = 0x01 then decodeBare f .begin
  else if f.op = 0x02 then decodeBare f .step
  else if f.op = 0x03 then decodeNoData f (.csrRead f.sel)
  else if f.op = 0x04 then .command (.csrWrite f.sel f.data)
  else if f.op = 0x05 then decodeBare f .rxCancel
  else .illegal .reservedOp

/-- The word of a command (30_encoding.md R113). -/
def encode (i : Instr) : CommandWord := wordOf i.fields

/-- The command in a decoded word, if it is one. -/
def Decoded.toOption : Decoded → Option Instr
  | .command i => some i
  | .illegal _ => none

/-- The host's question about one row of the opcode table: the low `nbits` bits of `w` are the command word, and any
bit above them is 0. A command word is one 64-bit value with no byte order (20_memory.md R82; log 13). -/
def decodeTableWord (nbits w : Nat) : Option Instr :=
  (decode (BitVec.ofNat 64 (w % 2 ^ nbits))).toOption

end Sys2Proof
end

