-- ==== Sys2Proof/Config.lean ====
section
/-! DEFINITION. What an implementation fixes, and the free values. Each `opaque` constant has no body: no proof can see
what it is, so a statement holds whatever it is. -/

namespace Sys2Proof.Config

/-- `FRAME_MAX - 1` (00_scope.md R8: OPEN, 1 .. 2^24-1). Log 5. -/
opaque frameMaxLessOne : Fin 16777215

/-- `TXB_DEPTH_MAX - 1` (00_scope.md R8: OPEN, 1 .. 2^24-1). Log 5. -/
opaque txbDepthMaxLessOne : Fin 16777215

/-- `RXB_DEPTH_MAX - 1` (00_scope.md R8: OPEN, 1 .. 2^24-1). Log 5. -/
opaque rxbDepthMaxLessOne : Fin 16777215

/-- `FRAME_MAX`, the largest payload size the FRAME register holds. -/
def frameMax : Count := BitVec.ofNat 24 (frameMaxLessOne.val + 1)

/-- `TXB_DEPTH_MAX`, the size of the TXB data array. -/
def txbDepthMax : Count := BitVec.ofNat 24 (txbDepthMaxLessOne.val + 1)

/-- `RXB_DEPTH_MAX`, the size of the RXB data array. -/
def rxbDepthMax : Count := BitVec.ofNat 24 (rxbDepthMaxLessOne.val + 1)

/-- `DUMMY_BYTE`, the byte a radio FIFO read shifts out (00_scope.md R8, 92_eei_decisions.md D18). -/
def dummyByte : Byte := 0x00

/-- FREE VALUE: the environment's answer to a yes/no query (20_memory.md R94). Log 4. -/
opaque freeFlag : Nat → Bool

/-- FREE VALUE: the environment's answer to a query for a byte (20_memory.md R94). Log 4. -/
opaque freeByte : Nat → Byte

/-- FREE VALUE: the environment's answer to `ask.time.now` (20_memory.md R94). Log 4. -/
opaque freeTime : Nat → Word

end Sys2Proof.Config
end

