-- ==== Sys2Proof/Machine/State.lean ====
section
/-! DEFINITION. The state of the CORE (10_state.md R20), the model's own fields beside it, the reasons a step can stop,
and the state after reset (70_reset_and_hazards.md R391). -/

namespace Sys2Proof.Machine

/-- `core_state` (10_state.md R23). Encoding 3 is never written and has no constructor (log 7). -/
inductive CoreState where
  | uninit | run | failed
  deriving DecidableEq, Repr

/-- A radio mode (10_state.md R55). Encoding 3 is never written and has no constructor (log 7). -/
inductive RadioMode where
  | idle | rx | tx
  deriving DecidableEq, Repr

/-- `tx_state` (10_state.md R53). -/
inductive TxState where
  | idle | waitMode | send | drain
  deriving DecidableEq, Repr

/-- `rx_phase` (10_state.md R54). -/
inductive RxPhase where
  | start | waitMode | active | cycleIdle
  deriving DecidableEq, Repr

/-- `sync`, the SyncDetector state (10_state.md R56). Encoding 3 is never written and has no constructor (log 7). -/
inductive SyncState where
  | searching | firstByteMatched | locked
  deriving DecidableEq, Repr

/-- The contents of an internal byte array (20_memory.md R80): the offsets that hold something other than what an
unlisted offset reads as, in rising order. -/
abbrev Memory := List Host.Cell

/-- The configuration registers, 32 bits each (10_state.md R30 to R37). -/
structure ConfigRegs where
  frameSize : Word
  sync : Word
  flushTo : Word
  linkTo : Word
  hwWaitTo : Word
  capTx : Word
  capRx : Word
  ctrl : Word
  deriving DecidableEq, Repr

/-- The event counters (10_state.md R46). -/
structure Counters where
  framesTx : Word
  framesRx : Word
  ovrTx : Word
  ovrRx : Word
  linkTo : Word
  syncLoss : Word
  hwTo : Word
  deriving DecidableEq, Repr

/-- A StreamBuffer (10_state.md R50); its capacity is a configuration register and its depth a parameter. -/
structure StreamBuffer where
  data : Memory
  writePos : Count
  pending : Count
  deriving DecidableEq, Repr

/-- The FRAME register and the TxFramer's state (10_state.md R52, R53). -/
structure TxFramer where
  payload : Memory
  pos : Pos
  state : TxState
  tFill : Word
  tWait : Word
  deriving DecidableEq, Repr

/-- The RxDeframer's state (10_state.md R54) and the SyncDetector's (R56). -/
structure RxDeframer where
  phase : RxPhase
  sync : SyncState
  remaining : Count
  tLink : Word
  deriving DecidableEq, Repr

/-- The mode arbiter's state (10_state.md R55). -/
structure ModeArbiter where
  cur : RadioMode
  req : RadioMode
  pending : Bool
  tReq : Word
  deriving DecidableEq, Repr

/-- The implementation parameters (00_scope.md R8). The model's own field: constants a step reads and never writes
(log 5). -/
structure Params where
  frameMax : Count
  txbDepthMax : Count
  rxbDepthMax : Count
  deriving DecidableEq, Repr

/-- What the host presents: a command word on the command port (10_state.md R67), or the reset input
(70_reset_and_hazards.md R390; log 3). -/
inductive HostInput where
  | command (w : CommandWord)
  | reset
  deriving DecidableEq, Repr

/-- The `status` of a response (45_host_commands.md R300). -/
inductive Status where
  | ok | err
  deriving DecidableEq, Repr

/-- A response (45_host_commands.md R300). -/
structure Response where
  status : Status
  data : Word
  deriving DecidableEq, Repr

/-- The host command port. The model's own fields: what the host will present, oldest first, and what was answered,
in order (log 1, log 10). -/
structure HostPort where
  inputs : List HostInput
  responses : List Response
  deriving DecidableEq, Repr

/-- One port event (00_scope.md R10, 20_memory.md R86): a query with the answer drawn, or an action with its
arguments. -/
inductive Event where
  /-- `ask.src.valid() = answer`. -/
  | srcValid (answer : Bool)
  /-- `ask.src.data() = answer`. -/
  | srcData (answer : Byte)
  /-- `do.src.take()`. -/
  | srcTake
  /-- `do.src.overrun()`. -/
  | srcOverrun
  /-- `ask.sink.ready() = answer`. -/
  | sinkReady (answer : Bool)
  /-- `do.sink.write(b)`. -/
  | sinkWrite (b : Byte)
  /-- `ask.radio.begin() = answer`. -/
  | radioBegin (answer : Bool)
  /-- `ask.radio.fifo_full() = answer`. -/
  | radioFifoFull (answer : Bool)
  /-- `ask.radio.fifo_not_empty() = answer`. -/
  | radioFifoNotEmpty (answer : Bool)
  /-- `ask.radio.read() = answer`, shifting `out` out (10_state.md R60; log 11). -/
  | radioRead (out : Byte) (answer : Byte)
  /-- `ask.radio.mode_ready() = answer`. -/
  | radioModeReady (answer : Bool)
  /-- `ask.radio.tx_done() = answer`. -/
  | radioTxDone (answer : Bool)
  /-- `do.radio.set_mode(m)`. -/
  | radioSetMode (m : RadioMode)
  /-- `do.radio.write(b)`. -/
  | radioWrite (b : Byte)
  /-- `ask.time.now() = answer`. -/
  | timeNow (answer : Word)
  deriving DecidableEq, Repr

/-- The environment's side (20_memory.md R94). The model's own fields: the answers it will give to the next yes/no,
byte and time queries; how many answers came from the free values after those ran out; and the trace so far, in order
(log 4, log 10). -/
structure Environment where
  flags : List Bool
  bytes : List Byte
  times : List Word
  drawn : Nat
  trace : List Event
  deriving DecidableEq, Repr

/-- The whole state. -/
structure State where
  /-- `core_state`. -/
  coreState : CoreState
  /-- The configuration registers. -/
  cfg : ConfigRegs
  /-- `ERR`, its ten bits used (10_state.md R45). -/
  err : BitVec 10
  /-- The event counters. -/
  counters : Counters
  /-- TXB. -/
  txb : StreamBuffer
  /-- RXB. -/
  rxb : StreamBuffer
  /-- The TxFramer and FRAME. -/
  tx : TxFramer
  /-- The RxDeframer and the SyncDetector. -/
  rx : RxDeframer
  /-- The mode arbiter. -/
  arb : ModeArbiter
  /-- The implementation parameters (the model's own field). -/
  params : Params
  /-- The host command port (the model's own field). -/
  host : HostPort
  /-- The environment (the model's own field). -/
  env : Environment
  deriving DecidableEq, Repr

/-- The machine stops: an internal invariant is broken. No run reaches any of these (93_implementation_defined.md);
all are safe (log 8). -/
inductive Fault where
  /-- `SB_take` or `SB_consume` with `n > pending` (40_streambuffer.md R145). Raised by `sbTake`. Safe. -/
  | takeBeyondPending
  /-- `request_mode` with a request pending or with the mode held already (44_mode_scheduler.md R270). Raised by
  `requestMode`. Safe. -/
  | modeRequestPrecondition
  /-- An offset at or beyond the size of TXB.data or RXB.data (20_memory.md R80). Raised by `sbStore` and `sbTake`.
  Safe. -/
  | bufferOffset
  /-- An offset at or beyond the size of FRAME.payload, or a position beyond the wire image (20_memory.md R80,
  10_state.md R52). Raised by `commitFrame` and `wireByte`. Safe. -/
  | frameOffset
  /-- `SB_append` on a full buffer with `POLICY = 3`, "cannot occur after a successful BEGIN" (40_streambuffer.md
  R141). Raised by `sbAppend`. Safe. -/
  | reservedPolicy
  /-- `TX_send_loop` past the bound of 42_txframer.md R193. Raised by `txSendLoop`. Safe. -/
  | sendLoopBound
  deriving DecidableEq, Repr

/-- A command with no meaning in the model. No meaning answers with it; every command of the table has one. -/
inductive Refusal where
  /-- Raised only by a refused arm of `exec`, for a command not modelled. There is none. Safe. -/
  | notModelled (mnemonic : String)
  deriving DecidableEq, Repr

namespace State

/-- `s` with another `core_state`. -/
def setCoreState (s : State) (x : CoreState) : State := { s with coreState := x }

/-- `s` with other configuration registers. -/
def setCfg (s : State) (x : ConfigRegs) : State := { s with cfg := x }

/-- `s` with another `ERR`. -/
def setErr (s : State) (x : BitVec 10) : State := { s with err := x }

/-- `s` with other event counters. -/
def setCounters (s : State) (x : Counters) : State := { s with counters := x }

/-- `s` with another TXB. -/
def setTxb (s : State) (x : StreamBuffer) : State := { s with txb := x }

/-- `s` with another RXB. -/
def setRxb (s : State) (x : StreamBuffer) : State := { s with rxb := x }

/-- `s` with another TxFramer state. -/
def setTx (s : State) (x : TxFramer) : State := { s with tx := x }

/-- `s` with another RxDeframer state. -/
def setRx (s : State) (x : RxDeframer) : State := { s with rx := x }

/-- `s` with another arbiter state. -/
def setArb (s : State) (x : ModeArbiter) : State := { s with arb := x }

/-- `s` with another host port. -/
def setHost (s : State) (x : HostPort) : State := { s with host := x }

/-- `s` with another environment. -/
def setEnv (s : State) (x : Environment) : State := { s with env := x }

/-- `FRAME.payload <- x` for the whole array. -/
def setTxPayload (s : State) (x : Memory) : State := s.setTx { s.tx with payload := x }

/-- `tx_pos <- x`. -/
def setTxPos (s : State) (x : Pos) : State := s.setTx { s.tx with pos := x }

/-- `tx_state <- x`. -/
def setTxState (s : State) (x : TxState) : State := s.setTx { s.tx with state := x }

/-- `t_fill <- x`. -/
def setTFill (s : State) (x : Word) : State := s.setTx { s.tx with tFill := x }

/-- `t_wait <- x`. -/
def setTWait (s : State) (x : Word) : State := s.setTx { s.tx with tWait := x }

/-- `rx_phase <- x`. -/
def setRxPhase (s : State) (x : RxPhase) : State := s.setRx { s.rx with phase := x }

/-- `sync <- x`. -/
def setSync (s : State) (x : SyncState) : State := s.setRx { s.rx with sync := x }

/-- `remaining <- x`. -/
def setRemaining (s : State) (x : Count) : State := s.setRx { s.rx with remaining := x }

/-- `t_link <- x`. -/
def setTLink (s : State) (x : Word) : State := s.setRx { s.rx with tLink := x }

/-- `FRAMES_TX <- FRAMES_TX +_32 1` (10_state.md R46). -/
def countFrameTx (s : State) : State := s.setCounters { s.counters with framesTx := s.counters.framesTx + 1 }

/-- `FRAMES_RX <- FRAMES_RX +_32 1` (10_state.md R46). -/
def countFrameRx (s : State) : State := s.setCounters { s.counters with framesRx := s.counters.framesRx + 1 }

end State

/-- The reset values of every element of the spec's state (70_reset_and_hazards.md R391), with the model's own fields
as given: the reset input leaves the environment, the parameters and the host alone (R390; log 3). The byte arrays
list nothing (log 6). -/
def resetCore (params : Params) (host : HostPort) (env : Environment) : State where
  coreState := .uninit
  cfg := ⟨0, 0, 0, 0, 0, 0, 0, 0⟩
  err := 0
  counters := ⟨0, 0, 0, 0, 0, 0, 0⟩
  txb := ⟨[], 0, 0⟩
  rxb := ⟨[], 0, 0⟩
  tx := ⟨[], 0, .idle, 0, 0⟩
  rx := ⟨.start, .searching, 0, 0⟩
  arb := ⟨.idle, .idle, false, 0⟩
  params := params
  host := host
  env := env

/-- The machine right after reset, at the start of a run: nothing presented, nothing answered, no answer foretold, an
empty trace (log 1, log 4, log 10), the parameters of the implementation (log 5). -/
def State.reset : State :=
  resetCore ⟨Config.frameMax, Config.txbDepthMax, Config.rxbDepthMax⟩ ⟨[], []⟩ ⟨[], [], [], 0, []⟩

end Sys2Proof.Machine
end

