-- ==== Sys2Proof/Machine/Flags.lean ====
section
/-! DEFINITION. The ERR bits, their counters and the STATUS view (10_state.md R40, R45, R46; 60_exceptions.md R353 to
R363). The CORE has no condition codes (10_state.md R58). -/

namespace Sys2Proof.Machine

/-- The error causes (60_exceptions.md R363). -/
inductive Cause where
  | beginFail | badConfig | txOverrun | rxOverrun | linkTimeout | modeTimeout | drainTimeout | syncLoss
  | illegalCmd | csrErr
  deriving DecidableEq, Repr

/-- The code of a cause is its ERR bit (10_state.md R45). -/
def Cause.code : Cause → Nat
  | .beginFail => 0
  | .badConfig => 1
  | .txOverrun => 2
  | .rxOverrun => 3
  | .linkTimeout => 4
  | .modeTimeout => 5
  | .drainTimeout => 6
  | .syncLoss => 7
  | .illegalCmd => 8
  | .csrErr => 9

/-- The ERR register with only the bit of a cause set. -/
def Cause.mask (c : Cause) : BitVec 10 := 1#10 <<< c.code

/-- The counters after one event of a cause: its counter, where it has one, plus 1 modulo 2^32 (10_state.md R46,
60_exceptions.md R363). -/
def Cause.count (c : Cause) (k : Counters) : Counters :=
  match c with
  | .txOverrun => { k with ovrTx := k.ovrTx + 1 }
  | .rxOverrun => { k with ovrRx := k.ovrRx + 1 }
  | .linkTimeout => { k with linkTo := k.linkTo + 1 }
  | .modeTimeout => { k with hwTo := k.hwTo + 1 }
  | .drainTimeout => { k with hwTo := k.hwTo + 1 }
  | .syncLoss => { k with syncLoss := k.syncLoss + 1 }
  | .beginFail => k
  | .badConfig => k
  | .illegalCmd => k
  | .csrErr => k

/-- The bits of ERR a write of 1 clears: bits 2 to 9 (45_host_commands.md R321). -/
def errClearable : Word := 0x000003FC

/-- ERR after a write of `v` (45_host_commands.md R321: W1C). -/
def errAfterWrite (err : BitVec 10) (v : Word) : BitVec 10 :=
  err &&& ~~~((v &&& errClearable).setWidth 10)

/-- ERR as a register: bits [31:10] read 0 (10_state.md R45). -/
def errWord (err : BitVec 10) : Word := err.setWidth 32

/-- The encoding of `core_state` (10_state.md R23). -/
def CoreState.bits : CoreState → BitVec 2
  | .uninit => 0
  | .run => 1
  | .failed => 2

/-- The encoding of a mode (10_state.md R55). -/
def RadioMode.bits : RadioMode → BitVec 2
  | .idle => 0
  | .rx => 1
  | .tx => 2

/-- The encoding of `tx_state` (10_state.md R53). -/
def TxState.bits : TxState → BitVec 2
  | .idle => 0
  | .waitMode => 1
  | .send => 2
  | .drain => 3

/-- The encoding of `rx_phase` (10_state.md R54). -/
def RxPhase.bits : RxPhase → BitVec 2
  | .start => 0
  | .waitMode => 1
  | .active => 2
  | .cycleIdle => 3

/-- The encoding of `sync` (10_state.md R56). -/
def SyncState.bits : SyncState → BitVec 2
  | .searching => 0
  | .firstByteMatched => 1
  | .locked => 2

/-- STATUS, a view of internal state (10_state.md R40): fields from bit 31 down to bit 0. -/
def statusWord (s : State) : Word :=
  0#18 ++ s.rx.sync.bits ++ s.rx.phase.bits ++ s.tx.state.bits ++ 0#1 ++ BitVec.ofBool s.arb.pending
    ++ s.arb.req.bits ++ s.arb.cur.bits ++ s.coreState.bits

end Sys2Proof.Machine
end

