-- ==== Sys2Proof/Machine/Operands.lean ====
section
/-! DEFINITION. What commands and rules read: the configuration fields (10_state.md R30 to R37), the two buffers by
name (R51), and the CSR an address names (R39). -/

namespace Sys2Proof.Machine

/-- `ROLE` (10_state.md R37). -/
inductive Role where
  | tx | rx
  deriving DecidableEq, Repr

/-- `POLICY` (10_state.md R37). -/
inductive Policy where
  | reject | dropNew | dropOld | reserved
  deriving DecidableEq, Repr

/-- The overrun policy a 2-bit field names (10_state.md R37). -/
def Policy.ofBits (b : BitVec 2) : Policy :=
  if b = 0 then .reject else if b = 1 then .dropNew else if b = 2 then .dropOld else .reserved

namespace ConfigRegs

/-- `N`, the payload size (10_state.md R30). -/
def n (c : ConfigRegs) : Count := c.frameSize.extractLsb' 0 24

/-- `SYNC0`, marker byte 0, first on the wire (10_state.md R31). -/
def sync0 (c : ConfigRegs) : Byte := c.sync.extractLsb' 0 8

/-- `SYNC1`, marker byte 1 (10_state.md R31). -/
def sync1 (c : ConfigRegs) : Byte := c.sync.extractLsb' 8 8

/-- `CAP_TX` (10_state.md R35). -/
def capTxBytes (c : ConfigRegs) : Count := c.capTx.extractLsb' 0 24

/-- `CAP_RX` (10_state.md R36). -/
def capRxBytes (c : ConfigRegs) : Count := c.capRx.extractLsb' 0 24

/-- `ROLE` (10_state.md R37). -/
def role (c : ConfigRegs) : Role := if c.ctrl.getLsbD 0 then .rx else .tx

/-- `POLICY` (10_state.md R37). -/
def policy (c : ConfigRegs) : Policy := .ofBits (c.ctrl.extractLsb' 1 2)

/-- `RX_IDLE_CYCLE` (10_state.md R37). -/
def rxIdleCycle (c : ConfigRegs) : Bool := c.ctrl.getLsbD 3

/-- `PAD` (10_state.md R37). -/
def pad (c : ConfigRegs) : Byte := c.ctrl.extractLsb' 8 8

end ConfigRegs

/-- One of the two StreamBuffer instances (10_state.md R51). -/
inductive Buf where
  | txb | rxb
  deriving DecidableEq, Repr

/-- The buffer's record. -/
def State.buf (s : State) : Buf → StreamBuffer
  | .txb => s.txb
  | .rxb => s.rxb

/-- `s` with another record for the buffer. -/
def State.setBuf (s : State) (b : Buf) (x : StreamBuffer) : State :=
  match b with
  | .txb => s.setTxb x
  | .rxb => s.setRxb x

/-- `B.capacity` (10_state.md R50). -/
def State.capacity (s : State) : Buf → Count
  | .txb => s.cfg.capTxBytes
  | .rxb => s.cfg.capRxBytes

/-- The size of the buffer's data array (10_state.md R51). -/
def State.depthMax (s : State) : Buf → Count
  | .txb => s.params.txbDepthMax
  | .rxb => s.params.rxbDepthMax

/-- `OVR(B)`, the overrun cause of a buffer (40_streambuffer.md, introduction). -/
def Buf.overrun : Buf → Cause
  | .txb => .txOverrun
  | .rxb => .rxOverrun

/-- The assigned CSRs (10_state.md R39). -/
inductive Csr where
  | cfgFrameSize | cfgSync | cfgFlushTo | cfgLinkTo | cfgHwWaitTo | cfgCapTx | cfgCapRx | cfgCtrl
  | status | txPending | rxPending | txPos | rxRemaining | err
  | framesTx | framesRx | ovrTxCnt | ovrRxCnt | linkToCnt | syncLossCnt | hwToCnt
  deriving DecidableEq, Repr

/-- Every assigned CSR, in address order. -/
def Csr.all : List Csr :=
  [.cfgFrameSize, .cfgSync, .cfgFlushTo, .cfgLinkTo, .cfgHwWaitTo, .cfgCapTx, .cfgCapRx, .cfgCtrl,
   .status, .txPending, .rxPending, .txPos, .rxRemaining, .err,
   .framesTx, .framesRx, .ovrTxCnt, .ovrRxCnt, .linkToCnt, .syncLossCnt, .hwToCnt]

/-- The address of a CSR (10_state.md R39). -/
def Csr.addr : Csr → CsrAddr
  | .cfgFrameSize => 0x00
  | .cfgSync => 0x01
  | .cfgFlushTo => 0x02
  | .cfgLinkTo => 0x03
  | .cfgHwWaitTo => 0x04
  | .cfgCapTx => 0x05
  | .cfgCapRx => 0x06
  | .cfgCtrl => 0x07
  | .status => 0x10
  | .txPending => 0x11
  | .rxPending => 0x12
  | .txPos => 0x13
  | .rxRemaining => 0x14
  | .err => 0x15
  | .framesTx => 0x18
  | .framesRx => 0x19
  | .ovrTxCnt => 0x1A
  | .ovrRxCnt => 0x1B
  | .linkToCnt => 0x1C
  | .syncLossCnt => 0x1D
  | .hwToCnt => 0x1E

/-- The CSR an address names; `none` for an unassigned address (10_state.md R39). -/
def Csr.ofAddr (a : CsrAddr) : Option Csr := Csr.all.find? (fun c => c.addr == a)

/-- The writable bits of a configuration register; 0 for every other register (45_host_commands.md R321). -/
def Csr.wmask : Csr → Word
  | .cfgFrameSize => 0x00FFFFFF
  | .cfgSync => 0x0000FFFF
  | .cfgFlushTo => 0xFFFFFFFF
  | .cfgLinkTo => 0xFFFFFFFF
  | .cfgHwWaitTo => 0xFFFFFFFF
  | .cfgCapTx => 0x00FFFFFF
  | .cfgCapRx => 0x00FFFFFF
  | .cfgCtrl => 0x0000FF0F
  | .status => 0
  | .txPending => 0
  | .rxPending => 0
  | .txPos => 0
  | .rxRemaining => 0
  | .err => 0
  | .framesTx => 0
  | .framesRx => 0
  | .ovrTxCnt => 0
  | .ovrRxCnt => 0
  | .linkToCnt => 0
  | .syncLossCnt => 0
  | .hwToCnt => 0

/-- Is this one of the configuration registers 0x00 to 0x07? -/
def Csr.isConfig (c : Csr) : Bool := decide (c.addr.toNat ≤ 0x07)

end Sys2Proof.Machine
end

