-- ==== Sys2Proof/Machine/Ops.lean ====
section
/-! DEFINITION. The shared operations: sequencing, the environment's queries and actions (00_scope.md R10), the byte
arrays (20_memory.md R80), `raise` (60_exceptions.md R352), responses (45_host_commands.md R300), time (10_state.md
R66) and CSR access (10_state.md R39 to R47). -/

namespace Sys2Proof.Machine

/-- The outcome of a rule that answers `α`. -/
abbrev Result (α : Type) := Host.Outcome α Fault Refusal

/-- Run `f` after `x`, unless `x` stopped the machine (00_scope.md R11). -/
def andThen {α β : Type} (x : Result α) (f : α → Result β) : Result β :=
  match x with
  | .next a => f a
  | .fault r => .fault r
  | .refused r => .refused r

/-! ### The environment -/

/-- The answer to the next yes/no query: the one foretold, or a free value (20_memory.md R94; log 4). -/
def Environment.flag (e : Environment) : Bool :=
  match e.flags with
  | b :: _ => b
  | [] => Config.freeFlag e.drawn

/-- The environment once that answer is given. -/
def Environment.afterFlag (e : Environment) : Environment :=
  match e.flags with
  | _ :: rest => { e with flags := rest }
  | [] => { e with drawn := e.drawn + 1 }

/-- The answer to the next query for a byte (20_memory.md R94; log 4). -/
def Environment.byte (e : Environment) : Byte :=
  match e.bytes with
  | b :: _ => b
  | [] => Config.freeByte e.drawn

/-- The environment once that answer is given. -/
def Environment.afterByte (e : Environment) : Environment :=
  match e.bytes with
  | _ :: rest => { e with bytes := rest }
  | [] => { e with drawn := e.drawn + 1 }

/-- The answer to the next `ask.time.now` (20_memory.md R94; log 4). -/
def Environment.time (e : Environment) : Word :=
  match e.times with
  | t :: _ => t
  | [] => Config.freeTime e.drawn

/-- The environment once that answer is given. -/
def Environment.afterTime (e : Environment) : Environment :=
  match e.times with
  | _ :: rest => { e with times := rest }
  | [] => { e with drawn := e.drawn + 1 }

/-- One more event at the end of the trace (20_memory.md R86). -/
def Environment.record (e : Environment) (ev : Event) : Environment :=
  { e with trace := e.trace ++ [ev] }

/-- A yes/no query: the answer, and the state with the event recorded. -/
def askFlag (event : Bool → Event) (s : State) : Bool × State :=
  (s.env.flag, s.setEnv (s.env.afterFlag.record (event s.env.flag)))

/-- A query for a byte. -/
def askByte (event : Byte → Event) (s : State) : Byte × State :=
  (s.env.byte, s.setEnv (s.env.afterByte.record (event s.env.byte)))

/-- An action of the CORE on its environment. -/
def act (event : Event) (s : State) : State := s.setEnv (s.env.record event)

/-- `ask.time.now()` (10_state.md R66). -/
def askNow (s : State) : Word × State :=
  (s.env.time, s.setEnv (s.env.afterTime.record (.timeNow s.env.time)))

/-- `ask.src.valid()` (10_state.md R64). -/
def askSrcValid (s : State) : Bool × State := askFlag .srcValid s

/-- `ask.src.data()` (10_state.md R64). -/
def askSrcData (s : State) : Byte × State := askByte .srcData s

/-- `do.src.take()` (10_state.md R64). -/
def doSrcTake (s : State) : State := act .srcTake s

/-- `do.src.overrun()` (10_state.md R64). -/
def doSrcOverrun (s : State) : State := act .srcOverrun s

/-- `ask.sink.ready()` (10_state.md R65). -/
def askSinkReady (s : State) : Bool × State := askFlag .sinkReady s

/-- `do.sink.write(b)` (10_state.md R65). -/
def doSinkWrite (b : Byte) (s : State) : State := act (.sinkWrite b) s

/-- `ask.radio.begin()` (10_state.md R60). -/
def askRadioBegin (s : State) : Bool × State := askFlag .radioBegin s

/-- `ask.radio.fifo_full()` (10_state.md R61). -/
def askFifoFull (s : State) : Bool × State := askFlag .radioFifoFull s

/-- `ask.radio.fifo_not_empty()` (10_state.md R61). -/
def askFifoNotEmpty (s : State) : Bool × State := askFlag .radioFifoNotEmpty s

/-- `ask.radio.read()`, that is `transfer(DUMMY_BYTE)` (10_state.md R60). -/
def askRadioRead (s : State) : Byte × State := askByte (.radioRead Config.dummyByte) s

/-- `ask.radio.mode_ready()` (10_state.md R62). -/
def askModeReady (s : State) : Bool × State := askFlag .radioModeReady s

/-- `ask.radio.tx_done()` (10_state.md R63). -/
def askTxDone (s : State) : Bool × State := askFlag .radioTxDone s

/-- `do.radio.set_mode(m)` (10_state.md R60). -/
def doSetMode (m : RadioMode) (s : State) : State := act (.radioSetMode m) s

/-- `do.radio.write(b)` (10_state.md R60). -/
def doRadioWrite (b : Byte) (s : State) : State := act (.radioWrite b) s

/-! ### The byte arrays -/

/-- What an offset that nothing has written reads as: the contents after reset are unspecified and no rule reads them
(70_reset_and_hazards.md R391). DESIGN CHOICE, unsafe: log 6. -/
def unlistedByte : Byte := 0x00

/-- The byte at an offset. -/
def Memory.read : Memory → Nat → Byte
  | [], _ => unlistedByte
  | (a, v) :: rest, k => if a = k then v else Memory.read rest k

/-- A cell put in its place among cells with other offsets. -/
def Memory.place (k : Nat) (v : Byte) : Memory → Memory
  | [] => [(k, v)]
  | (a, w) :: rest => if k < a then (k, v) :: (a, w) :: rest else (a, w) :: Memory.place k v rest

/-- The array with `v` at offset `k`, in canonical form: a cell is listed only when it differs from an unlisted one. -/
def Memory.write (m : Memory) (k : Nat) (v : Byte) : Memory :=
  let others := m.filter (fun c => c.1 != k)
  if v = unlistedByte then others else Memory.place k v others

/-- The canonical form: offsets strictly rising, and no cell equal to an unlisted one. -/
def Memory.wf : Memory → Bool
  | [] => true
  | c :: rest => c.2 != unlistedByte && rest.all (fun d => decide (c.1 < d.1)) && Memory.wf rest

/-- `data[at + i] <- l[i]` for every `i`, in rising order. -/
def Memory.writeBytes (m : Memory) (at' : Nat) : List Byte → Memory
  | [] => m
  | b :: rest => Memory.writeBytes (m.write at' b) (at' + 1) rest

/-- `data[i] <- data[i + n]` for the `count` offsets from `i` on, in rising order (40_streambuffer.md R143). -/
def Memory.shiftDown (n : Nat) : Nat → Nat → Memory → Memory
  | 0, _, m => m
  | count + 1, i, m => Memory.shiftDown n count (i + 1) (m.write i (m.read (i + n)))

/-- `[data[0], ..., data[n-1]]`. -/
def Memory.prefixBytes (m : Memory) (n : Nat) : List Byte := (List.range n).map m.read

/-! ### Errors, responses, time -/

/-- `raise E` (60_exceptions.md R352): set the bit, count the event, go on. This is all there is of taking an
exception: nothing is saved and control goes nowhere (R350, R365), and there is no return (R366). -/
def raise (c : Cause) (s : State) : State :=
  (s.setErr (s.err ||| c.mask)).setCounters (c.count s.counters)

/-- Return a response (45_host_commands.md R300). -/
def respond (status : Status) (data : Word) (s : State) : State :=
  s.setHost { s.host with responses := s.host.responses ++ [⟨status, data⟩] }

/-- `elapsed(now, t) = now -_32 t` (00_scope.md R9, 10_state.md R66). -/
def elapsed (now t : Word) : Word := now - t

/-- Has a timer that 0 disables expired? (60_exceptions.md R371) -/
def timedOut (timeout now start : Word) : Bool :=
  decide (timeout ≠ 0 ∧ timeout ≤ elapsed now start)

/-! ### CSR access -/

/-- The value a CSR reads as (45_host_commands.md R316): reserved bits read 0 (10_state.md R47; log 9). -/
def readCsr (s : State) : Csr → Word
  | .cfgFrameSize => s.cfg.frameSize &&& Csr.wmask .cfgFrameSize
  | .cfgSync => s.cfg.sync &&& Csr.wmask .cfgSync
  | .cfgFlushTo => s.cfg.flushTo &&& Csr.wmask .cfgFlushTo
  | .cfgLinkTo => s.cfg.linkTo &&& Csr.wmask .cfgLinkTo
  | .cfgHwWaitTo => s.cfg.hwWaitTo &&& Csr.wmask .cfgHwWaitTo
  | .cfgCapTx => s.cfg.capTx &&& Csr.wmask .cfgCapTx
  | .cfgCapRx => s.cfg.capRx &&& Csr.wmask .cfgCapRx
  | .cfgCtrl => s.cfg.ctrl &&& Csr.wmask .cfgCtrl
  | .status => statusWord s
  | .txPending => s.txb.pending.setWidth 32
  | .rxPending => s.rxb.pending.setWidth 32
  | .txPos => s.tx.pos.setWidth 32
  | .rxRemaining => s.rx.remaining.setWidth 32
  | .err => errWord s.err
  | .framesTx => s.counters.framesTx
  | .framesRx => s.counters.framesRx
  | .ovrTxCnt => s.counters.ovrTx
  | .ovrRxCnt => s.counters.ovrRx
  | .linkToCnt => s.counters.linkTo
  | .syncLossCnt => s.counters.syncLoss
  | .hwToCnt => s.counters.hwTo

/-- `CSR[addr] <- v & WMASK[addr]` for a configuration register (45_host_commands.md R321); no effect on the
configuration for any other. -/
def ConfigRegs.write (r : ConfigRegs) (c : Csr) (v : Word) : ConfigRegs :=
  match c with
  | .cfgFrameSize => { r with frameSize := v &&& c.wmask }
  | .cfgSync => { r with sync := v &&& c.wmask }
  | .cfgFlushTo => { r with flushTo := v &&& c.wmask }
  | .cfgLinkTo => { r with linkTo := v &&& c.wmask }
  | .cfgHwWaitTo => { r with hwWaitTo := v &&& c.wmask }
  | .cfgCapTx => { r with capTx := v &&& c.wmask }
  | .cfgCapRx => { r with capRx := v &&& c.wmask }
  | .cfgCtrl => { r with ctrl := v &&& c.wmask }
  | .status => r
  | .txPending => r
  | .rxPending => r
  | .txPos => r
  | .rxRemaining => r
  | .err => r
  | .framesTx => r
  | .framesRx => r
  | .ovrTxCnt => r
  | .ovrRxCnt => r
  | .linkToCnt => r
  | .syncLossCnt => r
  | .hwToCnt => r

end Sys2Proof.Machine
end

