-- ==== Sys2Proof/Machine/ModeArbiter.lean ====
section
/-! DEFINITION. The mode arbiter (44_mode_scheduler.md, section 1). -/

namespace Sys2Proof.Machine

/-- `request_mode(m)` (44_mode_scheduler.md R270). A call with a request pending or with `m = mode_cur` is an
internal-invariant fault. -/
def requestMode (m : RadioMode) (now : Word) (s : State) : Result State :=
  if s.arb.pending = false ∧ m ≠ s.arb.cur then
    .next ((doSetMode m s).setArb { s.arb with req := m, pending := true, tReq := now })
  else .fault .modeRequestPrecondition

/-- `mode_timeout_check()` (44_mode_scheduler.md R272). -/
def modeTimeoutCheck (now : Word) (s : State) : State :=
  if timedOut s.cfg.hwWaitTo now s.arb.tReq then
    (doSetMode s.arb.req (raise .modeTimeout s)).setArb { s.arb with tReq := now }
  else s

/-- `mode_poll()`, phase (d) (44_mode_scheduler.md R271). -/
def modePoll (now : Word) (s : State) : State :=
  if s.arb.pending = true then
    let r := askModeReady s
    if r.1 = true then r.2.setArb { s.arb with cur := s.arb.req, pending := false }
    else modeTimeoutCheck now r.2
  else s

end Sys2Proof.Machine
end

