-- ==== Sys2Proof/Machine/StreamBuffer.lean ====
section
/-! DEFINITION. The StreamBuffer operations (40_streambuffer.md). -/

namespace Sys2Proof.Machine

/-- The bytes a buffer holds, oldest first: `data[0..pending-1]` (10_state.md R50). -/
def StreamBuffer.held (b : StreamBuffer) : List Byte := b.data.prefixBytes b.pending.toNat

/-- The result of `SB_append` (40_streambuffer.md R141). -/
inductive AppendResult where
  | stored | rejected | droppedNew | droppedOld
  deriving DecidableEq, Repr

/-- `SB_available(B)` (40_streambuffer.md R140). -/
def sbAvailable (b : Buf) (s : State) : Count := (s.buf b).pending

/-- The three writes of `SB_append` that put a byte at `write_pos` (40_streambuffer.md R141). -/
def sbStore (b : Buf) (x : Byte) (s : State) : Result State :=
  let r := s.buf b
  if r.writePos < s.depthMax b then
    .next (s.setBuf b ⟨r.data.write r.writePos.toNat x, r.writePos + 1, r.pending + 1⟩)
  else .fault .bufferOffset

/-- `SB_take(B, n)` (40_streambuffer.md R143): the oldest `n` bytes, and the rest moved to offset 0. A call with
`n > pending` is an internal-invariant fault (R145). -/
def sbTake (b : Buf) (n : Count) (s : State) : Result (List Byte × State) :=
  let r := s.buf b
  if r.pending < n then .fault .takeBeyondPending
  else if s.depthMax b < r.pending then .fault .bufferOffset
  else
    .next (r.data.prefixBytes n.toNat,
      s.setBuf b ⟨Memory.shiftDown n.toNat (r.pending.toNat - n.toNat) 0 r.data, r.pending - n, r.pending - n⟩)

/-- `SB_consume(B, n)` (40_streambuffer.md R144). -/
def sbConsume (b : Buf) (n : Count) (s : State) : Result State :=
  andThen (sbTake b n s) fun r => .next r.2

/-- `SB_append(B, x)` (40_streambuffer.md R141). -/
def sbAppend (b : Buf) (x : Byte) (s : State) : Result (AppendResult × State) :=
  if (s.buf b).pending < s.capacity b then
    andThen (sbStore b x s) fun t => .next (.stored, t)
  else
    let s := raise b.overrun s
    match s.cfg.policy with
    | .reject => .next (.rejected, s)
    | .dropNew => .next (.droppedNew, s)
    | .dropOld =>
      andThen (sbConsume b 1 s) fun t => andThen (sbStore b x t) fun u => .next (.droppedOld, u)
    | .reserved => .fault .reservedPolicy

/-- `SB_append_list(B, l)` (40_streambuffer.md R142), with the count and the overrun so far. No rule of the CORE
invokes it. -/
def sbAppendListFrom (b : Buf) (stored : Nat) (ovr : Bool) : List Byte → State → Result ((Nat × Bool) × State)
  | [], s => .next ((stored, ovr), s)
  | x :: rest, s =>
    andThen (sbAppend b x s) fun r =>
      if r.1 = .stored then sbAppendListFrom b (stored + 1) ovr rest r.2
      else if r.2.cfg.policy = .reject then .next ((stored, true), r.2)
      else sbAppendListFrom b stored true rest r.2

/-- `SB_append_list(B, l) -> (stored, overrun)` (40_streambuffer.md R142). -/
def sbAppendList (b : Buf) (l : List Byte) (s : State) : Result ((Nat × Bool) × State) :=
  sbAppendListFrom b 0 false l s

/-- The loop of `SB_fill_from_source` with `left = CAP_TX - taken` takes still in the STEP's budget
(40_streambuffer.md R147). -/
def sbFillLoop (now : Word) : Nat → State → Result State
  | left, s =>
    let v := askSrcValid s
    let s := v.2
    if v.1 = false then .next s
    else if s.txb.pending = s.cfg.capTxBytes ∧ s.cfg.policy = .reject then
      .next (raise .txOverrun (doSrcOverrun s))
    else
      match left with
      | 0 => .next s
      | left + 1 =>
        let d := askSrcData s
        let s := doSrcTake d.2
        let wasEmpty := decide (s.txb.pending = 0)
        andThen (sbAppend .txb d.1 s) fun r =>
          sbFillLoop now left (if wasEmpty = true ∧ r.1 = .stored then r.2.setTFill now else r.2)

/-- `SB_fill_from_source()`, the transmit-side source drain (40_streambuffer.md R147). -/
def sbFillFromSource (now : Word) (s : State) : Result State :=
  sbFillLoop now s.cfg.capTxBytes.toNat s

/-- The loop of `SB_deliver_to_sink` with at most `left` bytes held (40_streambuffer.md R148). -/
def sbDeliverLoop : Nat → State → Result State
  | 0, s => .next s
  | left + 1, s =>
    let r := askSinkReady s
    if r.1 = true then
      andThen (sbTake .rxb 1 r.2) fun t => sbDeliverLoop left (doSinkWrite (t.1.headD unlistedByte) t.2)
    else .next r.2

/-- `SB_deliver_to_sink()`, the receive-side sink delivery (40_streambuffer.md R148). -/
def sbDeliverToSink (s : State) : Result State := sbDeliverLoop s.rxb.pending.toNat s

end Sys2Proof.Machine
end

