-- ==== Sys2Proof/Machine/SyncDetector.lean ====
section
/-! DEFINITION. The SyncDetector (41_syncdetector.md). -/

namespace Sys2Proof.Machine

/-- `SD_feed(s, b) -> (s', lost)` with the marker `sync0, sync1` (41_syncdetector.md R170). Locked is never fed
(R173); no byte moves the detector out of it (90_conflicts.md C11; log 12). -/
def sdFeed (sync0 sync1 : Byte) (st : SyncState) (b : Byte) : SyncState × Bool :=
  match st with
  | .searching => if b = sync0 then (.firstByteMatched, false) else (.searching, false)
  | .firstByteMatched =>
    if b = sync1 then (.locked, false)
    else if b = sync0 then (.firstByteMatched, true)
    else (.searching, true)
  | .locked => (.locked, false)

/-- `SD_reset()` (41_syncdetector.md R174). -/
def sdReset (s : State) : State := s.setSync .searching

end Sys2Proof.Machine
end

