-- ==== Sys2Proof/Machine/RxDeframer.lean ====
section
/-! DEFINITION. The RxDeframer, phase (c) (43_rxdeframer.md). -/

namespace Sys2Proof.Machine

/-- `request_mode(m)` and then `rx_phase <- p`. -/
def requestAndEnter (m : RadioMode) (p : RxPhase) (now : Word) (s : State) : Result State :=
  andThen (requestMode m now s) fun t => .next (t.setRxPhase p)

/-- `RX_start()` (43_rxdeframer.md R231). -/
def rxStart (now : Word) (s : State) : Result State :=
  if s.arb.pending = false then requestAndEnter .rx .waitMode now s else .next s

/-- The part of `RX_sync_feed` after a byte is read: the detector fed with it (43_rxdeframer.md R234). -/
def rxFeed (b : Byte) (s : State) : State :=
  let d := sdFeed s.cfg.sync0 s.cfg.sync1 s.rx.sync b
  let s := s.setSync d.1
  let s := if d.2 = true then raise .syncLoss s else s
  if d.1 = .locked then s.setRemaining s.cfg.n else s

/-- `RX_sync_feed()` (43_rxdeframer.md R234). -/
def rxSyncFeed (s : State) : State :=
  let q := askFifoNotEmpty s
  if q.1 = true then
    let r := askRadioRead q.2
    rxFeed r.1 r.2
  else q.2

/-- `RX_accept(b)` (43_rxdeframer.md R236). -/
def rxAccept (b : Byte) (s : State) : Result State :=
  andThen (sbAppend .rxb b s) fun r => sbDeliverToSink r.2

/-- `RX_frame_complete()` (43_rxdeframer.md R237). -/
def rxFrameComplete (now : Word) (s : State) : Result State :=
  let s := (sdReset s.countFrameRx).setTLink now
  if s.cfg.rxIdleCycle = true then requestAndEnter .idle .cycleIdle now s else .next s

/-- The loop of `RX_payload_loop` with `left = remaining` bytes of the frame still to be read (43_rxdeframer.md
R235). -/
def rxPayloadLoop (now : Word) : Nat → State → Result State
  | 0, s => .next s
  | left + 1, s =>
    let q := askFifoNotEmpty s
    if q.1 = true then
      let r := askRadioRead q.2
      andThen (rxAccept r.1 (r.2.setRemaining (r.2.rx.remaining - 1))) fun t =>
        if t.rx.remaining = 0 then rxFrameComplete now t else rxPayloadLoop now left t
    else .next q.2

/-- `RX_payload_loop()` (43_rxdeframer.md R235). -/
def rxPayload (now : Word) (s : State) : Result State := rxPayloadLoop now s.rx.remaining.toNat s

/-- `RX_active()` (43_rxdeframer.md R233). -/
def rxActive (now : Word) (s : State) : Result State :=
  let s := if s.rx.sync ≠ .locked then rxSyncFeed s else s
  if s.rx.sync = .locked then rxPayload now s else .next s

/-- `RX_wait_mode()` (43_rxdeframer.md R232). -/
def rxWaitMode (now : Word) (s : State) : Result State :=
  if s.arb.pending = false ∧ s.arb.cur = .rx then rxActive now (s.setRxPhase .active)
  else .next s

/-- `RX_cycle_idle()` (43_rxdeframer.md R238). -/
def rxCycleIdle (now : Word) (s : State) : Result State :=
  if s.arb.pending = false ∧ s.arb.cur = .idle then requestAndEnter .rx .waitMode now s else .next s

/-- `RX_link_check()` (43_rxdeframer.md R240). -/
def rxLinkCheck (now : Word) (s : State) : Result State :=
  if timedOut s.cfg.linkTo now s.rx.tLink then
    let s := ((sdReset (raise .linkTimeout s)).setRemaining 0).setTLink now
    if s.cfg.rxIdleCycle = true ∧ s.rx.phase = .active then requestAndEnter .idle .cycleIdle now s else .next s
  else .next s

/-- The arm of `RX_step` for the current `rx_phase` (43_rxdeframer.md R230). -/
def rxPhaseArm (now : Word) (s : State) : Result State :=
  match s.rx.phase with
  | .start => rxStart now s
  | .waitMode => rxWaitMode now s
  | .active => rxActive now s
  | .cycleIdle => rxCycleIdle now s

/-- `RX_step()`, phase (c) (43_rxdeframer.md R230). -/
def rxStep (now : Word) (s : State) : Result State :=
  andThen (rxPhaseArm now s) fun t => rxLinkCheck now t

end Sys2Proof.Machine
end

