-- ==== Sys2Proof/Machine/TxFramer.lean ====
section
/-! DEFINITION. The TxFramer, phase (b) (42_txframer.md). -/

namespace Sys2Proof.Machine

/-- `frame_due()` (42_txframer.md R191). -/
def frameDue (now : Word) (s : State) : Bool :=
  decide (s.cfg.n ≤ s.txb.pending ∨ (0 < s.txb.pending ∧ s.cfg.flushTo ≤ elapsed now s.tx.tFill))

/-- `commit_frame()` (42_txframer.md R192). -/
def commitFrame (s : State) : Result State :=
  let k := if s.txb.pending < s.cfg.n then s.txb.pending else s.cfg.n
  andThen (sbTake .txb k s) fun r =>
    if r.2.params.frameMax < r.2.cfg.n then .fault .frameOffset
    else
      let padding := List.replicate (r.2.cfg.n.toNat - k.toNat) r.2.cfg.pad
      .next ((r.2.setTxPayload (r.2.tx.payload.writeBytes 0 (r.1 ++ padding))).setTxPos 0)

/-- The position after the last wire byte, `N + 2` (10_state.md R52). -/
def wireEnd (s : State) : Pos := s.cfg.n.setWidth 25 + 2

/-- `wire(i)` at `i = tx_pos` (10_state.md R52). -/
def wireByte (s : State) : Result Byte :=
  let i := s.tx.pos.toNat
  if i = 0 then .next s.cfg.sync0
  else if i = 1 then .next s.cfg.sync1
  else if i ≤ s.cfg.n.toNat + 1 ∧ i - 2 < s.params.frameMax.toNat then .next (s.tx.payload.read (i - 2))
  else .fault .frameOffset

/-- `frame_complete()` (42_txframer.md R194); the flag says whether `TX_send_loop` continues. -/
def frameComplete (now : Word) (s : State) : Result (Bool × State) :=
  let s := s.countFrameTx
  if s.cfg.n ≤ s.txb.pending then andThen (commitFrame s) fun t => .next (true, t)
  else .next (false, (s.setTxState .drain).setTWait now)

/-- `TX_send_loop()` with a bound on its passes (42_txframer.md R193). The bound is the rule's own and is never
reached (log 8). -/
def txSendLoop (now : Word) : Nat → State → Result State
  | 0, _ => .fault .sendLoopBound
  | passes + 1, s =>
    let f := askFifoFull s
    if f.1 = true then .next f.2
    else
      andThen (wireByte f.2) fun b =>
        let s := (doRadioWrite b f.2).setTxPos (f.2.tx.pos + 1)
        if s.tx.pos = wireEnd s then
          andThen (frameComplete now s) fun r => if r.1 = true then txSendLoop now passes r.2 else .next r.2
        else txSendLoop now passes s

/-- The most `fifo_full` queries one run of `TX_send_loop` makes: `(N + 2) * (1 + floor(TXB.pending / N))` writes and
one query more (42_txframer.md R193, 44_mode_scheduler.md R287). -/
def txSendBound (s : State) : Nat :=
  (s.cfg.n.toNat + 2) * (1 + s.txb.pending.toNat / s.cfg.n.toNat) + 1

/-- `TX_send_loop()` (42_txframer.md R193). -/
def txSend (now : Word) (s : State) : Result State := txSendLoop now (txSendBound s) s

/-- `TX_idle()` (42_txframer.md R191). -/
def txIdle (now : Word) (s : State) : Result State :=
  if s.arb.pending = false ∧ frameDue now s = true then
    andThen (commitFrame s) fun t =>
      andThen (requestMode .tx now t) fun u => .next (u.setTxState .waitMode)
  else .next s

/-- `TX_wait_mode()` (42_txframer.md R196). -/
def txWaitMode (now : Word) (s : State) : Result State :=
  if s.arb.pending = false ∧ s.arb.cur = .tx then txSend now (s.setTxState .send)
  else .next s

/-- `TX_drain_poll()` (42_txframer.md R195). -/
def txDrainPoll (now : Word) (s : State) : Result State :=
  let d := askTxDone s
  let s := d.2
  if d.1 = true then
    andThen (requestMode .idle now s) fun t => .next (t.setTxState .idle)
  else if timedOut s.cfg.hwWaitTo now s.tx.tWait then
    andThen (requestMode .idle now (raise .drainTimeout s)) fun t => .next (t.setTxState .idle)
  else .next s

/-- `TX_step()`, phase (b) (42_txframer.md R190). -/
def txStep (now : Word) (s : State) : Result State :=
  match s.tx.state with
  | .idle => txIdle now s
  | .waitMode => txWaitMode now s
  | .send => txSend now s
  | .drain => txDrainPoll now s

end Sys2Proof.Machine
end

