-- ==== Sys2Proof/Machine/Scheduler.lean ====
section
/-! DEFINITION. One scheduler iteration (44_mode_scheduler.md, section 2). -/

namespace Sys2Proof.Machine

/-- Phase (a), source drain or sink delivery (44_mode_scheduler.md R280). -/
def phaseA (now : Word) (s : State) : Result State :=
  if s.cfg.role = .tx then sbFillFromSource now s else sbDeliverToSink s

/-- Phase (b), the TxFramer step, for a transmitter only (44_mode_scheduler.md R281). -/
def phaseB (now : Word) (s : State) : Result State :=
  if s.cfg.role = .tx then txStep now s else .next s

/-- Phase (c), the RxDeframer step, for a receiver only (44_mode_scheduler.md R281). -/
def phaseC (now : Word) (s : State) : Result State :=
  if s.cfg.role = .rx then rxStep now s else .next s

/-- `scheduler_iteration()` (44_mode_scheduler.md R283). -/
def schedulerIteration (s : State) : Result State :=
  let t := askNow s
  andThen (phaseA t.1 t.2) fun s =>
    andThen (phaseB t.1 s) fun s =>
      andThen (phaseC t.1 s) fun s => .next (modePoll t.1 s)

end Sys2Proof.Machine
end

