-- ==== Sys2Proof/Machine/HostCommands.lean ====
section
/-! DEFINITION. The meanings of the six commands, of an illegal word and of the reset input (45_host_commands.md,
30_encoding.md R116, 70_reset_and_hazards.md R390). -/

namespace Sys2Proof.Machine

/-- The `core_state` values a command is permitted in (45_host_commands.md R302). -/
def permitted (i : Instr) (c : CoreState) : Bool :=
  match i with
  | .nop => true
  | .begin => decide (c = .uninit)
  | .step => decide (c = .run)
  | .csrRead _ => true
  | .csrWrite _ _ => true
  | .rxCancel => decide (c = .run)

/-- A wrong-state command: no state change, no event, `{ERR, 0}` (45_host_commands.md R302). -/
def wrongState (s : State) : Result State := .next (respond .err 0 s)

/-- `config_legal()` (45_host_commands.md R307). -/
def configLegal (s : State) : Bool :=
  decide (1 ≤ s.cfg.n ∧ s.cfg.n ≤ s.params.frameMax)
    && decide (s.cfg.policy ≠ .reserved)
    && (decide (s.cfg.role ≠ .tx) || decide (s.cfg.n ≤ s.cfg.capTxBytes ∧ s.cfg.capTxBytes ≤ s.params.txbDepthMax))
    && (decide (s.cfg.role ≠ .rx) || decide (1 ≤ s.cfg.capRxBytes ∧ s.cfg.capRxBytes ≤ s.params.rxbDepthMax))

/-- NOP (45_host_commands.md R303). -/
def execNop (s : State) : Result State :=
  if permitted .nop s.coreState then .next (respond .ok 0 s) else wrongState s

/-- A failed BEGIN: the cause recorded, FAILED, `{ERR, 0}` (45_host_commands.md R306, 60_exceptions.md R367). -/
def beginFailed (c : Cause) (s : State) : State := respond .err 0 ((raise c s).setCoreState .failed)

/-- BEGIN (45_host_commands.md R306). -/
def execBegin (s : State) : Result State :=
  if permitted .begin s.coreState then
    let t := askNow s
    let s := t.2
    if configLegal s then
      let b := askRadioBegin s
      let s := b.2
      if b.1 = true then
        .next (respond .ok 0 ((s.setTLink t.1).setCoreState .run))
      else .next (beginFailed .beginFail s)
    else .next (beginFailed .badConfig s)
  else wrongState s

/-- STEP (45_host_commands.md R310). -/
def execStep (s : State) : Result State :=
  if permitted .step s.coreState then
    andThen (schedulerIteration s) fun t => .next (respond .ok 0 t)
  else wrongState s

/-- A CSR access that fails: CSR_ERR and `{ERR, 0}` (45_host_commands.md R317, R322). -/
def csrFailure (s : State) : Result State := .next (respond .err 0 (raise .csrErr s))

/-- CSR_READ (45_host_commands.md R316, R317). -/
def execCsrRead (addr : CsrAddr) (s : State) : Result State :=
  if permitted (.csrRead addr) s.coreState then
    match Csr.ofAddr addr with
    | some c => .next (respond .ok (readCsr s c) s)
    | none => csrFailure s
  else wrongState s

/-- CSR_WRITE (45_host_commands.md R321, R322). -/
def execCsrWrite (addr : CsrAddr) (value : Word) (s : State) : Result State :=
  if permitted (.csrWrite addr value) s.coreState then
    match Csr.ofAddr addr with
    | some c =>
      if c.isConfig then
        if s.coreState = .uninit then .next (respond .ok 0 (s.setCfg (s.cfg.write c value)))
        else csrFailure s
      else if c = .err then .next (respond .ok 0 (s.setErr (errAfterWrite s.err value)))
      else csrFailure s
    | none => csrFailure s
  else wrongState s

/-- RX_CANCEL (45_host_commands.md R327). -/
def execRxCancel (s : State) : Result State :=
  if permitted .rxCancel s.coreState then
    .next (respond .ok 0 ((sdReset s).setRemaining 0))
  else wrongState s

/-- An illegal command word: ILLEGAL_CMD and `{ERR, 0}` (30_encoding.md R116, 45_host_commands.md R301). -/
def execIllegal (s : State) : Result State := .next (respond .err 0 (raise .illegalCmd s))

/-- The reset input, asserted between two commands: every element of the spec's state to its reset value, no port
event, no response (70_reset_and_hazards.md R390; log 3). -/
def applyReset (s : State) : State := resetCore s.params s.host s.env

/-- The next thing the host presents, and the state with it taken from the list; `none` when nothing is presented. -/
def nextInput (s : State) : Option (HostInput × State) :=
  match s.host.inputs with
  | [] => none
  | x :: rest => some (x, s.setHost { s.host with inputs := rest })

/-- The state with a command word presented before anything else the host presents. -/
def present (w : CommandWord) (s : State) : State :=
  s.setHost { s.host with inputs := .command w :: s.host.inputs }

end Sys2Proof.Machine
end

