-- ==== Sys2Proof/Machine/Dispatch.lean ====
section
/-! DEFINITION. The command's rule, one arm per command (45_host_commands.md R301). -/

namespace Sys2Proof.Machine

def exec (i : Instr) (s : State) : Host.Outcome State Fault Refusal :=
  match i with
  | .nop => Sys2Proof.Machine.execNop s
  | .begin => Sys2Proof.Machine.execBegin s
  | .step => Sys2Proof.Machine.execStep s
  | .csrRead addr => Sys2Proof.Machine.execCsrRead addr s
  | .csrWrite addr value => Sys2Proof.Machine.execCsrWrite addr value s
  | .rxCancel => Sys2Proof.Machine.execRxCancel s

end Sys2Proof.Machine
end

