-- ==== Sys2Proof/Machine/Step.lean ====
section
/-! DEFINITION. One step: the next thing the host presents, executed to completion (45_host_commands.md R301). -/

namespace Sys2Proof.Machine

/-- One step of the machine. A command word is decoded and executed (45_host_commands.md R301); the reset input resets
(70_reset_and_hazards.md R390); with nothing presented the CORE "holds its state and does nothing" (60_exceptions.md
R376; log 2). -/
def step (s : State) : Host.Outcome State Fault Refusal :=
  match nextInput s with
  | none => .next s
  | some (.reset, t) => .next (applyReset t)
  | some (.command w, t) =>
    match decode w with
    | .command i => exec i t
    | .illegal _ => execIllegal t

/-- `s` with a command word presented, so that the very next step executes it (log 1). -/
def State.withFetchWord (s : State) (nbits w : Nat) : State :=
  present (BitVec.ofNat 64 (w % 2 ^ nbits)) s

end Sys2Proof.Machine
end

