-- ==== Sys2Proof/Machine/Assembler.lean ====
section
/-! DEFINITION. The assembler (30_encoding.md R117, R118): text to command words. It is outside the CORE, which never sees
a line in error. What R117 leaves open is log 14. -/

namespace Sys2Proof.Machine

/-- The name of a CSR (10_state.md R39), in lower case: names are case-insensitive (30_encoding.md R117). -/
def Csr.name : Csr → String
  | .cfgFrameSize => "cfg_frame_size"
  | .cfgSync => "cfg_sync"
  | .cfgFlushTo => "cfg_flush_to"
  | .cfgLinkTo => "cfg_link_to"
  | .cfgHwWaitTo => "cfg_hw_wait_to"
  | .cfgCapTx => "cfg_cap_tx"
  | .cfgCapRx => "cfg_cap_rx"
  | .cfgCtrl => "cfg_ctrl"
  | .status => "status"
  | .txPending => "tx_pending"
  | .rxPending => "rx_pending"
  | .txPos => "tx_pos"
  | .rxRemaining => "rx_remaining"
  | .err => "err"
  | .framesTx => "frames_tx"
  | .framesRx => "frames_rx"
  | .ovrTxCnt => "ovr_tx_cnt"
  | .ovrRxCnt => "ovr_rx_cnt"
  | .linkToCnt => "link_to_cnt"
  | .syncLossCnt => "sync_loss_cnt"
  | .hwToCnt => "hw_to_cnt"

/-- The lines of a text. -/
def linesFrom (current : List Char) : List Char → List (List Char)
  | [] => [current.reverse]
  | c :: rest => if c = '\n' then current.reverse :: linesFrom [] rest else linesFrom (c :: current) rest

/-- The words and the commas of a line in lower case, up to the comment. -/
def tokensFrom (current : List Char) : List Char → List (List Char)
  | [] => if current = [] then [] else [current.reverse]
  | c :: rest =>
    let done := if current = [] then [] else [current.reverse]
    if c = ';' then done
    else if c = ',' then done ++ [','] :: tokensFrom [] rest
    else if c.isWhitespace then done ++ tokensFrom [] rest
    else tokensFrom (c.toLower :: current) rest

/-- The value of a digit below `base`. -/
def digitValue (base : Nat) (c : Char) : Option Nat :=
  let v := if c.isDigit then c.toNat - '0'.toNat
    else if 'a' ≤ c ∧ c ≤ 'f' then c.toNat - 'a'.toNat + 10
    else base
  if v < base then some v else none

/-- A number written with digits of a base, on from a value. -/
def digitsFrom (base value : Nat) : List Char → Option Nat
  | [] => some value
  | c :: rest =>
    match digitValue base c with
    | some d => digitsFrom base (value * base + d) rest
    | none => none

/-- A number, decimal or `0x` hexadecimal (30_encoding.md R117). -/
def number : List Char → Option Nat
  | [] => none
  | [c] => digitsFrom 10 0 [c]
  | [c, d] => digitsFrom 10 0 [c, d]
  | c :: d :: rest => if c = '0' ∧ d = 'x' then digitsFrom 16 0 rest else digitsFrom 10 0 (c :: d :: rest)

/-- `<imm32>`: a number 0 to 2^32-1. -/
def imm32 (t : List Char) : Option Word :=
  match number t with
  | some v => if v < 4294967296 then some (BitVec.ofNat 32 v) else none
  | none => none

/-- `<csr>`: a CSR name or a number 0 to 255. -/
def csrOperand (t : List Char) : Option CsrAddr :=
  match Csr.all.find? (fun c => c.name.toList == t) with
  | some c => some c.addr
  | none =>
    match number t with
    | some v => if v < 256 then some (BitVec.ofNat 8 v) else none
    | none => none

/-- A CSR_WRITE of a value that must be an `<imm32>`. -/
def writeOf (c : Csr) (v : Nat) : Option (List Instr) :=
  if v < 4294967296 then some [.csrWrite c.addr (BitVec.ofNat 32 v)] else none

/-- `setsync <b0>, <b1>` (30_encoding.md R118). -/
def setSyncOf (b0 b1 : Nat) : Option (List Instr) := writeOf .cfgSync ((b1 <<< 8) + b0)

/-- `setctrl <role>, <policy>, <cycle>, <pad>` (30_encoding.md R118). -/
def setCtrlOf (role policy cycle pad : Nat) : Option (List Instr) :=
  writeOf .cfgCtrl ((pad <<< 8) + (cycle <<< 3) + (policy <<< 1) + role)

/-- `steps <k>` (30_encoding.md R118). -/
def stepsOf (k : Nat) : Option (List Instr) := if 1 ≤ k then some (List.replicate k .step) else none

/-- The commands of a line with this mnemonic and these operands (30_encoding.md R117, R118); `none` is an assembly
error. -/
def commandsOf (mnemonic : String) (operands : List (List Char)) : Option (List Instr) :=
  match mnemonic, operands with
  | "nop", [] => some [.nop]
  | "begin", [] => some [.begin]
  | "step", [] => some [.step]
  | "rxcancel", [] => some [.rxCancel]
  | "csrr", [a] => (csrOperand a).map fun x => [.csrRead x]
  | "csrw", [a, [','], v] => (csrOperand a).bind fun x => (imm32 v).map fun y => [.csrWrite x y]
  | "steps", [k] => (number k).bind stepsOf
  | "clrerr", [v] => (imm32 v).map fun y => [.csrWrite (Csr.addr .err) y]
  | "setsync", [b0, [','], b1] => (number b0).bind fun x => (number b1).bind fun y => setSyncOf x y
  | "setctrl", [r, [','], p, [','], c, [','], d] =>
    (number r).bind fun w => (number p).bind fun x => (number c).bind fun y => (number d).bind fun z => setCtrlOf w x y z
  | _, _ => none

/-- The commands of a line: none for an empty one, `none` for an assembly error. -/
def commandsOfTokens : List (List Char) → Option (List Instr)
  | [] => some []
  | mnemonic :: operands => commandsOf (String.ofList mnemonic) operands

/-- The command words of one line; `none` for an assembly error, which produces no word (30_encoding.md R117). -/
def assembleLine (line : String) : Option (List CommandWord) :=
  (commandsOfTokens (tokensFrom [] line.toList)).map fun l => l.map encode

/-- The command words of each line of a text. -/
def assemble (text : String) : List (Option (List CommandWord)) :=
  (linesFrom [] text.toList).map fun l => (commandsOfTokens (tokensFrom [] l)).map fun k => k.map encode

end Sys2Proof.Machine
end

