-- ==== Sys2Proof/Safety.lean ====
section
/-! DEFINITION. What the statements speak of: the invariant of the CORE's state, the discipline of its port events, and
the byte streams of a trace. -/

namespace Sys2Proof.Machine

/-! ### The invariant of the state -/

/-- The TxFramer and TXB as reset leaves them: in UNINIT and FAILED, and always in a receiver (10_state.md R51,
45_host_commands.md R306). -/
structure TxQuiet (s : State) : Prop where
  empty : s.txb.pending = 0
  state : s.tx.state = .idle
  pos : s.tx.pos = 0

/-- The RxDeframer, the SyncDetector and RXB as reset leaves them: in UNINIT and FAILED, and always in a transmitter
(10_state.md R51, 45_host_commands.md R327). -/
structure RxQuiet (s : State) : Prop where
  empty : s.rxb.pending = 0
  phase : s.rx.phase = .start
  sync : s.rx.sync = .searching
  remaining : s.rx.remaining = 0

/-- What a running transmitter's `tx_state` says of the mode arbiter and of `tx_pos` (42_txframer.md, state machine
summary; 44_mode_scheduler.md R273). -/
def TxRunning (s : State) : Prop :=
  match s.tx.state with
  | .idle =>
    (s.arb.pending = false → s.arb.cur = .idle) ∧ (s.arb.pending = true → s.arb.req = .idle ∧ s.arb.cur = .tx)
      ∧ (s.tx.pos = 0 ∨ s.tx.pos = wireEnd s)
  | .waitMode => s.arb.req = .tx ∧ (s.arb.pending = true → s.arb.cur = .idle) ∧ s.tx.pos = 0
  | .send => s.arb.pending = false ∧ s.arb.cur = .tx ∧ s.tx.pos < wireEnd s
  | .drain => s.arb.pending = false ∧ s.arb.cur = .tx ∧ s.tx.pos = wireEnd s

/-- What a running receiver's `rx_phase` says of the mode arbiter (43_rxdeframer.md, state machine summary;
44_mode_scheduler.md R273). -/
def RxModes (s : State) : Prop :=
  match s.rx.phase with
  | .start => s.arb.pending = false ∧ s.arb.cur = .idle
  | .waitMode => s.arb.req = .rx ∧ (s.arb.pending = true → s.arb.cur = .idle)
  | .active => s.arb.pending = false ∧ s.arb.cur = .rx
  | .cycleIdle => s.arb.req = .idle ∧ (s.arb.pending = true → s.arb.cur = .rx)

/-- What a running receiver's state satisfies: the detector is Locked exactly while payload bytes of a frame remain to
be read, never more than N; it is Searching outside RX_ACTIVE; and RX_CYCLE_IDLE is entered only when the radio is to be
cycled through Idle (10_state.md R54; 43_rxdeframer.md R234 to R240). -/
structure RxRunning (s : State) : Prop where
  modes : RxModes s
  searching : s.rx.phase ≠ .active → s.rx.sync = .searching
  locked : s.rx.sync = .locked ↔ s.rx.remaining ≠ 0
  atMostN : s.rx.remaining ≤ s.cfg.n
  cycles : s.rx.phase = .cycleIdle → s.cfg.rxIdleCycle = true

/-- The invariant of the CORE's state. -/
structure Inv (s : State) : Prop where
  /-- The byte arrays are in canonical form. -/
  txbWf : Memory.wf s.txb.data = true
  rxbWf : Memory.wf s.rxb.data = true
  payloadWf : Memory.wf s.tx.payload = true
  /-- `write_pos = pending` and `pending <= capacity` (10_state.md R50). -/
  txbSlide : s.txb.writePos = s.txb.pending
  rxbSlide : s.rxb.writePos = s.rxb.pending
  txbFits : s.txb.pending ≤ s.cfg.capTxBytes
  rxbFits : s.rxb.pending ≤ s.cfg.capRxBytes
  /-- `mode_pending = 0` implies `mode_req = mode_cur` (10_state.md R55). -/
  settled : s.arb.pending = false → s.arb.req = s.arb.cur
  /-- FAILED exactly when a fatal cause is recorded (60_exceptions.md R353, R354, R367). -/
  fatal : s.coreState = .failed ↔ s.err.getLsbD 0 = true ∨ s.err.getLsbD 1 = true
  /-- Outside RUN the framers, the buffers and the arbiter keep their reset values (45_host_commands.md R306). -/
  quiet : s.coreState ≠ .run → TxQuiet s ∧ RxQuiet s ∧ s.arb.pending = false ∧ s.arb.cur = .idle
  /-- The configuration of a running CORE is legal (45_host_commands.md R307). -/
  legal : s.coreState = .run → configLegal s = true
  /-- A running transmitter. -/
  transmitter : s.coreState = .run → s.cfg.role = .tx → TxRunning s ∧ RxQuiet s
  /-- A running receiver. -/
  receiver : s.coreState = .run → s.cfg.role = .rx → RxRunning s ∧ TxQuiet s

/-! ### The discipline of the port events -/

/-- May event `e` stand right after `prev` (`none` at the start of the trace)? The CORE's obligations to its
environment (20_memory.md R95). -/
def mayFollow (prev : Option Event) (e : Event) : Bool :=
  match e with
  | .radioWrite _ => decide (prev = some (.radioFifoFull false))
  | .radioRead _ _ => decide (prev = some (.radioFifoNotEmpty true))
  | .srcData _ => decide (prev = some (.srcValid true))
  | .srcTake => match prev with | some (.srcData _) => true | _ => false
  | .srcOverrun => decide (prev = some (.srcValid true))
  | .sinkWrite _ => decide (prev = some (.sinkReady true))
  | .srcValid _ => true
  | .sinkReady _ => true
  | .radioBegin _ => true
  | .radioFifoFull _ => true
  | .radioFifoNotEmpty _ => true
  | .radioModeReady _ => true
  | .radioTxDone _ => true
  | .radioSetMode _ => true
  | .timeNow _ => true

/-- Every event of a list stands after one it may follow. -/
def disciplined (prev : Option Event) : List Event → Bool
  | [] => true
  | e :: rest => mayFollow prev e && disciplined (some e) rest

/-- The events the phases of a role's scheduler iteration may perform (10_state.md R68, 20_memory.md R89): all but the
asking of the time, which comes before them. -/
def ofRole (r : Role) (e : Event) : Bool :=
  match e with
  | .srcValid _ => decide (r = .tx)
  | .srcData _ => decide (r = .tx)
  | .srcTake => decide (r = .tx)
  | .srcOverrun => decide (r = .tx)
  | .radioFifoFull _ => decide (r = .tx)
  | .radioWrite _ => decide (r = .tx)
  | .radioTxDone _ => decide (r = .tx)
  | .sinkReady _ => decide (r = .rx)
  | .sinkWrite _ => decide (r = .rx)
  | .radioFifoNotEmpty _ => decide (r = .rx)
  | .radioRead _ _ => decide (r = .rx)
  | .radioBegin _ => false
  | .radioModeReady _ => true
  | .radioSetMode _ => true
  | .timeNow _ => false

/-- The unassigned CSR addresses: 0x08..0x0F, 0x16, 0x17, 0x1F..0xFF (10_state.md R39). -/
def unassigned (a : CsrAddr) : Bool :=
  decide ((0x08 ≤ a.toNat ∧ a.toNat ≤ 0x0F) ∨ a.toNat = 0x16 ∨ a.toNat = 0x17 ∨ 0x1F ≤ a.toNat)

/-- The read-only CSR addresses: 0x10..0x14, 0x18..0x1E (10_state.md R39). -/
def readOnly (a : CsrAddr) : Bool :=
  decide ((0x10 ≤ a.toNat ∧ a.toNat ≤ 0x14) ∨ (0x18 ≤ a.toNat ∧ a.toNat ≤ 0x1E))

/-! ### The byte streams of a trace -/

/-- The bytes written into the radio FIFO. -/
def radioWrites (l : List Event) : List Byte :=
  l.filterMap fun e => match e with | .radioWrite b => some b | _ => none

/-- The bytes read from the radio FIFO. -/
def radioReads (l : List Event) : List Byte :=
  l.filterMap fun e => match e with | .radioRead _ b => some b | _ => none

/-- The bytes delivered to the sink. -/
def sinkWrites (l : List Event) : List Byte :=
  l.filterMap fun e => match e with | .sinkWrite b => some b | _ => none

/-- The bytes the source offered and the CORE took. -/
def sourceBytes (l : List Event) : List Byte :=
  l.filterMap fun e => match e with | .srcData b => some b | _ => none

/-- The times answered. -/
def timesAsked (l : List Event) : List Word :=
  l.filterMap fun e => match e with | .timeNow t => some t | _ => none

/-- The answers to `ask.radio.begin()`. -/
def beginsAsked (l : List Event) : List Bool :=
  l.filterMap fun e => match e with | .radioBegin b => some b | _ => none

/-- The answers to `ask.src.valid()`. -/
def validsAsked (l : List Event) : List Bool :=
  l.filterMap fun e => match e with | .srcValid b => some b | _ => none

/-- The answers to `ask.sink.ready()`. -/
def readiesAsked (l : List Event) : List Bool :=
  l.filterMap fun e => match e with | .sinkReady b => some b | _ => none

/-- The answers to `ask.radio.fifo_full()`. -/
def fullsAsked (l : List Event) : List Bool :=
  l.filterMap fun e => match e with | .radioFifoFull b => some b | _ => none

/-- The answers to `ask.radio.fifo_not_empty()`. -/
def notEmptiesAsked (l : List Event) : List Bool :=
  l.filterMap fun e => match e with | .radioFifoNotEmpty b => some b | _ => none

/-- The answers to `ask.radio.mode_ready()`. -/
def modeReadiesAsked (l : List Event) : List Bool :=
  l.filterMap fun e => match e with | .radioModeReady b => some b | _ => none

/-- The answers to `ask.radio.tx_done()`. -/
def txDonesAsked (l : List Event) : List Bool :=
  l.filterMap fun e => match e with | .radioTxDone b => some b | _ => none

/-- The answers to the yes/no queries, of whatever port, in order. -/
def flagsAnswered (l : List Event) : List Bool :=
  l.filterMap fun e => match e with
    | .srcValid b => some b
    | .sinkReady b => some b
    | .radioBegin b => some b
    | .radioFifoFull b => some b
    | .radioFifoNotEmpty b => some b
    | .radioModeReady b => some b
    | .radioTxDone b => some b
    | _ => none

/-- The answers to the queries for a byte, of whatever port, in order. -/
def bytesAnswered (l : List Event) : List Byte :=
  l.filterMap fun e => match e with | .srcData b => some b | .radioRead _ b => some b | _ => none

/-- The modes the radio was set to. -/
def modesSet (l : List Event) : List RadioMode :=
  l.filterMap fun e => match e with | .radioSetMode m => some m | _ => none

/-- The events of one byte taken from the source (40_streambuffer.md R147). -/
def takeEvents (b : Byte) : List Event := [.srcValid true, .srcData b, .srcTake]

/-- The events of one byte written into the radio FIFO (42_txframer.md R193). -/
def writeEvents (b : Byte) : List Event := [.radioFifoFull false, .radioWrite b]

/-- The events of one byte delivered to the sink (40_streambuffer.md R148). -/
def deliverEvents (b : Byte) : List Event := [.sinkReady true, .sinkWrite b]

/-- The events of one byte read from the radio FIFO (43_rxdeframer.md R234, R235; log 11 for the dummy byte). -/
def readEvents (b : Byte) : List Event := [.radioFifoNotEmpty true, .radioRead 0x00 b]

/-- The committed frame's wire image: `SYNC0, SYNC1, payload[0], ..., payload[N-1]` (10_state.md R52). -/
def wireImage (s : State) : List Byte :=
  s.cfg.sync0 :: s.cfg.sync1 :: s.tx.payload.prefixBytes s.cfg.n.toNat

/-- What of the frame in progress is still to be written into the radio FIFO; nothing in TX_IDLE, where no frame is
committed (10_state.md R52, R53). -/
def inFlight (s : State) : List Byte :=
  if s.tx.state = .idle then [] else (wireImage s).drop s.tx.pos.toNat

/-- The wire image of a frame whose data bytes are `d`, padded to N (20_memory.md R81, 42_txframer.md R192). -/
def frameImage (c : ConfigRegs) (d : List Byte) : List Byte :=
  c.sync0 :: c.sync1 :: (d ++ List.replicate (c.n.toNat - d.length) c.pad)

/-- The first `count` frames of `n` payload bytes each, as they stand on the wire (20_memory.md R81). -/
def framesOnWire (sync0 sync1 : Byte) (n : Nat) : Nat → List Byte → List Byte
  | 0, _ => []
  | count + 1, l => sync0 :: sync1 :: (l.take n ++ framesOnWire sync0 sync1 n count (l.drop n))

/-- The SyncDetector's state after feeding a list of bytes from `st`, with no reset between. -/
def sdRun (sync0 sync1 : Byte) (st : SyncState) (l : List Byte) : SyncState :=
  l.foldl (fun st b => (sdFeed sync0 sync1 st b).1) st

/-- How many payload bytes of the frame in progress a STEP of a receiver may read, when `fed` are the bytes it fed to the
SyncDetector before them: those remaining of a frame already locked; all N of a frame whose marker `fed` completes
(43_rxdeframer.md R233, R234). -/
def payloadDue (s : State) (fed : List Byte) : Nat :=
  if s.rx.sync = .locked then s.rx.remaining.toNat
  else if sdRun s.cfg.sync0 s.cfg.sync1 s.rx.sync fed = .locked then s.cfg.n.toNat
  else 0

/-- Does the marker occur in a list of bytes? -/
def hasMarker (sync0 sync1 : Byte) (l : List Byte) : Prop := ∃ u v, l = u ++ sync0 :: sync1 :: v

/-- What a buffer of capacity `cap` keeps of the bytes `l` that reached it, in order (40_streambuffer.md R149): REJECT
takes no more than fit; DROP_NEW keeps the first `cap`; DROP_OLD keeps the newest `cap`. -/
def keptBytes (p : Policy) (cap : Nat) (l : List Byte) : List Byte :=
  match p with
  | .reject => l.take cap
  | .dropNew => l.take cap
  | .dropOld => l.drop (l.length - cap)
  | .reserved => l

/-- The events of a sink delivery from a buffer holding `held` to a sink that answers ready `k` times: one query more,
answered no, where bytes are left (40_streambuffer.md R148). -/
def sinkTakes (held : List Byte) (k : Nat) : List Event :=
  (held.take k).flatMap deliverEvents ++ if k < held.length then [.sinkReady false] else []

/-- What reading payload bytes comes to. -/
structure PayloadReads where
  /-- The events, in order. -/
  events : List Event
  /-- What RXB then holds. -/
  held : List Byte
  /-- How many overruns were raised. -/
  overruns : Nat
  deriving DecidableEq, Repr

/-- Payload bytes read one after another into an RXB holding `held`: each `(b, k)` is the byte `b` appended under
`POLICY`, with the overrun where RXB is full, and then delivered to a sink that answers ready `k` times
(43_rxdeframer.md R235, R236). -/
def readPayload (c : ConfigRegs) : List Byte → List (Byte × Nat) → PayloadReads
  | held, [] => ⟨[], held, 0⟩
  | held, (b, k) :: rest =>
    let queue := keptBytes c.policy c.capRxBytes.toNat (held ++ [b])
    let r := readPayload c (queue.drop k) rest
    ⟨readEvents b ++ sinkTakes queue k ++ r.events, r.held, (held.length + 1 - queue.length) + r.overruns⟩

/-- What a receiver makes of a list of radio bytes. -/
structure Deframed where
  /-- The payload bytes, in order. -/
  payload : List Byte
  /-- The SyncDetector's state after the bytes. -/
  sync : SyncState
  /-- The payload bytes then still to be read. -/
  remaining : Nat
  /-- How many frames were completed. -/
  frames : Nat
  deriving DecidableEq, Repr

/-- The receiver's reading of the radio bytes as one stream, whichever STEPs read them: bytes before a marker are fed to
the SyncDetector, the N bytes after it are payload, and then the search begins anew (43_rxdeframer.md R234, R235, R237;
41_syncdetector.md R171). -/
def deframe (c : ConfigRegs) : SyncState → Nat → List Byte → Deframed
  | st, rem, [] => ⟨[], st, rem, 0⟩
  | st, rem, b :: rest =>
    if st = .locked then
      let r := if rem ≤ 1 then deframe c .searching 0 rest else deframe c .locked (rem - 1) rest
      ⟨b :: r.payload, r.sync, r.remaining, r.frames + if rem ≤ 1 then 1 else 0⟩
    else
      let d := (sdFeed c.sync0 c.sync1 st b).1
      deframe c d (if d = .locked then c.n.toNat else rem) rest

/-! ### Runs, and what a run cannot tell apart -/

/-- Commands executed one after another, each to completion (45_host_commands.md R301). -/
def execAll : List Instr → State → Result State
  | [], s => .next s
  | i :: rest, s => andThen (exec i s) (execAll rest)

/-- Two states that differ only in bytes the spec leaves unspecified: buffer bytes beyond those held (10_state.md R50),
and, in TX_IDLE, the payload of the FRAME register; outside TX_IDLE its bytes beyond N (R52). -/
structure Alike (s t : State) : Prop where
  same : t = { s with
    txb := { s.txb with data := t.txb.data }, rxb := { s.rxb with data := t.rxb.data },
    tx := { s.tx with payload := t.tx.payload } }
  txbSlide : s.txb.writePos = s.txb.pending
  rxbSlide : s.rxb.writePos = s.rxb.pending
  txbHeld : t.txb.held = s.txb.held
  rxbHeld : t.rxb.held = s.rxb.held
  payload : s.tx.state ≠ .idle →
    t.tx.payload.prefixBytes s.cfg.n.toNat = s.tx.payload.prefixBytes s.cfg.n.toNat

end Sys2Proof.Machine
end

