-- ==== Sys2Proof/Certificates/Slice0/Obligations.lean ====
section
/-! DEFINITION. The statements for the provers, with the tables of the spec they compare the machine with. -/

namespace Sys2Proof.Claims

open Sys2Proof.Machine

/-- `s` once it has answered `⟨status, data⟩`. -/
def answered (status : Status) (data : Word) (s : State) : State :=
  { s with host := { s.host with responses := s.host.responses ++ [⟨status, data⟩] } }

/-- `s` once the events `evs` were performed and these answers are left foretold. -/
def performed (flags : List Bool) (bytes : List Byte) (times : List Word) (evs : List Event) (s : State) : State :=
  { s with env := { s.env with flags := flags, bytes := bytes, times := times, trace := s.env.trace ++ evs } }

/-- `s` after a STEP answered OK that performed the events `evs` and left these answers foretold. -/
def stepped (flags : List Bool) (bytes : List Byte) (times : List Word) (evs : List Event) (s : State) : State :=
  answered .ok 0 (performed flags bytes times evs s)

/-- The environment will give the answers recorded in `evs`, in their order, and after them those listed. -/
def foretells (evs : List Event) (flags : List Bool) (bytes : List Byte) (times : List Word) (s : State) : Prop :=
  s.env.flags = flagsAnswered evs ++ flags ∧ s.env.bytes = bytesAnswered evs ++ bytes ∧
  s.env.times = timesAsked evs ++ times

/-- `OP`, `SEL`, `RSV` and `DATA` of a word as numbers (30_encoding.md R111). -/
def opOf (w : CommandWord) : Nat := w.toNat / 2 ^ 56
def selOf (w : CommandWord) : Nat := w.toNat / 2 ^ 48 % 256
def rsvOf (w : CommandWord) : Nat := w.toNat / 2 ^ 32 % 65536
def dataOf (w : CommandWord) : Nat := w.toNat % 4294967296

/-- The word decodes as Illegal. -/
def isIllegal (w : CommandWord) : Prop := ∃ why, decode w = .illegal why

/-- The encodings of 10_state.md R23, R53, R54, R55, R56. -/
def coreCode : CoreState → Nat
  | .uninit => 0
  | .run => 1
  | .failed => 2
def modeCode : RadioMode → Nat
  | .idle => 0
  | .rx => 1
  | .tx => 2
def txCode : TxState → Nat
  | .idle => 0
  | .waitMode => 1
  | .send => 2
  | .drain => 3
def rxCode : RxPhase → Nat
  | .start => 0
  | .waitMode => 1
  | .active => 2
  | .cycleIdle => 3
def syncCode : SyncState → Nat
  | .searching => 0
  | .firstByteMatched => 1
  | .locked => 2

/-- STATUS as the sum of its fields (10_state.md R40). -/
def statusNumber (s : State) : Nat :=
  coreCode s.coreState + 4 * modeCode s.arb.cur + 16 * modeCode s.arb.req + 64 * s.arb.pending.toNat
    + 256 * txCode s.tx.state + 1024 * rxCode s.rx.phase + 4096 * syncCode s.rx.sync

/-- What every assigned address reads as (10_state.md R30 to R46). -/
def csrTable (s : State) : List (CsrAddr × Word) :=
  [(0x00, s.cfg.frameSize &&& 0x00FFFFFF), (0x01, s.cfg.sync &&& 0x0000FFFF), (0x02, s.cfg.flushTo),
   (0x03, s.cfg.linkTo), (0x04, s.cfg.hwWaitTo), (0x05, s.cfg.capTx &&& 0x00FFFFFF),
   (0x06, s.cfg.capRx &&& 0x00FFFFFF), (0x07, s.cfg.ctrl &&& 0x0000FF0F),
   (0x10, BitVec.ofNat 32 (statusNumber s)), (0x11, BitVec.ofNat 32 s.txb.pending.toNat),
   (0x12, BitVec.ofNat 32 s.rxb.pending.toNat), (0x13, BitVec.ofNat 32 s.tx.pos.toNat),
   (0x14, BitVec.ofNat 32 s.rx.remaining.toNat), (0x15, BitVec.ofNat 32 s.err.toNat),
   (0x18, s.counters.framesTx), (0x19, s.counters.framesRx), (0x1A, s.counters.ovrTx), (0x1B, s.counters.ovrRx),
   (0x1C, s.counters.linkTo), (0x1D, s.counters.syncLoss), (0x1E, s.counters.hwTo)]

/-- The writable bits of the configuration registers (45_host_commands.md R321). -/
def maskTable : List (CsrAddr × Word) :=
  [(0x00, 0x00FFFFFF), (0x01, 0x0000FFFF), (0x02, 0xFFFFFFFF), (0x03, 0xFFFFFFFF), (0x04, 0xFFFFFFFF),
   (0x05, 0x00FFFFFF), (0x06, 0x00FFFFFF), (0x07, 0x0000FF0F)]

/-- A CSR access that fails: nothing changes but `ERR.CSR_ERR <- 1`, and the answer is `{ERR, 0}`. -/
def csrFails (i : Instr) (s : State) : Prop := exec i s = .next (answered .err 0 { s with err := s.err ||| 0x200 })

/-- The invariants of a StreamBuffer with room for its capacity (10_state.md R50). -/
structure BufferReady (b : Buf) (s : State) : Prop where
  canonical : Memory.wf (s.buf b).data = true
  slide : (s.buf b).writePos = (s.buf b).pending
  fits : (s.buf b).pending ≤ s.capacity b
  room : 1 ≤ (s.capacity b).toNat
  depth : s.capacity b ≤ s.depthMax b

/-- The data of a frame, padded to the payload size (42_txframer.md R192). -/
def padded (c : ConfigRegs) (d : List Byte) : List Byte := d ++ List.replicate (c.n.toNat - d.length) c.pad

/-- The arbiter once mode `m` was requested at `now` and polled once, with the answer `ready`, from the confirmed mode
`cur` (44_mode_scheduler.md R270, R271). -/
def requested (m cur : RadioMode) (now : Word) (ready : Bool) : ModeArbiter :=
  if ready then ⟨m, m, false, now⟩ else ⟨cur, m, true, now⟩

/-- The link timer has not expired (43_rxdeframer.md R240). -/
def linkAlive (now : Word) (s : State) : Prop := s.cfg.linkTo = 0 ∨ now - s.rx.tLink < s.cfg.linkTo

/-- A bounded hardware wait begun at `start` has expired (60_exceptions.md R371). -/
abbrev waitExpired (now start : Word) (s : State) : Prop := s.cfg.hwWaitTo ≠ 0 ∧ s.cfg.hwWaitTo ≤ now - start

/-- A running transmitter, or a running receiver, in a state of the invariant. -/
def transmitting (s : State) : Prop := Inv s ∧ s.coreState = .run ∧ s.cfg.role = .tx
def receiving (s : State) : Prop := Inv s ∧ s.coreState = .run ∧ s.cfg.role = .rx

/-! What a source drain and a sink delivery leave (phase (a), 44_mode_scheduler.md R280). -/

/-- What TXB keeps of the bytes it held and the bytes `taken` after them (40_streambuffer.md R149). -/
def queued (taken : List Byte) (s : State) : List Byte :=
  keptBytes s.cfg.policy s.cfg.capTxBytes.toNat (s.txb.held ++ taken)

/-- `taken` can be the bytes a source drain takes, and `tail` the events after them: the source offers no more; the
STEP's budget of CAP_TX takes is spent; or, under REJECT, TXB is full and the overrun is signalled, whether or not the
budget is spent too (40_streambuffer.md R147). -/
abbrev drainEnds (taken : List Byte) (tail : List Event) (s : State) : Prop :=
  taken.length ≤ s.cfg.capTxBytes.toNat ∧
  (s.cfg.policy = .reject → (s.txb.held ++ taken).length ≤ s.cfg.capTxBytes.toNat) ∧
  (tail = [.srcValid false] ∨
    (tail = [.srcValid true] ∧ s.cfg.policy ≠ .reject ∧ taken.length = s.cfg.capTxBytes.toNat) ∨
    (tail = [.srcValid true, .srcOverrun] ∧ s.cfg.policy = .reject ∧
      (s.txb.held ++ taken).length = s.cfg.capTxBytes.toNat))

/-- How often such a drain raises TX_OVERRUN: once a byte too many, or once under REJECT. -/
def drainOverruns (taken : List Byte) (tail : List Event) (s : State) : Nat :=
  ((s.txb.held ++ taken).length - s.cfg.capTxBytes.toNat) + (if tail = [.srcValid true, .srcOverrun] then 1 else 0)

/-- `t_fill` after such a drain at `now`. -/
def fillTime (now : Word) (taken : List Byte) (s : State) : Word :=
  if s.txb.held = [] ∧ taken ≠ [] then now else s.tx.tFill

/-- `d` is `s` after such a drain, its events and answers apart. -/
structure Filled (now : Word) (taken : List Byte) (tail : List Event) (s d : State) : Prop where
  frame : d = { s with
    txb := d.txb
    tx := { s.tx with tFill := fillTime now taken s }
    err := if drainOverruns taken tail s = 0 then s.err else s.err ||| 0x004
    counters := { s.counters with ovrTx := s.counters.ovrTx + BitVec.ofNat 32 (drainOverruns taken tail s) } }
  held : d.txb.held = queued taken s
  slide : d.txb.writePos = d.txb.pending
  same : taken = [] → d.txb = s.txb

/-- `d` is `s` after RXB was delivered to a sink ready `k` times and the payload bytes `pays` went through it, events and
answers apart (40_streambuffer.md R148, 43_rxdeframer.md R236). -/
structure Served (k : Nat) (pays : List (Byte × Nat)) (s d : State) : Prop where
  frame : d = { s with
    rxb := d.rxb
    err := if (readPayload s.cfg (s.rxb.held.drop k) pays).overruns = 0 then s.err else s.err ||| 0x008
    counters := { s.counters with
      ovrRx := s.counters.ovrRx + BitVec.ofNat 32 (readPayload s.cfg (s.rxb.held.drop k) pays).overruns } }
  held : d.rxb.held = (readPayload s.cfg (s.rxb.held.drop k) pays).held
  slide : d.rxb.writePos = d.rxb.pending
  same : s.rxb.held.take k = [] → pays = [] → d.rxb = s.rxb

/-- The events of such a STEP up to there, `fed` the bytes fed to the SyncDetector between. -/
def servedEvents (now : Word) (k : Nat) (fed : List Byte) (pays : List (Byte × Nat)) (s : State) : List Event :=
  .timeNow now :: sinkTakes s.rxb.held k ++ fed.flatMap readEvents
    ++ (readPayload s.cfg (s.rxb.held.drop k) pays).events

/-- What `c` further commits leave in TXB and in the payload of FRAME, `queue` what TXB held before them: the bytes of the
`c`-th frame, and beyond N nothing changed (42_txframer.md R192, R194). -/
def sentFrames (c : Nat) (queue : List Byte) (s : State) (r : StreamBuffer) (payload : Memory) : Prop :=
  r.held = queue.drop (c * s.cfg.n.toNat) ∧ r.writePos = r.pending ∧
  payload.prefixBytes s.cfg.n.toNat =
    ((s.tx.payload.prefixBytes s.cfg.n.toNat ++ queue).drop (c * s.cfg.n.toNat)).take s.cfg.n.toNat ∧
  ∀ i, s.cfg.n.toNat ≤ i → payload.read i = s.tx.payload.read i

/-- The poll of a pending request: its events, and what it leaves of `d`, whether it is confirmed, re-issued with
MODE_TIMEOUT, or still waited for (44_mode_scheduler.md R271, R272). -/
def pollEvents (now : Word) (ready : Bool) (s : State) : List Event :=
  .radioModeReady ready :: if ready = false ∧ waitExpired now s.arb.tReq s then [.radioSetMode s.arb.req] else []
def polled (now : Word) (ready : Bool) (d : State) : State :=
  if ready = true then { d with arb := { d.arb with cur := d.arb.req, pending := false } }
  else if waitExpired now d.arb.tReq d then { d with
    arb := { d.arb with tReq := now }
    err := d.err ||| 0x020
    counters := { d.counters with hwTo := d.counters.hwTo + 1 } }
  else d

/-- The bytes fed to the SyncDetector end a spurious match (41_syncdetector.md R170). -/
abbrev spurious (fed : List Byte) (s : State) : Prop :=
  s.rx.sync = .firstByteMatched ∧ fed ≠ [] ∧ fed ≠ [s.cfg.sync1]

/-- SYNC_LOSS raised (60_exceptions.md R360). -/
def syncLost (d : State) : State :=
  { d with err := d.err ||| 0x080, counters := { d.counters with syncLoss := d.counters.syncLoss + 1 } }

/-- The link timeout, the request for Idle apart (43_rxdeframer.md R240). -/
def linkLost (now : Word) (d : State) : State :=
  { d with
    rx := { d.rx with sync := .searching, remaining := 0, tLink := now }
    err := d.err ||| 0x010
    counters := { d.counters with linkTo := d.counters.linkTo + 1 } }

/-- `evs` are the events from `s` to `t`. -/
def performs (s : State) (evs : List Event) (t : State) : Prop := t.env.trace = s.env.trace ++ evs

end Sys2Proof.Claims

section

open Sys2Proof Sys2Proof.Machine Sys2Proof.Claims

/-! ### Encoding -/

/-- R114 with the encoder: every command is well formed, and decoding its word gives it back. -/
def Obligations.DecodeEncodeRoundTrip : Prop :=
  ∀ i : Instr, i.wellFormed = true ∧ decode (encode i) = .command i

/-- R113: a command has one word only. -/
def Obligations.DecodedWordIsEncoding : Prop :=
  ∀ (w : CommandWord) (i : Instr), decode w = .command i → encode i = w

/-- R115: the illegal words, field by field; CSR words with an unassigned address are not among them, and fail as CSR
errors. -/
def Obligations.IllegalWordsExactly : Prop :=
  (∀ w : CommandWord, isIllegal w ↔
    6 ≤ opOf w ∨ rsvOf w ≠ 0 ∨
    ((opOf w = 0 ∨ opOf w = 1 ∨ opOf w = 2 ∨ opOf w = 5) ∧ (selOf w ≠ 0 ∨ dataOf w ≠ 0)) ∨
    (opOf w = 3 ∧ dataOf w ≠ 0)) ∧
  ∀ (a : CsrAddr) (v : Word) (s : State), unassigned a = true →
    decode (0x03#8 ++ a ++ 0#16 ++ 0#32) = .command (.csrRead a) ∧ csrFails (.csrRead a) s ∧
    decode (0x04#8 ++ a ++ 0#16 ++ v) = .command (.csrWrite a v) ∧ csrFails (.csrWrite a v) s

/-- R119: the worked encodings. -/
def Obligations.WorkedEncodings : Prop :=
  (assembleLine "nop" = some [0x0000000000000000] ∧ decode 0x0000000000000000 = .command .nop) ∧
  (assembleLine "begin" = some [0x0100000000000000] ∧ decode 0x0100000000000000 = .command .begin) ∧
  (assembleLine "step" = some [0x0200000000000000] ∧ decode 0x0200000000000000 = .command .step) ∧
  (assembleLine "csrr STATUS" = some [0x0310000000000000] ∧ decode 0x0310000000000000 = .command (.csrRead 0x10)) ∧
  (assembleLine "csrr ERR" = some [0x0315000000000000] ∧ decode 0x0315000000000000 = .command (.csrRead 0x15)) ∧
  (assembleLine "csrw CFG_FRAME_SIZE, 4" = some [0x0400000000000004] ∧
    decode 0x0400000000000004 = .command (.csrWrite 0x00 4)) ∧
  (assembleLine "csrw CFG_SYNC, 0x6937" = some [0x0401000000006937] ∧
    assembleLine "setsync 0x37, 0x69" = some [0x0401000000006937] ∧
    decode 0x0401000000006937 = .command (.csrWrite 0x01 0x6937)) ∧
  (assembleLine "csrw CFG_FLUSH_TO, 50" = some [0x0402000000000032] ∧
    decode 0x0402000000000032 = .command (.csrWrite 0x02 50)) ∧
  (assembleLine "csrw CFG_CAP_TX, 12" = some [0x040500000000000C] ∧
    decode 0x040500000000000C = .command (.csrWrite 0x05 12)) ∧
  (assembleLine "csrw CFG_CTRL, 1" = some [0x0407000000000001] ∧
    decode 0x0407000000000001 = .command (.csrWrite 0x07 1)) ∧
  (assembleLine "clrerr 0x3FC" = some [0x04150000000003FC] ∧
    decode 0x04150000000003FC = .command (.csrWrite 0x15 0x3FC)) ∧
  (assembleLine "rxcancel" = some [0x0500000000000000] ∧ decode 0x0500000000000000 = .command .rxCancel) ∧
  isIllegal 0x0600000000000000 ∧ isIllegal 0x0200000000000001 ∧ isIllegal 0x0400000100000000

/-- R113: the operation codes, and a word is a command exactly when it matches the command's row of the table; the codes
0x06 to 0xFF are no command's. -/
def Obligations.OpcodeMatchMask : Prop :=
  ∀ w : CommandWord,
    (decode w = .command .nop ↔ w &&& 0xFFFFFFFFFFFFFFFF = 0x0000000000000000) ∧
    (decode w = .command .begin ↔ w &&& 0xFFFFFFFFFFFFFFFF = 0x0100000000000000) ∧
    (decode w = .command .step ↔ w &&& 0xFFFFFFFFFFFFFFFF = 0x0200000000000000) ∧
    (decode w = .command (.csrRead (w.extractLsb' 48 8)) ↔ w &&& 0xFF00FFFFFFFFFFFF = 0x0300000000000000) ∧
    (decode w = .command (.csrWrite (w.extractLsb' 48 8) (w.extractLsb' 0 32)) ↔
      w &&& 0xFF00FFFF00000000 = 0x0400000000000000) ∧
    (decode w = .command .rxCancel ↔ w &&& 0xFFFFFFFFFFFFFFFF = 0x0500000000000000) ∧
    (6 ≤ opOf w → isIllegal w)

/-- R118: the pseudo-instructions, for operands that are numbers. -/
def Obligations.AssemblerPseudo : Prop :=
  (∀ (t : List Char) (k : Nat), number t = some k → 1 ≤ k →
    commandsOf "steps" [t] = some (List.replicate k .step)) ∧
  (∀ t : List Char, commandsOf "clrerr" [t] = commandsOf "csrw" ["err".toList, [','], t]) ∧
  (∀ (t0 t1 : List Char) (b0 b1 : Nat), number t0 = some b0 → number t1 = some b1 → (b1 <<< 8) + b0 < 2 ^ 32 →
    commandsOf "setsync" [t0, [','], t1] = some [.csrWrite 0x01 (BitVec.ofNat 32 ((b1 <<< 8) + b0))]) ∧
  (∀ (t0 t1 t2 t3 : List Char) (role policy cycle pad : Nat), number t0 = some role → number t1 = some policy →
    number t2 = some cycle → number t3 = some pad →
    (pad <<< 8) + (cycle <<< 3) + (policy <<< 1) + role < 2 ^ 32 →
    commandsOf "setctrl" [t0, [','], t1, [','], t2, [','], t3] =
      some [.csrWrite 0x07 (BitVec.ofNat 32 ((pad <<< 8) + (cycle <<< 3) + (policy <<< 1) + role))])

/-! ### One step of the machine, reset -/

/-- R301: a step at a state whose next input is a command word runs `exec` of the decoded command, the input taken from
the list (log 1). A presented word is the very next to run. -/
def Obligations.StepRunsDecodedCommand : Prop :=
  (∀ (s : State) (w : CommandWord) (rest : List HostInput) (i : Instr),
    s.host.inputs = .command w :: rest → decode w = .command i →
    step s = exec i { s with host := { s.host with inputs := rest } }) ∧
  ∀ (s : State) (i : Instr), step (s.withFetchWord 64 (encode i).toNat) = exec i s

/-- R361: an illegal word raises ILLEGAL_CMD, code 8, and counts nothing. -/
def Obligations.IllegalWordExecution : Prop :=
  ∀ (s : State) (w : CommandWord) (rest : List HostInput), s.host.inputs = .command w :: rest → isIllegal w →
    step s = .next (answered .err 0 { s with
      err := s.err ||| 0x100
      host := { s.host with inputs := rest } })

/-- R390, R391 for the reset input: every element of the spec's state to its reset value, no event, no response; the
environment is not reset. MODEL'S CHOICE (log 3, log 6): what is kept beside it, and the arrays listing nothing. -/
def Obligations.ResetInputResets : Prop :=
  ∀ (s : State) (rest : List HostInput), s.host.inputs = .reset :: rest →
    step s = .next {
      coreState := .uninit
      cfg := ⟨0, 0, 0, 0, 0, 0, 0, 0⟩
      err := 0
      counters := ⟨0, 0, 0, 0, 0, 0, 0⟩
      txb := ⟨[], 0, 0⟩
      rxb := ⟨[], 0, 0⟩
      tx := ⟨[], 0, .idle, 0, 0⟩
      rx := ⟨.start, .searching, 0, 0⟩
      arb := ⟨.idle, .idle, false, 0⟩
      params := s.params
      host := { s.host with inputs := rest }
      env := s.env }

/-- R391: the reset values the spec gives, and the views after reset. Of the arrays, unspecified there, it says
nothing. -/
def Obligations.ResetValues : Prop :=
  State.reset.coreState = .uninit ∧
  State.reset.cfg = ⟨0, 0, 0, 0, 0, 0, 0, 0⟩ ∧
  State.reset.err = 0 ∧
  State.reset.counters = ⟨0, 0, 0, 0, 0, 0, 0⟩ ∧
  (State.reset.txb.writePos = 0 ∧ State.reset.txb.pending = 0 ∧
    State.reset.rxb.writePos = 0 ∧ State.reset.rxb.pending = 0) ∧
  (State.reset.tx.pos = 0 ∧ State.reset.tx.state = .idle ∧ State.reset.tx.tFill = 0 ∧ State.reset.tx.tWait = 0) ∧
  (State.reset.rx.phase = .start ∧ State.reset.rx.remaining = 0 ∧ State.reset.rx.tLink = 0 ∧
    State.reset.rx.sync = .searching) ∧
  (State.reset.arb.cur = .idle ∧ State.reset.arb.req = .idle ∧ State.reset.arb.pending = false ∧
    State.reset.arb.tReq = 0) ∧
  ∀ a ∈ [0x10, 0x11, 0x12, 0x13, 0x14, (0x15 : CsrAddr)],
    exec (.csrRead a) State.reset = .next (answered .ok 0 State.reset)

/-! ### The commands -/

/-- R303: NOP does nothing in every state, and its word is the all-zero word only. -/
def Obligations.NopCompletes : Prop :=
  (∀ s : State, exec .nop s = .next (answered .ok 0 s)) ∧
  decode 0x0000000000000000 = .command .nop ∧
  ∀ w : CommandWord, opOf w = 0 → w ≠ 0 → isIllegal w

/-- R306 in UNINIT: BAD_CONFIG without asking the radio, BEGIN_FAIL, or RUN with `t_link = now`. -/
def Obligations.BeginOutcomes : Prop :=
  ∀ s : State, s.coreState = .uninit →
    (configLegal s = false → exec .begin s = .next (answered .err 0 { s with
      coreState := .failed
      err := s.err ||| 0x002
      env := { s.env.afterTime with trace := s.env.trace ++ [.timeNow s.env.time] } })) ∧
    (configLegal s = true → s.env.afterTime.flag = false → exec .begin s = .next (answered .err 0 { s with
      coreState := .failed
      err := s.err ||| 0x001
      env := { s.env.afterTime.afterFlag with
        trace := s.env.trace ++ [.timeNow s.env.time, .radioBegin false] } })) ∧
    (configLegal s = true → s.env.afterTime.flag = true → exec .begin s = .next (answered .ok 0 { s with
      coreState := .run
      rx := { s.rx with tLink := s.env.time }
      env := { s.env.afterTime.afterFlag with
        trace := s.env.trace ++ [.timeNow s.env.time, .radioBegin true] } }))

/-- R307: which configurations are legal, from the registers' bits. -/
def Obligations.ConfigLegalRule : Prop :=
  ∀ s : State, configLegal s = true ↔
    (1 ≤ s.cfg.frameSize.toNat % 2 ^ 24 ∧ s.cfg.frameSize.toNat % 2 ^ 24 ≤ s.params.frameMax.toNat) ∧
    s.cfg.ctrl.toNat / 2 % 4 ≠ 3 ∧
    (s.cfg.ctrl.toNat % 2 = 0 → s.cfg.frameSize.toNat % 2 ^ 24 ≤ s.cfg.capTx.toNat % 2 ^ 24 ∧
      s.cfg.capTx.toNat % 2 ^ 24 ≤ s.params.txbDepthMax.toNat) ∧
    (s.cfg.ctrl.toNat % 2 = 1 → 1 ≤ s.cfg.capRx.toNat % 2 ^ 24 ∧
      s.cfg.capRx.toNat % 2 ^ 24 ≤ s.params.rxbDepthMax.toNat)

/-- R302: a wrong-state command changes nothing and answers `{ERR, 0}`; in the states of its row no command is
one. -/
def Obligations.WrongStateCommands : Prop :=
  ∀ s : State,
    (s.coreState ≠ .uninit → exec .begin s = .next (answered .err 0 s)) ∧
    (s.coreState ≠ .run → exec .step s = .next (answered .err 0 s) ∧ exec .rxCancel s = .next (answered .err 0 s)) ∧
    (s.coreState = .uninit → exec .begin s ≠ .next (answered .err 0 s)) ∧
    (s.coreState = .run → exec .step s ≠ .next (answered .err 0 s) ∧ exec .rxCancel s ≠ .next (answered .err 0 s)) ∧
    exec .nop s ≠ .next (answered .err 0 s) ∧
    exec (.csrRead 0x10) s ≠ .next (answered .err 0 s) ∧
    ∀ v, exec (.csrWrite 0x15 v) s ≠ .next (answered .err 0 s)

/-- R306, R95: between two resets, whatever the commands, `begin()` is asked at most once, and never outside UNINIT. -/
def Obligations.BeginAskedAtMostOnce : Prop :=
  ∀ (cmds : List Instr) (s t : State), execAll cmds s = .next t →
    ∃ evs, performs s evs t ∧ (beginsAsked evs).length ≤ 1 ∧ (s.coreState ≠ .uninit → beginsAsked evs = [])

/-- R316: CSR_READ of each assigned address, in every state. Nothing changes but the response. -/
def Obligations.CsrReadValues : Prop :=
  ∀ (s : State) (a : CsrAddr) (v : Word), (a, v) ∈ csrTable s →
    exec (.csrRead a) s = .next (answered .ok v s) ∧ decode (0x03#8 ++ a ++ 0#16 ++ 0#32) = .command (.csrRead a)

/-- R317: CSR_READ of an unassigned address. -/
def Obligations.CsrReadUnassigned : Prop :=
  ∀ (s : State) (a : CsrAddr),
    ((0x08 ≤ a.toNat ∧ a.toNat ≤ 0x0F) ∨ a.toNat = 0x16 ∨ a.toNat = 0x17 ∨ (0x1F ≤ a.toNat ∧ a.toNat ≤ 0xFF)) →
    exec (.csrRead a) s = .next (answered .err 0 { s with err := s.err ||| 0x200 })

/-- R321: the eight configuration registers in UNINIT, each under its mask, and ERR's write-1-to-clear in every
state. -/
def Obligations.CsrWriteEffects : Prop :=
  ∀ (s : State) (v : Word),
    (s.coreState = .uninit →
      exec (.csrWrite 0x00 v) s =
        .next (answered .ok 0 { s with cfg := { s.cfg with frameSize := v &&& 0x00FFFFFF } }) ∧
      exec (.csrWrite 0x01 v) s = .next (answered .ok 0 { s with cfg := { s.cfg with sync := v &&& 0x0000FFFF } }) ∧
      exec (.csrWrite 0x02 v) s = .next (answered .ok 0 { s with cfg := { s.cfg with flushTo := v } }) ∧
      exec (.csrWrite 0x03 v) s = .next (answered .ok 0 { s with cfg := { s.cfg with linkTo := v } }) ∧
      exec (.csrWrite 0x04 v) s = .next (answered .ok 0 { s with cfg := { s.cfg with hwWaitTo := v } }) ∧
      exec (.csrWrite 0x05 v) s = .next (answered .ok 0 { s with cfg := { s.cfg with capTx := v &&& 0x00FFFFFF } }) ∧
      exec (.csrWrite 0x06 v) s = .next (answered .ok 0 { s with cfg := { s.cfg with capRx := v &&& 0x00FFFFFF } }) ∧
      exec (.csrWrite 0x07 v) s = .next (answered .ok 0 { s with cfg := { s.cfg with ctrl := v &&& 0x0000FF0F } })) ∧
    (∃ e : BitVec 10, exec (.csrWrite 0x15 v) s = .next (answered .ok 0 { s with err := e }) ∧
      ∀ k, k < 10 → e.getLsbD k = (s.err.getLsbD k && !(decide (2 ≤ k) && v.getLsbD k))) ∧
    ∀ a : CsrAddr, decode (0x04#8 ++ a ++ 0#16 ++ v) = .command (.csrWrite a v)

/-- R322: the failures of CSR_WRITE. -/
def Obligations.CsrWriteFailures : Prop :=
  ∀ (s : State) (a : CsrAddr) (v : Word),
    (a.toNat ≤ 0x07 ∧ s.coreState ≠ .uninit) ∨
    ((0x10 ≤ a.toNat ∧ a.toNat ≤ 0x14) ∨ (0x18 ≤ a.toNat ∧ a.toNat ≤ 0x1E)) ∨
    ((0x08 ≤ a.toNat ∧ a.toNat ≤ 0x0F) ∨ a.toNat = 0x16 ∨ a.toNat = 0x17 ∨ (0x1F ≤ a.toNat ∧ a.toNat ≤ 0xFF)) →
    exec (.csrWrite a v) s = .next (answered .err 0 { s with err := s.err ||| 0x200 })

/-- R316 and R321 together: in UNINIT a configuration register reads back the bits written, and every other
configuration register reads as before. -/
def Obligations.ConfigReadBack : Prop :=
  ∀ (s : State) (a b : CsrAddr) (v m old : Word), s.coreState = .uninit → (a, m) ∈ maskTable →
    (b, old) ∈ csrTable s → b.toNat ≤ 0x07 →
    ∃ t, exec (.csrWrite a v) s = .next t ∧
      exec (.csrRead b) t = .next (answered .ok (if b = a then v &&& m else old) t)

/-- R38: the configuration lock, over every sequence of commands. -/
def Obligations.ConfigLocked : Prop :=
  (∀ (s : State) (a : CsrAddr) (v : Word), a.toNat ≤ 0x07 → s.coreState ≠ .uninit → csrFails (.csrWrite a v) s) ∧
  (∀ s t : State, exec .begin s = .next t → t.cfg = s.cfg) ∧
  ∀ (cmds : List Instr) (s t : State), s.coreState ≠ .uninit → execAll cmds s = .next t → t.cfg = s.cfg

/-- R23, R367: `core_state` is written by BEGIN only, in UNINIT only, and never back to UNINIT. -/
def Obligations.CoreStateWriters : Prop :=
  ∀ (i : Instr) (s t : State), exec i s = .next t → t.coreState ≠ s.coreState →
    i = .begin ∧ s.coreState = .uninit ∧ t.coreState ≠ .uninit

/-- R367: FAILED lasts through every sequence of commands; each completes, performs no event, and changes nothing but
ERR's clearable bits and the responses. -/
def Obligations.FailedUntilReset : Prop :=
  ∀ (cmds : List Instr) (s : State), s.coreState = .failed →
    ∃ t, execAll cmds s = .next t ∧ t = { s with err := t.err, host := t.host } ∧
      t.err.extractLsb' 0 2 = s.err.extractLsb' 0 2 ∧
      ∃ rs, t.host = { s.host with responses := s.host.responses ++ rs } ∧ rs.length = cmds.length ∧
        ∀ p ∈ cmds.zip rs, (p.1 = .step ∨ p.1 = .begin ∨ p.1 = .rxCancel) → p.2 = ⟨.err, 0⟩

/-- R352 with the codes and counters of R353 to R362. -/
def Obligations.RaiseRule : Prop :=
  ∀ s : State,
    raise .beginFail s = { s with err := s.err ||| 0x001 } ∧
    raise .badConfig s = { s with err := s.err ||| 0x002 } ∧
    raise .txOverrun s = { s with
      err := s.err ||| 0x004
      counters := { s.counters with ovrTx := s.counters.ovrTx + 1 } } ∧
    raise .rxOverrun s = { s with
      err := s.err ||| 0x008
      counters := { s.counters with ovrRx := s.counters.ovrRx + 1 } } ∧
    raise .linkTimeout s = { s with
      err := s.err ||| 0x010
      counters := { s.counters with linkTo := s.counters.linkTo + 1 } } ∧
    raise .modeTimeout s = { s with
      err := s.err ||| 0x020
      counters := { s.counters with hwTo := s.counters.hwTo + 1 } } ∧
    raise .drainTimeout s = { s with
      err := s.err ||| 0x040
      counters := { s.counters with hwTo := s.counters.hwTo + 1 } } ∧
    raise .syncLoss s = { s with
      err := s.err ||| 0x080
      counters := { s.counters with syncLoss := s.counters.syncLoss + 1 } } ∧
    raise .illegalCmd s = { s with err := s.err ||| 0x100 } ∧
    raise .csrErr s = { s with err := s.err ||| 0x200 }

/-- R45, R46: only a write to ERR clears a bit of it, and never bit 0 or 1; only STEP changes an event counter. -/
def Obligations.ErrorsAndCountersSticky : Prop :=
  ∀ (i : Instr) (s t : State), exec i s = .next t →
    ((∀ v, i ≠ .csrWrite 0x15 v) → s.err ||| t.err = t.err) ∧
    (∀ k, k < 2 → s.err.getLsbD k = true → t.err.getLsbD k = true) ∧
    (i ≠ .step → t.counters = s.counters)

/-- R402: writing back the ERR value read clears exactly the bits seen (bits 0 and 1 apart), whatever came between. -/
def Obligations.ErrReadWriteBack : Prop :=
  ∀ (s u : State) (cmds : List Instr), execAll cmds s = .next u →
    exec (.csrRead 0x15) s = .next (answered .ok (BitVec.ofNat 32 s.err.toNat) s) ∧
    ∃ e : BitVec 10, exec (.csrWrite 0x15 (BitVec.ofNat 32 s.err.toNat)) u = .next (answered .ok 0 { u with err := e }) ∧
      ∀ k, k < 10 → e.getLsbD k = (u.err.getLsbD k && (decide (k < 2) || !s.err.getLsbD k))

/-- R327: RX_CANCEL in RUN; of a transmitter it changes nothing. -/
def Obligations.RxCancelCompletes : Prop :=
  (∀ s : State, s.coreState = .run →
    exec .rxCancel s = .next (answered .ok 0 { s with rx := { s.rx with sync := .searching, remaining := 0 } })) ∧
  (∀ s : State, transmitting s → exec .rxCancel s = .next (answered .ok 0 s)) ∧
  decode 0x0500000000000000 = .command .rxCancel

/-- R300: one response per command; its data is the register read by a successful CSR_READ, else 0. -/
def Obligations.OneResponse : Prop :=
  ∀ (i : Instr) (s t : State), exec i s = .next t →
    ∃ st d, t.host = { s.host with responses := s.host.responses ++ [⟨st, d⟩] } ∧
      ((∃ a, i = .csrRead a ∧ st = .ok ∧ (a, d) ∈ csrTable s) ∨
        (((∀ a, i ≠ .csrRead a) ∨ st = .err) ∧ d = 0))

/-- R66: BEGIN in UNINIT and STEP in RUN ask the time exactly once, first; no other command performs an event. -/
def Obligations.TimeAskedOnce : Prop :=
  ∀ (i : Instr) (s t : State), exec i s = .next t →
    ∃ evs, performs s evs t ∧
      if (i = .begin ∧ s.coreState = .uninit) ∨ (i = .step ∧ s.coreState = .run) then
        timesAsked evs = [s.env.time] ∧ evs.head? = some (.timeNow s.env.time)
      else evs = []

/-- R310: in RUN a STEP completes and answers `{OK, 0}` whatever its phases recorded, and what it leaves alone: the core
state, the configuration, the other role's state, its counters and its ERR bits, and every ERR bit already set. -/
def Obligations.StepCompletes : Prop :=
  ∀ s : State, Inv s → s.coreState = .run →
    ∃ evs t, exec .step s = .next t ∧ performs s (.timeNow s.env.time :: evs) t ∧
      t.host = { s.host with responses := s.host.responses ++ [⟨.ok, 0⟩] } ∧
      t.coreState = .run ∧ t.cfg = s.cfg ∧ t.params = s.params ∧ s.err ||| t.err = t.err ∧
      (s.cfg.role = .tx → t.rxb = s.rxb ∧ t.rx = s.rx ∧ t.err &&& 0x39B = s.err &&& 0x39B ∧
        t.counters = { s.counters with
          framesTx := t.counters.framesTx, ovrTx := t.counters.ovrTx, hwTo := t.counters.hwTo }) ∧
      (s.cfg.role = .rx → t.txb = s.txb ∧ t.tx = s.tx ∧ t.err &&& 0x347 = s.err &&& 0x347 ∧
        t.counters = { s.counters with
          framesRx := t.counters.framesRx, ovrRx := t.counters.ovrRx, linkTo := t.counters.linkTo,
          syncLoss := t.counters.syncLoss, hwTo := t.counters.hwTo })

/-! ### The invariant -/

/-- The invariant holds after reset, and after the reset input from any state. -/
def Obligations.ResetMeetsInvariant : Prop := Inv State.reset ∧ ∀ s, Inv (applyReset s)

/-- Every step keeps the invariant: among it the buffers' bounds (R50), the arbiter's (R55, R273), `remaining` (R54),
`tx_pos` (R52), the legal configuration in RUN, FAILED exactly with a fatal cause, canonical arrays. -/
def Obligations.StepKeepsInvariant : Prop := ∀ s t : State, Inv s → step s = .next t → Inv t

/-- R145, R270: no step from the invariant stops: the internal-invariant faults are unreachable, and nothing is
refused. -/
def Obligations.NoFaultFromInvariant : Prop := ∀ s : State, Inv s → ∃ t, step s = .next t

/-! ### The ports -/

/-- R95: over every sequence of commands from every state, each event stands right after the one it needs (log 11 for
the dummy byte). -/
def Obligations.PortDiscipline : Prop :=
  ∀ (cmds : List Instr) (s t : State), execAll cmds s = .next t →
    ∃ evs, performs s evs t ∧ disciplined none evs = true

/-- R68: a transmitter never touches the sink and never reads the radio FIFO; a receiver never touches the source and
never writes the radio FIFO. -/
def Obligations.RolePorts : Prop :=
  ∀ (i : Instr) (s t : State), exec i s = .next t →
    ∃ evs, performs s evs t ∧
      (s.cfg.role = .tx → readiesAsked evs = [] ∧ sinkWrites evs = [] ∧ radioReads evs = []) ∧
      (s.cfg.role = .rx → validsAsked evs = [] ∧ sourceBytes evs = [] ∧ .srcTake ∉ evs ∧ .srcOverrun ∉ evs ∧
        radioWrites evs = [])

/-- R61, R273 (4): the radio FIFO is written only with Tx confirmed and no request pending, and read only with Rx
confirmed and no request pending. -/
def Obligations.FifoOnlyInConfirmedMode : Prop :=
  ∀ s t : State, Inv s → exec .step s = .next t →
    ∃ evs, performs s evs t ∧
      (radioWrites evs ≠ [] → s.arb.cur = .tx ∧ s.arb.pending = false) ∧
      (radioReads evs ≠ [] → s.arb.cur = .rx ∧ s.arb.pending = false)

/-- The transition graph of the confirmed mode (44_mode_scheduler.md section 1, R273 (3)). -/
def Obligations.ModeGraph : Prop :=
  ∀ s t : State, Inv s → s.coreState = .run → exec .step s = .next t →
    ∃ evs, performs s evs t ∧
      (s.cfg.role = .tx → t.arb.cur ≠ .rx ∧ ∀ m ∈ modesSet evs, m ≠ .rx) ∧
      (s.cfg.role = .rx → t.arb.cur ≠ .tx ∧ ∀ m ∈ modesSet evs, m ≠ .tx) ∧
      (s.cfg.role = .rx → s.cfg.rxIdleCycle = false →
        (∀ m ∈ modesSet evs, m ≠ .idle) ∧ (s.arb.cur = .rx → t.arb.cur = .rx))

/-- R287, R242: the bounds of one STEP. -/
def Obligations.EventBounds : Prop :=
  ∀ s t : State, Inv s → s.coreState = .run → exec .step s = .next t →
    ∃ evs, performs s evs t ∧ (modeReadiesAsked evs).length ≤ 1 ∧ (modesSet evs).length ≤ 2 ∧
      (s.cfg.role = .tx →
        (sourceBytes evs).length ≤ s.cfg.capTxBytes.toNat ∧
        (validsAsked evs).length = (sourceBytes evs).length + 1 ∧
        (validsAsked evs).length + (sourceBytes evs).length ≤ 2 * s.cfg.capTxBytes.toNat + 2 ∧
        (radioWrites evs).length ≤ (s.cfg.n.toNat + 2) * (1 + s.cfg.capTxBytes.toNat / s.cfg.n.toNat) ∧
        (fullsAsked evs).length ≤ (radioWrites evs).length + 1 ∧ (txDonesAsked evs).length ≤ 1) ∧
      (s.cfg.role = .rx →
        (radioReads evs).length ≤ 1 + s.cfg.n.toNat ∧
        (notEmptiesAsked evs).length ≤ 2 + s.cfg.n.toNat ∧
        (sinkWrites evs).length ≤ s.rxb.pending.toNat + s.cfg.n.toNat)

/-! ### The byte streams -/

/-- R81, R88, R194, R241 (4), the transmit side: from a running REJECT transmitter, over any commands, the bytes written
are whole frame images in order, the one in progress apart, and their data are the source's bytes in order. -/
def Obligations.TransmitStream : Prop :=
  ∀ (cmds : List Instr) (s : State), transmitting s → s.cfg.policy = .reject →
    ∃ (evs : List Event) (frames : List (List Byte)) (t : State), execAll cmds s = .next t ∧ performs s evs t ∧ transmitting t ∧
      radioWrites evs ++ inFlight t = inFlight s ++ frames.flatMap (frameImage s.cfg) ∧
      frames.flatten ++ t.txb.held = s.txb.held ++ sourceBytes evs ∧
      ∀ d ∈ frames, 1 ≤ d.length ∧ d.length ≤ s.cfg.n.toNat

/-- R233 to R237, R241 (1) and (2): over any number of STEPs with the link timeout disabled, the frames are those of the
radio's bytes read as one stream, whatever the overruns; with no overrun left recorded, what reaches RXB and the sink is
their payload. -/
def Obligations.ReceiveStream : Prop :=
  ∀ (k : Nat) (s : State), receiving s → s.cfg.linkTo = 0 →
    ∃ evs t, execAll (List.replicate k .step) s = .next t ∧ performs s evs t ∧ receiving t ∧
      t.rx.sync = (deframe s.cfg s.rx.sync s.rx.remaining.toNat (radioReads evs)).sync ∧
      t.rx.remaining.toNat = (deframe s.cfg s.rx.sync s.rx.remaining.toNat (radioReads evs)).remaining ∧
      t.counters.framesRx = s.counters.framesRx +
        BitVec.ofNat 32 (deframe s.cfg s.rx.sync s.rx.remaining.toNat (radioReads evs)).frames ∧
      (t.err.getLsbD 3 = false →
        sinkWrites evs ++ t.rxb.held =
          s.rxb.held ++ (deframe s.cfg s.rx.sync s.rx.remaining.toNat (radioReads evs)).payload)

/-- R241 (4) for the streams alone: reading k frame images gives back k payloads. -/
def Obligations.FrameImagesDeframe : Prop :=
  ∀ (c : ConfigRegs) (frames : List (List Byte)), 1 ≤ c.n.toNat → (∀ d ∈ frames, d.length ≤ c.n.toNat) →
    deframe c .searching 0 (frames.flatMap (frameImage c)) =
      ⟨frames.flatMap (padded c), .searching, 0, frames.length⟩

/-- R241 (4), end to end: a transmitter that ends in TX_IDLE and a receiver of the same framing that reads exactly the
bytes the transmitter wrote, with no overrun recorded, no link timeout and no RX_CANCEL: the sink and RXB hold the
source's bytes in order, in frames padded to N. -/
def Obligations.EndToEnd : Prop :=
  ∀ (cmds : List Instr) (k : Nat) (a r t u : State) (sent got : List Event),
    transmitting a → a.cfg.policy = .reject → a.tx.state = .idle → a.txb.pending = 0 →
    receiving r → r.cfg.linkTo = 0 → r.rx.sync = .searching → r.rxb.pending = 0 →
    r.cfg.n = a.cfg.n → r.cfg.sync0 = a.cfg.sync0 → r.cfg.sync1 = a.cfg.sync1 →
    execAll cmds a = .next t → performs a sent t → t.tx.state = .idle →
    execAll (List.replicate k .step) r = .next u → performs r got u → u.err.getLsbD 3 = false →
    radioReads got = radioWrites sent →
    ∃ frames : List (List Byte),
      frames.flatten ++ t.txb.held = sourceBytes sent ∧ (∀ d ∈ frames, 1 ≤ d.length ∧ d.length ≤ a.cfg.n.toNat) ∧
      sinkWrites got ++ u.rxb.held = frames.flatMap (padded a.cfg) ∧ u.rx.sync = .searching ∧
      u.counters.framesRx = r.counters.framesRx + BitVec.ofNat 32 frames.length ∧
      ((∀ d ∈ frames, d.length = a.cfg.n.toNat) →
        sinkWrites got ++ u.rxb.held ++ t.txb.held = sourceBytes sent)

/-- R236: with a sink that is always ready a STEP leaves RXB empty and records no RX_OVERRUN. -/
def Obligations.AlwaysReadySink : Prop :=
  ∀ s t : State, receiving s → exec .step s = .next t →
    ∃ evs, performs s evs t ∧ ((∀ b ∈ readiesAsked evs, b = true) →
      t.rxb.held = [] ∧ t.rxb.pending = 0 ∧ t.counters.ovrRx = s.counters.ovrRx ∧
      (sinkWrites evs).Sublist (s.rxb.held ++ radioReads evs))

/-- R391, R50, R52: no behaviour depends on the bytes the spec leaves unspecified: states alike but for them stay alike
over any commands, with the same events and responses; reset with any arrays is alike to reset (log 6). -/
def Obligations.UnspecifiedBytesUnobservable : Prop :=
  (∀ (cmds : List Instr) (s t : State), Inv s → Alike s t →
    ∃ s' t', execAll cmds s = .next s' ∧ execAll cmds t = .next t' ∧ Alike s' t' ∧
      t'.env.trace = s'.env.trace ∧ t'.host.responses = s'.host.responses) ∧
  ∀ d1 d2 d3 : Memory, Alike State.reset { State.reset with
    txb := { State.reset.txb with data := d1 }
    rxb := { State.reset.rxb with data := d2 }
    tx := { State.reset.tx with payload := d3 } }

/-! ### The StreamBuffer -/

/-- R141: the four results of SB_append, and what each leaves. -/
def Obligations.AppendRule : Prop :=
  ∀ (b : Buf) (x : Byte) (s : State), BufferReady b s →
    ((s.buf b).pending < s.capacity b → ∃ r, sbAppend b x s = .next (.stored, s.setBuf b r) ∧
      r.held = (s.buf b).held ++ [x] ∧ r.pending = (s.buf b).pending + 1 ∧ r.writePos = (s.buf b).writePos + 1) ∧
    ((s.buf b).pending = s.capacity b →
      (s.cfg.policy = .reject → sbAppend b x s = .next (.rejected, raise b.overrun s)) ∧
      (s.cfg.policy = .dropNew → sbAppend b x s = .next (.droppedNew, raise b.overrun s)) ∧
      (s.cfg.policy = .dropOld → ∃ r, sbAppend b x s = .next (.droppedOld, (raise b.overrun s).setBuf b r) ∧
        r.held = (s.buf b).held.drop 1 ++ [x] ∧ r.pending = (s.buf b).pending ∧ r.writePos = (s.buf b).writePos))

/-- R142: SB_append_list over any list, by policy. -/
def Obligations.AppendListRule : Prop :=
  ∀ (b : Buf) (l : List Byte) (s : State), BufferReady b s → s.cfg.policy ≠ .reserved →
    ∃ r t, sbAppendList b l s =
        .next ((min l.length ((s.capacity b).toNat - (s.buf b).pending.toNat),
          decide ((s.capacity b).toNat - (s.buf b).pending.toNat < l.length)), t) ∧
      r.held = keptBytes s.cfg.policy (s.capacity b).toNat ((s.buf b).held ++ l) ∧ r.writePos = r.pending ∧
      t = (Nat.iterate (raise b.overrun)
        (if s.cfg.policy = .reject then (if (s.capacity b).toNat - (s.buf b).pending.toNat < l.length then 1 else 0)
          else l.length - ((s.capacity b).toNat - (s.buf b).pending.toNat)) s).setBuf b r

/-- R143 within its precondition; beyond it, the fault that R145 calls an internal invariant (log 8: DEDUCED). -/
def Obligations.TakeRule : Prop :=
  ∀ (b : Buf) (n : Count) (s : State), BufferReady b s →
    (n ≤ (s.buf b).pending → ∃ r, sbTake b n s = .next ((s.buf b).held.take n.toNat, s.setBuf b r) ∧
      r.held = (s.buf b).held.drop n.toNat ∧ r.pending = (s.buf b).pending - n ∧ r.writePos = r.pending) ∧
    sbTake b 0 s = .next ([], s) ∧
    ((s.buf b).pending < n → sbTake b n s = .fault .takeBeyondPending)

/-- R146: taking n and then m gives the bytes that taking n + m gives, and leaves the same bytes held. -/
def Obligations.FifoLaws : Prop :=
  ∀ (b : Buf) (n m : Count) (s : State), BufferReady b s → n.toNat + m.toNat ≤ (s.buf b).pending.toNat →
    ∃ l1 t1 l2 t2 t, sbTake b n s = .next (l1, t1) ∧ sbTake b m t1 = .next (l2, t2) ∧
      sbTake b (n + m) s = .next (l1 ++ l2, t) ∧ (t2.buf b).held = (t.buf b).held ∧
      (t2.buf b).pending = (t.buf b).pending ∧ (t2.buf b).writePos = (t.buf b).writePos ∧
      t2 = t.setBuf b (t2.buf b)

/-- R147: the source drain, whatever the source answers; and with the source's answers foretold, it takes exactly the
bytes offered, in order, and ends as the rule says. -/
def Obligations.SourceDrain : Prop :=
  ∀ (now : Word) (s : State), BufferReady .txb s → s.cfg.policy ≠ .reserved →
    (∃ taken tail d t, drainEnds taken tail s ∧ Filled now taken tail s d ∧
      sbFillFromSource now s = .next t ∧ t = { d with env := t.env } ∧
      performs s (taken.flatMap takeEvents ++ tail) t) ∧
    ∀ (taken : List Byte) (tail evs : List Event) (fs : List Bool) (bs : List Byte) (ts : List Word),
      drainEnds taken tail s → evs = taken.flatMap takeEvents ++ tail → foretells evs fs bs ts s →
      ∃ d, Filled now taken tail s d ∧ sbFillFromSource now s = .next (performed fs bs ts evs d)

/-! ### The SyncDetector -/

/-- R170: the transition table. -/
def Obligations.SyncFeedTable : Prop :=
  ∀ sync0 sync1 b : Byte,
    (b = sync0 → sdFeed sync0 sync1 .searching b = (.firstByteMatched, false)) ∧
    (b ≠ sync0 → sdFeed sync0 sync1 .searching b = (.searching, false)) ∧
    (b = sync1 → sdFeed sync0 sync1 .firstByteMatched b = (.locked, false)) ∧
    (b ≠ sync1 → b = sync0 → sdFeed sync0 sync1 .firstByteMatched b = (.firstByteMatched, true)) ∧
    (b ≠ sync1 → b ≠ sync0 → sdFeed sync0 sync1 .firstByteMatched b = (.searching, true))

/-- R175: fed from Searching, the detector locks at the first occurrence of the marker and at no other place; before
that it is in FirstByteMatched exactly when the last byte was SYNC0. -/
def Obligations.LocksAtFirstMarker : Prop :=
  ∀ (sync0 sync1 : Byte) (l : List Byte),
    (sdRun sync0 sync1 .searching l ≠ .locked →
      (sdRun sync0 sync1 .searching l = .firstByteMatched ↔ l.getLast? = some sync0)) ∧
    ∀ b, (sdRun sync0 sync1 .searching l ≠ .locked ∧ sdRun sync0 sync1 .searching (l ++ [b]) = .locked) ↔
      (l.getLast? = some sync0 ∧ b = sync1 ∧ ¬ hasMarker sync0 sync1 l)

/-! ### STEPs with the environment's answers foretold -/

/-- R191, R192, R270, R271: a transmitter in TX_IDLE with nothing pending and a frame due, counting the bytes its source
offers in this STEP, commits it, requests Tx and polls once. -/
def Obligations.TxCommitsFrame : Prop :=
  ∀ (s : State) (now : Word) (taken : List Byte) (tail evs : List Event) (ready : Bool) (fs : List Bool)
    (bs : List Byte) (ts : List Word),
    transmitting s → s.tx.state = .idle → s.arb.pending = false → drainEnds taken tail s →
    (s.cfg.n.toNat ≤ (queued taken s).length ∨
      (0 < (queued taken s).length ∧ s.cfg.flushTo.toNat ≤ (now - fillTime now taken s).toNat)) →
    evs = .timeNow now :: taken.flatMap takeEvents ++ tail ++ [.radioSetMode .tx, .radioModeReady ready] →
    foretells evs fs bs ts s →
    ∃ d r payload, Filled now taken tail s d ∧ exec .step s = .next (stepped fs bs ts evs { d with
          txb := r
          tx := { d.tx with payload := payload, pos := 0, state := .waitMode }
          arb := requested .tx .idle now ready }) ∧
      r.held = (queued taken s).drop s.cfg.n.toNat ∧ r.writePos = r.pending ∧
      s.cfg.sync0 :: s.cfg.sync1 :: payload.prefixBytes s.cfg.n.toNat =
        frameImage s.cfg ((queued taken s).take s.cfg.n.toNat) ∧
      ∀ i, s.cfg.n.toNat ≤ i → payload.read i = s.tx.payload.read i

/-- R191: with no frame due, or a transition still pending, a STEP in TX_IDLE drains the source and commits no frame. -/
def Obligations.TxIdleWaits : Prop :=
  ∀ (s : State) (now : Word) (taken : List Byte) (tail evs : List Event) (ready : Bool) (fs : List Bool)
    (bs : List Byte) (ts : List Word),
    transmitting s → s.tx.state = .idle → drainEnds taken tail s → foretells evs fs bs ts s →
    (s.arb.pending = false → (queued taken s).length < s.cfg.n.toNat →
      ((queued taken s).length = 0 ∨ (now - fillTime now taken s).toNat < s.cfg.flushTo.toNat) →
      evs = .timeNow now :: taken.flatMap takeEvents ++ tail →
      ∃ d, Filled now taken tail s d ∧ exec .step s = .next (stepped fs bs ts evs d)) ∧
    (s.arb.pending = true →
      evs = .timeNow now :: taken.flatMap takeEvents ++ tail ++ pollEvents now ready s →
      ∃ d, Filled now taken tail s d ∧ exec .step s = .next (stepped fs bs ts evs (polled now ready d)))

/-- R193, R194, R196: a transmitter with Tx confirmed, starting a frame or resuming one at any `tx_pos`, writes what is
left of it and of the full frames TXB then holds, each chained to the one before, byte by byte in order, each after a
false `fifo_full`: all of it where the radio FIFO never fills, and then it drains; up to the full FIFO otherwise. -/
def Obligations.FrameSentInOneStep : Prop :=
  ∀ (s : State) (now : Word) (taken wire : List Byte) (tail evs : List Event) (fs : List Bool) (bs : List Byte)
    (ts : List Word),
    transmitting s → s.tx.state = .send ∨ (s.tx.state = .waitMode ∧ s.arb.pending = false) →
    drainEnds taken tail s → foretells evs fs bs ts s →
    wire = (wireImage s).drop s.tx.pos.toNat ++ framesOnWire s.cfg.sync0 s.cfg.sync1 s.cfg.n.toNat
      ((queued taken s).length / s.cfg.n.toNat) (queued taken s) →
    (evs = .timeNow now :: taken.flatMap takeEvents ++ tail ++ wire.flatMap writeEvents →
      ∃ d r payload, Filled now taken tail s d ∧ exec .step s = .next (stepped fs bs ts evs { d with
          txb := r
          tx := { d.tx with
            payload := payload, pos := BitVec.ofNat 25 (s.cfg.n.toNat + 2), state := .drain, tWait := now }
          counters := { d.counters with
            framesTx := s.counters.framesTx + BitVec.ofNat 32 ((queued taken s).length / s.cfg.n.toNat + 1) } }) ∧
        sentFrames ((queued taken s).length / s.cfg.n.toNat) (queued taken s) s r payload) ∧
    ∀ j, j < wire.length →
      evs = .timeNow now :: taken.flatMap takeEvents ++ tail ++ (wire.take j).flatMap writeEvents
        ++ [.radioFifoFull true] →
      ∃ d r payload, Filled now taken tail s d ∧ exec .step s = .next (stepped fs bs ts evs { d with
          txb := r
          tx := { d.tx with
            payload := payload
            pos := BitVec.ofNat 25 ((s.tx.pos.toNat + j) % (s.cfg.n.toNat + 2))
            state := .send }
          counters := { d.counters with
            framesTx := s.counters.framesTx + BitVec.ofNat 32 ((s.tx.pos.toNat + j) / (s.cfg.n.toNat + 2)) } }) ∧
        sentFrames ((s.tx.pos.toNat + j) / (s.cfg.n.toNat + 2)) (queued taken s) s r payload

/-- R195: the three outcomes of the drain poll, with the first poll of the return to Idle. -/
def Obligations.TxDrainPoll : Prop :=
  ∀ (s : State) (now : Word) (taken : List Byte) (tail evs : List Event) (ready : Bool) (fs : List Bool)
    (bs : List Byte) (ts : List Word),
    transmitting s → s.tx.state = .drain → drainEnds taken tail s → foretells evs fs bs ts s →
    (evs = .timeNow now :: taken.flatMap takeEvents ++ tail
        ++ [.radioTxDone true, .radioSetMode .idle, .radioModeReady ready] →
      ∃ d, Filled now taken tail s d ∧ exec .step s = .next (stepped fs bs ts evs { d with
        tx := { d.tx with state := .idle }
        arb := requested .idle .tx now ready })) ∧
    (evs = .timeNow now :: taken.flatMap takeEvents ++ tail
        ++ [.radioTxDone false, .radioSetMode .idle, .radioModeReady ready] → waitExpired now s.tx.tWait s →
      ∃ d, Filled now taken tail s d ∧ exec .step s = .next (stepped fs bs ts evs { d with
        tx := { d.tx with state := .idle }
        arb := requested .idle .tx now ready
        err := d.err ||| 0x040
        counters := { d.counters with hwTo := d.counters.hwTo + 1 } })) ∧
    (evs = .timeNow now :: taken.flatMap takeEvents ++ tail ++ [.radioTxDone false] →
      ¬ waitExpired now s.tx.tWait s →
      ∃ d, Filled now taken tail s d ∧ exec .step s = .next (stepped fs bs ts evs d))

/-- R271, R272: a pending request in either role, when nothing else but its drain or delivery happens in the STEP:
confirmed; re-issued with MODE_TIMEOUT; or still waited for. -/
def Obligations.ModePollPending : Prop :=
  ∀ (s : State) (now : Word) (ready : Bool) (evs : List Event) (fs : List Bool) (bs : List Byte) (ts : List Word),
    Inv s → s.coreState = .run → s.arb.pending = true → foretells evs fs bs ts s →
    (∀ taken tail, s.cfg.role = .tx → drainEnds taken tail s →
      evs = .timeNow now :: taken.flatMap takeEvents ++ tail ++ pollEvents now ready s →
      ∃ d, Filled now taken tail s d ∧ exec .step s = .next (stepped fs bs ts evs (polled now ready d))) ∧
    ∀ k, s.cfg.role = .rx → linkAlive now s →
      evs = .timeNow now :: sinkTakes s.rxb.held k ++ pollEvents now ready s →
      ∃ d, Served k [] s d ∧ exec .step s = .next (stepped fs bs ts evs (polled now ready d))

/-- R231, R238: in RX_START, and in RX_CYCLE_IDLE once Idle is confirmed, a receiver requests Rx. -/
def Obligations.RxRequestsRx : Prop :=
  ∀ (s : State) (now : Word) (k : Nat) (ready : Bool) (evs : List Event) (fs : List Bool) (bs : List Byte)
    (ts : List Word),
    receiving s → s.rx.phase = .start ∨ (s.rx.phase = .cycleIdle ∧ s.arb.pending = false) → linkAlive now s →
    evs = .timeNow now :: sinkTakes s.rxb.held k ++ [.radioSetMode .rx, .radioModeReady ready] →
    foretells evs fs bs ts s →
    ∃ d, Served k [] s d ∧ exec .step s = .next (stepped fs bs ts evs { d with
      rx := { d.rx with phase := .waitMode }
      arb := requested .rx .idle now ready })

/-- R232, R233, R234: an unlocked receiver with Rx confirmed feeds at most one byte to the detector in a STEP; a spurious
match raises SYNC_LOSS; a completed marker sets `remaining` to N. -/
def Obligations.RxFeedsOneByte : Prop :=
  ∀ (s : State) (now : Word) (k : Nat) (b : Byte) (evs : List Event) (fs : List Bool) (bs : List Byte)
    (ts : List Word),
    receiving s → s.rx.phase = .active ∨ (s.rx.phase = .waitMode ∧ s.arb.pending = false) → s.rx.sync ≠ .locked →
    linkAlive now s → foretells evs fs bs ts s →
    (evs = servedEvents now k [] [] s ++ [.radioFifoNotEmpty false] →
      ∃ d, Served k [] s d ∧
        exec .step s = .next (stepped fs bs ts evs { d with rx := { d.rx with phase := .active } })) ∧
    (evs = servedEvents now k [b] [] s → s.rx.sync = .searching →
      ∃ d, Served k [] s d ∧ exec .step s = .next (stepped fs bs ts evs { d with rx := { d.rx with
        phase := .active
        sync := if b = s.cfg.sync0 then .firstByteMatched else .searching } })) ∧
    (evs = servedEvents now k [b] [] s → s.rx.sync = .firstByteMatched → b ≠ s.cfg.sync1 →
      ∃ d, Served k [] s d ∧ exec .step s = .next (stepped fs bs ts evs (syncLost { d with
        rx := { d.rx with
          phase := .active
          sync := if b = s.cfg.sync0 then .firstByteMatched else .searching } }))) ∧
    (evs = servedEvents now k [b] [] s ++ [.radioFifoNotEmpty false] → s.rx.sync = .firstByteMatched →
      b = s.cfg.sync1 →
      ∃ d, Served k [] s d ∧ exec .step s = .next (stepped fs bs ts evs { d with
        rx := { d.rx with phase := .active, sync := .locked, remaining := s.cfg.n } }))

/-- R235, R236, R237: the payload reads of a receiver that is locked, or that this STEP's byte locks. Each byte is put in
RXB, with the overrun where that is full, and delivered as far as the sink is ready. The last byte completes the frame,
and with RX_IDLE_CYCLE = 1 requests Idle; a FIFO that empties before it leaves the rest to a later STEP. -/
def Obligations.FrameReceived : Prop :=
  ∀ (s : State) (now : Word) (k : Nat) (fed : List Byte) (pays : List (Byte × Nat)) (ready : Bool)
    (evs : List Event) (fs : List Bool) (bs : List Byte) (ts : List Word),
    receiving s → s.rx.phase = .active →
    (s.rx.sync = .locked ∧ fed = []) ∨ (s.rx.sync = .firstByteMatched ∧ fed = [s.cfg.sync1]) →
    foretells evs fs bs ts s →
    (pays.length = payloadDue s fed → s.cfg.rxIdleCycle = false → evs = servedEvents now k fed pays s →
      ∃ d, Served k pays s d ∧ exec .step s = .next (stepped fs bs ts evs { d with
        rx := { d.rx with sync := .searching, remaining := 0, tLink := now }
        counters := { d.counters with framesRx := d.counters.framesRx + 1 } })) ∧
    (pays.length = payloadDue s fed → s.cfg.rxIdleCycle = true →
      evs = servedEvents now k fed pays s ++ [.radioSetMode .idle, .radioModeReady ready] →
      ∃ d, Served k pays s d ∧ exec .step s = .next (stepped fs bs ts evs { d with
        rx := { d.rx with phase := .cycleIdle, sync := .searching, remaining := 0, tLink := now }
        arb := requested .idle .rx now ready
        counters := { d.counters with framesRx := d.counters.framesRx + 1 } })) ∧
    (pays.length < payloadDue s fed → linkAlive now s →
      evs = servedEvents now k fed pays s ++ [.radioFifoNotEmpty false] →
      ∃ d, Served k pays s d ∧ exec .step s = .next (stepped fs bs ts evs { d with
        rx := { d.rx with
          sync := .locked, remaining := BitVec.ofNat 24 (payloadDue s fed - pays.length) } }))

/-- R240: the link timeout in every phase, after that phase's arm: in RX_START and RX_CYCLE_IDLE with Rx requested in the
same STEP; with a request pending; and with Rx confirmed, whatever was read, short of a frame's end. Only in RX_ACTIVE,
and with RX_IDLE_CYCLE = 1, is Idle requested. -/
def Obligations.LinkTimeout : Prop :=
  ∀ (s : State) (now : Word) (k : Nat) (ready : Bool) (evs : List Event) (fs : List Bool) (bs : List Byte)
    (ts : List Word),
    receiving s → ¬ linkAlive now s → foretells evs fs bs ts s →
    (s.rx.phase = .start ∨ (s.rx.phase = .cycleIdle ∧ s.arb.pending = false) →
      evs = servedEvents now k [] [] s ++ [.radioSetMode .rx, .radioModeReady ready] →
      ∃ d, Served k [] s d ∧ exec .step s = .next (stepped fs bs ts evs (linkLost now { d with
        rx := { d.rx with phase := .waitMode }
        arb := requested .rx .idle now ready }))) ∧
    (s.arb.pending = true → evs = servedEvents now k [] [] s ++ pollEvents now ready s →
      ∃ d, Served k [] s d ∧ exec .step s = .next (stepped fs bs ts evs (polled now ready (linkLost now d)))) ∧
    ∀ (fed : List Byte) (pays : List (Byte × Nat)) (query : List Event),
      s.rx.phase = .active ∨ (s.rx.phase = .waitMode ∧ s.arb.pending = false) →
      (s.rx.sync = .locked ∧ fed = []) ∨ (s.rx.sync ≠ .locked ∧ fed.length ≤ 1) →
      pays = [] ∨ pays.length < payloadDue s fed →
      query = (if fed = [] ∨ payloadDue s fed ≠ 0 then [.radioFifoNotEmpty false] else []) →
      (s.cfg.rxIdleCycle = false → evs = servedEvents now k fed pays s ++ query →
        ∃ d, Served k pays s d ∧ exec .step s = .next (stepped fs bs ts evs (linkLost now
          (if spurious fed s then syncLost { d with rx := { d.rx with phase := .active } }
            else { d with rx := { d.rx with phase := .active } })))) ∧
      (s.cfg.rxIdleCycle = true →
        evs = servedEvents now k fed pays s ++ query ++ [.radioSetMode .idle, .radioModeReady ready] →
        ∃ d, Served k pays s d ∧ exec .step s = .next (stepped fs bs ts evs (linkLost now
          (if spurious fed s
            then syncLost { d with rx := { d.rx with phase := .cycleIdle }, arb := requested .idle .rx now ready }
            else { d with rx := { d.rx with phase := .cycleIdle }, arb := requested .idle .rx now ready }))))

end
end

