-- ==== Sys2Proof/Laws/State.lean ====
section
/-! SUPPORT. One lemma per field of State per update, each true by rfl. -/

namespace Sys2Proof.Machine.State

@[simp] theorem setCoreState_coreState (s : State) (x : CoreState) : (s.setCoreState x).coreState = x := rfl
@[simp] theorem setCoreState_cfg (s : State) (x : CoreState) : (s.setCoreState x).cfg = s.cfg := rfl
@[simp] theorem setCoreState_err (s : State) (x : CoreState) : (s.setCoreState x).err = s.err := rfl
@[simp] theorem setCoreState_counters (s : State) (x : CoreState) : (s.setCoreState x).counters = s.counters := rfl
@[simp] theorem setCoreState_txb (s : State) (x : CoreState) : (s.setCoreState x).txb = s.txb := rfl
@[simp] theorem setCoreState_rxb (s : State) (x : CoreState) : (s.setCoreState x).rxb = s.rxb := rfl
@[simp] theorem setCoreState_tx (s : State) (x : CoreState) : (s.setCoreState x).tx = s.tx := rfl
@[simp] theorem setCoreState_rx (s : State) (x : CoreState) : (s.setCoreState x).rx = s.rx := rfl
@[simp] theorem setCoreState_arb (s : State) (x : CoreState) : (s.setCoreState x).arb = s.arb := rfl
@[simp] theorem setCoreState_params (s : State) (x : CoreState) : (s.setCoreState x).params = s.params := rfl
@[simp] theorem setCoreState_host (s : State) (x : CoreState) : (s.setCoreState x).host = s.host := rfl
@[simp] theorem setCoreState_env (s : State) (x : CoreState) : (s.setCoreState x).env = s.env := rfl

@[simp] theorem setCfg_coreState (s : State) (x : ConfigRegs) : (s.setCfg x).coreState = s.coreState := rfl
@[simp] theorem setCfg_cfg (s : State) (x : ConfigRegs) : (s.setCfg x).cfg = x := rfl
@[simp] theorem setCfg_err (s : State) (x : ConfigRegs) : (s.setCfg x).err = s.err := rfl
@[simp] theorem setCfg_counters (s : State) (x : ConfigRegs) : (s.setCfg x).counters = s.counters := rfl
@[simp] theorem setCfg_txb (s : State) (x : ConfigRegs) : (s.setCfg x).txb = s.txb := rfl
@[simp] theorem setCfg_rxb (s : State) (x : ConfigRegs) : (s.setCfg x).rxb = s.rxb := rfl
@[simp] theorem setCfg_tx (s : State) (x : ConfigRegs) : (s.setCfg x).tx = s.tx := rfl
@[simp] theorem setCfg_rx (s : State) (x : ConfigRegs) : (s.setCfg x).rx = s.rx := rfl
@[simp] theorem setCfg_arb (s : State) (x : ConfigRegs) : (s.setCfg x).arb = s.arb := rfl
@[simp] theorem setCfg_params (s : State) (x : ConfigRegs) : (s.setCfg x).params = s.params := rfl
@[simp] theorem setCfg_host (s : State) (x : ConfigRegs) : (s.setCfg x).host = s.host := rfl
@[simp] theorem setCfg_env (s : State) (x : ConfigRegs) : (s.setCfg x).env = s.env := rfl

@[simp] theorem setErr_coreState (s : State) (x : BitVec 10) : (s.setErr x).coreState = s.coreState := rfl
@[simp] theorem setErr_cfg (s : State) (x : BitVec 10) : (s.setErr x).cfg = s.cfg := rfl
@[simp] theorem setErr_err (s : State) (x : BitVec 10) : (s.setErr x).err = x := rfl
@[simp] theorem setErr_counters (s : State) (x : BitVec 10) : (s.setErr x).counters = s.counters := rfl
@[simp] theorem setErr_txb (s : State) (x : BitVec 10) : (s.setErr x).txb = s.txb := rfl
@[simp] theorem setErr_rxb (s : State) (x : BitVec 10) : (s.setErr x).rxb = s.rxb := rfl
@[simp] theorem setErr_tx (s : State) (x : BitVec 10) : (s.setErr x).tx = s.tx := rfl
@[simp] theorem setErr_rx (s : State) (x : BitVec 10) : (s.setErr x).rx = s.rx := rfl
@[simp] theorem setErr_arb (s : State) (x : BitVec 10) : (s.setErr x).arb = s.arb := rfl
@[simp] theorem setErr_params (s : State) (x : BitVec 10) : (s.setErr x).params = s.params := rfl
@[simp] theorem setErr_host (s : State) (x : BitVec 10) : (s.setErr x).host = s.host := rfl
@[simp] theorem setErr_env (s : State) (x : BitVec 10) : (s.setErr x).env = s.env := rfl

@[simp] theorem setCounters_coreState (s : State) (x : Counters) : (s.setCounters x).coreState = s.coreState := rfl
@[simp] theorem setCounters_cfg (s : State) (x : Counters) : (s.setCounters x).cfg = s.cfg := rfl
@[simp] theorem setCounters_err (s : State) (x : Counters) : (s.setCounters x).err = s.err := rfl
@[simp] theorem setCounters_counters (s : State) (x : Counters) : (s.setCounters x).counters = x := rfl
@[simp] theorem setCounters_txb (s : State) (x : Counters) : (s.setCounters x).txb = s.txb := rfl
@[simp] theorem setCounters_rxb (s : State) (x : Counters) : (s.setCounters x).rxb = s.rxb := rfl
@[simp] theorem setCounters_tx (s : State) (x : Counters) : (s.setCounters x).tx = s.tx := rfl
@[simp] theorem setCounters_rx (s : State) (x : Counters) : (s.setCounters x).rx = s.rx := rfl
@[simp] theorem setCounters_arb (s : State) (x : Counters) : (s.setCounters x).arb = s.arb := rfl
@[simp] theorem setCounters_params (s : State) (x : Counters) : (s.setCounters x).params = s.params := rfl
@[simp] theorem setCounters_host (s : State) (x : Counters) : (s.setCounters x).host = s.host := rfl
@[simp] theorem setCounters_env (s : State) (x : Counters) : (s.setCounters x).env = s.env := rfl

@[simp] theorem setTxb_coreState (s : State) (x : StreamBuffer) : (s.setTxb x).coreState = s.coreState := rfl
@[simp] theorem setTxb_cfg (s : State) (x : StreamBuffer) : (s.setTxb x).cfg = s.cfg := rfl
@[simp] theorem setTxb_err (s : State) (x : StreamBuffer) : (s.setTxb x).err = s.err := rfl
@[simp] theorem setTxb_counters (s : State) (x : StreamBuffer) : (s.setTxb x).counters = s.counters := rfl
@[simp] theorem setTxb_txb (s : State) (x : StreamBuffer) : (s.setTxb x).txb = x := rfl
@[simp] theorem setTxb_rxb (s : State) (x : StreamBuffer) : (s.setTxb x).rxb = s.rxb := rfl
@[simp] theorem setTxb_tx (s : State) (x : StreamBuffer) : (s.setTxb x).tx = s.tx := rfl
@[simp] theorem setTxb_rx (s : State) (x : StreamBuffer) : (s.setTxb x).rx = s.rx := rfl
@[simp] theorem setTxb_arb (s : State) (x : StreamBuffer) : (s.setTxb x).arb = s.arb := rfl
@[simp] theorem setTxb_params (s : State) (x : StreamBuffer) : (s.setTxb x).params = s.params := rfl
@[simp] theorem setTxb_host (s : State) (x : StreamBuffer) : (s.setTxb x).host = s.host := rfl
@[simp] theorem setTxb_env (s : State) (x : StreamBuffer) : (s.setTxb x).env = s.env := rfl

@[simp] theorem setRxb_coreState (s : State) (x : StreamBuffer) : (s.setRxb x).coreState = s.coreState := rfl
@[simp] theorem setRxb_cfg (s : State) (x : StreamBuffer) : (s.setRxb x).cfg = s.cfg := rfl
@[simp] theorem setRxb_err (s : State) (x : StreamBuffer) : (s.setRxb x).err = s.err := rfl
@[simp] theorem setRxb_counters (s : State) (x : StreamBuffer) : (s.setRxb x).counters = s.counters := rfl
@[simp] theorem setRxb_txb (s : State) (x : StreamBuffer) : (s.setRxb x).txb = s.txb := rfl
@[simp] theorem setRxb_rxb (s : State) (x : StreamBuffer) : (s.setRxb x).rxb = x := rfl
@[simp] theorem setRxb_tx (s : State) (x : StreamBuffer) : (s.setRxb x).tx = s.tx := rfl
@[simp] theorem setRxb_rx (s : State) (x : StreamBuffer) : (s.setRxb x).rx = s.rx := rfl
@[simp] theorem setRxb_arb (s : State) (x : StreamBuffer) : (s.setRxb x).arb = s.arb := rfl
@[simp] theorem setRxb_params (s : State) (x : StreamBuffer) : (s.setRxb x).params = s.params := rfl
@[simp] theorem setRxb_host (s : State) (x : StreamBuffer) : (s.setRxb x).host = s.host := rfl
@[simp] theorem setRxb_env (s : State) (x : StreamBuffer) : (s.setRxb x).env = s.env := rfl

@[simp] theorem setTx_coreState (s : State) (x : TxFramer) : (s.setTx x).coreState = s.coreState := rfl
@[simp] theorem setTx_cfg (s : State) (x : TxFramer) : (s.setTx x).cfg = s.cfg := rfl
@[simp] theorem setTx_err (s : State) (x : TxFramer) : (s.setTx x).err = s.err := rfl
@[simp] theorem setTx_counters (s : State) (x : TxFramer) : (s.setTx x).counters = s.counters := rfl
@[simp] theorem setTx_txb (s : State) (x : TxFramer) : (s.setTx x).txb = s.txb := rfl
@[simp] theorem setTx_rxb (s : State) (x : TxFramer) : (s.setTx x).rxb = s.rxb := rfl
@[simp] theorem setTx_tx (s : State) (x : TxFramer) : (s.setTx x).tx = x := rfl
@[simp] theorem setTx_rx (s : State) (x : TxFramer) : (s.setTx x).rx = s.rx := rfl
@[simp] theorem setTx_arb (s : State) (x : TxFramer) : (s.setTx x).arb = s.arb := rfl
@[simp] theorem setTx_params (s : State) (x : TxFramer) : (s.setTx x).params = s.params := rfl
@[simp] theorem setTx_host (s : State) (x : TxFramer) : (s.setTx x).host = s.host := rfl
@[simp] theorem setTx_env (s : State) (x : TxFramer) : (s.setTx x).env = s.env := rfl

@[simp] theorem setRx_coreState (s : State) (x : RxDeframer) : (s.setRx x).coreState = s.coreState := rfl
@[simp] theorem setRx_cfg (s : State) (x : RxDeframer) : (s.setRx x).cfg = s.cfg := rfl
@[simp] theorem setRx_err (s : State) (x : RxDeframer) : (s.setRx x).err = s.err := rfl
@[simp] theorem setRx_counters (s : State) (x : RxDeframer) : (s.setRx x).counters = s.counters := rfl
@[simp] theorem setRx_txb (s : State) (x : RxDeframer) : (s.setRx x).txb = s.txb := rfl
@[simp] theorem setRx_rxb (s : State) (x : RxDeframer) : (s.setRx x).rxb = s.rxb := rfl
@[simp] theorem setRx_tx (s : State) (x : RxDeframer) : (s.setRx x).tx = s.tx := rfl
@[simp] theorem setRx_rx (s : State) (x : RxDeframer) : (s.setRx x).rx = x := rfl
@[simp] theorem setRx_arb (s : State) (x : RxDeframer) : (s.setRx x).arb = s.arb := rfl
@[simp] theorem setRx_params (s : State) (x : RxDeframer) : (s.setRx x).params = s.params := rfl
@[simp] theorem setRx_host (s : State) (x : RxDeframer) : (s.setRx x).host = s.host := rfl
@[simp] theorem setRx_env (s : State) (x : RxDeframer) : (s.setRx x).env = s.env := rfl

@[simp] theorem setArb_coreState (s : State) (x : ModeArbiter) : (s.setArb x).coreState = s.coreState := rfl
@[simp] theorem setArb_cfg (s : State) (x : ModeArbiter) : (s.setArb x).cfg = s.cfg := rfl
@[simp] theorem setArb_err (s : State) (x : ModeArbiter) : (s.setArb x).err = s.err := rfl
@[simp] theorem setArb_counters (s : State) (x : ModeArbiter) : (s.setArb x).counters = s.counters := rfl
@[simp] theorem setArb_txb (s : State) (x : ModeArbiter) : (s.setArb x).txb = s.txb := rfl
@[simp] theorem setArb_rxb (s : State) (x : ModeArbiter) : (s.setArb x).rxb = s.rxb := rfl
@[simp] theorem setArb_tx (s : State) (x : ModeArbiter) : (s.setArb x).tx = s.tx := rfl
@[simp] theorem setArb_rx (s : State) (x : ModeArbiter) : (s.setArb x).rx = s.rx := rfl
@[simp] theorem setArb_arb (s : State) (x : ModeArbiter) : (s.setArb x).arb = x := rfl
@[simp] theorem setArb_params (s : State) (x : ModeArbiter) : (s.setArb x).params = s.params := rfl
@[simp] theorem setArb_host (s : State) (x : ModeArbiter) : (s.setArb x).host = s.host := rfl
@[simp] theorem setArb_env (s : State) (x : ModeArbiter) : (s.setArb x).env = s.env := rfl

@[simp] theorem setHost_coreState (s : State) (x : HostPort) : (s.setHost x).coreState = s.coreState := rfl
@[simp] theorem setHost_cfg (s : State) (x : HostPort) : (s.setHost x).cfg = s.cfg := rfl
@[simp] theorem setHost_err (s : State) (x : HostPort) : (s.setHost x).err = s.err := rfl
@[simp] theorem setHost_counters (s : State) (x : HostPort) : (s.setHost x).counters = s.counters := rfl
@[simp] theorem setHost_txb (s : State) (x : HostPort) : (s.setHost x).txb = s.txb := rfl
@[simp] theorem setHost_rxb (s : State) (x : HostPort) : (s.setHost x).rxb = s.rxb := rfl
@[simp] theorem setHost_tx (s : State) (x : HostPort) : (s.setHost x).tx = s.tx := rfl
@[simp] theorem setHost_rx (s : State) (x : HostPort) : (s.setHost x).rx = s.rx := rfl
@[simp] theorem setHost_arb (s : State) (x : HostPort) : (s.setHost x).arb = s.arb := rfl
@[simp] theorem setHost_params (s : State) (x : HostPort) : (s.setHost x).params = s.params := rfl
@[simp] theorem setHost_host (s : State) (x : HostPort) : (s.setHost x).host = x := rfl
@[simp] theorem setHost_env (s : State) (x : HostPort) : (s.setHost x).env = s.env := rfl

@[simp] theorem setEnv_coreState (s : State) (x : Environment) : (s.setEnv x).coreState = s.coreState := rfl
@[simp] theorem setEnv_cfg (s : State) (x : Environment) : (s.setEnv x).cfg = s.cfg := rfl
@[simp] theorem setEnv_err (s : State) (x : Environment) : (s.setEnv x).err = s.err := rfl
@[simp] theorem setEnv_counters (s : State) (x : Environment) : (s.setEnv x).counters = s.counters := rfl
@[simp] theorem setEnv_txb (s : State) (x : Environment) : (s.setEnv x).txb = s.txb := rfl
@[simp] theorem setEnv_rxb (s : State) (x : Environment) : (s.setEnv x).rxb = s.rxb := rfl
@[simp] theorem setEnv_tx (s : State) (x : Environment) : (s.setEnv x).tx = s.tx := rfl
@[simp] theorem setEnv_rx (s : State) (x : Environment) : (s.setEnv x).rx = s.rx := rfl
@[simp] theorem setEnv_arb (s : State) (x : Environment) : (s.setEnv x).arb = s.arb := rfl
@[simp] theorem setEnv_params (s : State) (x : Environment) : (s.setEnv x).params = s.params := rfl
@[simp] theorem setEnv_host (s : State) (x : Environment) : (s.setEnv x).host = s.host := rfl
@[simp] theorem setEnv_env (s : State) (x : Environment) : (s.setEnv x).env = x := rfl

@[simp] theorem setTxPayload_coreState (s : State) (x : Memory) : (s.setTxPayload x).coreState = s.coreState := rfl
@[simp] theorem setTxPayload_cfg (s : State) (x : Memory) : (s.setTxPayload x).cfg = s.cfg := rfl
@[simp] theorem setTxPayload_err (s : State) (x : Memory) : (s.setTxPayload x).err = s.err := rfl
@[simp] theorem setTxPayload_counters (s : State) (x : Memory) : (s.setTxPayload x).counters = s.counters := rfl
@[simp] theorem setTxPayload_txb (s : State) (x : Memory) : (s.setTxPayload x).txb = s.txb := rfl
@[simp] theorem setTxPayload_rxb (s : State) (x : Memory) : (s.setTxPayload x).rxb = s.rxb := rfl
@[simp] theorem setTxPayload_tx (s : State) (x : Memory) : (s.setTxPayload x).tx = { s.tx with payload := x } := rfl
@[simp] theorem setTxPayload_rx (s : State) (x : Memory) : (s.setTxPayload x).rx = s.rx := rfl
@[simp] theorem setTxPayload_arb (s : State) (x : Memory) : (s.setTxPayload x).arb = s.arb := rfl
@[simp] theorem setTxPayload_params (s : State) (x : Memory) : (s.setTxPayload x).params = s.params := rfl
@[simp] theorem setTxPayload_host (s : State) (x : Memory) : (s.setTxPayload x).host = s.host := rfl
@[simp] theorem setTxPayload_env (s : State) (x : Memory) : (s.setTxPayload x).env = s.env := rfl

@[simp] theorem setTxPos_coreState (s : State) (x : Pos) : (s.setTxPos x).coreState = s.coreState := rfl
@[simp] theorem setTxPos_cfg (s : State) (x : Pos) : (s.setTxPos x).cfg = s.cfg := rfl
@[simp] theorem setTxPos_err (s : State) (x : Pos) : (s.setTxPos x).err = s.err := rfl
@[simp] theorem setTxPos_counters (s : State) (x : Pos) : (s.setTxPos x).counters = s.counters := rfl
@[simp] theorem setTxPos_txb (s : State) (x : Pos) : (s.setTxPos x).txb = s.txb := rfl
@[simp] theorem setTxPos_rxb (s : State) (x : Pos) : (s.setTxPos x).rxb = s.rxb := rfl
@[simp] theorem setTxPos_tx (s : State) (x : Pos) : (s.setTxPos x).tx = { s.tx with pos := x } := rfl
@[simp] theorem setTxPos_rx (s : State) (x : Pos) : (s.setTxPos x).rx = s.rx := rfl
@[simp] theorem setTxPos_arb (s : State) (x : Pos) : (s.setTxPos x).arb = s.arb := rfl
@[simp] theorem setTxPos_params (s : State) (x : Pos) : (s.setTxPos x).params = s.params := rfl
@[simp] theorem setTxPos_host (s : State) (x : Pos) : (s.setTxPos x).host = s.host := rfl
@[simp] theorem setTxPos_env (s : State) (x : Pos) : (s.setTxPos x).env = s.env := rfl

@[simp] theorem setTxState_coreState (s : State) (x : TxState) : (s.setTxState x).coreState = s.coreState := rfl
@[simp] theorem setTxState_cfg (s : State) (x : TxState) : (s.setTxState x).cfg = s.cfg := rfl
@[simp] theorem setTxState_err (s : State) (x : TxState) : (s.setTxState x).err = s.err := rfl
@[simp] theorem setTxState_counters (s : State) (x : TxState) : (s.setTxState x).counters = s.counters := rfl
@[simp] theorem setTxState_txb (s : State) (x : TxState) : (s.setTxState x).txb = s.txb := rfl
@[simp] theorem setTxState_rxb (s : State) (x : TxState) : (s.setTxState x).rxb = s.rxb := rfl
@[simp] theorem setTxState_tx (s : State) (x : TxState) : (s.setTxState x).tx = { s.tx with state := x } := rfl
@[simp] theorem setTxState_rx (s : State) (x : TxState) : (s.setTxState x).rx = s.rx := rfl
@[simp] theorem setTxState_arb (s : State) (x : TxState) : (s.setTxState x).arb = s.arb := rfl
@[simp] theorem setTxState_params (s : State) (x : TxState) : (s.setTxState x).params = s.params := rfl
@[simp] theorem setTxState_host (s : State) (x : TxState) : (s.setTxState x).host = s.host := rfl
@[simp] theorem setTxState_env (s : State) (x : TxState) : (s.setTxState x).env = s.env := rfl

@[simp] theorem setTFill_coreState (s : State) (x : Word) : (s.setTFill x).coreState = s.coreState := rfl
@[simp] theorem setTFill_cfg (s : State) (x : Word) : (s.setTFill x).cfg = s.cfg := rfl
@[simp] theorem setTFill_err (s : State) (x : Word) : (s.setTFill x).err = s.err := rfl
@[simp] theorem setTFill_counters (s : State) (x : Word) : (s.setTFill x).counters = s.counters := rfl
@[simp] theorem setTFill_txb (s : State) (x : Word) : (s.setTFill x).txb = s.txb := rfl
@[simp] theorem setTFill_rxb (s : State) (x : Word) : (s.setTFill x).rxb = s.rxb := rfl
@[simp] theorem setTFill_tx (s : State) (x : Word) : (s.setTFill x).tx = { s.tx with tFill := x } := rfl
@[simp] theorem setTFill_rx (s : State) (x : Word) : (s.setTFill x).rx = s.rx := rfl
@[simp] theorem setTFill_arb (s : State) (x : Word) : (s.setTFill x).arb = s.arb := rfl
@[simp] theorem setTFill_params (s : State) (x : Word) : (s.setTFill x).params = s.params := rfl
@[simp] theorem setTFill_host (s : State) (x : Word) : (s.setTFill x).host = s.host := rfl
@[simp] theorem setTFill_env (s : State) (x : Word) : (s.setTFill x).env = s.env := rfl

@[simp] theorem setTWait_coreState (s : State) (x : Word) : (s.setTWait x).coreState = s.coreState := rfl
@[simp] theorem setTWait_cfg (s : State) (x : Word) : (s.setTWait x).cfg = s.cfg := rfl
@[simp] theorem setTWait_err (s : State) (x : Word) : (s.setTWait x).err = s.err := rfl
@[simp] theorem setTWait_counters (s : State) (x : Word) : (s.setTWait x).counters = s.counters := rfl
@[simp] theorem setTWait_txb (s : State) (x : Word) : (s.setTWait x).txb = s.txb := rfl
@[simp] theorem setTWait_rxb (s : State) (x : Word) : (s.setTWait x).rxb = s.rxb := rfl
@[simp] theorem setTWait_tx (s : State) (x : Word) : (s.setTWait x).tx = { s.tx with tWait := x } := rfl
@[simp] theorem setTWait_rx (s : State) (x : Word) : (s.setTWait x).rx = s.rx := rfl
@[simp] theorem setTWait_arb (s : State) (x : Word) : (s.setTWait x).arb = s.arb := rfl
@[simp] theorem setTWait_params (s : State) (x : Word) : (s.setTWait x).params = s.params := rfl
@[simp] theorem setTWait_host (s : State) (x : Word) : (s.setTWait x).host = s.host := rfl
@[simp] theorem setTWait_env (s : State) (x : Word) : (s.setTWait x).env = s.env := rfl

@[simp] theorem setRxPhase_coreState (s : State) (x : RxPhase) : (s.setRxPhase x).coreState = s.coreState := rfl
@[simp] theorem setRxPhase_cfg (s : State) (x : RxPhase) : (s.setRxPhase x).cfg = s.cfg := rfl
@[simp] theorem setRxPhase_err (s : State) (x : RxPhase) : (s.setRxPhase x).err = s.err := rfl
@[simp] theorem setRxPhase_counters (s : State) (x : RxPhase) : (s.setRxPhase x).counters = s.counters := rfl
@[simp] theorem setRxPhase_txb (s : State) (x : RxPhase) : (s.setRxPhase x).txb = s.txb := rfl
@[simp] theorem setRxPhase_rxb (s : State) (x : RxPhase) : (s.setRxPhase x).rxb = s.rxb := rfl
@[simp] theorem setRxPhase_tx (s : State) (x : RxPhase) : (s.setRxPhase x).tx = s.tx := rfl
@[simp] theorem setRxPhase_rx (s : State) (x : RxPhase) : (s.setRxPhase x).rx = { s.rx with phase := x } := rfl
@[simp] theorem setRxPhase_arb (s : State) (x : RxPhase) : (s.setRxPhase x).arb = s.arb := rfl
@[simp] theorem setRxPhase_params (s : State) (x : RxPhase) : (s.setRxPhase x).params = s.params := rfl
@[simp] theorem setRxPhase_host (s : State) (x : RxPhase) : (s.setRxPhase x).host = s.host := rfl
@[simp] theorem setRxPhase_env (s : State) (x : RxPhase) : (s.setRxPhase x).env = s.env := rfl

@[simp] theorem setSync_coreState (s : State) (x : SyncState) : (s.setSync x).coreState = s.coreState := rfl
@[simp] theorem setSync_cfg (s : State) (x : SyncState) : (s.setSync x).cfg = s.cfg := rfl
@[simp] theorem setSync_err (s : State) (x : SyncState) : (s.setSync x).err = s.err := rfl
@[simp] theorem setSync_counters (s : State) (x : SyncState) : (s.setSync x).counters = s.counters := rfl
@[simp] theorem setSync_txb (s : State) (x : SyncState) : (s.setSync x).txb = s.txb := rfl
@[simp] theorem setSync_rxb (s : State) (x : SyncState) : (s.setSync x).rxb = s.rxb := rfl
@[simp] theorem setSync_tx (s : State) (x : SyncState) : (s.setSync x).tx = s.tx := rfl
@[simp] theorem setSync_rx (s : State) (x : SyncState) : (s.setSync x).rx = { s.rx with sync := x } := rfl
@[simp] theorem setSync_arb (s : State) (x : SyncState) : (s.setSync x).arb = s.arb := rfl
@[simp] theorem setSync_params (s : State) (x : SyncState) : (s.setSync x).params = s.params := rfl
@[simp] theorem setSync_host (s : State) (x : SyncState) : (s.setSync x).host = s.host := rfl
@[simp] theorem setSync_env (s : State) (x : SyncState) : (s.setSync x).env = s.env := rfl

@[simp] theorem setRemaining_coreState (s : State) (x : Count) : (s.setRemaining x).coreState = s.coreState := rfl
@[simp] theorem setRemaining_cfg (s : State) (x : Count) : (s.setRemaining x).cfg = s.cfg := rfl
@[simp] theorem setRemaining_err (s : State) (x : Count) : (s.setRemaining x).err = s.err := rfl
@[simp] theorem setRemaining_counters (s : State) (x : Count) : (s.setRemaining x).counters = s.counters := rfl
@[simp] theorem setRemaining_txb (s : State) (x : Count) : (s.setRemaining x).txb = s.txb := rfl
@[simp] theorem setRemaining_rxb (s : State) (x : Count) : (s.setRemaining x).rxb = s.rxb := rfl
@[simp] theorem setRemaining_tx (s : State) (x : Count) : (s.setRemaining x).tx = s.tx := rfl
@[simp] theorem setRemaining_rx (s : State) (x : Count) : (s.setRemaining x).rx = { s.rx with remaining := x } := rfl
@[simp] theorem setRemaining_arb (s : State) (x : Count) : (s.setRemaining x).arb = s.arb := rfl
@[simp] theorem setRemaining_params (s : State) (x : Count) : (s.setRemaining x).params = s.params := rfl
@[simp] theorem setRemaining_host (s : State) (x : Count) : (s.setRemaining x).host = s.host := rfl
@[simp] theorem setRemaining_env (s : State) (x : Count) : (s.setRemaining x).env = s.env := rfl

@[simp] theorem setTLink_coreState (s : State) (x : Word) : (s.setTLink x).coreState = s.coreState := rfl
@[simp] theorem setTLink_cfg (s : State) (x : Word) : (s.setTLink x).cfg = s.cfg := rfl
@[simp] theorem setTLink_err (s : State) (x : Word) : (s.setTLink x).err = s.err := rfl
@[simp] theorem setTLink_counters (s : State) (x : Word) : (s.setTLink x).counters = s.counters := rfl
@[simp] theorem setTLink_txb (s : State) (x : Word) : (s.setTLink x).txb = s.txb := rfl
@[simp] theorem setTLink_rxb (s : State) (x : Word) : (s.setTLink x).rxb = s.rxb := rfl
@[simp] theorem setTLink_tx (s : State) (x : Word) : (s.setTLink x).tx = s.tx := rfl
@[simp] theorem setTLink_rx (s : State) (x : Word) : (s.setTLink x).rx = { s.rx with tLink := x } := rfl
@[simp] theorem setTLink_arb (s : State) (x : Word) : (s.setTLink x).arb = s.arb := rfl
@[simp] theorem setTLink_params (s : State) (x : Word) : (s.setTLink x).params = s.params := rfl
@[simp] theorem setTLink_host (s : State) (x : Word) : (s.setTLink x).host = s.host := rfl
@[simp] theorem setTLink_env (s : State) (x : Word) : (s.setTLink x).env = s.env := rfl

@[simp] theorem countFrameTx_coreState (s : State) : s.countFrameTx.coreState = s.coreState := rfl
@[simp] theorem countFrameTx_cfg (s : State) : s.countFrameTx.cfg = s.cfg := rfl
@[simp] theorem countFrameTx_err (s : State) : s.countFrameTx.err = s.err := rfl
@[simp] theorem countFrameTx_counters (s : State) : s.countFrameTx.counters = { s.counters with framesTx := s.counters.framesTx + 1 } := rfl
@[simp] theorem countFrameTx_txb (s : State) : s.countFrameTx.txb = s.txb := rfl
@[simp] theorem countFrameTx_rxb (s : State) : s.countFrameTx.rxb = s.rxb := rfl
@[simp] theorem countFrameTx_tx (s : State) : s.countFrameTx.tx = s.tx := rfl
@[simp] theorem countFrameTx_rx (s : State) : s.countFrameTx.rx = s.rx := rfl
@[simp] theorem countFrameTx_arb (s : State) : s.countFrameTx.arb = s.arb := rfl
@[simp] theorem countFrameTx_params (s : State) : s.countFrameTx.params = s.params := rfl
@[simp] theorem countFrameTx_host (s : State) : s.countFrameTx.host = s.host := rfl
@[simp] theorem countFrameTx_env (s : State) : s.countFrameTx.env = s.env := rfl

@[simp] theorem countFrameRx_coreState (s : State) : s.countFrameRx.coreState = s.coreState := rfl
@[simp] theorem countFrameRx_cfg (s : State) : s.countFrameRx.cfg = s.cfg := rfl
@[simp] theorem countFrameRx_err (s : State) : s.countFrameRx.err = s.err := rfl
@[simp] theorem countFrameRx_counters (s : State) : s.countFrameRx.counters = { s.counters with framesRx := s.counters.framesRx + 1 } := rfl
@[simp] theorem countFrameRx_txb (s : State) : s.countFrameRx.txb = s.txb := rfl
@[simp] theorem countFrameRx_rxb (s : State) : s.countFrameRx.rxb = s.rxb := rfl
@[simp] theorem countFrameRx_tx (s : State) : s.countFrameRx.tx = s.tx := rfl
@[simp] theorem countFrameRx_rx (s : State) : s.countFrameRx.rx = s.rx := rfl
@[simp] theorem countFrameRx_arb (s : State) : s.countFrameRx.arb = s.arb := rfl
@[simp] theorem countFrameRx_params (s : State) : s.countFrameRx.params = s.params := rfl
@[simp] theorem countFrameRx_host (s : State) : s.countFrameRx.host = s.host := rfl
@[simp] theorem countFrameRx_env (s : State) : s.countFrameRx.env = s.env := rfl
end Sys2Proof.Machine.State

namespace Sys2Proof.Machine

@[simp] theorem resetCore_coreState (p : Params) (h : HostPort) (e : Environment) : (resetCore p h e).coreState = .uninit := rfl
@[simp] theorem resetCore_cfg (p : Params) (h : HostPort) (e : Environment) : (resetCore p h e).cfg = ⟨0, 0, 0, 0, 0, 0, 0, 0⟩ := rfl
@[simp] theorem resetCore_err (p : Params) (h : HostPort) (e : Environment) : (resetCore p h e).err = 0 := rfl
@[simp] theorem resetCore_counters (p : Params) (h : HostPort) (e : Environment) : (resetCore p h e).counters = ⟨0, 0, 0, 0, 0, 0, 0⟩ := rfl
@[simp] theorem resetCore_txb (p : Params) (h : HostPort) (e : Environment) : (resetCore p h e).txb = ⟨[], 0, 0⟩ := rfl
@[simp] theorem resetCore_rxb (p : Params) (h : HostPort) (e : Environment) : (resetCore p h e).rxb = ⟨[], 0, 0⟩ := rfl
@[simp] theorem resetCore_tx (p : Params) (h : HostPort) (e : Environment) : (resetCore p h e).tx = ⟨[], 0, .idle, 0, 0⟩ := rfl
@[simp] theorem resetCore_rx (p : Params) (h : HostPort) (e : Environment) : (resetCore p h e).rx = ⟨.start, .searching, 0, 0⟩ := rfl
@[simp] theorem resetCore_arb (p : Params) (h : HostPort) (e : Environment) : (resetCore p h e).arb = ⟨.idle, .idle, false, 0⟩ := rfl
@[simp] theorem resetCore_params (p : Params) (h : HostPort) (e : Environment) : (resetCore p h e).params = p := rfl
@[simp] theorem resetCore_host (p : Params) (h : HostPort) (e : Environment) : (resetCore p h e).host = h := rfl
@[simp] theorem resetCore_env (p : Params) (h : HostPort) (e : Environment) : (resetCore p h e).env = e := rfl

end Sys2Proof.Machine
end

