-- ==== Sys2Proof/Laws/Memory.lean ====
section
/-! SUPPORT. The byte arrays: read after write, and the canonical form kept by every operation. -/

namespace Sys2Proof.Machine.Memory

@[simp] theorem read_nil (k : Nat) : Memory.read [] k = unlistedByte := rfl

@[simp] theorem wf_nil : Memory.wf [] = true := rfl

theorem read_cons (a : Nat) (v : Byte) (rest : Memory) (k : Nat) :
    Memory.read ((a, v) :: rest) k = if a = k then v else Memory.read rest k := rfl

/-- Cells of another offset do not matter to a read. -/
theorem read_filter_ne (m : Memory) (k j : Nat) :
    Memory.read (m.filter fun c => c.1 != k) j = if j = k then unlistedByte else Memory.read m j := by
  induction m with
  | nil => simp
  | cons c rest ih =>
    obtain ⟨a, v⟩ := c
    by_cases hak : a = k
    · subst hak
      simp only [List.filter_cons, bne_self_eq_false, Bool.false_eq_true, if_false, ih, read_cons]
      by_cases hj : j = a
      · simp [hj]
      · simp [hj, Ne.symm hj]
    · simp only [List.filter_cons, bne_iff_ne, ne_eq, hak, not_false_eq_true, if_true, read_cons, ih]
      by_cases hj : a = j
      · subst hj; simp [hak]
      · simp [hj]

theorem read_place (m : Memory) (k j : Nat) (v : Byte) (hk : ∀ c ∈ m, c.1 ≠ k) :
    Memory.read (Memory.place k v m) j = if j = k then v else Memory.read m j := by
  induction m with
  | nil => simp [Memory.place, read_cons, eq_comm]
  | cons c rest ih =>
    obtain ⟨a, w⟩ := c
    have hak : a ≠ k := hk (a, w) List.mem_cons_self
    have ih := ih fun c hc => hk c (List.mem_cons_of_mem _ hc)
    unfold Memory.place
    split
    · simp only [read_cons]
      by_cases hj : j = k
      · simp [hj]
      · simp [hj, Ne.symm hj]
    · simp only [read_cons, ih]
      by_cases hj : a = j
      · subst hj; simp [hak]
      · simp [hj]

/-- READ AFTER WRITE, of every array and every pair of offsets. -/
theorem read_write (m : Memory) (k j : Nat) (v : Byte) :
    (Memory.write m k v).read j = if j = k then v else Memory.read m j := by
  unfold Memory.write
  by_cases hv : v = unlistedByte
  · simp [hv, read_filter_ne]
  · simp only [hv, if_false]
    rw [read_place, read_filter_ne]
    · by_cases hj : j = k <;> simp [hj]
    · intro c hc; simpa using (List.mem_filter.mp hc).2

@[simp] theorem read_write_same (m : Memory) (k : Nat) (v : Byte) : (Memory.write m k v).read k = v := by
  simp [read_write]

theorem read_write_other (m : Memory) (k j : Nat) (v : Byte) (h : j ≠ k) :
    (Memory.write m k v).read j = Memory.read m j := by
  simp [read_write, h]

/-- The canonical form, cell by cell. -/
theorem wf_cons (c : Host.Cell) (rest : Memory) :
    Memory.wf (c :: rest) = true ↔
      c.2 ≠ unlistedByte ∧ (∀ d ∈ rest, c.1 < d.1) ∧ Memory.wf rest = true := by
  simp [Memory.wf, and_assoc]

theorem wf_filter (p : Host.Cell → Bool) (m : Memory) (h : Memory.wf m = true) :
    Memory.wf (m.filter p) = true := by
  induction m with
  | nil => rfl
  | cons c rest ih =>
    obtain ⟨h1, h2, h3⟩ := (wf_cons c rest).mp h
    rw [List.filter_cons]
    split
    · exact (wf_cons _ _).mpr ⟨h1, fun d hd => h2 d (List.mem_of_mem_filter hd), ih h3⟩
    · exact ih h3

theorem mem_place (m : Memory) (k : Nat) (v : Byte) (d : Host.Cell) :
    d ∈ Memory.place k v m ↔ d = (k, v) ∨ d ∈ m := by
  induction m with
  | nil => simp [Memory.place]
  | cons c rest ih =>
    obtain ⟨a, w⟩ := c
    unfold Memory.place
    split
    · simp
    · simp only [List.mem_cons, ih]; tauto

theorem wf_place (m : Memory) (k : Nat) (v : Byte) (h : Memory.wf m = true) (hv : v ≠ unlistedByte)
    (hk : ∀ c ∈ m, c.1 ≠ k) : Memory.wf (Memory.place k v m) = true := by
  induction m with
  | nil => simp [Memory.place, Memory.wf, hv]
  | cons c rest ih =>
    obtain ⟨a, w⟩ := c
    obtain ⟨h1, h2, h3⟩ := (wf_cons _ rest).mp h
    have hak : a ≠ k := hk (a, w) List.mem_cons_self
    unfold Memory.place
    split
    · rename_i hlt
      refine (wf_cons _ _).mpr ⟨hv, ?_, h⟩
      intro d hd
      rcases List.mem_cons.mp hd with rfl | hd
      · exact hlt
      · exact Nat.lt_trans hlt (h2 d hd)
    · rename_i hlt
      refine (wf_cons _ _).mpr ⟨h1, ?_, ih h3 fun c hc => hk c (List.mem_cons_of_mem _ hc)⟩
      intro d hd
      rcases (mem_place rest k v d).mp hd with rfl | hd
      · simp only at hlt ⊢; omega
      · exact h2 d hd

/-- A write keeps the canonical form. -/
theorem write_wf (m : Memory) (k : Nat) (v : Byte) (h : Memory.wf m = true) :
    Memory.wf (Memory.write m k v) = true := by
  unfold Memory.write
  split
  · exact wf_filter _ _ h
  · rename_i hv
    exact wf_place _ _ _ (wf_filter _ _ h) hv fun c hc => by simpa using (List.mem_filter.mp hc).2

theorem writeBytes_wf (l : List Byte) (m : Memory) (k : Nat) (h : Memory.wf m = true) :
    Memory.wf (Memory.writeBytes m k l) = true := by
  induction l generalizing m k with
  | nil => exact h
  | cons b rest ih => exact ih _ _ (write_wf m k b h)

theorem shiftDown_wf (n count i : Nat) (m : Memory) (h : Memory.wf m = true) :
    Memory.wf (Memory.shiftDown n count i m) = true := by
  induction count generalizing m i with
  | zero => exact h
  | succ count ih => exact ih _ _ (write_wf _ _ _ h)

/-- What `writeBytes` leaves at each offset. -/
theorem read_writeBytes (l : List Byte) (m : Memory) (k j : Nat) :
    (Memory.writeBytes m k l).read j =
      if k ≤ j ∧ j < k + l.length then l.getD (j - k) unlistedByte else Memory.read m j := by
  induction l generalizing m k with
  | nil => rw [if_neg (by simp only [List.length_nil]; omega)]; rfl
  | cons b rest ih =>
    rw [Memory.writeBytes, ih, read_write]
    by_cases hj : j = k
    · subst hj; simp
    · by_cases hin : k + 1 ≤ j ∧ j < k + 1 + rest.length
      · obtain ⟨i, rfl⟩ : ∃ i, j = k + 1 + i := ⟨j - (k + 1), by omega⟩
        rw [if_pos hin, if_pos (by simp only [List.length_cons]; omega)]
        have h1 : k + 1 + i - (k + 1) = i := by omega
        have h2 : k + 1 + i - k = i + 1 := by omega
        rw [h1, h2, List.getD_cons_succ]
      · rw [if_neg hin, if_neg hj, if_neg (by simp only [List.length_cons]; omega)]

/-- What the compaction of `SB_take` leaves at each offset (40_streambuffer.md R143). -/
theorem read_shiftDown (n count i j : Nat) (m : Memory) :
    (Memory.shiftDown n count i m).read j =
      if i ≤ j ∧ j < i + count then Memory.read m (j + n) else Memory.read m j := by
  induction count generalizing m i with
  | zero => rw [if_neg (by omega)]; rfl
  | succ count ih =>
    rw [Memory.shiftDown, ih]
    by_cases hj : j = i
    · subst hj
      rw [if_neg (by omega), if_pos (by omega), read_write_same]
    · by_cases hin : i + 1 ≤ j ∧ j < i + 1 + count
      · rw [if_pos hin, if_pos (by omega), read_write_other _ _ _ _ (by omega)]
      · rw [if_neg hin, if_neg (by omega), read_write_other _ _ _ _ hj]

@[simp] theorem length_prefixBytes (m : Memory) (n : Nat) : (m.prefixBytes n).length = n := by
  simp [Memory.prefixBytes]

theorem getElem_prefixBytes (m : Memory) (n i : Nat) (h : i < (m.prefixBytes n).length) :
    (m.prefixBytes n)[i] = m.read i := by
  simp [Memory.prefixBytes]

/-- Bytes written from offset 0 on are what the prefix of their length holds. -/
theorem prefixBytes_writeBytes (m : Memory) (l : List Byte) : (m.writeBytes 0 l).prefixBytes l.length = l := by
  apply List.ext_getElem
  · simp
  · intro i h1 h2
    rw [getElem_prefixBytes, read_writeBytes, if_pos (by omega)]
    simp [h2]

/-- A write beyond a prefix leaves it; a write right after it extends it. -/
theorem prefixBytes_write_end (m : Memory) (n : Nat) (v : Byte) :
    (Memory.write m n v).prefixBytes (n + 1) = m.prefixBytes n ++ [v] := by
  simp only [Memory.prefixBytes, List.range_succ, List.map_append, List.map_cons, List.map_nil, read_write_same]
  congr 1
  apply List.map_congr_left
  intro a ha
  exact read_write_other _ _ _ _ (Nat.ne_of_lt (List.mem_range.mp ha))

/-- After compaction the leading bytes are the previously trailing ones (40_streambuffer.md R143). -/
theorem prefixBytes_shiftDown (m : Memory) (n p : Nat) :
    (Memory.shiftDown n (p - n) 0 m).prefixBytes (p - n) = (m.prefixBytes p).drop n := by
  apply List.ext_getElem
  · simp
  · intro i h1 h2
    simp only [length_prefixBytes] at h1
    rw [getElem_prefixBytes, List.getElem_drop, getElem_prefixBytes, read_shiftDown, if_pos (by omega),
      Nat.add_comm]

theorem prefixBytes_take (m : Memory) (n p : Nat) (h : n ≤ p) : m.prefixBytes n = (m.prefixBytes p).take n := by
  apply List.ext_getElem
  · simp [h]
  · intro i h1 h2
    rw [getElem_prefixBytes, List.getElem_take, getElem_prefixBytes]

theorem read_unlisted (m : Memory) (k : Nat) (h : ∀ c ∈ m, c.1 ≠ k) : Memory.read m k = unlistedByte := by
  induction m with
  | nil => rfl
  | cons c rest ih =>
    rw [read_cons, if_neg (h c (by simp))]
    exact ih fun d hd => h d (by simp [hd])

/-- In canonical form, arrays that read alike are equal data. -/
theorem wf_ext {m q : Memory} (hm : Memory.wf m = true) (hq : Memory.wf q = true)
    (h : ∀ k, Memory.read m k = Memory.read q k) : m = q := by
  induction m generalizing q with
  | nil =>
    cases q with
    | nil => rfl
    | cons c rest =>
      obtain ⟨h1, -, -⟩ := (wf_cons c rest).mp hq
      have := h c.1
      rw [read_cons, if_pos rfl] at this
      exact absurd this.symm h1
  | cons c rest ih =>
    obtain ⟨h1, h2, h3⟩ := (wf_cons c rest).mp hm
    cases q with
    | nil =>
      have := h c.1
      rw [read_cons, if_pos rfl] at this
      exact absurd this h1
    | cons d others =>
      obtain ⟨k1, k2, k3⟩ := (wf_cons d others).mp hq
      have hc := h c.1
      have hd := h d.1
      rw [read_cons, if_pos rfl, read_cons] at hc
      rw [read_cons, read_cons, if_pos rfl] at hd
      have same : c.1 = d.1 := by
        rcases Nat.lt_trichotomy c.1 d.1 with hlt | heq | hgt
        · rw [if_neg (by omega), read_unlisted others c.1 fun x hx => by have := k2 x hx; omega] at hc
          exact absurd hc h1
        · exact heq
        · rw [if_neg (by omega), read_unlisted rest d.1 fun x hx => by have := h2 x hx; omega] at hd
          exact absurd hd.symm k1
      rw [if_pos same.symm] at hc
      have tails : rest = others := by
        refine ih h3 k3 fun k => ?_
        by_cases hk : c.1 = k
        · rw [read_unlisted rest k fun x hx => by have := h2 x hx; omega,
            read_unlisted others k fun x hx => by have := k2 x hx; omega]
        · have := h k
          rwa [read_cons, if_neg hk, read_cons, if_neg (by omega)] at this
      rw [tails, Prod.ext (x := c) (y := d) same hc]

/-- Moving nothing changes nothing. -/
theorem shiftDown_zero (count i : Nat) (m : Memory) (h : Memory.wf m = true) : Memory.shiftDown 0 count i m = m := by
  refine wf_ext (shiftDown_wf _ _ _ _ h) h fun k => ?_
  rw [read_shiftDown]
  simp

end Sys2Proof.Machine.Memory
end

