-- ==== Sys2Proof/Laws/Ops.lean ====
section
/-! SUPPORT. What each shared operation can do: sequencing, the environment's queries and actions, `raise`, responses. -/

namespace Sys2Proof.Machine

/-! ### Sequencing -/

@[simp] theorem andThen_next {α β : Type} (a : α) (f : α → Result β) : andThen (.next a) f = f a := rfl

@[simp] theorem andThen_fault {α β : Type} (r : Fault) (f : α → Result β) :
    andThen (.fault r : Result α) f = .fault r := rfl

@[simp] theorem andThen_refused {α β : Type} (r : Refusal) (f : α → Result β) :
    andThen (.refused r : Result α) f = .refused r := rfl

/-- A sequence completes exactly when both parts do. -/
theorem andThen_eq_next {α β : Type} (x : Result α) (f : α → Result β) (b : β) :
    andThen x f = .next b ↔ ∃ a, x = .next a ∧ f a = .next b := by
  cases x <;> simp [andThen]

/-! ### The environment -/

@[simp] theorem askFlag_fst (event : Bool → Event) (s : State) : (askFlag event s).1 = s.env.flag := rfl

@[simp] theorem askByte_fst (event : Byte → Event) (s : State) : (askByte event s).1 = s.env.byte := rfl

@[simp] theorem askNow_fst (s : State) : (askNow s).1 = s.env.time := rfl

@[simp] theorem askFlag_env (event : Bool → Event) (s : State) :
    (askFlag event s).2.env = s.env.afterFlag.record (event s.env.flag) := rfl

@[simp] theorem askByte_env (event : Byte → Event) (s : State) :
    (askByte event s).2.env = s.env.afterByte.record (event s.env.byte) := rfl

@[simp] theorem askNow_env (s : State) : (askNow s).2.env = s.env.afterTime.record (.timeNow s.env.time) := rfl

@[simp] theorem act_env (event : Event) (s : State) : (act event s).env = s.env.record event := rfl

@[simp] theorem askFlag_coreState (event : Bool → Event) (s : State) : (askFlag event s).2.coreState = s.coreState := rfl
@[simp] theorem askFlag_cfg (event : Bool → Event) (s : State) : (askFlag event s).2.cfg = s.cfg := rfl
@[simp] theorem askFlag_err (event : Bool → Event) (s : State) : (askFlag event s).2.err = s.err := rfl
@[simp] theorem askFlag_counters (event : Bool → Event) (s : State) : (askFlag event s).2.counters = s.counters := rfl
@[simp] theorem askFlag_txb (event : Bool → Event) (s : State) : (askFlag event s).2.txb = s.txb := rfl
@[simp] theorem askFlag_rxb (event : Bool → Event) (s : State) : (askFlag event s).2.rxb = s.rxb := rfl
@[simp] theorem askFlag_tx (event : Bool → Event) (s : State) : (askFlag event s).2.tx = s.tx := rfl
@[simp] theorem askFlag_rx (event : Bool → Event) (s : State) : (askFlag event s).2.rx = s.rx := rfl
@[simp] theorem askFlag_arb (event : Bool → Event) (s : State) : (askFlag event s).2.arb = s.arb := rfl
@[simp] theorem askFlag_params (event : Bool → Event) (s : State) : (askFlag event s).2.params = s.params := rfl
@[simp] theorem askFlag_host (event : Bool → Event) (s : State) : (askFlag event s).2.host = s.host := rfl

@[simp] theorem askByte_coreState (event : Byte → Event) (s : State) : (askByte event s).2.coreState = s.coreState := rfl
@[simp] theorem askByte_cfg (event : Byte → Event) (s : State) : (askByte event s).2.cfg = s.cfg := rfl
@[simp] theorem askByte_err (event : Byte → Event) (s : State) : (askByte event s).2.err = s.err := rfl
@[simp] theorem askByte_counters (event : Byte → Event) (s : State) : (askByte event s).2.counters = s.counters := rfl
@[simp] theorem askByte_txb (event : Byte → Event) (s : State) : (askByte event s).2.txb = s.txb := rfl
@[simp] theorem askByte_rxb (event : Byte → Event) (s : State) : (askByte event s).2.rxb = s.rxb := rfl
@[simp] theorem askByte_tx (event : Byte → Event) (s : State) : (askByte event s).2.tx = s.tx := rfl
@[simp] theorem askByte_rx (event : Byte → Event) (s : State) : (askByte event s).2.rx = s.rx := rfl
@[simp] theorem askByte_arb (event : Byte → Event) (s : State) : (askByte event s).2.arb = s.arb := rfl
@[simp] theorem askByte_params (event : Byte → Event) (s : State) : (askByte event s).2.params = s.params := rfl
@[simp] theorem askByte_host (event : Byte → Event) (s : State) : (askByte event s).2.host = s.host := rfl

@[simp] theorem askNow_coreState (s : State) : (askNow s).2.coreState = s.coreState := rfl
@[simp] theorem askNow_cfg (s : State) : (askNow s).2.cfg = s.cfg := rfl
@[simp] theorem askNow_err (s : State) : (askNow s).2.err = s.err := rfl
@[simp] theorem askNow_counters (s : State) : (askNow s).2.counters = s.counters := rfl
@[simp] theorem askNow_txb (s : State) : (askNow s).2.txb = s.txb := rfl
@[simp] theorem askNow_rxb (s : State) : (askNow s).2.rxb = s.rxb := rfl
@[simp] theorem askNow_tx (s : State) : (askNow s).2.tx = s.tx := rfl
@[simp] theorem askNow_rx (s : State) : (askNow s).2.rx = s.rx := rfl
@[simp] theorem askNow_arb (s : State) : (askNow s).2.arb = s.arb := rfl
@[simp] theorem askNow_params (s : State) : (askNow s).2.params = s.params := rfl
@[simp] theorem askNow_host (s : State) : (askNow s).2.host = s.host := rfl

@[simp] theorem act_coreState (event : Event) (s : State) : (act event s).coreState = s.coreState := rfl
@[simp] theorem act_cfg (event : Event) (s : State) : (act event s).cfg = s.cfg := rfl
@[simp] theorem act_err (event : Event) (s : State) : (act event s).err = s.err := rfl
@[simp] theorem act_counters (event : Event) (s : State) : (act event s).counters = s.counters := rfl
@[simp] theorem act_txb (event : Event) (s : State) : (act event s).txb = s.txb := rfl
@[simp] theorem act_rxb (event : Event) (s : State) : (act event s).rxb = s.rxb := rfl
@[simp] theorem act_tx (event : Event) (s : State) : (act event s).tx = s.tx := rfl
@[simp] theorem act_rx (event : Event) (s : State) : (act event s).rx = s.rx := rfl
@[simp] theorem act_arb (event : Event) (s : State) : (act event s).arb = s.arb := rfl
@[simp] theorem act_params (event : Event) (s : State) : (act event s).params = s.params := rfl
@[simp] theorem act_host (event : Event) (s : State) : (act event s).host = s.host := rfl

@[simp] theorem record_trace (e : Environment) (ev : Event) : (e.record ev).trace = e.trace ++ [ev] := rfl

@[simp] theorem record_flags (e : Environment) (ev : Event) : (e.record ev).flags = e.flags := rfl

@[simp] theorem record_bytes (e : Environment) (ev : Event) : (e.record ev).bytes = e.bytes := rfl

@[simp] theorem record_times (e : Environment) (ev : Event) : (e.record ev).times = e.times := rfl

@[simp] theorem record_drawn (e : Environment) (ev : Event) : (e.record ev).drawn = e.drawn := rfl

@[simp] theorem afterFlag_trace (e : Environment) : e.afterFlag.trace = e.trace := by
  unfold Environment.afterFlag; split <;> rfl

@[simp] theorem afterByte_trace (e : Environment) : e.afterByte.trace = e.trace := by
  unfold Environment.afterByte; split <;> rfl

@[simp] theorem afterTime_trace (e : Environment) : e.afterTime.trace = e.trace := by
  unfold Environment.afterTime; split <;> rfl

@[simp] theorem record_flag (e : Environment) (ev : Event) : (e.record ev).flag = e.flag := rfl

@[simp] theorem record_byte (e : Environment) (ev : Event) : (e.record ev).byte = e.byte := rfl

@[simp] theorem record_time (e : Environment) (ev : Event) : (e.record ev).time = e.time := rfl

/-- A foretold answer is the one given, and is used up. -/
theorem flag_cons (e : Environment) (b : Bool) (rest : List Bool) (h : e.flags = b :: rest) :
    e.flag = b ∧ e.afterFlag = { e with flags := rest } := by
  simp [Environment.flag, Environment.afterFlag, h]

/-- A foretold byte is the one given, and is used up. -/
theorem byte_cons (e : Environment) (b : Byte) (rest : List Byte) (h : e.bytes = b :: rest) :
    e.byte = b ∧ e.afterByte = { e with bytes := rest } := by
  simp [Environment.byte, Environment.afterByte, h]

/-- A foretold time is the one given, and is used up. -/
theorem time_cons (e : Environment) (t : Word) (rest : List Word) (h : e.times = t :: rest) :
    e.time = t ∧ e.afterTime = { e with times := rest } := by
  simp [Environment.time, Environment.afterTime, h]

/-! ### Errors, responses, the buffers by name -/

@[simp] theorem raise_coreState (c : Cause) (s : State) : (raise c s).coreState = s.coreState := rfl
@[simp] theorem raise_cfg (c : Cause) (s : State) : (raise c s).cfg = s.cfg := rfl
@[simp] theorem raise_txb (c : Cause) (s : State) : (raise c s).txb = s.txb := rfl
@[simp] theorem raise_rxb (c : Cause) (s : State) : (raise c s).rxb = s.rxb := rfl
@[simp] theorem raise_tx (c : Cause) (s : State) : (raise c s).tx = s.tx := rfl
@[simp] theorem raise_rx (c : Cause) (s : State) : (raise c s).rx = s.rx := rfl
@[simp] theorem raise_arb (c : Cause) (s : State) : (raise c s).arb = s.arb := rfl
@[simp] theorem raise_params (c : Cause) (s : State) : (raise c s).params = s.params := rfl
@[simp] theorem raise_host (c : Cause) (s : State) : (raise c s).host = s.host := rfl
@[simp] theorem raise_env (c : Cause) (s : State) : (raise c s).env = s.env := rfl

@[simp] theorem raise_err (c : Cause) (s : State) : (raise c s).err = s.err ||| c.mask := rfl

@[simp] theorem raise_counters (c : Cause) (s : State) : (raise c s).counters = c.count s.counters := rfl

@[simp] theorem respond_coreState (st : Status) (d : Word) (s : State) : (respond st d s).coreState = s.coreState := rfl
@[simp] theorem respond_cfg (st : Status) (d : Word) (s : State) : (respond st d s).cfg = s.cfg := rfl
@[simp] theorem respond_err (st : Status) (d : Word) (s : State) : (respond st d s).err = s.err := rfl
@[simp] theorem respond_counters (st : Status) (d : Word) (s : State) : (respond st d s).counters = s.counters := rfl
@[simp] theorem respond_txb (st : Status) (d : Word) (s : State) : (respond st d s).txb = s.txb := rfl
@[simp] theorem respond_rxb (st : Status) (d : Word) (s : State) : (respond st d s).rxb = s.rxb := rfl
@[simp] theorem respond_tx (st : Status) (d : Word) (s : State) : (respond st d s).tx = s.tx := rfl
@[simp] theorem respond_rx (st : Status) (d : Word) (s : State) : (respond st d s).rx = s.rx := rfl
@[simp] theorem respond_arb (st : Status) (d : Word) (s : State) : (respond st d s).arb = s.arb := rfl
@[simp] theorem respond_params (st : Status) (d : Word) (s : State) : (respond st d s).params = s.params := rfl
@[simp] theorem respond_env (st : Status) (d : Word) (s : State) : (respond st d s).env = s.env := rfl

@[simp] theorem respond_host (st : Status) (d : Word) (s : State) :
    (respond st d s).host = { s.host with responses := s.host.responses ++ [⟨st, d⟩] } := rfl

@[simp] theorem setBuf_buf (s : State) (b : Buf) (x : StreamBuffer) : (s.setBuf b x).buf b = x := by cases b <;> rfl

@[simp] theorem setBuf_coreState (s : State) (b : Buf) (x : StreamBuffer) : (s.setBuf b x).coreState = s.coreState := by cases b <;> rfl
@[simp] theorem setBuf_cfg (s : State) (b : Buf) (x : StreamBuffer) : (s.setBuf b x).cfg = s.cfg := by cases b <;> rfl
@[simp] theorem setBuf_err (s : State) (b : Buf) (x : StreamBuffer) : (s.setBuf b x).err = s.err := by cases b <;> rfl
@[simp] theorem setBuf_counters (s : State) (b : Buf) (x : StreamBuffer) : (s.setBuf b x).counters = s.counters := by cases b <;> rfl
@[simp] theorem setBuf_tx (s : State) (b : Buf) (x : StreamBuffer) : (s.setBuf b x).tx = s.tx := by cases b <;> rfl
@[simp] theorem setBuf_rx (s : State) (b : Buf) (x : StreamBuffer) : (s.setBuf b x).rx = s.rx := by cases b <;> rfl
@[simp] theorem setBuf_arb (s : State) (b : Buf) (x : StreamBuffer) : (s.setBuf b x).arb = s.arb := by cases b <;> rfl
@[simp] theorem setBuf_params (s : State) (b : Buf) (x : StreamBuffer) : (s.setBuf b x).params = s.params := by cases b <;> rfl
@[simp] theorem setBuf_host (s : State) (b : Buf) (x : StreamBuffer) : (s.setBuf b x).host = s.host := by cases b <;> rfl
@[simp] theorem setBuf_env (s : State) (b : Buf) (x : StreamBuffer) : (s.setBuf b x).env = s.env := by cases b <;> rfl

@[simp] theorem setBuf_capacity (s : State) (b c : Buf) (x : StreamBuffer) :
    (s.setBuf b x).capacity c = s.capacity c := by cases b <;> cases c <;> rfl

@[simp] theorem setBuf_depthMax (s : State) (b c : Buf) (x : StreamBuffer) :
    (s.setBuf b x).depthMax c = s.depthMax c := by cases b <;> cases c <;> rfl

@[simp] theorem raise_buf (c : Cause) (b : Buf) (s : State) : (raise c s).buf b = s.buf b := by cases b <;> rfl

@[simp] theorem raise_capacity (c : Cause) (b : Buf) (s : State) : (raise c s).capacity b = s.capacity b := by
  cases b <;> rfl

@[simp] theorem raise_depthMax (c : Cause) (b : Buf) (s : State) : (raise c s).depthMax b = s.depthMax b := by
  cases b <;> rfl

end Sys2Proof.Machine
end

