-- ==== Sys2Proof/Laws/Alike.lean ====
section
/-! SUPPORT. No operation tells two alike states apart (Sys2Proof/Safety.lean, `Alike`): the bytes the spec leaves
unspecified are never read. -/

namespace Sys2Proof.Machine

/-- The same outcome, up to a relation between what completes. -/
def OutcomeRel {α : Type} (R : α → α → Prop) : Result α → Result α → Prop
  | .next a, .next b => R a b
  | .fault a, .fault b => a = b
  | .refused a, .refused b => a = b
  | _, _ => False

/-! ### Outcomes -/

theorem OutcomeRel.andThen {α β : Type} {R : α → α → Prop} {Q : β → β → Prop} {x y : Result α} {f g : α → Result β}
    (h : OutcomeRel R x y) (k : ∀ a b, R a b → OutcomeRel Q (f a) (g b)) :
    OutcomeRel Q (Machine.andThen x f) (Machine.andThen y g) := by
  cases x <;> cases y <;> simp only [OutcomeRel] at h
  · exact k _ _ h
  · exact h
  · exact h

theorem OutcomeRel.mono {α : Type} {R Q : α → α → Prop} {x y : Result α} (h : OutcomeRel R x y)
    (k : ∀ a b, R a b → Q a b) : OutcomeRel Q x y := by
  cases x <;> cases y <;> simp only [OutcomeRel] at h ⊢
  · exact k _ _ h
  · exact h
  · exact h

/-- Both take the same branch. -/
theorem OutcomeRel.ite {α : Type} {R : α → α → Prop} {p : Prop} {d1 d2 : Decidable p} {a b a' b' : Result α}
    (h : p → OutcomeRel R a a') (k : ¬ p → OutcomeRel R b b') :
    OutcomeRel R (@ite _ p d1 a b) (@ite _ p d2 a' b') := by
  by_cases hp : p
  · rw [if_pos hp, if_pos hp]; exact h hp
  · rw [if_neg hp, if_neg hp]; exact k hp

/-- The same answer, and alike states. -/
def AlikePair {α : Type} (a b : α × State) : Prop := a.1 = b.1 ∧ Alike a.2 b.2

/-- Both take the same branch. -/
theorem Alike.branch {p : Prop} {d1 d2 : Decidable p} {a b a' b' : State} (h : p → Alike a a') (k : ¬ p → Alike b b') :
    Alike (@ite _ p d1 a b) (@ite _ p d2 a' b') := by
  by_cases hp : p
  · rw [if_pos hp, if_pos hp]; exact h hp
  · rw [if_neg hp, if_neg hp]; exact k hp

/-- Alike, and with the same payload of the committed frame. -/
def AlikeFrame (s t : State) : Prop :=
  Alike s t ∧ t.tx.payload.prefixBytes s.cfg.n.toNat = s.tx.payload.prefixBytes s.cfg.n.toNat

/-! ### Updates that reach no byte array -/

theorem Alike.shape {s t : State} (h : Alike s t) : ∃ d1 d2 d3, t = { s with
    txb := { s.txb with data := d1 }, rxb := { s.rxb with data := d2 }, tx := { s.tx with payload := d3 } } :=
  ⟨_, _, _, h.same⟩

theorem Alike.update {s t : State} (h : Alike s t) (f : State → State) (hf : ∀ (x : State) d1 d2 d3, f { x with
    txb := { x.txb with data := d1 }, rxb := { x.rxb with data := d2 }, tx := { x.tx with payload := d3 } } =
    { f x with
      txb := { (f x).txb with data := d1 }, rxb := { (f x).rxb with data := d2 }, tx := { (f x).tx with payload := d3 } })
    (h1 : (f s).txb = s.txb) (h2 : (f s).rxb = s.rxb) (h3 : (f s).tx.payload = s.tx.payload)
    (h4 : (f s).tx.state = s.tx.state ∨ (f s).tx.state = .idle) (h5 : (f s).cfg.n = s.cfg.n) : Alike (f s) (f t) := by
  obtain ⟨d1, d2, d3, rfl⟩ := h.shape
  rw [hf s d1 d2 d3]
  refine ⟨rfl, by rw [h1]; exact h.txbSlide, by rw [h2]; exact h.rxbSlide, ?_, ?_, ?_⟩
  · simp only [h1]; exact h.txbHeld
  · simp only [h2]; exact h.rxbHeld
  · intro hs
    simp only [h3, h5]
    apply h.payload
    rcases h4 with h4 | h4
    · rwa [← h4]
    · exact absurd h4 hs

theorem Alike.env {s t : State} (h : Alike s t) : t.env = s.env := by rw [h.same]
theorem Alike.cfg {s t : State} (h : Alike s t) : t.cfg = s.cfg := by rw [h.same]
theorem Alike.arb {s t : State} (h : Alike s t) : t.arb = s.arb := by rw [h.same]
theorem Alike.rx {s t : State} (h : Alike s t) : t.rx = s.rx := by rw [h.same]
theorem Alike.err {s t : State} (h : Alike s t) : t.err = s.err := by rw [h.same]
theorem Alike.counters {s t : State} (h : Alike s t) : t.counters = s.counters := by rw [h.same]
theorem Alike.params {s t : State} (h : Alike s t) : t.params = s.params := by rw [h.same]
theorem Alike.host {s t : State} (h : Alike s t) : t.host = s.host := by rw [h.same]
theorem Alike.coreState {s t : State} (h : Alike s t) : t.coreState = s.coreState := by rw [h.same]
theorem Alike.txState {s t : State} (h : Alike s t) : t.tx.state = s.tx.state := by rw [h.same]
theorem Alike.txPos {s t : State} (h : Alike s t) : t.tx.pos = s.tx.pos := by rw [h.same]
theorem Alike.tFill {s t : State} (h : Alike s t) : t.tx.tFill = s.tx.tFill := by rw [h.same]
theorem Alike.tWait {s t : State} (h : Alike s t) : t.tx.tWait = s.tx.tWait := by rw [h.same]
theorem Alike.txbPending {s t : State} (h : Alike s t) : t.txb.pending = s.txb.pending := by rw [h.same]
theorem Alike.rxbPending {s t : State} (h : Alike s t) : t.rxb.pending = s.rxb.pending := by rw [h.same]

theorem Alike.setEnv {s t : State} (h : Alike s t) (x : Environment) : Alike (s.setEnv x) (t.setEnv x) :=
  h.update (·.setEnv x) (fun _ _ _ _ => rfl) rfl rfl rfl (.inl rfl) rfl
theorem Alike.setErr {s t : State} (h : Alike s t) (x : BitVec 10) : Alike (s.setErr x) (t.setErr x) :=
  h.update (·.setErr x) (fun _ _ _ _ => rfl) rfl rfl rfl (.inl rfl) rfl
theorem Alike.setCounters {s t : State} (h : Alike s t) (x : Counters) : Alike (s.setCounters x) (t.setCounters x) :=
  h.update (·.setCounters x) (fun _ _ _ _ => rfl) rfl rfl rfl (.inl rfl) rfl
theorem Alike.setArb {s t : State} (h : Alike s t) (x : ModeArbiter) : Alike (s.setArb x) (t.setArb x) :=
  h.update (·.setArb x) (fun _ _ _ _ => rfl) rfl rfl rfl (.inl rfl) rfl
theorem Alike.setRx {s t : State} (h : Alike s t) (x : RxDeframer) : Alike (s.setRx x) (t.setRx x) :=
  h.update (·.setRx x) (fun _ _ _ _ => rfl) rfl rfl rfl (.inl rfl) rfl
theorem Alike.setHost {s t : State} (h : Alike s t) (x : HostPort) : Alike (s.setHost x) (t.setHost x) :=
  h.update (·.setHost x) (fun _ _ _ _ => rfl) rfl rfl rfl (.inl rfl) rfl
theorem Alike.setCoreState {s t : State} (h : Alike s t) (x : CoreState) : Alike (s.setCoreState x) (t.setCoreState x) :=
  h.update (·.setCoreState x) (fun _ _ _ _ => rfl) rfl rfl rfl (.inl rfl) rfl
theorem Alike.setTFill {s t : State} (h : Alike s t) (x : Word) : Alike (s.setTFill x) (t.setTFill x) :=
  h.update (·.setTFill x) (fun _ _ _ _ => rfl) rfl rfl rfl (.inl rfl) rfl
theorem Alike.setTWait {s t : State} (h : Alike s t) (x : Word) : Alike (s.setTWait x) (t.setTWait x) :=
  h.update (·.setTWait x) (fun _ _ _ _ => rfl) rfl rfl rfl (.inl rfl) rfl
theorem Alike.setTxPos {s t : State} (h : Alike s t) (x : Pos) : Alike (s.setTxPos x) (t.setTxPos x) :=
  h.update (·.setTxPos x) (fun _ _ _ _ => rfl) rfl rfl rfl (.inl rfl) rfl
theorem Alike.setTxIdle {s t : State} (h : Alike s t) : Alike (s.setTxState .idle) (t.setTxState .idle) :=
  h.update (·.setTxState .idle) (fun _ _ _ _ => rfl) rfl rfl rfl (.inr rfl) rfl

/-- Entering another transmit state with a committed frame. -/
theorem AlikeFrame.setTxState {s t : State} (h : AlikeFrame s t) (x : TxState) :
    Alike (s.setTxState x) (t.setTxState x) := by
  obtain ⟨h, hp⟩ := h
  obtain ⟨d1, d2, d3, rfl⟩ := h.shape
  exact ⟨rfl, h.txbSlide, h.rxbSlide, h.txbHeld, h.rxbHeld, fun _ => hp⟩

theorem Alike.frame {s t : State} (h : Alike s t) (hs : s.tx.state ≠ .idle) : AlikeFrame s t := ⟨h, h.payload hs⟩

theorem Alike.raise {s t : State} (h : Alike s t) (c : Cause) : Alike (raise c s) (raise c t) := by
  unfold Machine.raise
  rw [h.err, h.counters]
  exact (h.setErr _).setCounters _

theorem Alike.act {s t : State} (h : Alike s t) (e : Event) : Alike (act e s) (act e t) := by
  unfold Machine.act; rw [h.env]; exact h.setEnv _

theorem Alike.askFlag {s t : State} (h : Alike s t) (e : Bool → Event) :
    (askFlag e t).1 = (askFlag e s).1 ∧ Alike (askFlag e s).2 (askFlag e t).2 := by
  unfold Machine.askFlag; rw [h.env]; exact ⟨rfl, h.setEnv _⟩

theorem Alike.askByte {s t : State} (h : Alike s t) (e : Byte → Event) :
    (askByte e t).1 = (askByte e s).1 ∧ Alike (askByte e s).2 (askByte e t).2 := by
  unfold Machine.askByte; rw [h.env]; exact ⟨rfl, h.setEnv _⟩

theorem Alike.askNow {s t : State} (h : Alike s t) :
    (askNow t).1 = (askNow s).1 ∧ Alike (askNow s).2 (askNow t).2 := by
  unfold Machine.askNow; rw [h.env]; exact ⟨rfl, h.setEnv _⟩

theorem Alike.respond {s t : State} (h : Alike s t) (st : Status) (d : Word) :
    Alike (respond st d s) (respond st d t) := by
  unfold Machine.respond; rw [h.host]; exact h.setHost _

/-! ### The buffers -/

/-- The facts of one buffer. -/
theorem Alike.buffer {s t : State} (h : Alike s t) (b : Buf) : ∃ d, t.buf b = { s.buf b with data := d } ∧
    (s.buf b).writePos = (s.buf b).pending ∧ (t.buf b).held = (s.buf b).held ∧ t.depthMax b = s.depthMax b ∧
    t.capacity b = s.capacity b := by
  obtain ⟨d1, d2, d3, rfl⟩ := h.shape
  cases b
  · exact ⟨d1, rfl, h.txbSlide, h.txbHeld, rfl, rfl⟩
  · exact ⟨d2, rfl, h.rxbSlide, h.rxbHeld, rfl, rfl⟩

/-- A new record for one buffer, the same but for bytes not held. -/
theorem Alike.setBuf {s t : State} (h : Alike s t) (b : Buf) {r q : StreamBuffer} (h1 : q.writePos = r.writePos)
    (h2 : q.pending = r.pending) (h3 : r.writePos = r.pending) (h4 : q.held = r.held) :
    Alike (s.setBuf b r) (t.setBuf b q) := by
  obtain ⟨d1, d2, d3, rfl⟩ := h.shape
  obtain ⟨qd, qw, qp⟩ := q
  simp only at h1 h2
  subst h1 h2
  cases b
  · exact ⟨rfl, h3, h.rxbSlide, h4, h.rxbHeld, h.payload⟩
  · exact ⟨rfl, h.txbSlide, h3, h.txbHeld, h4, h.payload⟩

theorem Alike.sbTake {s t : State} (h : Alike s t) (b : Buf) (n : Count) :
    OutcomeRel AlikePair (sbTake b n s) (sbTake b n t) := by
  obtain ⟨d, hb, hs, hh, hd, -⟩ := h.buffer b
  unfold Machine.sbTake
  simp only [hd]
  rw [hb] at hh ⊢
  simp only
  split
  · rfl
  · rename_i hn
    split
    · rfl
    · have hle : n.toNat ≤ (s.buf b).pending.toNat := by rw [BitVec.lt_def] at hn; omega
      have hsub : ((s.buf b).pending - n).toNat = (s.buf b).pending.toNat - n.toNat :=
        BitVec.toNat_sub_of_le (by rw [BitVec.le_def]; omega)
      simp only [StreamBuffer.held] at hh
      refine ⟨?_, h.setBuf b rfl rfl rfl ?_⟩
      · simp only
        rw [Memory.prefixBytes_take _ _ _ hle, Memory.prefixBytes_take d _ _ hle, hh]
      · simp only [StreamBuffer.held]
        rw [hsub, Memory.prefixBytes_shiftDown, Memory.prefixBytes_shiftDown, hh]

theorem Alike.sbConsume {s t : State} (h : Alike s t) (b : Buf) (n : Count) :
    OutcomeRel Alike (sbConsume b n s) (sbConsume b n t) :=
  (h.sbTake b n).andThen fun _ _ k => k.2

theorem Alike.sbStore {s t : State} (h : Alike s t) (b : Buf) (x : Byte) :
    OutcomeRel Alike (sbStore b x s) (sbStore b x t) := by
  obtain ⟨d, hb, hs, hh, hd, -⟩ := h.buffer b
  unfold Machine.sbStore
  simp only [hd]
  rw [hb] at hh ⊢
  simp only
  split
  · rename_i hlt
    have hadd : ((s.buf b).pending + 1).toNat = (s.buf b).pending.toNat + 1 := by
      rw [hs, BitVec.lt_def] at hlt
      have := (s.depthMax b).isLt
      rw [BitVec.toNat_add]; simp; omega
    simp only [StreamBuffer.held] at hh
    refine h.setBuf b rfl rfl (by rw [hs]) ?_
    simp only [StreamBuffer.held]
    rw [hadd, hs, Memory.prefixBytes_write_end, Memory.prefixBytes_write_end, hh]
  · rfl

theorem Alike.sbAppend {s t : State} (h : Alike s t) (b : Buf) (x : Byte) :
    OutcomeRel AlikePair (sbAppend b x s) (sbAppend b x t) := by
  obtain ⟨d, hb, hs, hh, hd, hc⟩ := h.buffer b
  have hp : (t.buf b).pending = (s.buf b).pending := by rw [hb]
  unfold Machine.sbAppend
  simp only [hp, hc]
  split
  · exact (h.sbStore b x).andThen fun _ _ k => ⟨rfl, k⟩
  · simp only [raise_cfg, h.cfg]
    split
    · exact ⟨rfl, h.raise _⟩
    · exact ⟨rfl, h.raise _⟩
    · exact ((h.raise _).sbConsume b 1).andThen fun _ _ k => (k.sbStore b x).andThen fun _ _ k2 => ⟨rfl, k2⟩
    · rfl

theorem Alike.sbFillLoop (now : Word) (left : Nat) {s t : State} (h : Alike s t) :
    OutcomeRel Alike (sbFillLoop now left s) (sbFillLoop now left t) := by
  induction left generalizing s t with
  | zero =>
    obtain ⟨h1, h2⟩ := h.askFlag .srcValid
    unfold Machine.sbFillLoop
    simp only [askSrcValid, h1, h2.txbPending, h2.cfg]
    exact .ite (fun _ => h2) fun _ => .ite (fun _ => (h2.act _).raise _) fun _ => h2
  | succ left ih =>
    obtain ⟨h1, h2⟩ := h.askFlag .srcValid
    obtain ⟨h3, h4⟩ := h2.askByte .srcData
    unfold Machine.sbFillLoop
    simp only [askSrcValid, h1, h2.txbPending, h2.cfg]
    refine .ite (fun _ => h2) fun _ => .ite (fun _ => (h2.act _).raise _) fun _ => ?_
    have h5 := h4.act .srcTake
    simp only [askSrcData, doSrcTake, h3, h5.txbPending]
    refine (h5.sbAppend .txb _).andThen fun a b k => ih ?_
    rw [k.1]
    exact .branch (fun _ => k.2.setTFill _) fun _ => k.2

theorem Alike.sbDeliverLoop (left : Nat) {s t : State} (h : Alike s t) :
    OutcomeRel Alike (sbDeliverLoop left s) (sbDeliverLoop left t) := by
  induction left generalizing s t with
  | zero => exact h
  | succ left ih =>
    obtain ⟨h1, h2⟩ := h.askFlag .sinkReady
    unfold Machine.sbDeliverLoop
    simp only [askSinkReady, h1]
    refine .ite (fun _ => (h2.sbTake .rxb 1).andThen fun a b k => ih ?_) fun _ => h2
    rw [k.1]
    exact k.2.act _

theorem Alike.requestMode {s t : State} (h : Alike s t) (m : RadioMode) (now : Word) :
    OutcomeRel Alike (requestMode m now s) (requestMode m now t) := by
  unfold Machine.requestMode
  simp only [h.arb]
  split
  · exact (h.act _).setArb _
  · rfl

theorem Alike.modePoll {s t : State} (h : Alike s t) (now : Word) : Alike (modePoll now s) (modePoll now t) := by
  unfold Machine.modePoll modeTimeoutCheck
  obtain ⟨h1, h2⟩ := h.askFlag .radioModeReady
  simp only [h.arb, askModeReady, h1, h2.cfg, h2.arb]
  exact .branch (fun _ => .branch (fun _ => h2.setArb _) fun _ =>
    .branch (fun _ => ((h2.raise _).act _).setArb _) fun _ => h2) fun _ => h

/-! ### The transmitter -/

theorem Alike.commitFrame {s t : State} (h : Alike s t) : OutcomeRel AlikeFrame (commitFrame s) (commitFrame t) := by
  unfold Machine.commitFrame
  simp only [h.txbPending, h.cfg]
  generalize hk : (if s.txb.pending < s.cfg.n then s.txb.pending else s.cfg.n) = k
  have hkn : k.toNat ≤ s.cfg.n.toNat := by
    rw [← hk]; split
    · rename_i hlt; rw [BitVec.lt_def] at hlt; omega
    · exact Nat.le_refl _
  have hlen : ∀ (a : List Byte) (u : State), Machine.sbTake .txb k s = .next (a, u) → a.length = k.toNat ∧ u.cfg = s.cfg := by
    intro a u e
    unfold Machine.sbTake at e
    simp only at e
    split at e
    · cases e
    · split at e
      · cases e
      · cases e; exact ⟨by simp, by simp⟩
  generalize hx : Machine.sbTake .txb k s = x at hlen
  have ht := h.sbTake .txb k
  rw [hx] at ht
  generalize Machine.sbTake .txb k t = y at ht
  cases x <;> cases y <;> simp only [OutcomeRel] at ht
  · rename_i a b
    obtain ⟨l1, l2⟩ := hlen a.1 a.2 rfl
    obtain ⟨g1, g2⟩ := ht
    simp only [andThen_next, g2.params, g2.cfg, ← g1]
    split
    · rfl
    · have hz : (a.1 ++ List.replicate (a.2.cfg.n.toNat - k.toNat) a.2.cfg.pad).length = a.2.cfg.n.toNat := by
        rw [l2]; simp [l1]; omega
      have hp : ∀ m : Memory, (m.writeBytes 0 (a.1 ++ List.replicate (a.2.cfg.n.toNat - k.toNat) a.2.cfg.pad)).prefixBytes
          a.2.cfg.n.toNat = a.1 ++ List.replicate (a.2.cfg.n.toNat - k.toNat) a.2.cfg.pad := by
        intro m
        have := Memory.prefixBytes_writeBytes m (a.1 ++ List.replicate (a.2.cfg.n.toNat - k.toNat) a.2.cfg.pad)
        rwa [hz] at this
      obtain ⟨d1, d2, d3, e⟩ := g2.shape
      have h1 := g2.txbHeld
      have h2 := g2.rxbHeld
      rw [e] at h1 h2 ⊢
      refine ⟨⟨rfl, g2.txbSlide, g2.rxbSlide, h1, h2, fun _ => ?_⟩, ?_⟩
      · exact (hp _).trans (hp _).symm
      · exact (hp _).trans (hp _).symm
  · exact ht
  · exact ht

theorem AlikeFrame.wireByte {s t : State} (h : AlikeFrame s t) : wireByte t = wireByte s := by
  obtain ⟨h, hp⟩ := h
  unfold Machine.wireByte
  simp only [h.txPos, h.cfg, h.params]
  split
  · rfl
  · split
    · rfl
    · split
      · rename_i hi _ hw
        have : s.tx.pos.toNat - 2 < s.cfg.n.toNat := by omega
        have e1 := Memory.getElem_prefixBytes t.tx.payload s.cfg.n.toNat (s.tx.pos.toNat - 2) (by simpa using this)
        have e2 := Memory.getElem_prefixBytes s.tx.payload s.cfg.n.toNat (s.tx.pos.toNat - 2) (by simpa using this)
        rw [← e1, ← e2]
        simp only [hp]
      · rfl

/-- An update of alike frames that leaves the payload and N alone. -/
theorem AlikeFrame.of_alike {s t s' t' : State} (h : AlikeFrame s t) (k : Alike s' t') (h1 : s'.tx.payload = s.tx.payload)
    (h2 : t'.tx.payload = t.tx.payload) (h3 : s'.cfg = s.cfg) : AlikeFrame s' t' :=
  ⟨k, by rw [h1, h2, h3]; exact h.2⟩

theorem AlikeFrame.frameComplete (now : Word) {s t : State} (h : AlikeFrame s t) :
    OutcomeRel (fun a b => a.1 = b.1 ∧ if a.1 = true then AlikeFrame a.2 b.2 else Alike a.2 b.2)
      (frameComplete now s) (frameComplete now t) := by
  have h4 : Alike s.countFrameTx t.countFrameTx := by
    unfold State.countFrameTx; rw [h.1.counters]; exact h.1.setCounters _
  have f4 : AlikeFrame _ _ := h.of_alike h4 rfl rfl rfl
  unfold Machine.frameComplete
  simp only [h4.cfg, h4.txbPending]
  exact .ite (fun _ => h4.commitFrame.andThen fun _ _ k => ⟨rfl, by simpa using k⟩) fun _ =>
    ⟨rfl, by simpa using (f4.setTxState _).setTWait _⟩

theorem AlikeFrame.txSendLoop (now : Word) (passes : Nat) {s t : State} (h : AlikeFrame s t) :
    OutcomeRel Alike (txSendLoop now passes s) (txSendLoop now passes t) := by
  induction passes generalizing s t with
  | zero => rfl
  | succ passes ih =>
    obtain ⟨h1, h2⟩ := h.1.askFlag .radioFifoFull
    have f2 : AlikeFrame _ _ := h.of_alike h2 rfl rfl rfl
    unfold Machine.txSendLoop
    simp only [askFifoFull, h1, f2.wireByte, h2.txPos]
    refine .ite (fun _ => h2) fun _ => ?_
    · generalize Machine.wireByte (Machine.askFlag Event.radioFifoFull s).2 = x
      cases x with
      | fault r => rfl
      | refused r => rfl
      | next b =>
        simp only [andThen_next]
        have h3 := (h2.act (.radioWrite b)).setTxPos ((askFlag Event.radioFifoFull s).2.tx.pos + 1)
        have f3 : AlikeFrame _ _ := f2.of_alike h3 rfl rfl rfl
        simp only [doRadioWrite, h3.txPos, wireEnd, h3.cfg]
        refine .ite (fun _ => ?_) fun _ => ih f3
        · refine (f3.frameComplete now).andThen fun a b k => ?_
          obtain ⟨k1, k2⟩ := k
          rw [← k1]
          split
          · rename_i ha
            rw [if_pos ha] at k2
            exact ih k2
          · rename_i ha
            rw [if_neg ha] at k2
            exact k2

theorem AlikeFrame.txSend (now : Word) {s t : State} (h : AlikeFrame s t) :
    OutcomeRel Alike (txSend now s) (txSend now t) := by
  unfold Machine.txSend txSendBound
  rw [h.1.cfg, h.1.txbPending]
  exact h.txSendLoop now _

theorem Alike.txStep (now : Word) {s t : State} (h : Alike s t) : OutcomeRel Alike (txStep now s) (txStep now t) := by
  unfold Machine.txStep
  rw [h.txState]
  split
  · rename_i hs
    have hd : frameDue now t = frameDue now s := by simp only [frameDue, h.cfg, h.txbPending, h.tFill]
    unfold txIdle
    rw [h.arb, hd]
    split
    · refine h.commitFrame.andThen fun a b k => ?_
      unfold Machine.requestMode
      rw [k.1.arb]
      split
      · simp only [andThen_next]
        have k2 : Alike _ _ := (k.1.act (.radioSetMode .tx)).setArb { a.arb with req := .tx, pending := true, tReq := now }
        exact (k.of_alike k2 rfl rfl rfl).setTxState _
      · rfl
    · exact h
  · rename_i hs
    unfold txWaitMode
    rw [h.arb]
    split
    · have f := h.frame (by rw [hs]; simp)
      exact AlikeFrame.txSend now (f.of_alike (f.setTxState .send) rfl rfl rfl)
    · exact h
  · rename_i hs
    exact (h.frame (by rw [hs]; simp)).txSend now
  · obtain ⟨h1, h2⟩ := h.askFlag .radioTxDone
    unfold txDrainPoll
    simp only [askTxDone, h1, h2.cfg, h2.tWait]
    exact .ite (fun _ => (h2.requestMode _ _).andThen fun _ _ k => k.setTxIdle) fun _ =>
      .ite (fun _ => ((h2.raise _).requestMode _ _).andThen fun _ _ k => k.setTxIdle) fun _ => h2

/-! ### The receiver -/

theorem Alike.setSync {s t : State} (h : Alike s t) (x : SyncState) : Alike (s.setSync x) (t.setSync x) := by
  unfold State.setSync; rw [h.rx]; exact h.setRx _
theorem Alike.setRemaining {s t : State} (h : Alike s t) (x : Count) : Alike (s.setRemaining x) (t.setRemaining x) := by
  unfold State.setRemaining; rw [h.rx]; exact h.setRx _
theorem Alike.setTLink {s t : State} (h : Alike s t) (x : Word) : Alike (s.setTLink x) (t.setTLink x) := by
  unfold State.setTLink; rw [h.rx]; exact h.setRx _
theorem Alike.setRxPhase {s t : State} (h : Alike s t) (x : RxPhase) : Alike (s.setRxPhase x) (t.setRxPhase x) := by
  unfold State.setRxPhase; rw [h.rx]; exact h.setRx _
theorem Alike.countFrameRx {s t : State} (h : Alike s t) : Alike s.countFrameRx t.countFrameRx := by
  unfold State.countFrameRx; rw [h.counters]; exact h.setCounters _

theorem Alike.requestAndEnter {s t : State} (h : Alike s t) (m : RadioMode) (p : RxPhase) (now : Word) :
    OutcomeRel Alike (requestAndEnter m p now s) (requestAndEnter m p now t) :=
  (h.requestMode m now).andThen fun _ _ k => k.setRxPhase p

theorem Alike.rxFeed {s t : State} (h : Alike s t) (b : Byte) : Alike (rxFeed b s) (rxFeed b t) := by
  unfold Machine.rxFeed
  simp only [h.cfg, h.rx]
  have k : Alike (if (sdFeed s.cfg.sync0 s.cfg.sync1 s.rx.sync b).2 = true then
        Machine.raise .syncLoss (s.setSync (sdFeed s.cfg.sync0 s.cfg.sync1 s.rx.sync b).1)
        else s.setSync (sdFeed s.cfg.sync0 s.cfg.sync1 s.rx.sync b).1)
      (if (sdFeed s.cfg.sync0 s.cfg.sync1 s.rx.sync b).2 = true then
        Machine.raise .syncLoss (t.setSync (sdFeed s.cfg.sync0 s.cfg.sync1 s.rx.sync b).1)
        else t.setSync (sdFeed s.cfg.sync0 s.cfg.sync1 s.rx.sync b).1) :=
    .branch (fun _ => (h.setSync _).raise _) fun _ => h.setSync _
  refine .branch (fun _ => ?_) fun _ => k
  rw [k.cfg]; exact k.setRemaining _

theorem Alike.rxSyncFeed {s t : State} (h : Alike s t) : Alike (rxSyncFeed s) (rxSyncFeed t) := by
  obtain ⟨h1, h2⟩ := h.askFlag .radioFifoNotEmpty
  obtain ⟨h3, h4⟩ := h2.askByte (.radioRead Config.dummyByte)
  unfold Machine.rxSyncFeed
  simp only [askFifoNotEmpty, askRadioRead, h1, h3]
  exact .branch (fun _ => h4.rxFeed _) fun _ => h2

theorem Alike.rxAccept {s t : State} (h : Alike s t) (b : Byte) : OutcomeRel Alike (rxAccept b s) (rxAccept b t) :=
  (h.sbAppend .rxb b).andThen fun a c k => by
    unfold sbDeliverToSink
    rw [k.2.rxbPending]
    exact k.2.sbDeliverLoop _

theorem Alike.rxFrameComplete {s t : State} (h : Alike s t) (now : Word) :
    OutcomeRel Alike (rxFrameComplete now s) (rxFrameComplete now t) := by
  have k := (h.countFrameRx.setSync .searching).setTLink now
  unfold Machine.rxFrameComplete sdReset
  simp only [k.cfg]
  exact .ite (fun _ => k.requestAndEnter _ _ _) fun _ => k

theorem Alike.rxPayloadLoop (now : Word) (left : Nat) {s t : State} (h : Alike s t) :
    OutcomeRel Alike (rxPayloadLoop now left s) (rxPayloadLoop now left t) := by
  induction left generalizing s t with
  | zero => exact h
  | succ left ih =>
    obtain ⟨h1, h2⟩ := h.askFlag .radioFifoNotEmpty
    obtain ⟨h3, h4⟩ := h2.askByte (.radioRead Config.dummyByte)
    unfold Machine.rxPayloadLoop
    simp only [askFifoNotEmpty, askRadioRead, h1, h3, h4.rx]
    refine .ite (fun _ => ((h4.setRemaining _).rxAccept _).andThen fun a b k => ?_) fun _ => h2
    rw [k.rx]
    exact .ite (fun _ => k.rxFrameComplete now) fun _ => ih k

theorem Alike.rxActive {s t : State} (h : Alike s t) (now : Word) :
    OutcomeRel Alike (rxActive now s) (rxActive now t) := by
  have k : Alike (if s.rx.sync ≠ .locked then Machine.rxSyncFeed s else s)
      (if t.rx.sync ≠ .locked then Machine.rxSyncFeed t else t) := by
    rw [h.rx]; exact .branch (fun _ => h.rxSyncFeed) fun _ => h
  unfold Machine.rxActive
  simp only
  generalize (if s.rx.sync ≠ .locked then Machine.rxSyncFeed s else s) = u at k
  generalize (if t.rx.sync ≠ .locked then Machine.rxSyncFeed t else t) = v at k
  rw [k.rx]
  refine .ite (fun _ => ?_) fun _ => k
  unfold rxPayload
  rw [k.rx]
  exact k.rxPayloadLoop now _

theorem Alike.rxPhaseArm {s t : State} (h : Alike s t) (now : Word) :
    OutcomeRel Alike (rxPhaseArm now s) (rxPhaseArm now t) := by
  unfold Machine.rxPhaseArm rxStart rxWaitMode rxCycleIdle
  rw [h.rx, h.arb]
  split
  · exact .ite (fun _ => h.requestAndEnter _ _ _) fun _ => h
  · exact .ite (fun _ => (h.setRxPhase _).rxActive now) fun _ => h
  · exact h.rxActive now
  · exact .ite (fun _ => h.requestAndEnter _ _ _) fun _ => h

theorem Alike.rxLinkCheck {s t : State} (h : Alike s t) (now : Word) :
    OutcomeRel Alike (rxLinkCheck now s) (rxLinkCheck now t) := by
  have k := (((h.raise .linkTimeout).setSync .searching).setRemaining 0).setTLink now
  unfold Machine.rxLinkCheck sdReset
  simp only [h.cfg, h.rx, k.cfg, k.rx]
  exact .ite (fun _ => .ite (fun _ => k.requestAndEnter _ _ _) fun _ => k) fun _ => h

/-! ### One iteration -/

/-- No scheduler iteration tells two alike states apart. -/
theorem Alike.schedulerIteration {s t : State} (h : Alike s t) :
    OutcomeRel Alike (schedulerIteration s) (schedulerIteration t) := by
  obtain ⟨h1, h2⟩ := h.askNow
  unfold Machine.schedulerIteration
  simp only [h1]
  generalize (Machine.askNow s).1 = now
  refine OutcomeRel.andThen (R := Alike) ?_ fun a b ka => OutcomeRel.andThen (R := Alike) ?_ fun c d kc =>
    OutcomeRel.andThen (R := Alike) ?_ fun e f ke => ke.modePoll now
  · unfold phaseA sbFillFromSource sbDeliverToSink
    rw [h2.cfg, h2.rxbPending]
    exact .ite (fun _ => h2.sbFillLoop now _) fun _ => h2.sbDeliverLoop _
  · unfold phaseB
    rw [ka.cfg]
    exact .ite (fun _ => ka.txStep now) fun _ => ka
  · unfold phaseC Machine.rxStep
    rw [kc.cfg]
    exact .ite (fun _ => (kc.rxPhaseArm now).andThen fun _ _ k => k.rxLinkCheck now) fun _ => kc

end Sys2Proof.Machine
end

