-- ==== Sys2Proof/Laws/Relations.lean ====
section
/-! SUPPORT. The inductions over the scheduler's loops, packaged once: a relation between states that holds of each
primitive step a role takes, and is reflexive and transitive, holds of that role's whole phase, from every state. -/

namespace Sys2Proof.Machine

/-- A relation that both roles' primitive steps satisfy. -/
structure CommonRel (R : State → State → Prop) : Prop where
  refl : ∀ s, R s s
  trans : ∀ s t u, R s t → R t u → R s u
  raiseMode : ∀ s, R s (raise .modeTimeout s)
  counters : ∀ s x, R s (s.setCounters x)
  arb : ∀ s x, R s (s.setArb x)
  setMode : ∀ s m, R s (doSetMode m s)
  modeReady : ∀ s, R s (askModeReady s).2

/-- A relation that a transmitter's primitive steps satisfy. -/
structure TxRel (R : State → State → Prop) : Prop extends CommonRel R where
  txb : ∀ s x, R s (s.setTxb x)
  tx : ∀ s x, R s (s.setTx x)
  valid : ∀ s, R s (askSrcValid s).2
  take : ∀ s, s.env.flag = true → R s (doSrcTake (askSrcData (askSrcValid s).2).2)
  overrun : ∀ s, s.env.flag = true → R s (doSrcOverrun (askSrcValid s).2)
  full : ∀ s, R s (askFifoFull s).2
  write : ∀ s b, s.env.flag = false → R s (doRadioWrite b (askFifoFull s).2)
  txDone : ∀ s, R s (askTxDone s).2
  raiseOverrun : ∀ s, R s (raise .txOverrun s)
  raiseDrain : ∀ s, R s (raise .drainTimeout s)

/-- A relation that a receiver's primitive steps satisfy. -/
structure RxRel (R : State → State → Prop) : Prop extends CommonRel R where
  rxb : ∀ s x, R s (s.setRxb x)
  rx : ∀ s x, R s (s.setRx x)
  ready : ∀ s, R s (askSinkReady s).2
  deliver : ∀ s r b, s.env.flag = true → R s (doSinkWrite b ((askSinkReady s).2.setRxb r))
  notEmpty : ∀ s, R s (askFifoNotEmpty s).2
  read : ∀ s, s.env.flag = true → R s (askRadioRead (askFifoNotEmpty s).2).2
  raiseOverrun : ∀ s, R s (raise .rxOverrun s)
  raiseLink : ∀ s, R s (raise .linkTimeout s)
  raiseLoss : ∀ s, R s (raise .syncLoss s)

section
variable {R : State → State → Prop}

theorem CommonRel.requestMode (h : CommonRel R) {m : RadioMode} {now : Word} {s t : State}
    (e : requestMode m now s = .next t) : R s t := by
  unfold Machine.requestMode at e
  split at e
  · cases e; exact h.trans _ _ _ (h.setMode _ _) (h.arb _ _)
  · cases e

theorem CommonRel.modePoll (h : CommonRel R) (now : Word) (s : State) : R s (modePoll now s) := by
  unfold Machine.modePoll modeTimeoutCheck
  split
  · simp only
    split
    · exact h.trans _ _ _ (h.modeReady s) (h.arb _ _)
    · split
      · exact h.trans _ _ _ (h.trans _ _ _ (h.modeReady s)
          (h.trans _ _ _ (h.raiseMode _) (h.setMode _ _))) (h.arb _ _)
      · exact h.modeReady s
  · exact h.refl s

/-- What SB_take can do: nothing but a new buffer record. -/
theorem sbTake_next {b : Buf} {n : Count} {s t : State} {l : List Byte} (e : sbTake b n s = .next (l, t)) :
    ∃ r, t = s.setBuf b r := by
  unfold sbTake at e
  simp only at e
  split at e
  · cases e
  · split at e
    · cases e
    · cases e; exact ⟨_, rfl⟩

theorem sbStore_next {b : Buf} {x : Byte} {s t : State} (e : sbStore b x s = .next t) : ∃ r, t = s.setBuf b r := by
  unfold sbStore at e
  simp only at e
  split at e
  · cases e; exact ⟨_, rfl⟩
  · cases e

/-- What SB_append can do: perhaps the overrun recorded, and perhaps a new buffer record. -/
theorem sbAppend_next {b : Buf} {x : Byte} {s t : State} {a : AppendResult} (e : sbAppend b x s = .next (a, t)) :
    ∃ r, t = s.setBuf b r ∨ t = (raise b.overrun s).setBuf b r := by
  unfold sbAppend at e
  split at e
  · obtain ⟨t', e1, e2⟩ := (andThen_eq_next _ _ _).mp e
    obtain ⟨r, rfl⟩ := sbStore_next e1
    cases e2; exact ⟨r, .inl rfl⟩
  · have same : (raise b.overrun s).setBuf b (s.buf b) = raise b.overrun s := by cases b <;> rfl
    simp only at e
    split at e
    · cases e; exact ⟨s.buf b, .inr same.symm⟩
    · cases e; exact ⟨s.buf b, .inr same.symm⟩
    · obtain ⟨t', e1, e2⟩ := (andThen_eq_next _ _ _).mp e
      obtain ⟨t'', e3, e4⟩ := (andThen_eq_next _ _ _).mp e2
      obtain ⟨p, e5, e6⟩ := (andThen_eq_next _ _ _).mp e1
      obtain ⟨r1, h1⟩ := sbTake_next (t := p.2) (l := p.1) e5
      obtain ⟨r2, rfl⟩ := sbStore_next e3
      cases e4; cases e6
      refine ⟨r2, .inr ?_⟩
      rw [h1]; cases b <;> rfl
    · cases e

theorem TxRel.sbAppend (h : TxRel R) {x : Byte} {s t : State} {a : AppendResult}
    (e : sbAppend .txb x s = .next (a, t)) : R s t := by
  obtain ⟨r, rfl | rfl⟩ := sbAppend_next e
  · exact h.txb _ _
  · exact h.trans _ _ _ (h.raiseOverrun _) (h.txb _ _)

theorem RxRel.sbAppend (h : RxRel R) {x : Byte} {s t : State} {a : AppendResult}
    (e : sbAppend .rxb x s = .next (a, t)) : R s t := by
  obtain ⟨r, rfl | rfl⟩ := sbAppend_next e
  · exact h.rxb _ _
  · exact h.trans _ _ _ (h.raiseOverrun _) (h.rxb _ _)

theorem TxRel.sbFillLoop (h : TxRel R) (now : Word) (left : Nat) {s t : State}
    (e : sbFillLoop now left s = .next t) : R s t := by
  induction left generalizing s with
  | zero =>
    unfold Machine.sbFillLoop at e
    simp only at e
    split at e
    · cases e; exact h.valid s
    · rename_i hv
      split at e
      · cases e
        exact h.trans _ _ _ (h.overrun s (by simpa [askSrcValid] using hv)) (h.raiseOverrun _)
      · cases e; exact h.valid s
  | succ left ih =>
    unfold Machine.sbFillLoop at e
    simp only at e
    split at e
    · cases e; exact h.valid s
    · rename_i hv
      have hv : s.env.flag = true := by simpa [askSrcValid] using hv
      split at e
      · cases e
        exact h.trans _ _ _ (h.overrun s hv) (h.raiseOverrun _)
      · obtain ⟨⟨a, u⟩, e1, e2⟩ := (andThen_eq_next _ _ _).mp e
        refine h.trans _ _ _ (h.take s hv) (h.trans _ _ _ (h.sbAppend e1) ?_)
        refine h.trans _ _ _ ?_ (ih e2)
        split
        · exact h.tx _ _
        · exact h.refl _

theorem RxRel.sbDeliverLoop (h : RxRel R) (left : Nat) {s t : State} (e : sbDeliverLoop left s = .next t) :
    R s t := by
  induction left generalizing s with
  | zero => cases e; exact h.refl _
  | succ left ih =>
    unfold Machine.sbDeliverLoop at e
    simp only at e
    split at e
    · rename_i hv
      obtain ⟨p, e1, e2⟩ := (andThen_eq_next _ _ _).mp e
      obtain ⟨r, h1⟩ := sbTake_next (t := p.2) (l := p.1) e1
      rw [h1] at e2
      exact h.trans _ _ _ (h.deliver s r _ (by simpa [askSinkReady] using hv)) (ih e2)
    · cases e; exact h.ready s

theorem TxRel.commitFrame (h : TxRel R) {s t : State} (e : commitFrame s = .next t) : R s t := by
  unfold Machine.commitFrame at e
  obtain ⟨p, e1, e2⟩ := (andThen_eq_next _ _ _).mp e
  obtain ⟨r, h1⟩ := sbTake_next (t := p.2) (l := p.1) e1
  simp only at e2
  split at e2
  · cases e2
  · cases e2
    rw [h1]
    exact h.trans _ _ _ (h.txb s r) (h.trans _ _ _ (h.tx _ _) (h.tx _ _))

theorem TxRel.txSendLoop (h : TxRel R) (now : Word) (passes : Nat) {s t : State}
    (e : txSendLoop now passes s = .next t) : R s t := by
  induction passes generalizing s with
  | zero => cases e
  | succ passes ih =>
    unfold Machine.txSendLoop at e
    simp only at e
    split at e
    · cases e; exact h.full s
    · rename_i hf
      have hf : s.env.flag = false := by simpa [askFifoFull] using hf
      obtain ⟨b, -, e2⟩ := (andThen_eq_next _ _ _).mp e
      have hw : R s ((doRadioWrite b (askFifoFull s).2).setTxPos ((askFifoFull s).2.tx.pos + 1)) :=
        h.trans _ _ _ (h.write s b hf) (h.tx _ _)
      refine h.trans _ _ _ hw ?_
      · split at e2
        · obtain ⟨p, e3, e4⟩ := (andThen_eq_next _ _ _).mp e2
          refine h.trans _ p.2 _ ?_ ?_
          · unfold frameComplete at e3
            simp only at e3
            split at e3
            · obtain ⟨q, e5, e6⟩ := (andThen_eq_next _ _ _).mp e3
              cases e6
              exact h.trans _ _ _ (h.counters _ _) (h.commitFrame e5)
            · cases e3
              exact h.trans _ _ _ (h.counters _ _) (h.trans _ _ _ (h.tx _ _) (h.tx _ _))
          · split at e4
            · exact ih e4
            · cases e4; exact h.refl _
        · exact ih e2

theorem TxRel.txStep (h : TxRel R) (now : Word) {s t : State} (e : txStep now s = .next t) : R s t := by
  unfold Machine.txStep at e
  split at e
  · unfold txIdle at e
    split at e
    · obtain ⟨u, e1, e2⟩ := (andThen_eq_next _ _ _).mp e
      obtain ⟨v, e3, e4⟩ := (andThen_eq_next _ _ _).mp e2
      cases e4
      exact h.trans _ _ _ (h.commitFrame e1) (h.trans _ _ _ (h.requestMode e3) (h.tx _ _))
    · cases e; exact h.refl _
  · unfold txWaitMode at e
    split at e
    · exact h.trans _ _ _ (h.tx _ _) (h.txSendLoop now _ e)
    · cases e; exact h.refl _
  · exact h.txSendLoop now _ e
  · unfold txDrainPoll at e
    simp only at e
    split at e
    · obtain ⟨v, e3, e4⟩ := (andThen_eq_next _ _ _).mp e
      cases e4
      exact h.trans _ _ _ (h.txDone s) (h.trans _ _ _ (h.requestMode e3) (h.tx _ _))
    · split at e
      · obtain ⟨v, e3, e4⟩ := (andThen_eq_next _ _ _).mp e
        cases e4
        exact h.trans _ _ _ (h.txDone s)
          (h.trans _ _ _ (h.raiseDrain _) (h.trans _ _ _ (h.requestMode e3) (h.tx _ _)))
      · cases e; exact h.txDone s

theorem RxRel.requestAndEnter (h : RxRel R) {m : RadioMode} {p : RxPhase} {now : Word} {s t : State}
    (e : requestAndEnter m p now s = .next t) : R s t := by
  unfold Machine.requestAndEnter at e
  obtain ⟨u, e1, e2⟩ := (andThen_eq_next _ _ _).mp e
  cases e2
  exact h.trans _ _ _ (h.requestMode e1) (h.rx _ _)

theorem RxRel.setRemaining (h : RxRel R) (s : State) (x : Count) : R s (s.setRemaining x) := h.rx _ _

theorem RxRel.rxFeed (h : RxRel R) (b : Byte) (s : State) : R s (rxFeed b s) := by
  unfold Machine.rxFeed
  generalize sdFeed s.cfg.sync0 s.cfg.sync1 s.rx.sync b = d
  have h1 : R s (if d.2 = true then Machine.raise .syncLoss (s.setSync d.1) else s.setSync d.1) := by
    split
    · exact h.trans _ _ _ (h.rx _ _) (h.raiseLoss _)
    · exact h.rx _ _
  simp only
  split
  · exact h.trans _ _ _ h1 (h.rx _ _)
  · exact h1

theorem RxRel.rxSyncFeed (h : RxRel R) (s : State) : R s (rxSyncFeed s) := by
  unfold Machine.rxSyncFeed
  simp only
  split
  · rename_i hf
    exact h.trans _ _ _ (h.read s (by simpa [askFifoNotEmpty] using hf)) (h.rxFeed _ _)
  · exact h.notEmpty s

theorem RxRel.rxFrameComplete (h : RxRel R) {now : Word} {s t : State} (e : rxFrameComplete now s = .next t) :
    R s t := by
  unfold Machine.rxFrameComplete at e
  simp only at e
  split at e
  · exact h.trans _ _ _ (h.counters _ _) (h.trans _ _ _ (h.rx _ _) (h.trans _ _ _ (h.rx _ _) (h.requestAndEnter e)))
  · cases e
    exact h.trans _ _ _ (h.counters _ _) (h.trans _ _ _ (h.rx _ _) (h.rx _ _))

theorem RxRel.rxPayloadLoop (h : RxRel R) (now : Word) (left : Nat) {s t : State}
    (e : rxPayloadLoop now left s = .next t) : R s t := by
  induction left generalizing s with
  | zero => cases e; exact h.refl _
  | succ left ih =>
    unfold Machine.rxPayloadLoop at e
    simp only at e
    split at e
    · rename_i hf
      obtain ⟨u, e1, e2⟩ := (andThen_eq_next _ _ _).mp e
      unfold rxAccept at e1
      obtain ⟨p, e3, e4⟩ := (andThen_eq_next _ _ _).mp e1
      have hd : R s u := h.trans _ _ _ (h.read s (by simpa [askFifoNotEmpty] using hf))
        (h.trans _ _ _ (h.setRemaining _ _) (h.trans _ _ _ (h.sbAppend (a := p.1) e3) (h.sbDeliverLoop _ e4)))
      refine h.trans _ _ _ hd ?_
      split at e2
      · exact h.rxFrameComplete e2
      · exact ih e2
    · cases e; exact h.notEmpty s

theorem RxRel.rxActive (h : RxRel R) (now : Word) {s t : State} (e : rxActive now s = .next t) : R s t := by
  unfold Machine.rxActive at e
  simp only at e
  have h1 : R s (if s.rx.sync ≠ .locked then Machine.rxSyncFeed s else s) := by
    split
    · exact h.rxSyncFeed s
    · exact h.refl s
  generalize (if s.rx.sync ≠ .locked then Machine.rxSyncFeed s else s) = u at h1 e
  refine h.trans _ _ _ h1 ?_
  split at e
  · exact h.rxPayloadLoop now _ e
  · cases e; exact h.refl _

theorem RxRel.rxStep (h : RxRel R) (now : Word) {s t : State} (e : rxStep now s = .next t) : R s t := by
  unfold Machine.rxStep at e
  obtain ⟨u, e1, e2⟩ := (andThen_eq_next _ _ _).mp e
  refine h.trans _ u _ ?_ ?_
  · unfold rxPhaseArm rxStart rxWaitMode rxCycleIdle at e1
    split at e1
    · split at e1
      · exact h.requestAndEnter e1
      · cases e1; exact h.refl _
    · split at e1
      · exact h.trans _ _ _ (h.rx _ _) (h.rxActive now e1)
      · cases e1; exact h.refl _
    · exact h.rxActive now e1
    · split at e1
      · exact h.requestAndEnter e1
      · cases e1; exact h.refl _
  · unfold rxLinkCheck at e2
    simp only at e2
    have hr : R u (((sdReset (raise .linkTimeout u)).setRemaining 0).setTLink now) :=
      h.trans _ _ _ (h.raiseLink _)
        (h.trans _ _ _ (h.rx _ _) (h.trans _ _ _ (h.rx _ _) (h.rx _ _)))
    split at e2
    · split at e2
      · exact h.trans _ _ _ hr (h.requestAndEnter e2)
      · cases e2; exact hr
    · cases e2; exact h.refl _

/-- A transmitter's scheduler iteration, after the time is asked. -/
theorem TxRel.schedulerIteration (h : TxRel R) {s t : State} (hr : s.cfg.role = .tx)
    (hcfg : ∀ s t, R s t → t.cfg = s.cfg) (e : schedulerIteration s = .next t) : R (askNow s).2 t := by
  unfold Machine.schedulerIteration at e
  obtain ⟨u, e1, e2⟩ := (andThen_eq_next _ _ _).mp e
  obtain ⟨v, e3, e4⟩ := (andThen_eq_next _ _ _).mp e2
  obtain ⟨w, e5, e6⟩ := (andThen_eq_next _ _ _).mp e4
  unfold phaseA at e1
  rw [if_pos (by simpa using hr)] at e1
  have r1 := h.sbFillLoop _ _ e1
  have c1 : u.cfg.role = .tx := by rw [hcfg _ _ r1]; simpa using hr
  unfold phaseB at e3
  rw [if_pos c1] at e3
  have r2 := h.txStep _ e3
  have c2 : v.cfg.role = .tx := by rw [hcfg _ _ r2]; exact c1
  unfold phaseC at e5
  rw [if_neg (by rw [c2]; decide)] at e5
  cases e5; cases e6
  exact h.trans _ _ _ r1 (h.trans _ _ _ r2 (h.modePoll _ _))

/-- A receiver's scheduler iteration, after the time is asked. -/
theorem RxRel.schedulerIteration (h : RxRel R) {s t : State} (hr : s.cfg.role = .rx)
    (hcfg : ∀ s t, R s t → t.cfg = s.cfg) (e : schedulerIteration s = .next t) : R (askNow s).2 t := by
  unfold Machine.schedulerIteration at e
  obtain ⟨u, e1, e2⟩ := (andThen_eq_next _ _ _).mp e
  obtain ⟨v, e3, e4⟩ := (andThen_eq_next _ _ _).mp e2
  obtain ⟨w, e5, e6⟩ := (andThen_eq_next _ _ _).mp e4
  unfold phaseA at e1
  rw [if_neg (by simp [hr])] at e1
  have r1 := h.sbDeliverLoop _ e1
  have c1 : u.cfg.role = .rx := by rw [hcfg _ _ r1]; simpa using hr
  unfold phaseB at e3
  rw [if_neg (by rw [c1]; decide)] at e3
  cases e3
  unfold phaseC at e5
  rw [if_pos c1] at e5
  have r3 := h.rxStep _ e5
  cases e6
  exact h.trans _ _ _ r1 (h.trans _ _ _ r3 (h.modePoll _ _))

end

end Sys2Proof.Machine
end

