-- ==== Sys2Proof/Laws/StreamBuffer.lean ====
section
/-! SUPPORT. What each StreamBuffer operation can do, in terms of the list of bytes held (40_streambuffer.md). -/

namespace Sys2Proof.Machine

/-- A buffer record that is sound and holds exactly the bytes `l`, oldest first. -/
structure Holds (r : StreamBuffer) (l : List Byte) : Prop where
  wf : Memory.wf r.data = true
  slide : r.writePos = r.pending
  held : r.held = l

theorem Holds.length {r : StreamBuffer} {l : List Byte} (h : Holds r l) : l.length = r.pending.toNat := by
  rw [← h.held]; simp [StreamBuffer.held]

/-- Every sound record holds its bytes. -/
theorem Holds.of_slide {r : StreamBuffer} (hw : Memory.wf r.data = true) (hs : r.writePos = r.pending) :
    Holds r r.held := ⟨hw, hs, rfl⟩

theorem Holds.nil_of_empty {r : StreamBuffer} {l : List Byte} (h : Holds r l) (he : r.pending = 0) : l = [] := by
  have := h.length; rw [he] at this; exact List.length_eq_zero_iff.mp this

theorem count_lt (a : Count) : a.toNat < 16777216 := a.isLt

/-- SB_take with enough bytes held returns the oldest and leaves the rest (40_streambuffer.md R143). -/
theorem sbTake_holds {b : Buf} {s : State} {l : List Byte} (n : Count) (h : Holds (s.buf b) l)
    (hn : n.toNat ≤ l.length) (hd : l.length ≤ (s.depthMax b).toNat) :
    ∃ r, sbTake b n s = .next (l.take n.toNat, s.setBuf b r) ∧ Holds r (l.drop n.toNat) := by
  have hl := h.length
  have h1 : ¬ (s.buf b).pending < n := by rw [BitVec.lt_def]; omega
  have h2 : ¬ s.depthMax b < (s.buf b).pending := by rw [BitVec.lt_def]; omega
  have hsub : ((s.buf b).pending - n).toNat = (s.buf b).pending.toNat - n.toNat :=
    BitVec.toNat_sub_of_le (by rw [BitVec.le_def]; omega)
  refine ⟨⟨Memory.shiftDown n.toNat ((s.buf b).pending.toNat - n.toNat) 0 (s.buf b).data,
    (s.buf b).pending - n, (s.buf b).pending - n⟩, ?_, ?_⟩
  · unfold sbTake
    simp only [h1, h2, if_false]
    rw [Memory.prefixBytes_take _ n.toNat (s.buf b).pending.toNat (by omega),
      show (s.buf b).data.prefixBytes (s.buf b).pending.toNat = l from h.held]
  · refine ⟨Memory.shiftDown_wf _ _ _ _ h.wf, rfl, ?_⟩
    show Memory.prefixBytes _ ((s.buf b).pending - n).toNat = _
    rw [hsub, Memory.prefixBytes_shiftDown, ← h.held]; rfl

/-- A call with more than is held is the internal-invariant fault (40_streambuffer.md R145). -/
theorem sbTake_beyond {b : Buf} {s : State} (n : Count) (h : (s.buf b).pending < n) :
    sbTake b n s = .fault .takeBeyondPending := by
  unfold sbTake; simp [h]

/-- Storing a byte where there is room puts it last. -/
theorem sbStore_holds {b : Buf} {s : State} {l : List Byte} (x : Byte) (h : Holds (s.buf b) l)
    (hd : l.length < (s.depthMax b).toNat) :
    ∃ r, sbStore b x s = .next (s.setBuf b r) ∧ Holds r (l ++ [x]) := by
  have hl := h.length
  have hs := h.slide
  have hlt : (s.buf b).writePos < s.depthMax b := by rw [hs, BitVec.lt_def]; omega
  have hadd : ((s.buf b).pending + 1).toNat = (s.buf b).pending.toNat + 1 := by
    have := count_lt (s.depthMax b)
    rw [BitVec.toNat_add]; simp; omega
  refine ⟨⟨(s.buf b).data.write (s.buf b).writePos.toNat x, (s.buf b).writePos + 1, (s.buf b).pending + 1⟩, ?_, ?_⟩
  · unfold sbStore; simp only [hlt, if_true]
  · refine ⟨Memory.write_wf _ _ _ h.wf, by simp [hs], ?_⟩
    show Memory.prefixBytes _ ((s.buf b).pending + 1).toNat = _
    rw [hadd, hs, Memory.prefixBytes_write_end, ← h.held]; rfl

/-- SB_append where there is room (40_streambuffer.md R141, STORED). -/
theorem sbAppend_room {b : Buf} {s : State} {l : List Byte} (x : Byte) (h : Holds (s.buf b) l)
    (hc : l.length < (s.capacity b).toNat) (hd : (s.capacity b).toNat ≤ (s.depthMax b).toNat) :
    ∃ r, sbAppend b x s = .next (.stored, s.setBuf b r) ∧ Holds r (l ++ [x]) := by
  have hl := h.length
  have hlt : (s.buf b).pending < s.capacity b := by rw [BitVec.lt_def]; omega
  obtain ⟨r, h1, h2⟩ := sbStore_holds x h (by omega)
  exact ⟨r, by unfold sbAppend; simp [hlt, h1], h2⟩

/-- SB_append on a full buffer under REJECT: the overrun recorded, the buffer unchanged (40_streambuffer.md R141). -/
theorem sbAppend_full_reject {b : Buf} {s : State} (x : Byte) (hf : ¬ (s.buf b).pending < s.capacity b)
    (hp : s.cfg.policy = .reject) : sbAppend b x s = .next (.rejected, raise b.overrun s) := by
  unfold sbAppend; simp [hf, hp]

/-- SB_append on a full buffer under DROP_NEW: the overrun recorded, the buffer unchanged (40_streambuffer.md R141). -/
theorem sbAppend_full_dropNew {b : Buf} {s : State} (x : Byte) (hf : ¬ (s.buf b).pending < s.capacity b)
    (hp : s.cfg.policy = .dropNew) : sbAppend b x s = .next (.droppedNew, raise b.overrun s) := by
  unfold sbAppend; simp [hf, hp]

/-- SB_append on a full buffer under DROP_OLD: the overrun recorded, the oldest byte gone, the new one last
(40_streambuffer.md R141). -/
theorem sbAppend_full_dropOld {b : Buf} {s : State} {l : List Byte} (x : Byte) (h : Holds (s.buf b) l)
    (hf : l.length = (s.capacity b).toNat) (h1 : 1 ≤ (s.capacity b).toNat)
    (hd : (s.capacity b).toNat ≤ (s.depthMax b).toNat) (hp : s.cfg.policy = .dropOld) :
    ∃ r, sbAppend b x s = .next (.droppedOld, (raise b.overrun s).setBuf b r) ∧ Holds r (l.drop 1 ++ [x]) := by
  have hl := h.length
  have hlt : ¬ (s.buf b).pending < s.capacity b := by rw [BitVec.lt_def]; omega
  obtain ⟨r1, e1, o1⟩ := sbTake_holds (s := raise b.overrun s) (b := b) (l := l) 1 (by simpa using h)
    (by simp; omega) (by simp; omega)
  obtain ⟨r2, e2, o2⟩ := sbStore_holds (s := (raise b.overrun s).setBuf b r1) (b := b) (l := l.drop 1) x
    (by simpa using o1) (by simp; omega)
  refine ⟨r2, ?_, by simpa using o2⟩
  unfold sbAppend
  simp only [hlt, if_false, raise_cfg, hp, sbConsume, e1, andThen_next, e2]
  cases b <;> rfl

/-- The three ways SB_append goes on a sound buffer of a legal configuration, at once. -/
theorem sbAppend_holds {b : Buf} {s : State} {l : List Byte} (x : Byte) (h : Holds (s.buf b) l)
    (hc : l.length ≤ (s.capacity b).toNat) (h1 : 1 ≤ (s.capacity b).toNat)
    (hd : (s.capacity b).toNat ≤ (s.depthMax b).toNat) (hp : s.cfg.policy ≠ .reserved) :
    (l.length < (s.capacity b).toNat ∧
      ∃ r, sbAppend b x s = .next (.stored, s.setBuf b r) ∧ Holds r (l ++ [x])) ∨
    (l.length = (s.capacity b).toNat ∧ ∃ a r l', sbAppend b x s = .next (a, (raise b.overrun s).setBuf b r) ∧
      a ≠ .stored ∧ Holds r l' ∧ l'.length = l.length ∧ (l' = l ∨ l' = l.drop 1 ++ [x])) := by
  rcases Nat.lt_or_ge l.length (s.capacity b).toNat with hlt | hge
  · exact .inl ⟨hlt, sbAppend_room x h hlt hd⟩
  · have heq : l.length = (s.capacity b).toNat := by omega
    have hf : ¬ (s.buf b).pending < s.capacity b := by rw [BitVec.lt_def, ← h.length]; omega
    refine .inr ⟨heq, ?_⟩
    have same : (raise b.overrun s).setBuf b (s.buf b) = raise b.overrun s := by cases b <;> rfl
    cases hpol : s.cfg.policy with
    | reject => exact ⟨_, s.buf b, l, by rw [sbAppend_full_reject x hf hpol, same], by simp, h, rfl, .inl rfl⟩
    | dropNew => exact ⟨_, s.buf b, l, by rw [sbAppend_full_dropNew x hf hpol, same], by simp, h, rfl, .inl rfl⟩
    | dropOld =>
      obtain ⟨r, e, o⟩ := sbAppend_full_dropOld x h heq h1 hd hpol
      exact ⟨_, r, _, e, by simp, o, by simp; omega, .inr rfl⟩
    | reserved => exact absurd hpol hp

end Sys2Proof.Machine
end

