-- ==== Sys2Proof/Laws/Streams.lean ====
section
/-! SUPPORT. The streams of a trace (Sys2Proof/Safety.lean): of an empty one, of one event more, of two joined. -/

namespace Sys2Proof.Machine

@[simp] theorem radioWrites_nil : radioWrites [] = [] := rfl
@[simp] theorem radioWrites_cons (e : Event) (l : List Event) :
    radioWrites (e :: l) = (match e with | .radioWrite b => [b] | _ => []) ++ radioWrites l := by
  cases e <;> rfl
@[simp] theorem radioWrites_append (a b : List Event) : radioWrites (a ++ b) = radioWrites a ++ radioWrites b := by
  simp [radioWrites]

@[simp] theorem radioReads_nil : radioReads [] = [] := rfl
@[simp] theorem radioReads_cons (e : Event) (l : List Event) :
    radioReads (e :: l) = (match e with | .radioRead _ b => [b] | _ => []) ++ radioReads l := by
  cases e <;> rfl
@[simp] theorem radioReads_append (a b : List Event) : radioReads (a ++ b) = radioReads a ++ radioReads b := by
  simp [radioReads]

@[simp] theorem sinkWrites_nil : sinkWrites [] = [] := rfl
@[simp] theorem sinkWrites_cons (e : Event) (l : List Event) :
    sinkWrites (e :: l) = (match e with | .sinkWrite b => [b] | _ => []) ++ sinkWrites l := by
  cases e <;> rfl
@[simp] theorem sinkWrites_append (a b : List Event) : sinkWrites (a ++ b) = sinkWrites a ++ sinkWrites b := by
  simp [sinkWrites]

@[simp] theorem sourceBytes_nil : sourceBytes [] = [] := rfl
@[simp] theorem sourceBytes_cons (e : Event) (l : List Event) :
    sourceBytes (e :: l) = (match e with | .srcData b => [b] | _ => []) ++ sourceBytes l := by
  cases e <;> rfl
@[simp] theorem sourceBytes_append (a b : List Event) : sourceBytes (a ++ b) = sourceBytes a ++ sourceBytes b := by
  simp [sourceBytes]

@[simp] theorem timesAsked_nil : timesAsked [] = [] := rfl
@[simp] theorem timesAsked_cons (e : Event) (l : List Event) :
    timesAsked (e :: l) = (match e with | .timeNow b => [b] | _ => []) ++ timesAsked l := by
  cases e <;> rfl
@[simp] theorem timesAsked_append (a b : List Event) : timesAsked (a ++ b) = timesAsked a ++ timesAsked b := by
  simp [timesAsked]

@[simp] theorem beginsAsked_nil : beginsAsked [] = [] := rfl
@[simp] theorem beginsAsked_cons (e : Event) (l : List Event) :
    beginsAsked (e :: l) = (match e with | .radioBegin b => [b] | _ => []) ++ beginsAsked l := by
  cases e <;> rfl
@[simp] theorem beginsAsked_append (a b : List Event) : beginsAsked (a ++ b) = beginsAsked a ++ beginsAsked b := by
  simp [beginsAsked]

@[simp] theorem validsAsked_nil : validsAsked [] = [] := rfl
@[simp] theorem validsAsked_cons (e : Event) (l : List Event) :
    validsAsked (e :: l) = (match e with | .srcValid b => [b] | _ => []) ++ validsAsked l := by
  cases e <;> rfl
@[simp] theorem validsAsked_append (a b : List Event) : validsAsked (a ++ b) = validsAsked a ++ validsAsked b := by
  simp [validsAsked]

@[simp] theorem readiesAsked_nil : readiesAsked [] = [] := rfl
@[simp] theorem readiesAsked_cons (e : Event) (l : List Event) :
    readiesAsked (e :: l) = (match e with | .sinkReady b => [b] | _ => []) ++ readiesAsked l := by
  cases e <;> rfl
@[simp] theorem readiesAsked_append (a b : List Event) : readiesAsked (a ++ b) = readiesAsked a ++ readiesAsked b := by
  simp [readiesAsked]

@[simp] theorem fullsAsked_nil : fullsAsked [] = [] := rfl
@[simp] theorem fullsAsked_cons (e : Event) (l : List Event) :
    fullsAsked (e :: l) = (match e with | .radioFifoFull b => [b] | _ => []) ++ fullsAsked l := by
  cases e <;> rfl
@[simp] theorem fullsAsked_append (a b : List Event) : fullsAsked (a ++ b) = fullsAsked a ++ fullsAsked b := by
  simp [fullsAsked]

@[simp] theorem notEmptiesAsked_nil : notEmptiesAsked [] = [] := rfl
@[simp] theorem notEmptiesAsked_cons (e : Event) (l : List Event) :
    notEmptiesAsked (e :: l) = (match e with | .radioFifoNotEmpty b => [b] | _ => []) ++ notEmptiesAsked l := by
  cases e <;> rfl
@[simp] theorem notEmptiesAsked_append (a b : List Event) : notEmptiesAsked (a ++ b) = notEmptiesAsked a ++ notEmptiesAsked b := by
  simp [notEmptiesAsked]

@[simp] theorem modeReadiesAsked_nil : modeReadiesAsked [] = [] := rfl
@[simp] theorem modeReadiesAsked_cons (e : Event) (l : List Event) :
    modeReadiesAsked (e :: l) = (match e with | .radioModeReady b => [b] | _ => []) ++ modeReadiesAsked l := by
  cases e <;> rfl
@[simp] theorem modeReadiesAsked_append (a b : List Event) : modeReadiesAsked (a ++ b) = modeReadiesAsked a ++ modeReadiesAsked b := by
  simp [modeReadiesAsked]

@[simp] theorem txDonesAsked_nil : txDonesAsked [] = [] := rfl
@[simp] theorem txDonesAsked_cons (e : Event) (l : List Event) :
    txDonesAsked (e :: l) = (match e with | .radioTxDone b => [b] | _ => []) ++ txDonesAsked l := by
  cases e <;> rfl
@[simp] theorem txDonesAsked_append (a b : List Event) : txDonesAsked (a ++ b) = txDonesAsked a ++ txDonesAsked b := by
  simp [txDonesAsked]

@[simp] theorem modesSet_nil : modesSet [] = [] := rfl
@[simp] theorem modesSet_cons (e : Event) (l : List Event) :
    modesSet (e :: l) = (match e with | .radioSetMode b => [b] | _ => []) ++ modesSet l := by
  cases e <;> rfl
@[simp] theorem modesSet_append (a b : List Event) : modesSet (a ++ b) = modesSet a ++ modesSet b := by
  simp [modesSet]

@[simp] theorem flagsAnswered_nil : flagsAnswered [] = [] := rfl
@[simp] theorem flagsAnswered_cons (e : Event) (l : List Event) :
    flagsAnswered (e :: l) = (match e with
      | .srcValid b => [b]
      | .sinkReady b => [b]
      | .radioBegin b => [b]
      | .radioFifoFull b => [b]
      | .radioFifoNotEmpty b => [b]
      | .radioModeReady b => [b]
      | .radioTxDone b => [b]
      | _ => []) ++ flagsAnswered l := by
  cases e <;> rfl
@[simp] theorem flagsAnswered_append (a b : List Event) : flagsAnswered (a ++ b) = flagsAnswered a ++ flagsAnswered b := by
  simp [flagsAnswered]

@[simp] theorem bytesAnswered_nil : bytesAnswered [] = [] := rfl
@[simp] theorem bytesAnswered_cons (e : Event) (l : List Event) :
    bytesAnswered (e :: l) =
      (match e with | .srcData b => [b] | .radioRead _ b => [b] | _ => []) ++ bytesAnswered l := by
  cases e <;> rfl
@[simp] theorem bytesAnswered_append (a b : List Event) : bytesAnswered (a ++ b) = bytesAnswered a ++ bytesAnswered b := by
  simp [bytesAnswered]

@[simp] theorem radioWrites_takeEvents (l : List Byte) : radioWrites (l.flatMap takeEvents) = [] := by
  induction l with
  | nil => rfl
  | cons x l ih => simp [takeEvents, ih]
@[simp] theorem radioReads_takeEvents (l : List Byte) : radioReads (l.flatMap takeEvents) = [] := by
  induction l with
  | nil => rfl
  | cons x l ih => simp [takeEvents, ih]
@[simp] theorem sinkWrites_takeEvents (l : List Byte) : sinkWrites (l.flatMap takeEvents) = [] := by
  induction l with
  | nil => rfl
  | cons x l ih => simp [takeEvents, ih]
@[simp] theorem sourceBytes_takeEvents (l : List Byte) : sourceBytes (l.flatMap takeEvents) = l := by
  induction l with
  | nil => rfl
  | cons x l ih => simp [takeEvents, ih]
@[simp] theorem timesAsked_takeEvents (l : List Byte) : timesAsked (l.flatMap takeEvents) = [] := by
  induction l with
  | nil => rfl
  | cons x l ih => simp [takeEvents, ih]
@[simp] theorem beginsAsked_takeEvents (l : List Byte) : beginsAsked (l.flatMap takeEvents) = [] := by
  induction l with
  | nil => rfl
  | cons x l ih => simp [takeEvents, ih]
@[simp] theorem validsAsked_takeEvents (l : List Byte) : validsAsked (l.flatMap takeEvents) = List.replicate l.length true := by
  induction l with
  | nil => rfl
  | cons x l ih => simp [takeEvents, ih, List.replicate_succ]
@[simp] theorem readiesAsked_takeEvents (l : List Byte) : readiesAsked (l.flatMap takeEvents) = [] := by
  induction l with
  | nil => rfl
  | cons x l ih => simp [takeEvents, ih]
@[simp] theorem fullsAsked_takeEvents (l : List Byte) : fullsAsked (l.flatMap takeEvents) = [] := by
  induction l with
  | nil => rfl
  | cons x l ih => simp [takeEvents, ih]
@[simp] theorem notEmptiesAsked_takeEvents (l : List Byte) : notEmptiesAsked (l.flatMap takeEvents) = [] := by
  induction l with
  | nil => rfl
  | cons x l ih => simp [takeEvents, ih]
@[simp] theorem modeReadiesAsked_takeEvents (l : List Byte) : modeReadiesAsked (l.flatMap takeEvents) = [] := by
  induction l with
  | nil => rfl
  | cons x l ih => simp [takeEvents, ih]
@[simp] theorem txDonesAsked_takeEvents (l : List Byte) : txDonesAsked (l.flatMap takeEvents) = [] := by
  induction l with
  | nil => rfl
  | cons x l ih => simp [takeEvents, ih]
@[simp] theorem modesSet_takeEvents (l : List Byte) : modesSet (l.flatMap takeEvents) = [] := by
  induction l with
  | nil => rfl
  | cons x l ih => simp [takeEvents, ih]
@[simp] theorem radioWrites_writeEvents (l : List Byte) : radioWrites (l.flatMap writeEvents) = l := by
  induction l with
  | nil => rfl
  | cons x l ih => simp [writeEvents, ih]
@[simp] theorem radioReads_writeEvents (l : List Byte) : radioReads (l.flatMap writeEvents) = [] := by
  induction l with
  | nil => rfl
  | cons x l ih => simp [writeEvents, ih]
@[simp] theorem sinkWrites_writeEvents (l : List Byte) : sinkWrites (l.flatMap writeEvents) = [] := by
  induction l with
  | nil => rfl
  | cons x l ih => simp [writeEvents, ih]
@[simp] theorem sourceBytes_writeEvents (l : List Byte) : sourceBytes (l.flatMap writeEvents) = [] := by
  induction l with
  | nil => rfl
  | cons x l ih => simp [writeEvents, ih]
@[simp] theorem timesAsked_writeEvents (l : List Byte) : timesAsked (l.flatMap writeEvents) = [] := by
  induction l with
  | nil => rfl
  | cons x l ih => simp [writeEvents, ih]
@[simp] theorem beginsAsked_writeEvents (l : List Byte) : beginsAsked (l.flatMap writeEvents) = [] := by
  induction l with
  | nil => rfl
  | cons x l ih => simp [writeEvents, ih]
@[simp] theorem validsAsked_writeEvents (l : List Byte) : validsAsked (l.flatMap writeEvents) = [] := by
  induction l with
  | nil => rfl
  | cons x l ih => simp [writeEvents, ih]
@[simp] theorem readiesAsked_writeEvents (l : List Byte) : readiesAsked (l.flatMap writeEvents) = [] := by
  induction l with
  | nil => rfl
  | cons x l ih => simp [writeEvents, ih]
@[simp] theorem fullsAsked_writeEvents (l : List Byte) : fullsAsked (l.flatMap writeEvents) = List.replicate l.length false := by
  induction l with
  | nil => rfl
  | cons x l ih => simp [writeEvents, ih, List.replicate_succ]
@[simp] theorem notEmptiesAsked_writeEvents (l : List Byte) : notEmptiesAsked (l.flatMap writeEvents) = [] := by
  induction l with
  | nil => rfl
  | cons x l ih => simp [writeEvents, ih]
@[simp] theorem modeReadiesAsked_writeEvents (l : List Byte) : modeReadiesAsked (l.flatMap writeEvents) = [] := by
  induction l with
  | nil => rfl
  | cons x l ih => simp [writeEvents, ih]
@[simp] theorem txDonesAsked_writeEvents (l : List Byte) : txDonesAsked (l.flatMap writeEvents) = [] := by
  induction l with
  | nil => rfl
  | cons x l ih => simp [writeEvents, ih]
@[simp] theorem modesSet_writeEvents (l : List Byte) : modesSet (l.flatMap writeEvents) = [] := by
  induction l with
  | nil => rfl
  | cons x l ih => simp [writeEvents, ih]
@[simp] theorem radioWrites_deliverEvents (l : List Byte) : radioWrites (l.flatMap deliverEvents) = [] := by
  induction l with
  | nil => rfl
  | cons x l ih => simp [deliverEvents, ih]
@[simp] theorem radioReads_deliverEvents (l : List Byte) : radioReads (l.flatMap deliverEvents) = [] := by
  induction l with
  | nil => rfl
  | cons x l ih => simp [deliverEvents, ih]
@[simp] theorem sinkWrites_deliverEvents (l : List Byte) : sinkWrites (l.flatMap deliverEvents) = l := by
  induction l with
  | nil => rfl
  | cons x l ih => simp [deliverEvents, ih]
@[simp] theorem sourceBytes_deliverEvents (l : List Byte) : sourceBytes (l.flatMap deliverEvents) = [] := by
  induction l with
  | nil => rfl
  | cons x l ih => simp [deliverEvents, ih]
@[simp] theorem timesAsked_deliverEvents (l : List Byte) : timesAsked (l.flatMap deliverEvents) = [] := by
  induction l with
  | nil => rfl
  | cons x l ih => simp [deliverEvents, ih]
@[simp] theorem beginsAsked_deliverEvents (l : List Byte) : beginsAsked (l.flatMap deliverEvents) = [] := by
  induction l with
  | nil => rfl
  | cons x l ih => simp [deliverEvents, ih]
@[simp] theorem validsAsked_deliverEvents (l : List Byte) : validsAsked (l.flatMap deliverEvents) = [] := by
  induction l with
  | nil => rfl
  | cons x l ih => simp [deliverEvents, ih]
@[simp] theorem readiesAsked_deliverEvents (l : List Byte) : readiesAsked (l.flatMap deliverEvents) = List.replicate l.length true := by
  induction l with
  | nil => rfl
  | cons x l ih => simp [deliverEvents, ih, List.replicate_succ]
@[simp] theorem fullsAsked_deliverEvents (l : List Byte) : fullsAsked (l.flatMap deliverEvents) = [] := by
  induction l with
  | nil => rfl
  | cons x l ih => simp [deliverEvents, ih]
@[simp] theorem notEmptiesAsked_deliverEvents (l : List Byte) : notEmptiesAsked (l.flatMap deliverEvents) = [] := by
  induction l with
  | nil => rfl
  | cons x l ih => simp [deliverEvents, ih]
@[simp] theorem modeReadiesAsked_deliverEvents (l : List Byte) : modeReadiesAsked (l.flatMap deliverEvents) = [] := by
  induction l with
  | nil => rfl
  | cons x l ih => simp [deliverEvents, ih]
@[simp] theorem txDonesAsked_deliverEvents (l : List Byte) : txDonesAsked (l.flatMap deliverEvents) = [] := by
  induction l with
  | nil => rfl
  | cons x l ih => simp [deliverEvents, ih]
@[simp] theorem modesSet_deliverEvents (l : List Byte) : modesSet (l.flatMap deliverEvents) = [] := by
  induction l with
  | nil => rfl
  | cons x l ih => simp [deliverEvents, ih]

@[simp] theorem flagsAnswered_takeEvents (l : List Byte) :
    flagsAnswered (l.flatMap takeEvents) = List.replicate l.length true := by
  induction l with
  | nil => rfl
  | cons x l ih => simp [takeEvents, ih, List.replicate_succ]
@[simp] theorem bytesAnswered_takeEvents (l : List Byte) : bytesAnswered (l.flatMap takeEvents) = l := by
  induction l with
  | nil => rfl
  | cons x l ih => simp [takeEvents, ih]
@[simp] theorem flagsAnswered_writeEvents (l : List Byte) :
    flagsAnswered (l.flatMap writeEvents) = List.replicate l.length false := by
  induction l with
  | nil => rfl
  | cons x l ih => simp [writeEvents, ih, List.replicate_succ]
@[simp] theorem bytesAnswered_writeEvents (l : List Byte) : bytesAnswered (l.flatMap writeEvents) = [] := by
  induction l with
  | nil => rfl
  | cons x l ih => simp [writeEvents, ih]
@[simp] theorem flagsAnswered_deliverEvents (l : List Byte) :
    flagsAnswered (l.flatMap deliverEvents) = List.replicate l.length true := by
  induction l with
  | nil => rfl
  | cons x l ih => simp [deliverEvents, ih, List.replicate_succ]
@[simp] theorem bytesAnswered_deliverEvents (l : List Byte) : bytesAnswered (l.flatMap deliverEvents) = [] := by
  induction l with
  | nil => rfl
  | cons x l ih => simp [deliverEvents, ih]
@[simp] theorem timesAsked_readEvents (l : List Byte) : timesAsked (l.flatMap readEvents) = [] := by
  induction l with
  | nil => rfl
  | cons x l ih => simp [readEvents, ih]

end Sys2Proof.Machine
end

