-- ==== Sys2Proof/Laws/Transmit.lean ====
section
/-! SUPPORT. What the source drain (40_streambuffer.md R147), the commit (42_txframer.md R192) and the send loop (R193,
R194) can do, each said once. -/

namespace Sys2Proof.Machine

theorem keptBytes_fits (p : Policy) (cap : Nat) (l : List Byte) (h : l.length ≤ cap) : keptBytes p cap l = l := by
  cases p <;> simp [keptBytes, h]

/-! ### The source drain -/

/-- The configuration of TXB is sound: the premises a running transmitter meets (45_host_commands.md R307). -/
structure TxbReady (s : State) : Prop where
  room : 1 ≤ s.cfg.capTxBytes.toNat
  depth : s.cfg.capTxBytes.toNat ≤ s.params.txbDepthMax.toNat
  policy : s.cfg.policy ≠ .reserved

/-- What a source drain from `s`, holding `l`, leaves in `t`: `taken` are the bytes taken, `tail` the events after the
last take, `overruns` how often the overrun was raised. -/
structure Drained (now : Word) (left : Nat) (s : State) (l taken : List Byte) (tail : List Event) (overruns : Nat)
    (t : State) : Prop where
  frame : t = { s with
    txb := t.txb, err := t.err, env := t.env, tx := { s.tx with tFill := t.tx.tFill },
    counters := { s.counters with ovrTx := s.counters.ovrTx + BitVec.ofNat 32 overruns } }
  holds : Holds t.txb (keptBytes s.cfg.policy s.cfg.capTxBytes.toNat (l ++ taken))
  fits : (keptBytes s.cfg.policy s.cfg.capTxBytes.toNat (l ++ taken)).length ≤ s.cfg.capTxBytes.toNat
  budget : taken.length ≤ left
  reject : s.cfg.policy = .reject → (l ++ taken).length ≤ s.cfg.capTxBytes.toNat
  trace : t.env.trace = s.env.trace ++ taken.flatMap takeEvents ++ tail
  last : tail = [.srcValid false] ∨
    (tail = [.srcValid true] ∧ taken.length = left ∧
      (s.cfg.policy = .reject → (l ++ taken).length < s.cfg.capTxBytes.toNat)) ∨
    (tail = [.srcValid true, .srcOverrun] ∧ s.cfg.policy = .reject ∧ (l ++ taken).length = s.cfg.capTxBytes.toNat)
  count : overruns = ((l ++ taken).length - s.cfg.capTxBytes.toNat) +
    (if tail = [.srcValid true, .srcOverrun] then 1 else 0)
  err : t.err = if overruns = 0 then s.err else s.err ||| Cause.txOverrun.mask
  timer : t.tx.tFill = if l = [] ∧ taken ≠ [] then now else s.tx.tFill
  same : taken = [] → t.txb = s.txb

theorem sbFillLoop_noSource (now : Word) (left : Nat) {s : State} (hv : s.env.flag = false) :
    sbFillLoop now left s = .next (askSrcValid s).2 := by
  unfold sbFillLoop
  simp only
  rw [if_pos (show (askSrcValid s).1 = false from hv)]

theorem sbFillLoop_refused (now : Word) (left : Nat) {s : State} (hv : s.env.flag = true)
    (hr : s.txb.pending = s.cfg.capTxBytes ∧ s.cfg.policy = .reject) :
    sbFillLoop now left s = .next (raise .txOverrun (doSrcOverrun (askSrcValid s).2)) := by
  unfold sbFillLoop
  simp only
  rw [if_neg (show ¬ (askSrcValid s).1 = false by simp [askSrcValid, hv]), if_pos (by simpa [askSrcValid] using hr)]

theorem sbFillLoop_spent (now : Word) {s : State} (hv : s.env.flag = true)
    (hr : ¬ (s.txb.pending = s.cfg.capTxBytes ∧ s.cfg.policy = .reject)) :
    sbFillLoop now 0 s = .next (askSrcValid s).2 := by
  unfold sbFillLoop
  simp only
  rw [if_neg (show ¬ (askSrcValid s).1 = false by simp [askSrcValid, hv]), if_neg (by simpa [askSrcValid] using hr)]

theorem sbFillLoop_take (now : Word) (left : Nat) {s : State} (hv : s.env.flag = true)
    (hr : ¬ (s.txb.pending = s.cfg.capTxBytes ∧ s.cfg.policy = .reject)) :
    sbFillLoop now (left + 1) s =
      andThen (sbAppend .txb (askSrcData (askSrcValid s).2).1 (doSrcTake (askSrcData (askSrcValid s).2).2)) fun r =>
        sbFillLoop now left (if decide (s.txb.pending = 0) = true ∧ r.1 = .stored then r.2.setTFill now else r.2) := by
  conv => lhs; unfold sbFillLoop
  simp only
  rw [if_neg (show ¬ (askSrcValid s).1 = false by simp [askSrcValid, hv]), if_neg (by simpa [askSrcValid] using hr)]
  rfl

/-- The two ways a pass of the drain ends it whatever the budget: no byte offered, or refused under REJECT. -/
theorem sbFillLoop_exit (now : Word) (left : Nat) {s : State} {l : List Byte} (h : Holds s.txb l)
    (hc : l.length ≤ s.cfg.capTxBytes.toNat)
    (hx : s.env.flag = false ∨ (s.txb.pending = s.cfg.capTxBytes ∧ s.cfg.policy = .reject)) :
    ∃ tail overruns t, sbFillLoop now left s = .next t ∧ Drained now left s l [] tail overruns t := by
  have h0 : Holds s.txb (keptBytes s.cfg.policy s.cfg.capTxBytes.toNat (l ++ [])) := by
    simpa [keptBytes_fits _ _ _ hc] using h
  have f0 : (keptBytes s.cfg.policy s.cfg.capTxBytes.toNat (l ++ [])).length ≤ s.cfg.capTxBytes.toNat := by
    simpa [keptBytes_fits _ _ _ hc] using hc
  have c0 : l.length - s.cfg.capTxBytes.toNat = 0 := by omega
  cases hv : s.env.flag with
  | false =>
    refine ⟨[.srcValid false], 0, _, sbFillLoop_noSource now left hv, ?_⟩
    exact ⟨by simp [askSrcValid, askFlag, State.setEnv], h0, f0, by simp, by simpa using fun _ => hc,
      by simp [askSrcValid, hv], by simp, by simp [c0], by simp [askSrcValid], by simp [askSrcValid], fun _ => rfl⟩
  | true =>
    have hr := hx.resolve_left (by simp [hv])
    have hl : l.length = s.cfg.capTxBytes.toNat := by rw [h.length, hr.1]
    refine ⟨[.srcValid true, .srcOverrun], 1, _, sbFillLoop_refused now left hv hr, ?_⟩
    exact ⟨rfl, h0, f0, by simp, by simpa using fun _ => hc, by simp [askSrcValid, doSrcOverrun, hv],
      by simp [hr.2, hl], by simp [c0], by simp [askSrcValid, doSrcOverrun],
      by simp [askSrcValid, doSrcOverrun], fun _ => rfl⟩

/-- A drain that goes on after one more byte `x` was stored in a buffer with room. -/
theorem Drained.after_room {now : Word} {left : Nat} {s s1 t : State} {l taken : List Byte} {x : Byte}
    {tail : List Event} {n : Nat} {r : StreamBuffer} (h : Holds s.txb l)
    (e1 : s1 = { s with env := s1.env }) (et : s1.env.trace = s.env.trace ++ takeEvents x)
    (d : Drained now left (if decide (s.txb.pending = 0) = true then (s1.setTxb r).setTFill now else s1.setTxb r)
      (l ++ [x]) taken tail n t) : Drained now (left + 1) s l (x :: taken) tail n t := by
  have el : l ++ [x] ++ taken = l ++ x :: taken := by simp
  have hnil : s.txb.pending = 0 ↔ l = [] := by
    refine ⟨h.nil_of_empty, fun hl => ?_⟩
    have := h.length; rw [hl] at this; exact BitVec.eq_of_toNat_eq this.symm
  rw [e1] at d
  by_cases hp : s.txb.pending = 0
  · simp only [hp, decide_true, if_true] at d
    obtain ⟨d1, d2, d3, d4, d5, d6, d7, d8, d9, d10, -⟩ := d
    rw [el] at d2 d3 d5 d7 d8
    refine ⟨d1, d2, d3, by simpa using d4, d5, ?_, by simpa using d7, d8, d9, ?_, by simp⟩
    · rw [d6]; simp [et]
    · rw [d10]; simp [hnil.mp hp]
  · simp only [hp, decide_false, Bool.false_eq_true, if_false] at d
    obtain ⟨d1, d2, d3, d4, d5, d6, d7, d8, d9, d10, -⟩ := d
    rw [el] at d2 d3 d5 d7 d8
    refine ⟨d1, d2, d3, by simpa using d4, d5, ?_, by simpa using d7, d8, d9, ?_, by simp⟩
    · rw [d6]; simp [et]
    · rw [d10]; simp [mt hnil.mpr hp]

/-- A drain that goes on after one more byte `x` met a full buffer. -/
theorem Drained.after_full {now : Word} {left : Nat} {s s1 t : State} {l l' taken : List Byte} {x : Byte}
    {tail : List Event} {n : Nat} {r : StreamBuffer} (hl : l.length = s.cfg.capTxBytes.toNat)
    (h1 : 1 ≤ s.cfg.capTxBytes.toNat) (hp : s.cfg.policy ≠ .reject)
    (e1 : s1 = { s with env := s1.env }) (et : s1.env.trace = s.env.trace ++ takeEvents x)
    (hlen : l'.length = l.length)
    (hk : ∀ z, keptBytes s.cfg.policy s.cfg.capTxBytes.toNat (l' ++ z) =
      keptBytes s.cfg.policy s.cfg.capTxBytes.toNat (l ++ x :: z))
    (d : Drained now left ((raise .txOverrun s1).setTxb r) l' taken tail n t) :
    Drained now (left + 1) s l (x :: taken) tail (n + 1) t := by
  rw [e1] at d
  obtain ⟨d1, d2, d3, d4, d5, d6, d7, d8, d9, d10, -⟩ := d
  have hne : l ≠ [] := by rintro rfl; simp at hl; omega
  have hne' : l' ≠ [] := by rintro rfl; simp at hlen; omega
  have hp' : s.cfg.policy = .reject → False := hp
  refine ⟨?_, ?_, ?_, by simpa using d4, fun hh => absurd hh hp, ?_, ?_, ?_, ?_, ?_, by simp⟩
  · refine d1.trans ?_
    have : s.counters.ovrTx + 1 + BitVec.ofNat 32 n = s.counters.ovrTx + BitVec.ofNat 32 (n + 1) := by
      rw [BitVec.ofNat_add, BitVec.add_assoc]
      exact congrArg _ (BitVec.add_comm _ _)
    simp only [State.setTxb, raise, State.setErr, State.setCounters, Cause.count, this]
  · have := d2; simp only [State.setTxb_cfg, raise_cfg] at this; rwa [hk] at this
  · have := d3; simp only [State.setTxb_cfg, raise_cfg] at this; rwa [hk] at this
  · rw [d6]; simp [et]
  · rcases d7 with d7 | ⟨d7, d7'⟩ | ⟨-, d7, -⟩
    · exact .inl d7
    · exact .inr (.inl ⟨d7, by simp [d7'.1], fun hh => absurd hh hp⟩)
    · exact absurd d7 hp
  · rw [d8]
    simp only [State.setTxb_cfg, raise_cfg, List.length_append, List.length_cons, hlen, hl]
    omega
  · rw [d9]
    simp only [State.setTxb_err, raise_err, Nat.add_eq_zero_iff, one_ne_zero, and_false, if_false]
    split
    · rfl
    · rw [BitVec.or_assoc, BitVec.or_self]
  · rw [d10]; simp [hne, hne']

/-- The source drain of a running transmitter always completes, and leaves what `Drained` says. -/
theorem sbFillLoop_holds (now : Word) (left : Nat) {s : State} {l : List Byte} (h : Holds s.txb l)
    (hc : l.length ≤ s.cfg.capTxBytes.toNat) (ok : TxbReady s) :
    ∃ taken tail overruns t, sbFillLoop now left s = .next t ∧ Drained now left s l taken tail overruns t := by
  induction left generalizing s l with
  | zero =>
    by_cases hx : s.env.flag = false ∨ (s.txb.pending = s.cfg.capTxBytes ∧ s.cfg.policy = .reject)
    · exact ⟨[], sbFillLoop_exit now 0 h hc hx⟩
    · obtain ⟨hv, hr⟩ := not_or.mp hx
      have hv : s.env.flag = true := by simpa using hv
      refine ⟨[], [.srcValid true], 0, _, sbFillLoop_spent now hv hr, ?_⟩
      have c0 : l.length - s.cfg.capTxBytes.toNat = 0 := by omega
      have lt : s.cfg.policy = .reject → l.length < s.cfg.capTxBytes.toNat := fun hh =>
        Nat.lt_of_le_of_ne hc fun heq => hr ⟨BitVec.eq_of_toNat_eq (by rw [← h.length]; exact heq), hh⟩
      exact ⟨by simp [askSrcValid, askFlag, State.setEnv], by simpa [keptBytes_fits _ _ _ hc, askSrcValid] using h,
        by simpa [keptBytes_fits _ _ _ hc] using hc, by simp, by simpa using fun _ => hc,
        by simp [askSrcValid, hv], by simpa using lt, by simp [c0], by simp [askSrcValid], by simp [askSrcValid],
        fun _ => rfl⟩
  | succ left ih =>
    by_cases hx : s.env.flag = false ∨ (s.txb.pending = s.cfg.capTxBytes ∧ s.cfg.policy = .reject)
    · exact ⟨[], sbFillLoop_exit now (left + 1) h hc hx⟩
    obtain ⟨hv, hr⟩ := not_or.mp hx
    have hv : s.env.flag = true := by simpa using hv
    rw [sbFillLoop_take now left hv hr]
    generalize hx : (askSrcData (askSrcValid s).2).1 = x
    generalize hs1 : doSrcTake (askSrcData (askSrcValid s).2).2 = s1
    have e1 : s1 = { s with env := s1.env } := by rw [← hs1]; rfl
    have et : s1.env.trace = s.env.trace ++ takeEvents x := by
      rw [← hs1, ← hx]; simp [doSrcTake, askSrcData, askSrcValid, takeEvents, hv]
    have hcfg : s1.cfg = s.cfg := by rw [e1]
    have htxb : s1.txb = s.txb := by rw [e1]
    have hpar : s1.params = s.params := by rw [e1]
    have ok1 : TxbReady s1 := ⟨by rw [hcfg]; exact ok.room, by rw [hcfg, hpar]; exact ok.depth, by rw [hcfg]; exact ok.policy⟩
    have hb : Holds (s1.buf .txb) l := by rw [State.buf, htxb]; exact h
    rcases Nat.lt_or_ge l.length s.cfg.capTxBytes.toNat with hlt | hge
    · obtain ⟨r, ea, ha⟩ := sbAppend_room (b := .txb) x hb (by simpa [State.capacity, hcfg] using hlt) ok1.depth
      rw [ea]
      simp only [andThen_next, and_true]
      have key : ∀ s2, s2.txb = r → s2.cfg = s.cfg → s2.params = s.params →
          ∃ taken tail overruns t, sbFillLoop now left s2 = .next t ∧ Drained now left s2 (l ++ [x]) taken tail overruns t :=
        fun s2 h1 h2 h3 => ih (by rw [h1]; exact ha) (by rw [h2]; simp; omega)
          ⟨by rw [h2]; exact ok.room, by rw [h2, h3]; exact ok.depth, by rw [h2]; exact ok.policy⟩
      obtain ⟨taken, tail, n, t, e2, d⟩ := key (if decide (s.txb.pending = 0) = true then (s1.setTxb r).setTFill now else s1.setTxb r)
        (by split <;> rfl) (by split <;> simp [hcfg]) (by split <;> simp [hpar])
      exact ⟨x :: taken, tail, n, t, e2, d.after_room h e1 et⟩
    · have heq : l.length = s.cfg.capTxBytes.toNat := by omega
      have hfull : ¬ (s1.buf .txb).pending < s1.capacity .txb := by
        rw [BitVec.lt_def, ← hb.length]; simp [State.capacity, hcfg]; omega
      have hnr : s.cfg.policy ≠ .reject := fun hh =>
        hr ⟨BitVec.eq_of_toNat_eq (by rw [← h.length]; exact heq), hh⟩
      have key : ∀ r l', Holds r l' → l'.length = l.length →
          ∃ taken tail overruns t, sbFillLoop now left ((raise .txOverrun s1).setTxb r) = .next t ∧
            Drained now left ((raise .txOverrun s1).setTxb r) l' taken tail overruns t :=
        fun r l' hh hlen => ih (s := (raise .txOverrun s1).setTxb r) hh (by simp [hcfg]; omega)
          ⟨by simpa using ok1.room, by simpa using ok1.depth, by simpa using ok1.policy⟩
      cases hpol : s.cfg.policy with
      | reject => exact absurd hpol hnr
      | reserved => exact absurd hpol ok.policy
      | dropNew =>
        rw [sbAppend_full_dropNew x hfull (by rw [hcfg]; exact hpol)]
        obtain ⟨taken, tail, n, t, e2, d⟩ := key s1.txb l (by rw [htxb]; exact h) rfl
        refine ⟨x :: taken, tail, n + 1, t, ?_, d.after_full heq ok.room hnr e1 et rfl ?_⟩
        · simp only [andThen_next, reduceCtorEq, and_false, if_false]; exact e2
        intro z
        simp only [hpol, keptBytes]
        rw [List.take_append_of_le_length (by omega), List.take_append_of_le_length (by omega)]
      | dropOld =>
        obtain ⟨r, ea, ha⟩ := sbAppend_full_dropOld (b := .txb) x hb (by simpa [State.capacity, hcfg] using heq)
          ok1.room ok1.depth (by rw [hcfg]; exact hpol)
        rw [ea]
        have hlen : (l.drop 1 ++ [x]).length = l.length := by have := ok.room; simp; omega
        obtain ⟨taken, tail, n, t, e2, d⟩ := key r _ ha hlen
        refine ⟨x :: taken, tail, n + 1, t, ?_, d.after_full heq ok.room hnr e1 et hlen ?_⟩
        · simp only [andThen_next, reduceCtorEq, and_false, if_false]; exact e2
        intro z
        have := ok.room
        cases l with
        | nil => simp at heq; omega
        | cons a l =>
          simp only [hpol, keptBytes, List.drop_one, List.tail_cons, List.append_assoc, List.cons_append,
            List.nil_append, List.length_cons, List.length_append]
          simp only [List.length_cons] at heq
          rw [show (l.length + (z.length + 1) + 1 - s.cfg.capTxBytes.toNat) = (l.length + (z.length + 1) - s.cfg.capTxBytes.toNat) + 1 by omega,
            List.drop_succ_cons]

/-! ### The commit and the send loop -/

/-- The sizes a running transmitter meets (45_host_commands.md R307). -/
structure FrameReady (s : State) : Prop where
  size : 1 ≤ s.cfg.n.toNat
  fits : s.cfg.n.toNat ≤ s.params.frameMax.toNat

/-- The commit takes the oldest bytes of TXB, up to N, and pads them to N (42_txframer.md R192). -/
theorem commitFrame_holds {s : State} {l : List Byte} (h : Holds s.txb l) (hd : l.length ≤ s.params.txbDepthMax.toNat)
    (ok : FrameReady s) :
    ∃ r p, commitFrame s = .next (((s.setTxb r).setTxPayload p).setTxPos 0) ∧ Holds r (l.drop s.cfg.n.toNat) ∧
      (Memory.wf s.tx.payload = true → Memory.wf p = true) ∧
      p.prefixBytes s.cfg.n.toNat =
        l.take s.cfg.n.toNat ++ List.replicate (s.cfg.n.toNat - l.length) s.cfg.pad ∧
      ∀ i, s.cfg.n.toNat ≤ i → p.read i = s.tx.payload.read i := by
  have hl := h.length
  generalize hk : (if s.txb.pending < s.cfg.n then s.txb.pending else s.cfg.n) = k
  have hk' : k.toNat = min l.length s.cfg.n.toNat := by
    rw [← hk]; split
    · rename_i hlt; rw [BitVec.lt_def] at hlt; omega
    · rename_i hlt; rw [BitVec.lt_def] at hlt; omega
  obtain ⟨r, e, hr⟩ := sbTake_holds (b := .txb) (s := s) k h (by omega) hd
  have hbytes : l.take k.toNat ++ List.replicate (s.cfg.n.toNat - k.toNat) s.cfg.pad =
      l.take s.cfg.n.toNat ++ List.replicate (s.cfg.n.toNat - l.length) s.cfg.pad := by
    rw [hk']
    rcases Nat.le_total l.length s.cfg.n.toNat with hh | hh
    · rw [Nat.min_eq_left hh, List.take_of_length_le (Nat.le_refl _), List.take_of_length_le hh]
    · rw [Nat.min_eq_right hh, Nat.sub_self, Nat.sub_eq_zero_of_le hh]
  have hdrop : l.drop k.toNat = l.drop s.cfg.n.toNat := by
    rw [hk']
    rcases Nat.le_total l.length s.cfg.n.toNat with hh | hh
    · rw [Nat.min_eq_left hh, List.drop_of_length_le (Nat.le_refl _), List.drop_of_length_le hh]
    · rw [Nat.min_eq_right hh]
  have hn : ¬ (s.setBuf .txb r).params.frameMax < (s.setBuf .txb r).cfg.n := by
    rw [BitVec.lt_def]; simp; exact ok.fits
  refine ⟨r, s.tx.payload.writeBytes 0
    (l.take k.toNat ++ List.replicate (s.cfg.n.toNat - k.toNat) s.cfg.pad), ?_, hdrop ▸ hr, ?_, ?_, ?_⟩
  · unfold commitFrame
    simp only [hk, e, andThen_next]
    rw [if_neg hn]
    rfl
  · exact fun hw => Memory.writeBytes_wf _ _ _ hw
  · rw [hbytes]
    apply List.ext_getElem
    · simp; omega
    · intro i h1 h2
      rw [Memory.getElem_prefixBytes, Memory.read_writeBytes, if_pos ⟨by omega, by simpa using h2⟩]
      simp [List.getD_eq_getElem?_getD, List.getElem?_eq_getElem h2]
  · intro i hi
    rw [hbytes, Memory.read_writeBytes, if_neg]
    simp; omega

theorem wireEnd_toNat (s : State) : (wireEnd s).toNat = s.cfg.n.toNat + 2 := by
  have := count_lt s.cfg.n
  simp [wireEnd, BitVec.toNat_add, BitVec.toNat_setWidth]
  omega

@[simp] theorem length_wireImage (s : State) : (wireImage s).length = s.cfg.n.toNat + 2 := by simp [wireImage]

/-- The byte at `tx_pos` is that of the wire image (10_state.md R52). -/
theorem wireByte_holds {s : State} (ok : FrameReady s) (hp : s.tx.pos.toNat < s.cfg.n.toNat + 2) :
    wireByte s = .next ((wireImage s)[s.tx.pos.toNat]'(by simpa using hp)) := by
  unfold wireByte wireImage
  simp only
  have := ok.fits
  generalize hi : s.tx.pos.toNat = i at hp ⊢
  match i, hp with
  | 0, _ => simp
  | 1, _ => simp
  | i + 2, hp =>
    rw [if_neg (by omega), if_neg (by omega), if_pos ⟨by omega, by omega⟩]
    simp [Memory.getElem_prefixBytes]

/-- What is still to go on the wire of the frame in progress and of the full frames a buffer holds. -/
def pendingWire (s : State) (l : List Byte) : List Byte :=
  (wireImage s).drop s.tx.pos.toNat ++
    framesOnWire s.cfg.sync0 s.cfg.sync1 s.cfg.n.toNat (l.length / s.cfg.n.toNat) l

/-- What a run of the send loop from `s`, TXB holding `l`, leaves in `t`: `w` are the bytes written into the radio FIFO,
`k` how many more frames were committed. -/
structure Sent (now : Word) (s : State) (l w : List Byte) (k : Nat) (t : State) : Prop where
  frame : t = { s with
    txb := t.txb, env := t.env, counters := { s.counters with framesTx := t.counters.framesTx },
    tx := { t.tx with tFill := s.tx.tFill } }
  holds : Holds t.txb (l.drop (k * s.cfg.n.toNat))
  chained : k * s.cfg.n.toNat ≤ l.length
  payload : Memory.wf s.tx.payload = true → Memory.wf t.tx.payload = true
  frameBytes : t.tx.payload.prefixBytes s.cfg.n.toNat =
    ((s.tx.payload.prefixBytes s.cfg.n.toNat ++ l).drop (k * s.cfg.n.toNat)).take s.cfg.n.toNat
  beyond : ∀ i, s.cfg.n.toNat ≤ i → t.tx.payload.read i = s.tx.payload.read i
  wire : w ++ pendingWire t (l.drop (k * s.cfg.n.toNat)) = pendingWire s l
  ending : (t.tx.state = s.tx.state ∧ t.tx.pos.toNat < s.cfg.n.toNat + 2 ∧ t.tx.tWait = s.tx.tWait ∧
      t.env.trace = s.env.trace ++ w.flatMap writeEvents ++ [.radioFifoFull true] ∧
      t.counters.framesTx = s.counters.framesTx + BitVec.ofNat 32 k) ∨
    (t.tx.state = .drain ∧ t.tx.pos = wireEnd s ∧ t.tx.tWait = now ∧
      t.env.trace = s.env.trace ++ w.flatMap writeEvents ∧
      t.counters.framesTx = s.counters.framesTx + BitVec.ofNat 32 (k + 1) ∧
      (l.drop (k * s.cfg.n.toNat)).length < s.cfg.n.toNat)

theorem txSendLoop_full (now : Word) (passes : Nat) {s : State} (hf : s.env.flag = true) :
    txSendLoop now (passes + 1) s = .next (askFifoFull s).2 := by
  unfold txSendLoop
  simp only
  rw [if_pos (by simp [askFifoFull, hf])]

theorem txSendLoop_write (now : Word) (passes : Nat) {s : State} (ok : FrameReady s) (hf : s.env.flag = false)
    (hp : s.tx.pos.toNat < s.cfg.n.toNat + 2) :
    ∃ s1, s1 = { s with env := s1.env, tx := { s.tx with pos := s.tx.pos + 1 } } ∧
      s1.env.trace = s.env.trace ++ writeEvents ((wireImage s)[s.tx.pos.toNat]'(by simpa using hp)) ∧
      txSendLoop now (passes + 1) s =
        if s.tx.pos + 1 = wireEnd s then
          andThen (frameComplete now s1) fun r => if r.1 = true then txSendLoop now passes r.2 else .next r.2
        else txSendLoop now passes s1 := by
  refine ⟨(doRadioWrite ((wireImage s)[s.tx.pos.toNat]'(by simpa using hp)) (askFifoFull s).2).setTxPos
    ((askFifoFull s).2.tx.pos + 1), rfl, ?_, ?_⟩
  · simp [doRadioWrite, askFifoFull, writeEvents, hf]
  · conv => lhs; unfold txSendLoop
    simp only
    rw [if_neg (by simp [askFifoFull, hf]),
      show wireByte (askFifoFull s).2 = _ from
        wireByte_holds (s := (askFifoFull s).2) ⟨ok.size, ok.fits⟩ hp]
    rfl

theorem framesOnWire_succ (a b : Byte) (n c : Nat) (l : List Byte) :
    framesOnWire a b n (c + 1) l = a :: b :: (l.take n ++ framesOnWire a b n c (l.drop n)) := rfl

theorem prefix_take (m : Memory) (n : Nat) (l : List Byte) : (m.prefixBytes n ++ l).take n = m.prefixBytes n :=
  List.take_left' (by simp)

/-- The send loop of a running transmitter always completes within its bound, and leaves what `Sent` says. -/
theorem txSendLoop_holds (now : Word) (passes : Nat) {s : State} {l : List Byte} (h : Holds s.txb l)
    (hd : l.length ≤ s.params.txbDepthMax.toNat) (ok : FrameReady s) (hp : s.tx.pos.toNat < s.cfg.n.toNat + 2)
    (hb : (s.cfg.n.toNat + 2 - s.tx.pos.toNat) + (s.cfg.n.toNat + 2) * (l.length / s.cfg.n.toNat) < passes) :
    ∃ w k t, txSendLoop now passes s = .next t ∧ Sent now s l w k t := by
  induction passes generalizing s l with
  | zero => omega
  | succ passes ih =>
    cases hf : s.env.flag with
    | true =>
      refine ⟨[], 0, _, txSendLoop_full now passes hf, ?_⟩
      exact ⟨rfl, by simpa [askFifoFull] using h, by simp, id,
        by rw [Nat.zero_mul, List.drop_zero, prefix_take]; rfl, fun _ _ => rfl,
        by simp; rfl, .inl ⟨rfl, hp, rfl, by simp [askFifoFull, hf], by simp [askFifoFull]⟩⟩
    | false =>
      obtain ⟨s1, e1, et, eq⟩ := txSendLoop_write now passes ok hf hp
      rw [eq]
      have hN := count_lt s.cfg.n
      have hpos : (s.tx.pos + 1).toNat = s.tx.pos.toNat + 1 := by
        rw [BitVec.toNat_add]; simp; omega
      have hdrop : (wireImage s).drop s.tx.pos.toNat =
          (wireImage s)[s.tx.pos.toNat]'(by simpa using hp) :: (wireImage s).drop (s.tx.pos.toNat + 1) :=
        List.drop_eq_getElem_cons _
      generalize hbyte : (wireImage s)[s.tx.pos.toNat]'(by simpa using hp) = b at et hdrop
      have himg : wireImage s1 = wireImage s := by rw [e1]; rfl
      have hcfg : s1.cfg = s.cfg := by rw [e1]
      have hpar : s1.params = s.params := by rw [e1]
      have htxb : s1.txb = s.txb := by rw [e1]
      have hp1 : s1.tx.pos.toNat = s.tx.pos.toNat + 1 := by rw [e1]; exact hpos
      have hpay : s1.tx.payload = s.tx.payload := by rw [e1]
      have hft : s1.counters.framesTx = s.counters.framesTx := by rw [e1]
      have ok1 : FrameReady s1 := ⟨by rw [hcfg]; exact ok.size, by rw [hcfg, hpar]; exact ok.fits⟩
      by_cases hend : s.tx.pos + 1 = wireEnd s
      · rw [if_pos hend]
        have hpn : s.tx.pos.toNat + 1 = s.cfg.n.toNat + 2 := by rw [← hpos, hend, wireEnd_toNat]
        have hlast : (wireImage s).drop (s.tx.pos.toNat + 1) = [] := by
          rw [hpn]; exact List.drop_of_length_le (by simp)
        unfold frameComplete
        simp only [State.countFrameTx_cfg, State.countFrameTx_txb, hcfg, htxb]
        by_cases hfull : s.cfg.n ≤ s.txb.pending
        · rw [if_pos hfull]
          rw [BitVec.le_def, ← h.length] at hfull
          have hq : l.length / s.cfg.n.toNat = (l.drop s.cfg.n.toNat).length / s.cfg.n.toNat + 1 := by
            rw [List.length_drop, Nat.div_eq_sub_div ok.size hfull]
          obtain ⟨r, p, ec, hr, hpw, hpp, hpb⟩ := commitFrame_holds (s := s1.countFrameTx) (l := l)
            (by simpa [htxb] using h) (by simpa [hpar] using hd)
            ⟨by simpa [hcfg] using ok.size, by simpa [hcfg, hpar] using ok.fits⟩
          rw [ec]
          simp only [andThen_next, if_true]
          simp only [State.countFrameTx_cfg, hcfg] at hr hpp
          generalize hs3 : ((s1.countFrameTx.setTxb r).setTxPayload p).setTxPos 0 = s3
          have c3 : s3.cfg = s.cfg := by rw [← hs3]; simp [hcfg]
          have q3 : s3.params = s.params := by rw [← hs3]; simp [hpar]
          have p3 : s3.tx.pos = 0 := by rw [← hs3]; simp
          have i3 : wireImage s3 = s.cfg.sync0 :: s.cfg.sync1 :: l.take s.cfg.n.toNat := by
            have : s3.tx.payload = p := by rw [← hs3]; simp
            rw [wireImage, c3, this, hpp, Nat.sub_eq_zero_of_le hfull]; simp
          obtain ⟨w, k, t, e2, d⟩ := ih (s := s3) (l := l.drop s.cfg.n.toNat) (by rw [← hs3]; exact hr)
            (by rw [q3]; simp; omega) ⟨by rw [c3]; exact ok.size, by rw [c3, q3]; exact ok.fits⟩
            (by rw [p3, c3]; simp) (by
              rw [p3, c3]
              rw [hq, Nat.mul_add, Nat.mul_one] at hb
              simp only [BitVec.ofNat_eq_ofNat, BitVec.toNat_ofNat]
              omega)
          have hdd : (l.drop s.cfg.n.toNat).drop (k * s.cfg.n.toNat) = l.drop ((k + 1) * s.cfg.n.toNat) := by
            rw [List.drop_drop, Nat.add_mul, Nat.one_mul, Nat.add_comm]
          obtain ⟨d1, d2, d3, d4, d7, d8, d5, d6⟩ := d
          rw [c3] at d2 d3 d6 d7 d8
          rw [c3, hdd] at d5
          rw [hdd] at d2 d6
          have w3 : pendingWire s3 (l.drop s.cfg.n.toNat) =
              framesOnWire s.cfg.sync0 s.cfg.sync1 s.cfg.n.toNat (l.length / s.cfg.n.toNat) l := by
            rw [pendingWire, p3, i3, c3, hq, framesOnWire_succ]; rfl
          refine ⟨b :: w, k + 1, t, e2, ⟨?_, d2, ?_, ?_, ?_, ?_, ?_, ?_⟩⟩
          · refine d1.trans ?_
            rw [← hs3, e1]; rfl
          · rw [List.length_drop] at d3
            rw [Nat.add_mul, Nat.one_mul]; omega
          · intro hw
            apply d4
            rw [← hs3]
            apply hpw
            simpa [hpay] using hw
          · have y3 : s3.tx.payload.prefixBytes s.cfg.n.toNat = l.take s.cfg.n.toNat := by
              have : s3.tx.payload = p := by rw [← hs3]; simp
              rw [this, hpp, Nat.sub_eq_zero_of_le hfull]; simp
            have z3 : (k + 1) * s.cfg.n.toNat = s.cfg.n.toNat + k * s.cfg.n.toNat := by
              rw [Nat.add_mul, Nat.one_mul, Nat.add_comm]
            have gone : (s.tx.payload.prefixBytes s.cfg.n.toNat).drop (s.cfg.n.toNat + k * s.cfg.n.toNat) = [] :=
              List.drop_of_length_le (by simp)
            rw [d7, y3, List.take_append_drop, z3, List.drop_append, gone, Memory.length_prefixBytes,
              Nat.add_sub_cancel_left, List.nil_append]
          · intro i hi
            rw [d8 i hi, ← hs3]
            refine (hpb i ?_).trans (by simp [hpay])
            simpa [hcfg] using hi
          · rw [List.cons_append, d5, w3, pendingWire, hdrop, hlast]; rfl
          · have f3 : s3.counters.framesTx = s.counters.framesTx + 1 := by rw [← hs3, e1]; rfl
            have g3 : s3.tx.state = s.tx.state := by rw [← hs3, e1]; rfl
            have w3 : s3.tx.tWait = s.tx.tWait := by rw [← hs3, e1]; rfl
            have v3 : s3.env.trace = s.env.trace ++ writeEvents b := by rw [← hs3]; exact et
            have en : wireEnd s3 = wireEnd s := by rw [wireEnd, wireEnd, c3]
            have add : ∀ j, s.counters.framesTx + 1 + BitVec.ofNat 32 j = s.counters.framesTx + BitVec.ofNat 32 (j + 1) := by
              intro j
              rw [BitVec.ofNat_add, BitVec.add_assoc]
              exact congrArg _ (BitVec.add_comm _ _)
            rw [f3, g3, w3, v3, en, add, add] at d6
            simpa using d6
        · rw [if_neg hfull]
          rw [BitVec.le_def, ← h.length] at hfull
          have hq : l.length / s.cfg.n.toNat = 0 := Nat.div_eq_of_lt (by omega)
          refine ⟨[b], 0, (s1.countFrameTx.setTxState .drain).setTWait now, by simp [andThen], ?_⟩
          refine ⟨by rw [e1]; rfl, by simpa [htxb] using h, by simp, ?_, by rw [Nat.zero_mul, List.drop_zero, prefix_take, ← hpay]; rfl,
            by simp [hpay], ?_, .inr ⟨rfl, ?_, rfl, ?_, ?_, ?_⟩⟩
          · intro hw; simpa [hpay] using hw
          · simp only [Nat.zero_mul, List.drop_zero]
            rw [pendingWire, pendingWire, hq, hdrop, hlast]
            have : ((s1.countFrameTx.setTxState .drain).setTWait now).cfg = s.cfg := hcfg
            rw [this, hq]
            have : ((s1.countFrameTx.setTxState .drain).setTWait now).tx.pos = s1.tx.pos := rfl
            rw [this, hp1]
            have : wireImage ((s1.countFrameTx.setTxState .drain).setTWait now) = wireImage s := himg
            rw [this, hlast]; rfl
          · show s1.tx.pos = _
            rw [e1]; exact hend
          · simp [et]
          · simp [hft]
          · simp; omega
      · rw [if_neg hend]
        have hpn : s.tx.pos.toNat + 1 ≠ s.cfg.n.toNat + 2 := by
          intro hh; apply hend; apply BitVec.eq_of_toNat_eq; rw [hpos, wireEnd_toNat]; exact hh
        obtain ⟨w, k, t, e2, d⟩ := ih (s := s1) (l := l) (by rw [htxb]; exact h) (by rw [hpar]; exact hd) ok1
          (by rw [hp1, hcfg]; omega) (by rw [hp1, hcfg]; omega)
        obtain ⟨d1, d2, d3, d4, d7, d8, d5, d6⟩ := d
        rw [hcfg, hpay] at d7
        rw [hcfg] at d2 d3 d6 d8
        rw [hcfg] at d5
        refine ⟨b :: w, k, t, e2, ⟨?_, d2, d3, ?_, d7, fun i hi => (d8 i hi).trans (by rw [hpay]), ?_, ?_⟩⟩
        · refine d1.trans ?_
          rw [e1]
        · intro hw; apply d4; simpa [hpay] using hw
        · rw [List.cons_append, d5, pendingWire, pendingWire, hdrop, himg, hp1, hcfg]; rfl
        · have f3 : s1.counters.framesTx = s.counters.framesTx := by rw [e1]
          have g3 : s1.tx.state = s.tx.state := by rw [e1]
          have w3 : s1.tx.tWait = s.tx.tWait := by rw [e1]
          have en : wireEnd s1 = wireEnd s := by rw [wireEnd, wireEnd, hcfg]
          rw [f3, g3, w3, et, en] at d6
          simpa using d6

end Sys2Proof.Machine
end

