-- ==== Sys2Proof/Laws/TxStep.lean ====
section
/-! SUPPORT. What one TxFramer step (42_txframer.md R190) of a running transmitter can do. -/

namespace Sys2Proof.Machine

/-! ### Frames as lists of data bytes -/

/-- The full frames at the front of a buffer, as lists of data bytes. -/
theorem framesOnWire_chunks (c : ConfigRegs) (k : Nat) (l : List Byte) (h1 : 1 ≤ c.n.toNat) (h : k * c.n.toNat ≤ l.length) :
    ∃ frames : List (List Byte), (∀ d ∈ frames, 1 ≤ d.length ∧ d.length ≤ c.n.toNat) ∧
      frames.flatten ++ l.drop (k * c.n.toNat) = l ∧ frames.length = k ∧
      framesOnWire c.sync0 c.sync1 c.n.toNat k l = frames.flatMap (frameImage c) := by
  induction k generalizing l with
  | zero => exact ⟨[], by simp, by simp, rfl, rfl⟩
  | succ k ih =>
    rw [Nat.add_mul, Nat.one_mul] at h
    obtain ⟨frames, f1, f2, f3, f4⟩ := ih (l.drop c.n.toNat) (by simp; omega)
    refine ⟨l.take c.n.toNat :: frames, ?_, ?_, by simp [f3], ?_⟩
    · intro d hd
      rcases List.mem_cons.mp hd with rfl | hd
      · simp; omega
      · exact f1 d hd
    · rw [List.flatten_cons, Nat.add_mul, Nat.one_mul, Nat.add_comm, ← List.drop_drop, List.append_assoc, f2, List.take_append_drop]
    · rw [framesOnWire_succ, f4, List.flatMap_cons, frameImage]
      have : c.n.toNat - (l.take c.n.toNat).length = 0 := by simp; omega
      rw [this]; simp

theorem framesOnWire_add (a b : Byte) (n j k : Nat) (l : List Byte) :
    framesOnWire a b n (j + k) l = framesOnWire a b n j l ++ framesOnWire a b n k (l.drop (j * n)) := by
  induction j generalizing l with
  | zero => simp [framesOnWire]
  | succ j ih =>
    rw [show j + 1 + k = (j + k) + 1 by omega, framesOnWire_succ, framesOnWire_succ, ih]
    simp [Nat.add_mul, Nat.add_comm]

theorem framesOnWire_length {a b : Byte} {n k : Nat} {l : List Byte} (h : k * n ≤ l.length) :
    (framesOnWire a b n k l).length = k * (n + 2) := by
  induction k generalizing l with
  | zero => simp [framesOnWire]
  | succ k ih =>
    rw [Nat.add_mul, Nat.one_mul] at h
    rw [framesOnWire_succ]
    simp only [List.length_cons, List.length_append, List.length_take, ih (l := l.drop n) (by simp; omega)]
    rw [Nat.min_eq_left (by omega), Nat.add_mul]; omega

/-- The send loop writes what was left of the frame in progress, and `k` full frames of the buffer after it. -/
theorem Sent.conserves {now : Word} {s t : State} {l w : List Byte} {k : Nat} (d : Sent now s l w k t)
    (h1 : 1 ≤ s.cfg.n.toNat) :
    w ++ (wireImage t).drop t.tx.pos.toNat =
      (wireImage s).drop s.tx.pos.toNat ++ framesOnWire s.cfg.sync0 s.cfg.sync1 s.cfg.n.toNat k l := by
  have hc : t.cfg = s.cfg := by rw [d.frame]
  have hw := d.wire
  have hk := d.chained
  have hq : l.length / s.cfg.n.toNat = k + (l.drop (k * s.cfg.n.toNat)).length / s.cfg.n.toNat := by
    rw [List.length_drop, Nat.div_eq_of_lt_le (k := k + (l.length - k * s.cfg.n.toNat) / s.cfg.n.toNat)]
    · have := Nat.div_mul_le_self (l.length - k * s.cfg.n.toNat) s.cfg.n.toNat
      rw [Nat.add_mul]; omega
    · have := Nat.lt_div_mul_add (a := l.length - k * s.cfg.n.toNat) (b := s.cfg.n.toNat) h1
      rw [Nat.add_mul, Nat.add_mul]; omega
  unfold pendingWire at hw
  rw [hc, hq, framesOnWire_add, ← List.append_assoc, ← List.append_assoc] at hw
  exact List.append_cancel_right hw

/-! ### One TxFramer step -/

/-- The premises of a running transmitter's phase (b). -/
structure TxReady (s : State) (l : List Byte) : Prop where
  holds : Holds s.txb l
  depth : l.length ≤ s.params.txbDepthMax.toNat
  frame : FrameReady s
  payload : Memory.wf s.tx.payload = true
  running : TxRunning s
  settled : s.arb.pending = false → s.arb.req = s.arb.cur

/-- What one TxFramer step of a running transmitter, TXB holding `l`, leaves in `t`: `frames` the data of the frames it
committed, `rest` what TXB holds, `evs` its events. -/
structure TxStepped (now : Word) (s : State) (l : List Byte) (frames : List (List Byte)) (rest : List Byte)
    (evs : List Event) (t : State) : Prop where
  frame : t = { s with
    txb := t.txb, env := t.env, err := t.err, tx := { t.tx with tFill := s.tx.tFill }, arb := t.arb,
    counters := { s.counters with framesTx := t.counters.framesTx, hwTo := t.counters.hwTo } }
  cause : (t.err = s.err ∧ t.counters.hwTo = s.counters.hwTo) ∨
    (t.err = s.err ||| Cause.drainTimeout.mask ∧ t.counters.hwTo = s.counters.hwTo + 1)
  holds : Holds t.txb rest
  data : frames.flatten ++ rest = l
  chunks : ∀ d ∈ frames, 1 ≤ d.length ∧ d.length ≤ s.cfg.n.toNat
  wire : radioWrites evs ++ inFlight t = inFlight s ++ frames.flatMap (frameImage s.cfg)
  payload : Memory.wf t.tx.payload = true
  running : TxRunning t
  settled : t.arb.pending = false → t.arb.req = t.arb.cur
  cur : t.arb.cur = s.arb.cur
  trace : t.env.trace = s.env.trace ++ evs
  own : radioWrites evs ≠ [] → s.arb.cur = .tx ∧ s.arb.pending = false
  modes : (t.arb = s.arb ∧ modesSet evs = []) ∨ ∃ m, m ≠ .rx ∧ s.arb.pending = false ∧ modesSet evs = [m] ∧
    t.arb = { s.arb with req := m, pending := true, tReq := now }
  writes : (radioWrites evs).length ≤ (s.cfg.n.toNat + 2) * (1 + l.length / s.cfg.n.toNat)
  fulls : (fullsAsked evs).length ≤ (radioWrites evs).length + 1
  dones : (txDonesAsked evs).length ≤ 1
  noOther : modeReadiesAsked evs = [] ∧ timesAsked evs = [] ∧ validsAsked evs = [] ∧ sourceBytes evs = []

/-- A step that does nothing. -/
theorem TxStepped.idle {now : Word} {s : State} {l : List Byte} (ok : TxReady s l) : TxStepped now s l [] l [] s :=
  ⟨rfl, .inl ⟨rfl, rfl⟩, ok.holds, rfl, by simp, by simp, ok.payload, ok.running, ok.settled, rfl, by simp, by simp, .inl ⟨rfl, rfl⟩,
    by simp, by simp, by simp, by simp⟩

theorem requestMode_holds {m : RadioMode} {s : State} (now : Word) (hp : s.arb.pending = false) (hm : m ≠ s.arb.cur) :
    requestMode m now s = .next ((doSetMode m s).setArb { s.arb with req := m, pending := true, tReq := now }) := by
  unfold requestMode; rw [if_pos ⟨hp, hm⟩]

theorem txIdle_holds (now : Word) {s : State} {l : List Byte} (ok : TxReady s l) (hs : s.tx.state = .idle) :
    ∃ frames rest evs t, txIdle now s = .next t ∧ TxStepped now s l frames rest evs t := by
  unfold txIdle
  by_cases hd : s.arb.pending = false ∧ frameDue now s = true
  · rw [if_pos hd]
    obtain ⟨hp, hdue⟩ := hd
    have run := ok.running
    unfold TxRunning at run
    rw [hs] at run
    have hcur := run.1 hp
    obtain ⟨r, p, e, hr, hw, hpp⟩ := commitFrame_holds ok.holds ok.depth ok.frame
    rw [e, andThen_next, requestMode_holds now (by simpa using hp) (by simp [hcur]), andThen_next]
    have hl : 1 ≤ l.length := by
      have h1 := ok.frame.size
      simp only [frameDue, decide_eq_true_eq, BitVec.le_def, BitVec.lt_def, ← ok.holds.length] at hdue
      rcases hdue with h | ⟨h, -⟩
      · omega
      · simp only [BitVec.ofNat_eq_ofNat, BitVec.toNat_ofNat, Nat.zero_mod] at h; omega
    have h1 := ok.frame.size
    refine ⟨[l.take s.cfg.n.toNat], l.drop s.cfg.n.toNat, [.radioSetMode .tx], _, rfl, ?_⟩
    refine ⟨rfl, .inl ⟨rfl, rfl⟩, hr, by simp, by simp; omega, ?_, hw ok.payload, ?_, by simp, rfl, rfl, by simp,
      .inr ⟨.tx, by simp, hp, rfl, rfl⟩, by simp, by simp, by simp, by simp⟩
    · have e1 : inFlight s = [] := by simp [inFlight, hs]
      rw [e1]
      have : s.cfg.n.toNat - (l.take s.cfg.n.toNat).length = s.cfg.n.toNat - l.length := by simp; omega
      simp only [inFlight, wireImage, frameImage, List.flatMap_cons, List.flatMap_nil, List.nil_append, List.append_nil, this]
      simp [doSetMode, hpp]
    · unfold TxRunning
      simp [doSetMode, hcur]
  · rw [if_neg hd]
    exact ⟨[], l, [], s, rfl, .idle ok⟩

/-- The send loop of a running transmitter, as a step. -/
theorem txSend_holds (now : Word) {s : State} {l : List Byte} (h : Holds s.txb l)
    (hd : l.length ≤ s.params.txbDepthMax.toNat) (ok : FrameReady s) (hw : Memory.wf s.tx.payload = true)
    (hs : s.tx.state = .send) (hp : s.tx.pos < wireEnd s) (hm : s.arb.pending = false) (hc : s.arb.cur = .tx)
    (hq : s.arb.pending = false → s.arb.req = s.arb.cur) :
    ∃ frames rest evs t, txSend now s = .next t ∧ TxStepped now s l frames rest evs t := by
  have hp' : s.tx.pos.toNat < s.cfg.n.toNat + 2 := by
    rw [← wireEnd_toNat]; rwa [BitVec.lt_def] at hp
  obtain ⟨w, k, t, e, d⟩ := txSendLoop_holds now (txSendBound s) h hd ok hp' (by
    rw [txSendBound, ← h.length, Nat.mul_add]; omega)
  have cons := d.conserves ok.size
  obtain ⟨frames, f1, f2, f3, f4⟩ := framesOnWire_chunks s.cfg k l ok.size d.chained
  have tst : t.tx.state ≠ .idle := by
    rcases d.ending with ⟨h, -⟩ | ⟨h, -⟩ <;> rw [h] <;> simp [hs]
  obtain ⟨evs, he, h1, h2, h3, h4, h5⟩ : ∃ evs, t.env.trace = s.env.trace ++ evs ∧ radioWrites evs = w ∧
      (fullsAsked evs).length ≤ w.length + 1 ∧ txDonesAsked evs = [] ∧ modesSet evs = [] ∧
      modeReadiesAsked evs = [] ∧ timesAsked evs = [] ∧ validsAsked evs = [] ∧ sourceBytes evs = [] := by
    rcases d.ending with ⟨-, -, -, h, -⟩ | ⟨-, -, -, h, -⟩
    · exact ⟨w.flatMap writeEvents ++ [.radioFifoFull true], by rw [h, List.append_assoc], by simp, by simp, by simp, by simp, by simp⟩
    · exact ⟨w.flatMap writeEvents, h, by simp, by simp, by simp, by simp, by simp⟩
  have tarb : t.arb = s.arb := by rw [d.frame]
  have tcfg : t.cfg = s.cfg := by rw [d.frame]
  have terr : t.err = s.err := by rw [d.frame]
  have thw : t.counters.hwTo = s.counters.hwTo := by rw [d.frame]
  refine ⟨frames, l.drop (k * s.cfg.n.toNat), evs, t, e, ?_⟩
  refine ⟨?_, .inl ⟨terr, thw⟩, d.holds, f2, f1, ?_, d.payload hw, ?_, ?_, by rw [tarb], he, fun _ => ⟨hc, hm⟩,
    .inl ⟨tarb, h4⟩, ?_, by rw [h1]; exact h2, by simp [h3], h5⟩
  · rw [terr, thw, tarb]; exact d.frame
  · rw [h1, inFlight, if_neg tst, inFlight, if_neg (by simp [hs]), cons, f4]
  · unfold TxRunning
    rcases d.ending with ⟨g1, g2, -⟩ | ⟨g1, g2, -⟩
    · rw [g1, hs]
      refine ⟨by rw [tarb]; exact hm, by rw [tarb]; exact hc, ?_⟩
      rw [BitVec.lt_def, wireEnd_toNat, tcfg]; exact g2
    · rw [g1]
      refine ⟨by rw [tarb]; exact hm, by rw [tarb]; exact hc, ?_⟩
      rw [g2, wireEnd, wireEnd, tcfg]
  · rw [tarb]; exact hq
  · have hlen := congrArg List.length cons
    have fl : ∀ (k : Nat) (m : List Byte), k * s.cfg.n.toNat ≤ m.length →
        (framesOnWire s.cfg.sync0 s.cfg.sync1 s.cfg.n.toNat k m).length = k * (s.cfg.n.toNat + 2) := by
      intro k
      induction k with
      | zero => intro m _; simp [framesOnWire]
      | succ k ih =>
        intro m hm
        rw [Nat.add_mul, Nat.one_mul] at hm
        rw [framesOnWire_succ]
        simp only [List.length_cons, List.length_append, List.length_take]
        rw [ih _ (by simp; omega), Nat.add_mul]
        omega
    have hk : k ≤ l.length / s.cfg.n.toNat := (Nat.le_div_iff_mul_le ok.size).mpr d.chained
    have hk2 := Nat.mul_le_mul_right (s.cfg.n.toNat + 2) hk
    simp only [List.length_append, List.length_drop, length_wireImage, fl k l d.chained] at hlen
    rw [h1, Nat.mul_add, Nat.mul_comm (s.cfg.n.toNat + 2) (l.length / s.cfg.n.toNat)]
    omega

theorem txDrainPoll_holds (now : Word) {s : State} {l : List Byte} (ok : TxReady s l) (hs : s.tx.state = .drain) :
    ∃ frames rest evs t, txDrainPoll now s = .next t ∧ TxStepped now s l frames rest evs t := by
  have run := ok.running
  unfold TxRunning at run
  rw [hs] at run
  obtain ⟨hp, hc, hpos⟩ := run
  have hz : (wireImage s).drop s.tx.pos.toNat = [] :=
    List.drop_of_length_le (by rw [length_wireImage, hpos, wireEnd_toNat])
  unfold txDrainPoll
  simp only
  have base : ∀ u : State, u = { s with env := u.env, err := u.err, counters := { s.counters with hwTo := u.counters.hwTo } } →
      ((u.err = s.err ∧ u.counters.hwTo = s.counters.hwTo) ∨
        (u.err = s.err ||| Cause.drainTimeout.mask ∧ u.counters.hwTo = s.counters.hwTo + 1)) →
      (∀ b, u.env.trace = s.env.trace ++ [.radioTxDone b] →
      ∃ frames rest evs t, (andThen (requestMode .idle now u) fun t => .next (t.setTxState .idle)) = .next t ∧
        TxStepped now s l frames rest evs t) := by
    intro u hu hcause b htr
    have uarb : u.arb = s.arb := by rw [hu]
    have utx : u.tx = s.tx := by rw [hu]
    have utxb : u.txb = s.txb := by rw [hu]
    have ucfg : u.cfg = s.cfg := by rw [hu]
    rw [requestMode_holds now (by rw [uarb]; exact hp) (by rw [uarb, hc]; simp), andThen_next]
    refine ⟨[], l, [.radioTxDone b, .radioSetMode .idle], _, rfl, ?_⟩
    refine ⟨?_, hcause, by simpa [doSetMode, utxb] using ok.holds, rfl, by simp, ?_, by simpa [doSetMode, utx] using ok.payload, ?_, by simp, by simp [uarb],
      by simp [doSetMode, htr], by simp, .inr ⟨.idle, by simp, hp, by simp, by simp [uarb]⟩, by simp, by simp, by simp, by simp⟩
    · rw [uarb]
      have : (((doSetMode .idle u).setArb { s.arb with req := .idle, pending := true, tReq := now }).setTxState .idle) =
        { u with tx := { u.tx with state := .idle }, arb := { s.arb with req := .idle, pending := true, tReq := now },
                 env := (doSetMode .idle u).env } := rfl
      rw [this, utx]
      generalize (doSetMode RadioMode.idle u).env = e
      simp only
      rw [hu]
    · simp [inFlight, hs, hz]
    · unfold TxRunning
      simp [doSetMode, uarb, hc, utx, hpos, wireEnd, ucfg]
  by_cases hd : (askTxDone s).1 = true
  · rw [if_pos hd]
    exact base _ rfl (.inl ⟨rfl, rfl⟩) s.env.flag (by simp [askTxDone])
  · rw [if_neg hd]
    split
    · exact base _ rfl (.inr ⟨rfl, rfl⟩) s.env.flag (by simp [askTxDone])
    · refine ⟨[], l, [.radioTxDone s.env.flag], _, rfl, ?_⟩
      exact ⟨rfl, .inl ⟨rfl, rfl⟩, ok.holds, rfl, by simp, by simp [inFlight, askTxDone, wireImage]; rfl, ok.payload, ok.running, ok.settled, rfl, by simp [askTxDone], by simp, .inl ⟨rfl, rfl⟩,
        by simp, by simp, by simp, by simp⟩

/-- A running transmitter's phase (b) always completes, and leaves what `TxStepped` says. -/
theorem txStep_holds (now : Word) {s : State} {l : List Byte} (ok : TxReady s l) :
    ∃ frames rest evs t, txStep now s = .next t ∧ TxStepped now s l frames rest evs t := by
  have run := ok.running
  unfold TxRunning at run
  unfold txStep
  cases hs : s.tx.state with
  | idle => exact txIdle_holds now ok hs
  | drain => exact txDrainPoll_holds now ok hs
  | send =>
    rw [hs] at run
    exact txSend_holds now ok.holds ok.depth ok.frame ok.payload hs run.2.2 run.1 run.2.1 ok.settled
  | waitMode =>
    rw [hs] at run
    unfold txWaitMode
    by_cases hc : s.arb.pending = false ∧ s.arb.cur = .tx
    · simp only
      rw [if_pos hc]
      obtain ⟨frames, rest, evs, t, e, d⟩ := txSend_holds now (s := s.setTxState .send) (l := l) ok.holds ok.depth
        ⟨ok.frame.size, ok.frame.fits⟩ ok.payload rfl (by
          show s.tx.pos < wireEnd s
          rw [run.2.2, BitVec.lt_def, wireEnd_toNat]; simp) hc.1 hc.2 ok.settled
      refine ⟨frames, rest, evs, t, e, ?_⟩
      obtain ⟨d1, d2, d3, d4, d5, d6, d7, d8, d9, d10, d11, d12, d13, d14, d15, d16, d17⟩ := d
      refine ⟨d1.trans rfl, d2, d3, d4, d5, ?_, d7, d8, d9, d10, d11, d12, d13, d14, d15, d16, d17⟩
      rw [d6]; simp [inFlight, hs, wireImage]
    · simp only
      rw [if_neg hc]
      exact ⟨[], l, [], s, rfl, .idle ok⟩

end Sys2Proof.Machine
end

