-- ==== Sys2Proof/Laws/Answers.lean ====
section
/-! SUPPORT. The answers a transmitter's phases use up are those foretold, in order; with which the source drain and the
send loop are settled by the answers foretold. -/

namespace Sys2Proof.Machine

/-- The environment with these answers left and these events performed. -/
def Environment.onward (e : Environment) (flags : List Bool) (bytes : List Byte) (times : List Word)
    (evs : List Event) : Environment :=
  ⟨flags, bytes, times, e.drawn, e.trace ++ evs⟩

@[simp] theorem onward_flags (e : Environment) (f : List Bool) (b : List Byte) (t : List Word) (evs : List Event) :
    (e.onward f b t evs).flags = f := rfl
@[simp] theorem onward_bytes (e : Environment) (f : List Bool) (b : List Byte) (t : List Word) (evs : List Event) :
    (e.onward f b t evs).bytes = b := rfl
@[simp] theorem onward_times (e : Environment) (f : List Bool) (b : List Byte) (t : List Word) (evs : List Event) :
    (e.onward f b t evs).times = t := rfl
@[simp] theorem onward_drawn (e : Environment) (f : List Bool) (b : List Byte) (t : List Word) (evs : List Event) :
    (e.onward f b t evs).drawn = e.drawn := rfl
@[simp] theorem onward_trace (e : Environment) (f : List Bool) (b : List Byte) (t : List Word) (evs : List Event) :
    (e.onward f b t evs).trace = e.trace ++ evs := rfl

theorem onward_onward (e : Environment) (f f' : List Bool) (b b' : List Byte) (t t' : List Word) (evs evs' : List Event) :
    (e.onward f b t evs).onward f' b' t' evs' = e.onward f' b' t' (evs ++ evs') := by
  simp [Environment.onward]

/-! ### What is foretold is what is answered -/

/-- The events from `s` to `t` are answered from what `s` foretells, in order, and by the free answers `x` and `y` only
once that is used up; the time is not asked. -/
def Draws (s t : State) : Prop :=
  ∃ evs x y, t.env.trace = s.env.trace ++ evs ∧
    s.env.flags ++ x = flagsAnswered evs ++ t.env.flags ∧ (x = [] ∨ t.env.flags = []) ∧
    s.env.bytes ++ y = bytesAnswered evs ++ t.env.bytes ∧ (y = [] ∨ t.env.bytes = []) ∧
    t.env.times = s.env.times ∧ timesAsked evs = [] ∧ (x = [] → y = [] → t.env.drawn = s.env.drawn)

/-- Answers drawn one run after another. -/
theorem drawn_trans {α : Type} {a b c x y : List α} {u v : List α} (h : a ++ x = u ++ b) (hx : x = [] ∨ b = [])
    (k : b ++ y = v ++ c) (hy : y = [] ∨ c = []) :
    a ++ (x ++ y) = (u ++ v) ++ c ∧ (x ++ y = [] ∨ c = []) := by
  refine ⟨by rw [← List.append_assoc, h, List.append_assoc, k, List.append_assoc], ?_⟩
  rcases hy with rfl | rfl
  · rcases hx with rfl | rfl
    · exact .inl rfl
    · rw [List.append_nil] at k; exact .inr (List.append_eq_nil_iff.mp k.symm).2
  · exact .inr rfl

theorem Draws.trans {s t u : State} (h : Draws s t) (k : Draws t u) : Draws s u := by
  obtain ⟨a, x, y, h1, h2, h3, h4, h5, h6, h7, h8⟩ := h
  obtain ⟨b, x', y', k1, k2, k3, k4, k5, k6, k7, k8⟩ := k
  obtain ⟨f1, f2⟩ := drawn_trans h2 h3 k2 k3
  obtain ⟨g1, g2⟩ := drawn_trans h4 h5 k4 k5
  refine ⟨a ++ b, x ++ x', y ++ y', by rw [k1, h1, List.append_assoc], by rw [f1]; simp, f2, by rw [g1]; simp, g2,
    k6.trans h6, by simp [h7, k7], fun hx hy => ?_⟩
  obtain ⟨e1, e2⟩ := List.append_eq_nil_iff.mp hx
  obtain ⟨e3, e4⟩ := List.append_eq_nil_iff.mp hy
  exact (k8 e2 e4).trans (h8 e1 e3)

theorem Draws.none {s t : State} (h : t.env = s.env) : Draws s t :=
  ⟨[], [], [], by simp [h], by simp [h], .inl rfl, by simp [h], .inl rfl, by rw [h], rfl, fun _ _ => by rw [h]⟩

/-- A yes/no query draws its answer. -/
theorem Draws.flag {s : State} (ev : Bool → Event) (h : ∀ b, flagsAnswered [ev b] = [b])
    (h' : ∀ b, bytesAnswered [ev b] = []) (h'' : ∀ b, timesAsked [ev b] = []) : Draws s (askFlag ev s).2 := by
  cases e : s.env.flags with
  | nil =>
    refine ⟨[ev s.env.flag], [s.env.flag], [], by simp [askFlag], ?_, .inr ?_, ?_, .inl rfl, ?_, h'' _, by simp⟩
    all_goals simp [askFlag, Environment.afterFlag, Environment.record, State.setEnv, e, h, h']
  | cons b rest =>
    obtain ⟨h1, h2⟩ := flag_cons s.env b rest e
    refine ⟨[ev s.env.flag], [], [], by simp [askFlag], ?_, .inl rfl, ?_, .inl rfl, ?_, h'' _, fun _ _ => ?_⟩
    all_goals simp [askFlag, h1, h2, Environment.record, State.setEnv, e, h, h']

/-- A query for a byte draws its answer. -/
theorem Draws.byte {s : State} (ev : Byte → Event) (h : ∀ b, flagsAnswered [ev b] = [])
    (h' : ∀ b, bytesAnswered [ev b] = [b]) (h'' : ∀ b, timesAsked [ev b] = []) : Draws s (askByte ev s).2 := by
  cases e : s.env.bytes with
  | nil =>
    refine ⟨[ev s.env.byte], [], [s.env.byte], by simp [askByte], ?_, .inl rfl, ?_, .inr ?_, ?_, h'' _, by simp⟩
    all_goals simp [askByte, Environment.afterByte, Environment.record, State.setEnv, e, h, h']
  | cons b rest =>
    obtain ⟨h1, h2⟩ := byte_cons s.env b rest e
    refine ⟨[ev s.env.byte], [], [], by simp [askByte], ?_, .inl rfl, ?_, .inl rfl, ?_, h'' _, fun _ _ => ?_⟩
    all_goals simp [askByte, h1, h2, Environment.record, State.setEnv, e, h, h']

/-- An action draws nothing. -/
theorem Draws.act {s : State} (ev : Event) (h : flagsAnswered [ev] = []) (h' : bytesAnswered [ev] = [])
    (h'' : timesAsked [ev] = []) : Draws s (act ev s) :=
  ⟨[ev], [], [], by simp [Machine.act], by simp [Machine.act, Environment.record, State.setEnv, h], .inl rfl,
    by simp [Machine.act, Environment.record, State.setEnv, h'], .inl rfl, rfl, h'', fun _ _ => rfl⟩

theorem draws_common : CommonRel Draws where
  refl _ := .none rfl
  trans _ _ _ := .trans
  raiseMode _ := .none rfl
  counters _ _ := .none rfl
  arb _ _ := .none rfl
  setMode _ _ := .act _ rfl rfl rfl
  modeReady _ := .flag _ (fun _ => rfl) (fun _ => rfl) (fun _ => rfl)

theorem draws_tx : TxRel Draws where
  toCommonRel := draws_common
  txb _ _ := .none rfl
  tx _ _ := .none rfl
  valid _ := .flag _ (fun _ => rfl) (fun _ => rfl) (fun _ => rfl)
  take _ _ := ((Draws.flag _ (fun _ => rfl) (fun _ => rfl) (fun _ => rfl)).trans
    (.byte _ (fun _ => rfl) (fun _ => rfl) (fun _ => rfl))).trans (.act _ rfl rfl rfl)
  overrun _ _ := (Draws.flag _ (fun _ => rfl) (fun _ => rfl) (fun _ => rfl)).trans (.act _ rfl rfl rfl)
  full _ := .flag _ (fun _ => rfl) (fun _ => rfl) (fun _ => rfl)
  write _ _ _ := (Draws.flag _ (fun _ => rfl) (fun _ => rfl) (fun _ => rfl)).trans (.act _ rfl rfl rfl)
  txDone _ := .flag _ (fun _ => rfl) (fun _ => rfl) (fun _ => rfl)
  raiseOverrun _ := .none rfl
  raiseDrain _ := .none rfl

/-- Where the events performed are those foretold, the environment has gone on by just these. -/
theorem Draws.onward {s t : State} (d : Draws s t) {evs : List Event} {fs : List Bool} {bs : List Byte}
    (ht : t.env.trace = s.env.trace ++ evs) (hf : s.env.flags = flagsAnswered evs ++ fs)
    (hb : s.env.bytes = bytesAnswered evs ++ bs) : t.env = s.env.onward fs bs s.env.times evs := by
  obtain ⟨evs', x, y, d1, d2, d3, d4, d5, d6, -, d8⟩ := d
  obtain rfl : evs = evs' := List.append_cancel_left (ht.symm.trans d1)
  rw [hf, List.append_assoc] at d2
  rw [hb, List.append_assoc] at d4
  have e1 := List.append_cancel_left d2
  have e2 := List.append_cancel_left d4
  have x0 : x = [] := by
    rcases d3 with h | h
    · exact h
    · rw [h] at e1; exact (List.append_eq_nil_iff.mp e1).2
  have y0 : y = [] := by
    rcases d5 with h | h
    · exact h
    · rw [h] at e2; exact (List.append_eq_nil_iff.mp e2).2
  have d8 := d8 x0 y0
  rw [x0, List.append_nil] at e1
  rw [y0, List.append_nil] at e2
  rw [Environment.onward, e1, e2, ← d6, ← d8, ← ht]

/-- The answers foretold and those given agree as far as both go. -/
theorem Draws.agree {s t : State} (d : Draws s t) {evs : List Event} (ht : t.env.trace = s.env.trace ++ evs) :
    (∃ x z, s.env.flags ++ x = flagsAnswered evs ++ z) ∧ ∃ y z, s.env.bytes ++ y = bytesAnswered evs ++ z := by
  obtain ⟨evs', x, y, d1, d2, -, d4, -⟩ := d
  obtain rfl : evs = evs' := List.append_cancel_left (ht.symm.trans d1)
  exact ⟨⟨x, _, d2⟩, y, _, d4⟩

/-! ### Runs of equal answers -/

/-- An answer other than `v` ends a run of them. -/
theorem replicate_le {α : Type} {v w : α} (h : v ≠ w) {a b : Nat} {x y : List α}
    (e : List.replicate a v ++ w :: x = List.replicate b v ++ y) : b ≤ a := by
  induction b generalizing a with
  | zero => omega
  | succ b ih =>
    cases a with
    | zero => simp only [List.replicate_zero, List.nil_append, List.replicate_succ, List.cons_append, List.cons.injEq] at e
              exact absurd e.1.symm h
    | succ a =>
      simp only [List.replicate_succ, List.cons_append, List.cons.injEq, true_and] at e
      have := ih e; omega

theorem replicate_eq {α : Type} {v w : α} (h : v ≠ w) {a b : Nat} {x y : List α}
    (e : List.replicate a v ++ w :: x = List.replicate b v ++ w :: y) : a = b :=
  Nat.le_antisymm (replicate_le h e.symm) (replicate_le h e)

/-! ### The source drain, foretold -/

/-- The source drain takes the bytes foretold and ends as foretold. -/
theorem sbFillLoop_foretold (now : Word) {s : State} {l taken : List Byte} {tail : List Event} (h : Holds s.txb l)
    (hc : l.length ≤ s.cfg.capTxBytes.toNat) (ok : TxbReady s) (hk : taken.length ≤ s.cfg.capTxBytes.toNat)
    (hr : s.cfg.policy = .reject → (l ++ taken).length ≤ s.cfg.capTxBytes.toNat)
    (ht : tail = [.srcValid false] ∨
      (tail = [.srcValid true] ∧ s.cfg.policy ≠ .reject ∧ taken.length = s.cfg.capTxBytes.toNat) ∨
      (tail = [.srcValid true, .srcOverrun] ∧ s.cfg.policy = .reject ∧ (l ++ taken).length = s.cfg.capTxBytes.toNat))
    {fs : List Bool} {bs : List Byte} (hf : s.env.flags = flagsAnswered (taken.flatMap takeEvents ++ tail) ++ fs)
    (hb : s.env.bytes = bytesAnswered (taken.flatMap takeEvents ++ tail) ++ bs) :
    ∃ overruns t, sbFillFromSource now s = .next t ∧
      Drained now s.cfg.capTxBytes.toNat s l taken tail overruns t ∧
      t.env = s.env.onward fs bs s.env.times (taken.flatMap takeEvents ++ tail) := by
  obtain ⟨taken', tail', o, t, e, d⟩ := sbFillLoop_holds now s.cfg.capTxBytes.toNat h hc ok
  have dr := draws_tx.sbFillLoop now _ e
  have tr : t.env.trace = s.env.trace ++ (taken'.flatMap takeEvents ++ tail') := by
    rw [d.trace, List.append_assoc]
  obtain ⟨⟨x, z, ag⟩, y, z', ag'⟩ := dr.agree tr
  have tf : ∀ tl : List Event, tl = [.srcValid false] ∨ tl = [.srcValid true] ∨ tl = [.srcValid true, .srcOverrun] →
      bytesAnswered tl = [] := by rintro _ (rfl | rfl | rfl) <;> rfl
  have same : taken'.length = taken.length ∧ tail' = tail := by
    rw [hf] at ag
    simp only [flagsAnswered_append, flagsAnswered_takeEvents, List.append_assoc] at ag
    have b1 := d.budget
    have b2 := d.reject
    simp only [List.length_append] at hr b2
    have l2 : tail' = [.srcValid false] ∨
        (tail' = [.srcValid true] ∧ s.cfg.policy ≠ .reject ∧ taken'.length = s.cfg.capTxBytes.toNat) ∨
        (tail' = [.srcValid true, .srcOverrun] ∧ s.cfg.policy = .reject ∧
          (l ++ taken').length = s.cfg.capTxBytes.toNat) := by
      rcases d.last with h | ⟨h1, h2, h3⟩ | h
      · exact .inl h
      · refine .inr (.inl ⟨h1, fun hh => ?_, h2⟩)
        have := h3 hh
        simp only [List.length_append] at this; omega
      · exact .inr (.inr h)
    have more : ∀ {a b : Nat} {u v : List Bool}, List.replicate a true ++ (true :: u) = List.replicate b true ++ false :: v →
        a + 1 ≤ b := by
      intro a b u v hh
      refine replicate_le (v := true) (w := false) (by decide) (x := v) (y := u) ?_
      rw [← hh, List.replicate_succ', List.append_assoc]; rfl
    rcases ht with rfl | ⟨rfl, p1, p2⟩ | ⟨rfl, p1, p2⟩ <;> rcases l2 with rfl | ⟨rfl, q1, q2⟩ | ⟨rfl, q1, q2⟩ <;>
      simp at ag
    · exact ⟨(replicate_eq (by decide) ag).symm, rfl⟩
    · have := more ag.symm; omega
    · have := more ag.symm; simp at q2; have := hr q1; omega
    · have := more ag; omega
    · exact ⟨q2.trans p2.symm, rfl⟩
    · exact absurd q1 p1
    · have := more ag; simp at p2; have := b2 p1; omega
    · exact absurd p1 q1
    · simp at p2 q2; exact ⟨by omega, rfl⟩
  obtain ⟨same1, rfl⟩ := same
  have same2 : taken' = taken := by
    rw [hb] at ag'
    have hz : bytesAnswered tail' = [] := tf _ (by rcases ht with h | ⟨h, -⟩ | ⟨h, -⟩ <;> simp [h])
    simp only [bytesAnswered_append, bytesAnswered_takeEvents, hz, List.append_nil, List.append_assoc] at ag'
    exact (List.append_inj_left ag' same1.symm).symm
  subst same2
  exact ⟨o, t, e, d, dr.onward tr hf hb⟩

/-! ### The send loop, foretold -/

/-- The send loop writes all there is to write where the radio FIFO never fills, and up to the full FIFO otherwise. -/
theorem txSend_foretold (now : Word) {s : State} {l : List Byte} (h : Holds s.txb l)
    (hd : l.length ≤ s.params.txbDepthMax.toNat) (ok : FrameReady s) (hp : s.tx.pos.toNat < s.cfg.n.toNat + 2)
    {fs : List Bool} :
    (s.env.flags = List.replicate (pendingWire s l).length false ++ fs →
      ∃ t, txSend now s = .next t ∧ Sent now s l (pendingWire s l) (l.length / s.cfg.n.toNat) t ∧ t.tx.state = .drain ∧
        t.tx.pos = wireEnd s ∧ t.tx.tWait = now ∧
        t.counters.framesTx = s.counters.framesTx + BitVec.ofNat 32 (l.length / s.cfg.n.toNat + 1) ∧
        t.env = s.env.onward fs s.env.bytes s.env.times ((pendingWire s l).flatMap writeEvents)) ∧
    ∀ j, j < (pendingWire s l).length → s.env.flags = List.replicate j false ++ true :: fs →
      ∃ t, txSend now s = .next t ∧
        Sent now s l ((pendingWire s l).take j) ((s.tx.pos.toNat + j) / (s.cfg.n.toNat + 2)) t ∧
        t.tx.state = s.tx.state ∧ t.tx.pos.toNat = (s.tx.pos.toNat + j) % (s.cfg.n.toNat + 2) ∧
        t.tx.tWait = s.tx.tWait ∧
        t.counters.framesTx =
          s.counters.framesTx + BitVec.ofNat 32 ((s.tx.pos.toNat + j) / (s.cfg.n.toNat + 2)) ∧
        t.env = s.env.onward fs s.env.bytes s.env.times
          (((pendingWire s l).take j).flatMap writeEvents ++ [.radioFifoFull true]) := by
  have bound : (s.cfg.n.toNat + 2 - s.tx.pos.toNat) + (s.cfg.n.toNat + 2) * (l.length / s.cfg.n.toNat) < txSendBound s := by
    unfold txSendBound; rw [← h.length, Nat.mul_add, Nat.mul_one]; omega
  obtain ⟨w, k, t, e, d⟩ := txSendLoop_holds now (txSendBound s) h hd ok hp bound
  have dr := draws_tx.txSendLoop now _ e
  have cons := d.conserves ok.size
  have hc : t.cfg = s.cfg := by rw [d.frame]
  have lens := congrArg List.length cons
  simp only [List.length_append, List.length_drop, length_wireImage, hc, framesOnWire_length d.chained] at lens
  have size := ok.size
  refine ⟨fun hf => ?_, fun j hj hf => ?_⟩
  · rcases d.ending with ⟨-, p, -, tr, -⟩ | ⟨g1, g2, g3, g4, g5, g6⟩
    · exfalso
      obtain ⟨⟨x, z, ag⟩, -⟩ := dr.agree (evs := w.flatMap writeEvents ++ [.radioFifoFull true]) (by rw [tr, List.append_assoc])
      rw [hf] at ag
      simp only [flagsAnswered_append, flagsAnswered_writeEvents, List.append_assoc] at ag
      have le := replicate_le (v := false) (w := true) (by decide) ag.symm
      have := congrArg List.length d.wire
      simp only [List.length_append] at this
      have : 0 < (pendingWire t (l.drop (k * s.cfg.n.toNat))).length := by
        unfold pendingWire; simp [hc]; omega
      omega
    · have ek : k = l.length / s.cfg.n.toNat := by
        have := d.chained
        refine (Nat.div_eq_of_lt_le this ?_).symm
        simp at g6; rw [Nat.add_mul, Nat.one_mul]; omega
      have ew : w = pendingWire s l := by
        have := d.wire
        rw [pendingWire, hc, g2, wireEnd_toNat, Nat.div_eq_of_lt g6, List.drop_of_length_le (by simp [hc])] at this
        simpa [framesOnWire] using this
      subst ek ew
      exact ⟨t, e, d, g1, g2, g3, g5, dr.onward g4 (by simpa using hf) (by simp)⟩
  · rcases d.ending with ⟨g1, p, g3, g4, g5⟩ | ⟨g1, g2, g3, g4, g5, g6⟩
    · obtain ⟨⟨x, z, ag⟩, -⟩ := dr.agree (evs := w.flatMap writeEvents ++ [.radioFifoFull true]) (by rw [g4, List.append_assoc])
      rw [hf] at ag
      simp only [flagsAnswered_append, flagsAnswered_writeEvents, List.append_assoc, List.cons_append] at ag
      have ej : w.length = j := (replicate_eq (v := false) (w := true) (by decide) ag).symm
      have sum : s.tx.pos.toNat + j = t.tx.pos.toNat + (s.cfg.n.toNat + 2) * k := by
        rw [Nat.mul_comm]; omega
      have ek : (s.tx.pos.toNat + j) / (s.cfg.n.toNat + 2) = k := by
        rw [sum, Nat.add_mul_div_left _ _ (by omega), Nat.div_eq_of_lt p, Nat.zero_add]
      have ep : (s.tx.pos.toNat + j) % (s.cfg.n.toNat + 2) = t.tx.pos.toNat := by
        rw [sum, Nat.add_mul_mod_self_left, Nat.mod_eq_of_lt p]
      have ew : w = (pendingWire s l).take j := by rw [← d.wire, ← ej, List.take_left']; rfl
      rw [ek, ep, ← ew]
      exact ⟨t, e, d, g1, rfl, g3, g5, dr.onward (by rw [g4, List.append_assoc]) (by simpa [ej] using hf) (by simp)⟩
    · exfalso
      obtain ⟨⟨x, z, ag⟩, -⟩ := dr.agree (evs := w.flatMap writeEvents) g4
      rw [hf] at ag
      simp only [flagsAnswered_writeEvents, List.append_assoc, List.cons_append] at ag
      have le := replicate_le (v := false) (w := true) (by decide) ag
      have := d.wire
      rw [pendingWire, hc, g2, wireEnd_toNat, Nat.div_eq_of_lt g6, List.drop_of_length_le (by simp [hc])] at this
      have := congrArg List.length this
      simp [framesOnWire] at this
      omega

end Sys2Proof.Machine
end

