-- ==== Sys2Proof/Laws/Trace.lean ====
section
/-! SUPPORT. Two relations every scheduler iteration satisfies, from any state: what it keeps, and which events it adds
(Sys2Proof/Laws/Relations.lean packages the inductions). -/

namespace Sys2Proof.Machine

/-- What no phase of a STEP changes: the core state, the configuration, the parameters, the host port; and ERR only gains
bits, none of them fatal. -/
structure Kept (s t : State) : Prop where
  coreState : t.coreState = s.coreState
  cfg : t.cfg = s.cfg
  params : t.params = s.params
  host : t.host = s.host
  sticky : s.err ||| t.err = t.err
  fatal : t.err.extractLsb' 0 2 = s.err.extractLsb' 0 2

theorem Kept.of_same {s t : State} (h1 : t.coreState = s.coreState) (h2 : t.cfg = s.cfg) (h3 : t.params = s.params)
    (h4 : t.host = s.host) (h5 : t.err = s.err) : Kept s t :=
  ⟨h1, h2, h3, h4, by rw [h5]; simp, by rw [h5]⟩

theorem mask_fatal (c : Cause) (h : 2 ≤ c.code) (e : BitVec 10) :
    (e ||| c.mask).extractLsb' 0 2 = e.extractLsb' 0 2 := by
  have : c.mask.extractLsb' 0 2 = 0 := by cases c <;> first | (exfalso; revert h; decide) | decide
  rw [BitVec.extractLsb'_or, this]; simp

theorem Kept.of_raise (c : Cause) (h : 2 ≤ c.code) (s : State) : Kept s (raise c s) :=
  ⟨rfl, rfl, rfl, rfl, by simp [← BitVec.or_assoc], mask_fatal c h _⟩

theorem kept_common : CommonRel Kept where
  refl _ := .of_same rfl rfl rfl rfl rfl
  trans s t u h k := ⟨k.coreState.trans h.coreState, k.cfg.trans h.cfg, k.params.trans h.params, k.host.trans h.host, by
    rw [← k.sticky, ← h.sticky, ← BitVec.or_assoc, ← BitVec.or_assoc, BitVec.or_self], k.fatal.trans h.fatal⟩
  raiseMode := .of_raise _ (by decide)
  counters _ _ := .of_same rfl rfl rfl rfl rfl
  arb _ _ := .of_same rfl rfl rfl rfl rfl
  setMode _ _ := .of_same rfl rfl rfl rfl rfl
  modeReady _ := .of_same rfl rfl rfl rfl rfl

theorem kept_tx : TxRel Kept where
  toCommonRel := kept_common
  txb _ _ := .of_same rfl rfl rfl rfl rfl
  tx _ _ := .of_same rfl rfl rfl rfl rfl
  valid _ := .of_same rfl rfl rfl rfl rfl
  take _ _ := .of_same rfl rfl rfl rfl rfl
  overrun _ _ := .of_same rfl rfl rfl rfl rfl
  full _ := .of_same rfl rfl rfl rfl rfl
  write _ _ _ := .of_same rfl rfl rfl rfl rfl
  txDone _ := .of_same rfl rfl rfl rfl rfl
  raiseOverrun := .of_raise _ (by decide)
  raiseDrain := .of_raise _ (by decide)

theorem kept_rx : RxRel Kept where
  toCommonRel := kept_common
  rxb _ _ := .of_same rfl rfl rfl rfl rfl
  rx _ _ := .of_same rfl rfl rfl rfl rfl
  ready _ := .of_same rfl rfl rfl rfl rfl
  deliver _ _ _ _ := .of_same rfl rfl rfl rfl rfl
  notEmpty _ := .of_same rfl rfl rfl rfl rfl
  read _ _ := .of_same rfl rfl rfl rfl rfl
  raiseOverrun := .of_raise _ (by decide)
  raiseLink := .of_raise _ (by decide)
  raiseLoss := .of_raise _ (by decide)

/-- Every scheduler iteration keeps what `Kept` says. -/
theorem schedulerIteration_kept {s t : State} (e : schedulerIteration s = .next t) : Kept s t := by
  have h0 : Kept s (askNow s).2 := .of_same rfl rfl rfl rfl rfl
  cases hr : s.cfg.role with
  | tx => exact kept_common.trans _ _ _ h0 (kept_tx.schedulerIteration hr (fun _ _ h => h.cfg) e)
  | rx => exact kept_common.trans _ _ _ h0 (kept_rx.schedulerIteration hr (fun _ _ h => h.cfg) e)

/-- What a transmitter's STEP does not touch: the receive side, and every ERR bit but TX_OVERRUN, MODE_TIMEOUT and
DRAIN_TIMEOUT. -/
structure TxOwn (s t : State) : Prop where
  cfg : t.cfg = s.cfg
  rxb : t.rxb = s.rxb
  rx : t.rx = s.rx
  err : t.err &&& 0x39B = s.err &&& 0x39B

theorem TxOwn.of_raise (c : Cause) (h : c.mask &&& 0x39B = 0) (s : State) : TxOwn s (raise c s) :=
  ⟨rfl, rfl, rfl, by
    show (s.err ||| c.mask) &&& 0x39B = s.err &&& 0x39B
    rw [BitVec.and_comm, BitVec.and_or_distrib_left, BitVec.and_comm _ c.mask, h, BitVec.and_comm]; simp⟩

theorem txOwn_tx : TxRel TxOwn where
  refl _ := ⟨rfl, rfl, rfl, rfl⟩
  trans _ _ _ h k := ⟨k.cfg.trans h.cfg, k.rxb.trans h.rxb, k.rx.trans h.rx, k.err.trans h.err⟩
  raiseMode := .of_raise _ (by decide)
  counters _ _ := ⟨rfl, rfl, rfl, rfl⟩
  arb _ _ := ⟨rfl, rfl, rfl, rfl⟩
  setMode _ _ := ⟨rfl, rfl, rfl, rfl⟩
  modeReady _ := ⟨rfl, rfl, rfl, rfl⟩
  txb _ _ := ⟨rfl, rfl, rfl, rfl⟩
  tx _ _ := ⟨rfl, rfl, rfl, rfl⟩
  valid _ := ⟨rfl, rfl, rfl, rfl⟩
  take _ _ := ⟨rfl, rfl, rfl, rfl⟩
  overrun _ _ := ⟨rfl, rfl, rfl, rfl⟩
  full _ := ⟨rfl, rfl, rfl, rfl⟩
  write _ _ _ := ⟨rfl, rfl, rfl, rfl⟩
  txDone _ := ⟨rfl, rfl, rfl, rfl⟩
  raiseOverrun := .of_raise _ (by decide)
  raiseDrain := .of_raise _ (by decide)

theorem schedulerIteration_txOwn {s t : State} (hr : s.cfg.role = .tx) (e : schedulerIteration s = .next t) : TxOwn s t :=
  txOwn_tx.trans _ (askNow s).2 _ ⟨rfl, rfl, rfl, rfl⟩ (txOwn_tx.schedulerIteration hr (fun _ _ h => h.cfg) e)

/-- What a receiver's STEP does not touch: the transmit side, and every ERR bit but RX_OVERRUN, LINK_TIMEOUT,
MODE_TIMEOUT and SYNC_LOSS. -/
structure RxOwn (s t : State) : Prop where
  cfg : t.cfg = s.cfg
  txb : t.txb = s.txb
  tx : t.tx = s.tx
  err : t.err &&& 0x347 = s.err &&& 0x347

theorem RxOwn.of_raise (c : Cause) (h : c.mask &&& 0x347 = 0) (s : State) : RxOwn s (raise c s) :=
  ⟨rfl, rfl, rfl, by
    show (s.err ||| c.mask) &&& 0x347 = s.err &&& 0x347
    rw [BitVec.and_comm, BitVec.and_or_distrib_left, BitVec.and_comm _ c.mask, h, BitVec.and_comm]; simp⟩

theorem rxOwn_rx : RxRel RxOwn where
  refl _ := ⟨rfl, rfl, rfl, rfl⟩
  trans _ _ _ h k := ⟨k.cfg.trans h.cfg, k.txb.trans h.txb, k.tx.trans h.tx, k.err.trans h.err⟩
  raiseMode := .of_raise _ (by decide)
  counters _ _ := ⟨rfl, rfl, rfl, rfl⟩
  arb _ _ := ⟨rfl, rfl, rfl, rfl⟩
  setMode _ _ := ⟨rfl, rfl, rfl, rfl⟩
  modeReady _ := ⟨rfl, rfl, rfl, rfl⟩
  rxb _ _ := ⟨rfl, rfl, rfl, rfl⟩
  rx _ _ := ⟨rfl, rfl, rfl, rfl⟩
  ready _ := ⟨rfl, rfl, rfl, rfl⟩
  deliver _ _ _ _ := ⟨rfl, rfl, rfl, rfl⟩
  notEmpty _ := ⟨rfl, rfl, rfl, rfl⟩
  read _ _ := ⟨rfl, rfl, rfl, rfl⟩
  raiseOverrun := .of_raise _ (by decide)
  raiseLink := .of_raise _ (by decide)
  raiseLoss := .of_raise _ (by decide)

theorem schedulerIteration_rxOwn {s t : State} (hr : s.cfg.role = .rx) (e : schedulerIteration s = .next t) : RxOwn s t :=
  rxOwn_rx.trans _ (askNow s).2 _ ⟨rfl, rfl, rfl, rfl⟩ (rxOwn_rx.schedulerIteration hr (fun _ _ h => h.cfg) e)

/-- The events added are such that any events before them may stand before them, and all of them satisfy `ok`. -/
def Emits (ok : Event → Bool) (s t : State) : Prop :=
  t.cfg = s.cfg ∧ ∃ evs, t.env.trace = s.env.trace ++ evs ∧ (∀ prev, disciplined prev evs = true) ∧ evs.all ok = true

theorem disciplined_append (a b : List Event) (prev : Option Event) (ha : disciplined prev a = true)
    (hb : ∀ p, disciplined p b = true) : disciplined prev (a ++ b) = true := by
  induction a generalizing prev with
  | nil => exact hb prev
  | cons x a ih =>
    simp only [disciplined, Bool.and_eq_true] at ha
    simp only [List.cons_append, disciplined, Bool.and_eq_true]
    exact ⟨ha.1, ih _ ha.2⟩

theorem Emits.trans {ok : Event → Bool} {s t u : State} (h : Emits ok s t) (k : Emits ok t u) : Emits ok s u := by
  obtain ⟨h0, a, h1, h2, h3⟩ := h
  obtain ⟨k0, b, k1, k2, k3⟩ := k
  exact ⟨k0.trans h0, a ++ b, by rw [k1, h1, List.append_assoc], fun p => disciplined_append a b p (h2 p) k2,
    by rw [List.all_append, h3, k3]; rfl⟩

theorem Emits.none {ok : Event → Bool} {s t : State} (hc : t.cfg = s.cfg) (ht : t.env.trace = s.env.trace) : Emits ok s t :=
  ⟨hc, [], by rw [ht]; simp, fun _ => rfl, rfl⟩

theorem emits_common (ok : Event → Bool) (h1 : ∀ m, ok (.radioSetMode m) = true) (h2 : ∀ b, ok (.radioModeReady b) = true) :
    CommonRel (Emits ok) where
  refl _ := .none rfl rfl
  trans s t u h k := h.trans k
  raiseMode _ := .none rfl rfl
  counters _ _ := .none rfl rfl
  arb _ _ := .none rfl rfl
  setMode s m := ⟨rfl, [.radioSetMode m], by simp [doSetMode], fun _ => rfl, by simp [h1]⟩
  modeReady s := ⟨rfl, [.radioModeReady s.env.flag], by simp [askModeReady], fun _ => rfl, by simp [h2]⟩

theorem emits_tx : TxRel (Emits (ofRole .tx)) where
  toCommonRel := emits_common _ (fun _ => rfl) (fun _ => rfl)
  txb _ _ := .none rfl rfl
  tx _ _ := .none rfl rfl
  valid s := ⟨rfl, [.srcValid s.env.flag], by simp [askSrcValid], fun _ => rfl, rfl⟩
  take s h := ⟨rfl, [.srcValid true, .srcData (askSrcData (askSrcValid s).2).1, .srcTake],
    by simp [doSrcTake, askSrcData, askSrcValid, h], fun _ => by simp [disciplined, mayFollow], rfl⟩
  overrun s h := ⟨rfl, [.srcValid true, .srcOverrun], by simp [doSrcOverrun, askSrcValid, h],
    fun _ => by simp [disciplined, mayFollow], rfl⟩
  full s := ⟨rfl, [.radioFifoFull s.env.flag], by simp [askFifoFull], fun _ => rfl, rfl⟩
  write s b h := ⟨rfl, [.radioFifoFull false, .radioWrite b], by simp [doRadioWrite, askFifoFull, h],
    fun _ => by simp [disciplined, mayFollow], rfl⟩
  txDone s := ⟨rfl, [.radioTxDone s.env.flag], by simp [askTxDone], fun _ => rfl, rfl⟩
  raiseOverrun _ := .none rfl rfl
  raiseDrain _ := .none rfl rfl

theorem emits_rx : RxRel (Emits (ofRole .rx)) where
  toCommonRel := emits_common _ (fun _ => rfl) (fun _ => rfl)
  rxb _ _ := .none rfl rfl
  rx _ _ := .none rfl rfl
  ready s := ⟨rfl, [.sinkReady s.env.flag], by simp [askSinkReady], fun _ => rfl, rfl⟩
  deliver s r b h := ⟨rfl, [.sinkReady true, .sinkWrite b], by simp [doSinkWrite, askSinkReady, h],
    fun _ => by simp [disciplined, mayFollow], rfl⟩
  notEmpty s := ⟨rfl, [.radioFifoNotEmpty s.env.flag], by simp [askFifoNotEmpty], fun _ => rfl, rfl⟩
  read s h := ⟨rfl, [.radioFifoNotEmpty true, .radioRead Config.dummyByte (askRadioRead (askFifoNotEmpty s).2).1],
    by simp [askRadioRead, askFifoNotEmpty, h], fun _ => by simp [disciplined, mayFollow], rfl⟩
  raiseOverrun _ := .none rfl rfl
  raiseLink _ := .none rfl rfl
  raiseLoss _ := .none rfl rfl

/-- Every scheduler iteration asks the time, and then adds disciplined events of its role only. -/
theorem schedulerIteration_emits {s t : State} (e : schedulerIteration s = .next t) :
    Emits (ofRole s.cfg.role) (askNow s).2 t := by
  cases hr : s.cfg.role with
  | tx => exact emits_tx.schedulerIteration hr (fun _ _ h => h.1) e
  | rx => exact emits_rx.schedulerIteration hr (fun _ _ h => h.1) e

end Sys2Proof.Machine
end

