-- ==== Sys2Proof/Laws/Commands.lean ====
section
/-! SUPPORT. What executing one command can do (45_host_commands.md R301): a STEP in RUN, a BEGIN in UNINIT, or a change
of configuration, ERR or the detector alone. -/

namespace Sys2Proof.Machine

/-- The answer a CSR_READ gives: the address names `c` in the table of 10_state.md R39. -/
theorem Csr.ofAddr_addr (c : Csr) : Csr.ofAddr c.addr = some c := by cases c <;> decide

theorem Csr.ofAddr_some {a : CsrAddr} {c : Csr} (h : Csr.ofAddr a = some c) : a = c.addr := by
  have := List.find?_some h
  simpa using (beq_iff_eq.mp this).symm

theorem Csr.ofAddr_unassigned : ∀ a : CsrAddr, unassigned a = true ↔ Csr.ofAddr a = none := by decide +kernel

theorem Csr.isConfig_iff (c : Csr) : c.isConfig = true ↔ c.addr.toNat ≤ 0x07 := by simp [Csr.isConfig]

/-- A write to ERR clears no fatal bit. -/
theorem errAfterWrite_fatal (e : BitVec 10) (v : Word) : (errAfterWrite e v).extractLsb' 0 2 = e.extractLsb' 0 2 := by
  have h : ∀ k, k < 2 → errClearable.getLsbD k = false := by decide
  apply BitVec.eq_of_getLsbD_eq
  intro k hk
  simp [errAfterWrite, h k hk, hk]
  omega

/-- Bit by bit, a write to ERR. -/
theorem errAfterWrite_bit (e : BitVec 10) (v : Word) (k : Nat) (hk : k < 10) :
    (errAfterWrite e v).getLsbD k = (e.getLsbD k && !(decide (2 ≤ k) && v.getLsbD k)) := by
  have h : ∀ k, k < 10 → errClearable.getLsbD k = decide (2 ≤ k) := by decide
  simp only [errAfterWrite, BitVec.getLsbD_and, BitVec.getLsbD_not, BitVec.getLsbD_setWidth, h k hk, hk]
  simp [Bool.and_comm]

/-- What a command that performs no event leaves in `t`: a response `⟨st, d⟩`, and perhaps another configuration, another
ERR, another detector state. -/
structure Quietly (i : Instr) (s : State) (st : Status) (d : Word) (t : State) : Prop where
  frame : t = respond st d { s with cfg := t.cfg, err := t.err, rx := t.rx }
  cfg : t.cfg = s.cfg ∨ (s.coreState = .uninit ∧ ∃ a v, i = .csrWrite a v)
  err : s.err ||| t.err = t.err ∨ ∃ v, i = .csrWrite 0x15 v
  fatal : t.err.extractLsb' 0 2 = s.err.extractLsb' 0 2
  rx : t.rx = s.rx ∨ (i = .rxCancel ∧ s.coreState = .run)
  data : (∃ c, i = .csrRead c.addr ∧ st = .ok ∧ d = readCsr s c) ∨ (((∀ a, i ≠ .csrRead a) ∨ st = .err) ∧ d = 0)

/-- What BEGIN in UNINIT leaves in `t`. -/
structure Begun (s t : State) : Prop where
  cfg : t.cfg = s.cfg
  core : t.coreState = .run ∨ t.coreState = .failed
  sticky : s.err ||| t.err = t.err
  counters : t.counters = s.counters
  host : ∃ st, t.host = { s.host with responses := s.host.responses ++ [⟨st, 0⟩] }
  trace : ∃ evs, t.env.trace = s.env.trace ++ .timeNow s.env.time :: evs ∧ (evs = [] ∨ ∃ b, evs = [.radioBegin b])

theorem Quietly.of_wrongState {i : Instr} {s t : State} (e : wrongState s = .next t) : ∃ st d, Quietly i s st d t := by
  cases e
  exact ⟨.err, 0, rfl, .inl rfl, .inl (by simp [respond]), rfl, .inl rfl, .inr ⟨.inr rfl, rfl⟩⟩

theorem Quietly.of_csrFailure {i : Instr} {s t : State} (e : csrFailure s = .next t) : ∃ st d, Quietly i s st d t := by
  cases e
  refine ⟨.err, 0, rfl, .inl rfl, .inl (by simp [respond, ← BitVec.or_assoc]), ?_, .inl rfl, .inr ⟨.inr rfl, rfl⟩⟩
  exact mask_fatal .csrErr (by decide) _

theorem execBegin_next {s t : State} (e : execBegin s = .next t) :
    (s.coreState = .uninit ∧ Begun s t) ∨ (s.coreState ≠ .uninit ∧ t = respond .err 0 s) := by
  unfold execBegin at e
  by_cases h : s.coreState = .uninit
  · left
    refine ⟨h, ?_⟩
    rw [if_pos (by simp [permitted, h])] at e
    simp only at e
    split at e
    · split at e
      · rename_i hb
        cases e
        exact ⟨rfl, .inl rfl, by simp [respond, askRadioBegin], rfl, ⟨.ok, rfl⟩,
          [.radioBegin (askRadioBegin (askNow s).2).1], by simp [respond, askRadioBegin], .inr ⟨_, rfl⟩⟩
      · cases e
        exact ⟨rfl, .inr rfl, by simp [beginFailed, respond, askRadioBegin, ← BitVec.or_assoc], rfl, ⟨.err, rfl⟩,
          [.radioBegin (askRadioBegin (askNow s).2).1], by simp [beginFailed, respond, askRadioBegin], .inr ⟨_, rfl⟩⟩
    · cases e
      exact ⟨rfl, .inr rfl, by simp [beginFailed, respond, ← BitVec.or_assoc], rfl, ⟨.err, rfl⟩,
        [], by simp [beginFailed, respond], .inl rfl⟩
  · right
    rw [if_neg (by simp [permitted, h])] at e
    cases e
    exact ⟨h, rfl⟩

/-- Everything a command can do. -/
theorem exec_cases {i : Instr} {s t : State} (e : exec i s = .next t) :
    (i = .step ∧ s.coreState = .run ∧ ∃ u, schedulerIteration s = .next u ∧ t = respond .ok 0 u) ∨
    (i = .begin ∧ s.coreState = .uninit ∧ Begun s t) ∨
    (¬ (i = .step ∧ s.coreState = .run) ∧ ¬ (i = .begin ∧ s.coreState = .uninit) ∧ ∃ st d, Quietly i s st d t) := by
  cases i with
  | nop =>
    cases (show Host.Outcome.next (respond .ok 0 s) = .next t from e)
    exact .inr (.inr ⟨by simp, by simp, .ok, 0, rfl, .inl rfl, .inl (by simp [respond]), rfl, .inl rfl, .inr ⟨.inl (by simp), rfl⟩⟩)
  | begin =>
    rcases execBegin_next e with ⟨h, b⟩ | ⟨h, rfl⟩
    · exact .inr (.inl ⟨rfl, h, b⟩)
    · exact .inr (.inr ⟨by simp, by simp [h], Quietly.of_wrongState rfl⟩)
  | step =>
    unfold exec execStep at e
    by_cases h : s.coreState = .run
    · rw [if_pos (by simp [permitted, h])] at e
      obtain ⟨u, e1, e2⟩ := (andThen_eq_next _ _ _).mp e
      cases e2
      exact .inl ⟨rfl, h, u, e1, rfl⟩
    · rw [if_neg (by simp [permitted, h])] at e
      exact .inr (.inr ⟨by simp [h], by simp, Quietly.of_wrongState e⟩)
  | csrRead a =>
    refine .inr (.inr ⟨by simp, by simp, ?_⟩)
    replace e : execCsrRead a s = .next t := e
    unfold execCsrRead at e
    rw [if_pos (show permitted (.csrRead a) s.coreState = true from rfl)] at e
    split at e
    · rename_i c hc
      cases e
      refine ⟨.ok, readCsr s c, rfl, .inl rfl, .inl (by simp [respond]), rfl, .inl rfl, .inl ⟨c, ?_, rfl, rfl⟩⟩
      rw [Csr.ofAddr_some hc]
    · exact Quietly.of_csrFailure e
  | csrWrite a v =>
    refine .inr (.inr ⟨by simp, by simp, ?_⟩)
    replace e : execCsrWrite a v s = .next t := e
    unfold execCsrWrite at e
    rw [if_pos (show permitted (.csrWrite a v) s.coreState = true from rfl)] at e
    split at e
    · rename_i c hc
      split at e
      · split at e
        · rename_i hu
          cases e
          exact ⟨.ok, 0, rfl, .inr ⟨hu, _, _, rfl⟩, .inl (by simp [respond]), rfl, .inl rfl, .inr ⟨.inl (by simp), rfl⟩⟩
        · exact Quietly.of_csrFailure e
      · split at e
        · rename_i hce
          cases e
          refine ⟨.ok, 0, rfl, .inl rfl, .inr ⟨v, ?_⟩, errAfterWrite_fatal _ _, .inl rfl, .inr ⟨.inl (by simp), rfl⟩⟩
          rw [Csr.ofAddr_some hc, hce]; rfl
        · exact Quietly.of_csrFailure e
    · exact Quietly.of_csrFailure e
  | rxCancel =>
    refine .inr (.inr ⟨by simp, by simp, ?_⟩)
    unfold exec execRxCancel at e
    by_cases h : s.coreState = .run
    · rw [if_pos (by simp [permitted, h])] at e
      cases e
      exact ⟨.ok, 0, rfl, .inl rfl, .inl (by simp [respond, sdReset]), rfl, .inr ⟨rfl, h⟩, .inr ⟨.inl (by simp), rfl⟩⟩
    · rw [if_neg (by simp [permitted, h])] at e
      exact Quietly.of_wrongState e

/-- The induction over a run of commands, packaged once: a reflexive and transitive relation that every command keeps,
every run keeps. -/
theorem execAll_rel {R : State → State → Prop} (refl : ∀ s, R s s) (trans : ∀ s t u, R s t → R t u → R s u)
    (one : ∀ i s t, exec i s = .next t → R s t) (cmds : List Instr) {s t : State} (e : execAll cmds s = .next t) :
    R s t := by
  induction cmds generalizing s with
  | nil => cases e; exact refl _
  | cons i rest ih =>
    obtain ⟨u, e1, e2⟩ := (andThen_eq_next _ _ _).mp e
    exact trans _ _ _ (one _ _ _ e1) (ih e2)

end Sys2Proof.Machine
end

