-- ==== Sys2Proof/Laws/Decode.lean ====
section
/-! SUPPORT. The fields of a word and the word of given fields (30_encoding.md R111) undo each other. -/

namespace Sys2Proof

@[simp] theorem fieldsOf_wordOf (f : CommandFields) : fieldsOf (wordOf f) = f := by
  obtain ⟨op, sel, rsv, data⟩ := f
  simp only [fieldsOf, wordOf, CommandFields.mk.injEq]
  refine ⟨?_, ?_, ?_, ?_⟩ <;> apply BitVec.eq_of_getLsbD_eq <;> intro k hk <;>
    simp only [BitVec.getLsbD_append, BitVec.getLsbD_extractLsb']
  · simp [hk, show ¬ 56 + k < 32 by omega, show ¬ 56 + k - 32 < 16 by omega, show ¬ 56 + k - 32 - 16 < 8 by omega,
      show 56 + k - 32 - 16 - 8 = k by omega]
  · simp [hk, show ¬ 48 + k < 32 by omega, show ¬ 48 + k - 32 < 16 by omega,
      show 48 + k - 32 - 16 = k by omega]
  · simp [hk, show ¬ 32 + k < 32 by omega]
  · simp [hk]

@[simp] theorem wordOf_fieldsOf (w : CommandWord) : wordOf (fieldsOf w) = w := by
  simp only [fieldsOf, wordOf]
  apply BitVec.eq_of_getLsbD_eq
  intro k hk
  simp only [BitVec.getLsbD_append, BitVec.getLsbD_extractLsb']
  split
  · simp [*]
  · split
    · simp [*]; rw [show 32 + (k - 32) = k by omega]; exact BitVec.getLsbD_eq_getElem _
    · split
      · simp [*]; rw [show 48 + (k - 32 - 16) = k by omega]; exact BitVec.getLsbD_eq_getElem _
      · simp; rw [show 56 + (k - 32 - 16 - 8) = k by omega]; simp; omega

theorem wordOf_inj (f g : CommandFields) : wordOf f = wordOf g ↔ f = g :=
  ⟨fun h => by rw [← fieldsOf_wordOf f, h, fieldsOf_wordOf], fun h => h ▸ rfl⟩

end Sys2Proof
end

