-- ==== Sys2Proof/Laws/Receive.lean ====
section
/-! SUPPORT. What the sink delivery (40_streambuffer.md R148), one accepted byte (43_rxdeframer.md R236) and the payload
loop (R235, R237) can do, each said once. -/

namespace Sys2Proof.Machine

/-! ### The sink delivery -/

/-- What a sink delivery from `s`, RXB holding `l`, leaves in `t` after `k` bytes were written. -/
structure Delivered (s : State) (l : List Byte) (k : Nat) (tail : List Event) (t : State) : Prop where
  frame : t = { s with rxb := t.rxb, env := t.env }
  holds : Holds t.rxb (l.drop k)
  bound : k ≤ l.length
  trace : t.env.trace = s.env.trace ++ (l.take k).flatMap deliverEvents ++ tail
  last : (k = l.length ∧ tail = []) ∨ (k < l.length ∧ tail = [.sinkReady false])

theorem sbDeliverLoop_holds {s : State} {l : List Byte} (h : Holds s.rxb l)
    (hd : l.length ≤ s.params.rxbDepthMax.toNat) :
    ∃ k tail t, sbDeliverLoop l.length s = .next t ∧ Delivered s l k tail t := by
  induction l generalizing s with
  | nil => exact ⟨0, [], s, rfl, rfl, h, by simp, by simp, .inl ⟨rfl, rfl⟩⟩
  | cons x l ih =>
    rw [List.length_cons]
    unfold sbDeliverLoop
    simp only
    cases hv : s.env.flag with
    | false =>
      rw [if_neg (by simp [askSinkReady, hv])]
      exact ⟨0, [.sinkReady false], _, rfl, rfl, h, by simp, by simp [askSinkReady, hv], .inr ⟨by simp, rfl⟩⟩
    | true =>
      rw [if_pos (by simp [askSinkReady, hv])]
      obtain ⟨r, e, o⟩ := sbTake_holds (b := .rxb) (s := (askSinkReady s).2) (l := x :: l) 1 h (by simp) hd
      rw [e]
      have o' : Holds r l := by simpa using o
      simp only [andThen_next, BitVec.ofNat_eq_ofNat, BitVec.toNat_ofNat, Nat.reducePow, Nat.one_mod, List.take_succ_cons,
        List.take_zero, List.headD_cons]
      obtain ⟨k, tail, t, e2, d⟩ := ih (s := doSinkWrite x (((askSinkReady s).2).setBuf .rxb r)) o'
        (by simp [doSinkWrite, askSinkReady] at hd ⊢; omega)
      refine ⟨k + 1, tail, t, e2, ?_⟩
      obtain ⟨d1, d2, d3, d4, d5⟩ := d
      refine ⟨d1.trans rfl, by simpa using d2, by simpa using d3, ?_, by simpa using d5⟩
      rw [d4]; simp [doSinkWrite, askSinkReady, deliverEvents, hv]

/-! ### One accepted byte -/

/-- The configuration of RXB is sound: the premises a running receiver meets (45_host_commands.md R307). -/
structure RxbReady (s : State) : Prop where
  room : 1 ≤ s.cfg.capRxBytes.toNat
  depth : s.cfg.capRxBytes.toNat ≤ s.params.rxbDepthMax.toNat
  policy : s.cfg.policy ≠ .reserved

/-- What accepting a byte from `s`, RXB holding `l`, leaves in `t`: `l'` is what RXB holds once the byte is appended,
`o` is 1 if that was an overrun, `k` bytes are then delivered. -/
structure Accepted (s : State) (l : List Byte) (x : Byte) (l' : List Byte) (o k : Nat) (tail : List Event) (t : State) :
    Prop where
  frame : t = { s with
    rxb := t.rxb, env := t.env, err := if o = 0 then s.err else s.err ||| Cause.rxOverrun.mask,
    counters := { s.counters with ovrRx := s.counters.ovrRx + BitVec.ofNat 32 o } }
  kept : (l' = l ++ [x] ∧ o = 0) ∨
    (l.length = s.cfg.capRxBytes.toNat ∧ o = 1 ∧ l'.length = l.length ∧ (l' = l ∨ l' = l.drop 1 ++ [x]))
  fits : l'.length ≤ s.cfg.capRxBytes.toNat
  holds : Holds t.rxb (l'.drop k)
  bound : k ≤ l'.length
  trace : t.env.trace = s.env.trace ++ (l'.take k).flatMap deliverEvents ++ tail
  last : (k = l'.length ∧ tail = []) ∨ (k < l'.length ∧ tail = [.sinkReady false])

theorem rxAccept_holds {s : State} {l : List Byte} (x : Byte) (h : Holds s.rxb l)
    (hc : l.length ≤ s.cfg.capRxBytes.toNat) (ok : RxbReady s) :
    ∃ l' o k tail t, rxAccept x s = .next t ∧ Accepted s l x l' o k tail t := by
  have hlen : ∀ {r : StreamBuffer} {m : List Byte}, Holds r m → r.pending.toNat = m.length := fun hh => hh.length.symm
  rcases sbAppend_holds (b := .rxb) (s := s) x h hc ok.room ok.depth ok.policy with
    ⟨hlt, r, e, hr⟩ | ⟨heq, a, r, l', e, -, hr, hl', hcase⟩
  · obtain ⟨k, tail, t, e2, d⟩ := sbDeliverLoop_holds (s := s.setBuf .rxb r) (l := l ++ [x]) hr
      (by have := ok.depth; simp [State.capacity] at hlt ⊢; omega)
    refine ⟨l ++ [x], 0, k, tail, t, ?_, ?_⟩
    · unfold rxAccept sbDeliverToSink
      rw [e, andThen_next]
      show sbDeliverLoop (r.pending.toNat) _ = _
      rw [hlen hr]; exact e2
    · obtain ⟨d1, d2, d3, d4, d5⟩ := d
      refine ⟨?_, .inl ⟨rfl, rfl⟩, by simp [State.capacity] at hlt ⊢; omega, d2, d3, d4, d5⟩
      refine d1.trans ?_
      simp [State.setBuf, State.setRxb]
  · obtain ⟨k, tail, t, e2, d⟩ := sbDeliverLoop_holds (s := (raise .rxOverrun s).setBuf .rxb r) (l := l') hr
      (by have := ok.depth; simp; omega)
    refine ⟨l', 1, k, tail, t, ?_, ?_⟩
    · unfold rxAccept sbDeliverToSink
      rw [e, andThen_next]
      show sbDeliverLoop (r.pending.toNat) _ = _
      rw [hlen hr]; exact e2
    · obtain ⟨d1, d2, d3, d4, d5⟩ := d
      refine ⟨d1.trans rfl, .inr ⟨heq, rfl, hl', hcase⟩, by omega, d2, d3, d4, d5⟩

/-- What was sent and what is still held are, in order, some of what was held and the byte accepted; the rest was
overrun. -/
theorem Accepted.sublist {s t : State} {l l' : List Byte} {x : Byte} {o k : Nat} {tail : List Event}
    (a : Accepted s l x l' o k tail t) :
    (l'.take k ++ l'.drop k).Sublist (l ++ [x]) ∧ (l ++ [x]).length = (l'.take k ++ l'.drop k).length + o := by
  rw [List.take_append_drop]
  rcases a.kept with ⟨rfl, rfl⟩ | ⟨-, rfl, hl, rfl | rfl⟩
  · simp
  · simp
  · exact ⟨(List.drop_sublist 1 l).append (List.Sublist.refl _), by simp at hl ⊢; omega⟩

/-! ### The payload loop -/

/-- What a run of the payload loop from `s`, with `left` bytes of the frame to be read and RXB holding `l`, leaves in
`t`: `evs` its events, `reads` the bytes read, `sent` the bytes delivered, `rest` what RXB holds, `o` the overruns. -/
structure Received (now : Word) (left : Nat) (s : State) (l reads sent rest : List Byte) (o : Nat) (evs : List Event)
    (t : State) : Prop where
  frame : t = { s with
    rxb := t.rxb, env := t.env, err := t.err, rx := t.rx, arb := t.arb,
    counters := { s.counters with ovrRx := s.counters.ovrRx + BitVec.ofNat 32 o, framesRx := t.counters.framesRx } }
  err : t.err = if o = 0 then s.err else s.err ||| Cause.rxOverrun.mask
  holds : Holds t.rxb rest
  fits : rest.length ≤ s.cfg.capRxBytes.toNat
  kept : (sent ++ rest).Sublist (l ++ reads)
  lost : (l ++ reads).length = (sent ++ rest).length + o
  trace : t.env.trace = s.env.trace ++ evs
  read : radioReads evs = reads
  wrote : sinkWrites evs = sent
  queries : (notEmptiesAsked evs).length ≤ left
  noPoll : modeReadiesAsked evs = [] ∧ timesAsked evs = []
  ready : (∀ b ∈ readiesAsked evs, b = true) → l = [] → rest = [] ∧ o = 0
  ending : (reads.length < left ∧ t.rx = { s.rx with remaining := s.rx.remaining - BitVec.ofNat 24 reads.length } ∧
      t.arb = s.arb ∧ t.counters.framesRx = s.counters.framesRx ∧ modesSet evs = []) ∨
    (reads.length = left ∧ t.counters.framesRx = s.counters.framesRx + 1 ∧
      ((s.cfg.rxIdleCycle = false ∧ t.arb = s.arb ∧ modesSet evs = [] ∧
          t.rx = { s.rx with remaining := 0, sync := .searching, tLink := now }) ∨
        (s.cfg.rxIdleCycle = true ∧ t.arb = { s.arb with req := .idle, pending := true, tReq := now } ∧
          modesSet evs = [.idle] ∧
          t.rx = { s.rx with remaining := 0, sync := .searching, tLink := now, phase := .cycleIdle })))

/-- The payload loop of a running receiver always completes, and leaves what `Received` says. -/
theorem rxPayloadLoop_holds (now : Word) (left : Nat) {s : State} {l : List Byte} (h : Holds s.rxb l)
    (hc : l.length ≤ s.cfg.capRxBytes.toNat) (ok : RxbReady s) (hr : s.rx.remaining.toNat = left) (h1 : 1 ≤ left)
    (hm : s.arb.pending = false ∧ s.arb.cur = .rx) :
    ∃ reads sent rest o evs t, rxPayloadLoop now left s = .next t ∧ Received now left s l reads sent rest o evs t := by
  induction left generalizing s l with
  | zero => omega
  | succ left ih =>
    unfold rxPayloadLoop
    simp only
    cases hv : s.env.flag with
    | false =>
      rw [if_neg (by simp [askFifoNotEmpty, hv])]
      exact ⟨[], [], l, 0, [.radioFifoNotEmpty false], _, rfl, by simp [askFifoNotEmpty, askFlag, State.setEnv], by simp [askFifoNotEmpty],
        h, hc, by simp, by simp, by simp [askFifoNotEmpty, hv], rfl, rfl, by simp [notEmptiesAsked], ⟨rfl, rfl⟩, by simp,
        .inl ⟨by simp, by simp [askFifoNotEmpty], rfl, rfl, rfl⟩⟩
    | true =>
      rw [if_pos (by simp [askFifoNotEmpty, hv])]
      generalize hx : (askRadioRead (askFifoNotEmpty s).2).1 = x
      generalize hs1 : ((askRadioRead (askFifoNotEmpty s).2).2.setRemaining ((askRadioRead (askFifoNotEmpty s).2).2.rx.remaining - 1)) = s1
      have e1 : s1 = { s with env := s1.env, rx := { s.rx with remaining := s.rx.remaining - 1 } } := by rw [← hs1]; rfl
      have et : s1.env.trace = s.env.trace ++ [.radioFifoNotEmpty true, .radioRead Config.dummyByte x] := by
        rw [← hs1, ← hx]; simp [askRadioRead, askFifoNotEmpty, hv]
      have hcfg : s1.cfg = s.cfg := by rw [e1]
      have hrxb : s1.rxb = s.rxb := by rw [e1]
      have hpar : s1.params = s.params := by rw [e1]
      have harb : s1.arb = s.arb := by rw [e1]
      have hrx : s1.rx = { s.rx with remaining := s.rx.remaining - 1 } := by rw [e1]
      have hrem : (s.rx.remaining - 1).toNat = left := by
        rw [BitVec.toNat_sub_of_le (by rw [BitVec.le_def]; simp; omega)]; simp; omega
      obtain ⟨l', o, k, tail, u, e2, a⟩ := rxAccept_holds (s := s1) (l := l) x (by rw [hrxb]; exact h)
        (by rw [hcfg]; exact hc) ⟨by rw [hcfg]; exact ok.room, by rw [hcfg, hpar]; exact ok.depth, by rw [hcfg]; exact ok.policy⟩
      have hsub := a.sublist
      obtain ⟨a1, a2, a3, a4, a5, a6, a7⟩ := a
      have hready : (∀ b ∈ readiesAsked tail, b = true) → l = [] → k = l'.length ∧ o = 0 := by
        intro hb hl
        constructor
        · rcases a7 with ⟨h7, -⟩ | ⟨-, h7⟩
          · exact h7
          · have := hb false (by rw [h7]; simp [readiesAsked]); cases this
        · rcases a2 with ⟨-, h2⟩ | ⟨h2, -⟩
          · exact h2
          · have := ok.room; rw [hl, hcfg] at h2; simp at h2; omega
      have htail : notEmptiesAsked tail = [] ∧ radioReads tail = [] ∧ sinkWrites tail = [] ∧ modesSet tail = [] ∧
          modeReadiesAsked tail = [] ∧ timesAsked tail = [] := by
        rcases a7 with ⟨-, rfl⟩ | ⟨-, rfl⟩ <;> exact ⟨rfl, rfl, rfl, rfl, rfl, rfl⟩
      obtain ⟨ht1, ht2, ht3, ht4, ht5, ht6⟩ := htail
      rw [e2, andThen_next]
      have ucfg : u.cfg = s.cfg := by rw [a1]; exact hcfg
      have upar : u.params = s.params := by rw [a1]; exact hpar
      have uarb : u.arb = s.arb := by rw [a1]; exact harb
      have urx : u.rx = { s.rx with remaining := s.rx.remaining - 1 } := by rw [a1]; exact hrx
      have utr : u.env.trace = s.env.trace ++ ([.radioFifoNotEmpty true, .radioRead Config.dummyByte x] ++
          (l'.take k).flatMap deliverEvents ++ tail) := by rw [a6, et]; simp
      have ufr : u = { s with
          rxb := u.rxb, env := u.env, err := u.err, rx := u.rx,
          counters := { s.counters with ovrRx := s.counters.ovrRx + BitVec.ofNat 32 o } } := by
        rw [urx]
        obtain ⟨ev, rfl⟩ : ∃ ev, s1 = { s with env := ev, rx := { s.rx with remaining := s.rx.remaining - 1 } } := ⟨_, e1⟩
        have herr : u.err = if o = 0 then s.err else s.err ||| Cause.rxOverrun.mask := by rw [a1]
        rw [herr]
        exact a1
      have uerr : u.err = if o = 0 then s.err else s.err ||| Cause.rxOverrun.mask := by
        have : s1.err = s.err := by rw [e1]
        rw [a1, ← this]
      have ucnt : u.counters = { s.counters with ovrRx := s.counters.ovrRx + BitVec.ofNat 32 o } := by
        have : s1.counters = s.counters := by rw [e1]
        rw [a1, ← this]
      rw [hcfg] at a3
      by_cases h0 : left = 0
      · subst h0
        rw [if_pos (by rw [urx]; exact BitVec.eq_of_toNat_eq hrem)]
        have base : ∀ (t : State) (evs : List Event) (c : Bool), s.cfg.rxIdleCycle = c →
            t = { u with env := t.env, rx := t.rx, arb := t.arb, counters := { u.counters with framesRx := u.counters.framesRx + 1 } } →
            t.env.trace = u.env.trace ++ evs → (c = false ∧ evs = [] ∨ c = true ∧ evs = [.radioSetMode .idle]) →
            t.arb = (if c then { s.arb with req := .idle, pending := true, tReq := now } else s.arb) →
            t.rx = { s.rx with remaining := 0, sync := .searching, tLink := now, phase := (if c then .cycleIdle else s.rx.phase) } →
            ∃ reads sent rest o evs, Received now 1 s l reads sent rest o evs t := by
          intro t evs c hcyc ht htr hevs harb' hrx'
          refine ⟨[x], l'.take k, l'.drop k, o, [.radioFifoNotEmpty true, .radioRead Config.dummyByte x] ++
            (l'.take k).flatMap deliverEvents ++ tail ++ evs, ?_⟩
          have tt : t.rxb = u.rxb := by rw [ht]
          have te : t.err = u.err := by rw [ht]
          refine ⟨?_, by rw [te, uerr], by rw [tt]; exact a4, by simp; omega, hsub.1, hsub.2, by rw [htr, utr]; simp, ?_, ?_, ?_, ?_, ?_, .inr ⟨rfl, ?_, ?_⟩⟩
          · have : t.counters = { s.counters with ovrRx := s.counters.ovrRx + BitVec.ofNat 32 o, framesRx := t.counters.framesRx } := by
              rw [ht]; simp [ucnt]
            rw [ht] at this ⊢
            rw [ufr]
          · rcases hevs with ⟨-, rfl⟩ | ⟨-, rfl⟩ <;> simp [ht2]
          · rcases hevs with ⟨-, rfl⟩ | ⟨-, rfl⟩ <;> simp [ht3]
          · rcases hevs with ⟨-, rfl⟩ | ⟨-, rfl⟩ <;> simp [ht1]
          · rcases hevs with ⟨-, rfl⟩ | ⟨-, rfl⟩ <;> simp [ht5, ht6]
          · intro hb hl
            obtain ⟨hk, ho⟩ := hready (fun b hb' => hb b (by simp [hb'])) hl
            exact ⟨by simp [hk], ho⟩
          · rw [ht]; simp [ucnt]
          · cases c with
            | false =>
              refine .inl ⟨hcyc, by simpa using harb', ?_, by rw [hrx', if_neg (by simp)]⟩
              rcases hevs with ⟨-, rfl⟩ | ⟨h, -⟩
              · simp [ht4]
              · cases h
            | true =>
              refine .inr ⟨hcyc, by simpa using harb', ?_, by rw [hrx', if_pos rfl]⟩
              rcases hevs with ⟨h, -⟩ | ⟨-, rfl⟩
              · cases h
              · simp [ht4]
        have hz : s.rx.remaining - 1#24 = 0#24 := BitVec.eq_of_toNat_eq hrem
        unfold rxFrameComplete
        simp only [State.setTLink_cfg, sdReset, State.setSync_cfg, State.countFrameRx_cfg, ucfg]
        cases hcyc : s.cfg.rxIdleCycle with
        | false =>
          rw [if_neg (by simp)]
          obtain ⟨reads, sent, rest, o, evs, got⟩ := base [] false hcyc (t := (((u.countFrameRx).setSync .searching).setTLink now))
            (by rfl) (by simp) (.inl ⟨rfl, rfl⟩) (by simp [uarb]) (by simp [State.setTLink, State.setSync, State.setRx, State.countFrameRx, State.setCounters, urx, hz])
          exact ⟨reads, sent, rest, o, evs, _, rfl, got⟩
        | true =>
          rw [if_pos rfl]
          obtain ⟨reads, sent, rest, o, evs, got⟩ := base [.radioSetMode .idle] true hcyc (t := ((doSetMode .idle (((u.countFrameRx).setSync .searching).setTLink now)).setArb { u.arb with req := .idle, pending := true, tReq := now }).setRxPhase .cycleIdle)
            (by rfl) (by simp [doSetMode]) (.inr ⟨rfl, rfl⟩) (by simp [uarb]) (by simp [State.setTLink, State.setSync, State.setRx, State.countFrameRx, State.setCounters, urx, hz, State.setRxPhase, doSetMode, act, State.setArb, State.setEnv])
          refine ⟨reads, sent, rest, o, evs, _, ?_, got⟩
          unfold requestAndEnter requestMode
          rw [if_pos (by simp [uarb, hm])]
          rfl
      · rw [if_neg (by rw [urx]; intro hh; simp at hh; have := congrArg BitVec.toNat hh; simp at hrem this; omega)]
        obtain ⟨reads, sent, rest, o2, evs, t, e3, d⟩ := ih (s := u) (l := l'.drop k) a4 (by rw [ucfg]; simp; omega)
          ⟨by rw [ucfg]; exact ok.room, by rw [ucfg, upar]; exact ok.depth, by rw [ucfg]; exact ok.policy⟩
          (by rw [urx]; exact hrem) (by omega) (by rw [uarb]; exact hm)
        obtain ⟨d1, d2, d3, d4, d5, d6, d7, d8, d9, d10, d11, d12, d13⟩ := d
        refine ⟨x :: reads, l'.take k ++ sent, rest, o + o2, [.radioFifoNotEmpty true, .radioRead Config.dummyByte x] ++
            (l'.take k).flatMap deliverEvents ++ tail ++ evs, t, e3, ?_⟩
        have cadd : s.counters.ovrRx + BitVec.ofNat 32 o + BitVec.ofNat 32 o2 = s.counters.ovrRx + BitVec.ofNat 32 (o + o2) := by
          rw [BitVec.ofNat_add, BitVec.add_assoc]
        refine ⟨?_, ?_, d3, by rw [ucfg] at d4; exact d4, ?_, ?_, by rw [d7, utr]; simp, ?_, ?_, ?_, ?_, ?_, ?_⟩
        · refine d1.trans ?_
          rw [ufr]
          simp [cadd]
        · rw [d2, uerr]
          by_cases ho : o = 0 <;> by_cases ho2 : o2 = 0 <;> simp [ho, ho2, BitVec.or_assoc]
        · have := hsub.1
          rw [List.append_assoc]
          have h2 := (List.Sublist.refl (l'.take k)).append d5
          have h3 := this.append (List.Sublist.refl reads)
          simp only [List.append_assoc] at h2 h3 ⊢
          exact h2.trans (by simpa using h3)
        · have := hsub.2
          simp at this d6 ⊢; omega
        · simp [ht2, d8]
        · simp [ht3, d9]
        · simp [ht1]; omega
        · simp [ht5, ht6, d11]
        · intro hb hl
          obtain ⟨hk, ho⟩ := hready (fun b hb' => hb b (by simp [hb'])) hl
          obtain ⟨h3, h4⟩ := d12 (fun b hb' => hb b (by simp [hb'])) (by simp [hk])
          exact ⟨h3, by omega⟩
        · have hne : ∀ (z : List Event), modesSet ([.radioFifoNotEmpty true, .radioRead Config.dummyByte x] ++
            (l'.take k).flatMap deliverEvents ++ tail ++ z) = modesSet z := by intro z; simp [ht4]
          rw [hne]
          rw [urx, uarb, ucnt, ucfg] at d13
          rcases d13 with ⟨g1, g2, g3, g4, g5⟩ | ⟨g1, g2, g3⟩
          · refine .inl ⟨by simpa using g1, ?_, g3, g4, g5⟩
            rw [g2]
            have : s.rx.remaining - 1#24 - BitVec.ofNat 24 reads.length =
                s.rx.remaining - BitVec.ofNat 24 (reads.length + 1) := by
              rw [BitVec.ofNat_add]; bv_omega
            simp [this]
          · exact .inr ⟨by simpa using g1, g2, g3⟩

end Sys2Proof.Machine
end

