-- ==== Sys2Proof/Laws/RxStep.lean ====
section
/-! SUPPORT. What one RxDeframer step (43_rxdeframer.md R230) of a running receiver can do. -/

namespace Sys2Proof.Machine

/-- A mode request whose precondition holds (44_mode_scheduler.md R270). -/
theorem requestMode_free {m : RadioMode} {s : State} (now : Word) (hp : s.arb.pending = false) (hm : m ≠ s.arb.cur) :
    requestMode m now s = .next ((doSetMode m s).setArb { s.arb with req := m, pending := true, tReq := now }) := by
  unfold requestMode; rw [if_pos ⟨hp, hm⟩]

@[simp] theorem sdReset_eq (s : State) : sdReset s = s.setSync .searching := rfl

/-- What feeding a byte to the detector writes (43_rxdeframer.md R234). -/
theorem rxFeed_eq (b : Byte) (s : State) :
    rxFeed b s = { s with
      rx := { s.rx with
        sync := (sdFeed s.cfg.sync0 s.cfg.sync1 s.rx.sync b).1
        remaining := if (sdFeed s.cfg.sync0 s.cfg.sync1 s.rx.sync b).1 = .locked then s.cfg.n else s.rx.remaining }
      err := if (sdFeed s.cfg.sync0 s.cfg.sync1 s.rx.sync b).2 = true then s.err ||| Cause.syncLoss.mask else s.err
      counters := { s.counters with syncLoss := s.counters.syncLoss +
        if (sdFeed s.cfg.sync0 s.cfg.sync1 s.rx.sync b).2 = true then 1 else 0 } } := by
  unfold rxFeed
  generalize sdFeed s.cfg.sync0 s.cfg.sync1 s.rx.sync b = d
  obtain ⟨d1, d2⟩ := d
  by_cases h1 : d1 = .locked <;> cases d2 <;> simp only [h1, if_true, if_false, Bool.false_eq_true] <;>
    simp [State.setRemaining, State.setSync, State.setRx, raise, State.setErr, State.setCounters, Cause.count]

/-! ### The radio bytes as one stream -/

theorem deframe_locked (c : ConfigRegs) (rem : Nat) (l : List Byte) (h1 : 1 ≤ rem) (h : l.length ≤ rem) :
    deframe c .locked rem l =
      if l.length = rem then ⟨l, .searching, 0, 1⟩ else ⟨l, .locked, rem - l.length, 0⟩ := by
  induction l generalizing rem with
  | nil => rw [if_neg (by simp; omega)]; rfl
  | cons b l ih =>
    simp only [List.length_cons] at h ⊢
    by_cases hr : rem ≤ 1
    · have : l = [] := List.length_eq_zero_iff.mp (by omega)
      subst this
      have : rem = 1 := by omega
      subst this; rfl
    · rw [deframe, if_pos rfl]
      simp only [hr, if_false, Nat.add_zero]
      rw [ih (rem - 1) (by omega) (by omega)]
      by_cases he : l.length = rem - 1
      · rw [if_pos he, if_pos (by omega)]
      · rw [if_neg he, if_neg (by omega)]
        have : rem - 1 - l.length = rem - (l.length + 1) := by omega
        rw [this]

/-- Reading the stream in two parts is reading it whole. -/
theorem deframe_append (c : ConfigRegs) (st : SyncState) (rem : Nat) (a b : List Byte) :
    deframe c st rem (a ++ b) =
      ⟨(deframe c st rem a).payload ++ (deframe c (deframe c st rem a).sync (deframe c st rem a).remaining b).payload,
        (deframe c (deframe c st rem a).sync (deframe c st rem a).remaining b).sync,
        (deframe c (deframe c st rem a).sync (deframe c st rem a).remaining b).remaining,
        (deframe c st rem a).frames + (deframe c (deframe c st rem a).sync (deframe c st rem a).remaining b).frames⟩ := by
  induction a generalizing st rem with
  | nil => simp [deframe]
  | cons x a ih =>
    rw [List.cons_append, deframe, deframe]
    split
    · simp only
      split
      · rw [ih]; simp; omega
      · rw [ih]; simp
    · simp only
      rw [ih]

/-- The premises of a running receiver's phase (c). -/
structure RxReady (s : State) (l : List Byte) : Prop where
  holds : Holds s.rxb l
  fits : l.length ≤ s.cfg.capRxBytes.toNat
  buffer : RxbReady s
  size : 1 ≤ s.cfg.n.toNat
  running : RxRunning s
  settled : s.arb.pending = false → s.arb.req = s.arb.cur

/-- What one RxDeframer step of a running receiver, RXB holding `l`, leaves in `t`: `fed` the bytes fed to the detector,
`reads` the payload bytes read, `sent` the bytes delivered, `rest` what RXB holds, `o` the overruns, `evs` its events. -/
structure RxStepped (now : Word) (s : State) (l fed reads sent rest : List Byte) (o : Nat) (evs : List Event)
    (t : State) : Prop where
  frame : t = { s with
    rxb := t.rxb, env := t.env, err := t.err, rx := t.rx, arb := t.arb,
    counters := { s.counters with
      ovrRx := s.counters.ovrRx + BitVec.ofNat 32 o, framesRx := t.counters.framesRx, linkTo := t.counters.linkTo,
      syncLoss := t.counters.syncLoss } }
  holds : Holds t.rxb rest
  fits : rest.length ≤ s.cfg.capRxBytes.toNat
  kept : (sent ++ rest).Sublist (l ++ reads)
  lost : (l ++ reads).length = (sent ++ rest).length + o
  trace : t.env.trace = s.env.trace ++ evs
  read : radioReads evs = fed ++ reads
  wrote : sinkWrites evs = sent
  one : fed.length ≤ 1
  unlocked : fed ≠ [] → s.rx.sync ≠ .locked
  due : reads.length ≤ payloadDue s fed
  count : t.counters.framesRx = s.counters.framesRx +
    if payloadDue s fed ≠ 0 ∧ reads.length = payloadDue s fed then 1 else 0
  stream : s.cfg.linkTo = 0 → deframe s.cfg s.rx.sync s.rx.remaining.toNat (fed ++ reads) =
    ⟨reads, t.rx.sync, t.rx.remaining.toNat, if payloadDue s fed ≠ 0 ∧ reads.length = payloadDue s fed then 1 else 0⟩
  flagged : o ≠ 0 → t.err.getLsbD 3 = true
  queries : (notEmptiesAsked evs).length ≤ s.cfg.n.toNat + 1
  noOther : modeReadiesAsked evs = [] ∧ timesAsked evs = []
  ready : (∀ b ∈ readiesAsked evs, b = true) → l = [] → rest = [] ∧ o = 0
  running : RxRunning t
  settled : t.arb.pending = false → t.arb.req = t.arb.cur
  cur : t.arb.cur = s.arb.cur
  own : radioReads evs ≠ [] → s.arb.cur = .rx ∧ s.arb.pending = false
  modes : (t.arb = s.arb ∧ modesSet evs = []) ∨ ∃ m, m ≠ .tx ∧ s.arb.pending = false ∧ modesSet evs = [m] ∧
    t.arb = { s.arb with req := m, pending := true, tReq := now }

theorem payloadDue_nil {s : State} (h : s.rx.sync ≠ .locked) : payloadDue s [] = 0 := by
  simp [payloadDue, h, sdRun]

theorem payloadDue_locked {s : State} (h : s.rx.sync = .locked) (fed : List Byte) :
    payloadDue s fed = s.rx.remaining.toNat := by simp [payloadDue, h]

theorem payloadDue_fed {s : State} (h : s.rx.sync ≠ .locked) (b : Byte) :
    payloadDue s [b] = if (sdFeed s.cfg.sync0 s.cfg.sync1 s.rx.sync b).1 = .locked then s.cfg.n.toNat else 0 := by
  unfold payloadDue; rw [if_neg h]; rfl

/-- A step that reads nothing, and whose state and events are these. -/
theorem RxStepped.quiet {now : Word} {s t : State} {l : List Byte} {evs : List Event} (ok : RxReady s l)
    (hs : s.rx.sync ≠ .locked)
    (hf : t = { s with env := t.env, rx := t.rx, arb := t.arb })
    (hx : t.rx.sync = s.rx.sync ∧ t.rx.remaining = s.rx.remaining) (ht : t.env.trace = s.env.trace ++ evs)
    (h1 : radioReads evs = []) (h2 : sinkWrites evs = []) (h3 : (notEmptiesAsked evs).length ≤ s.cfg.n.toNat + 1)
    (h4 : modeReadiesAsked evs = [] ∧ timesAsked evs = [])
    (hr : RxRunning t) (hq : t.arb.pending = false → t.arb.req = t.arb.cur) (hc : t.arb.cur = s.arb.cur)
    (hm : (t.arb = s.arb ∧ modesSet evs = []) ∨ ∃ m, m ≠ .tx ∧ s.arb.pending = false ∧ modesSet evs = [m] ∧
      t.arb = { s.arb with req := m, pending := true, tReq := now }) :
    RxStepped now s l [] [] [] l 0 evs t := by
  have hb : t.rxb = s.rxb := by rw [hf]
  refine ⟨?_, by rw [hb]; exact ok.holds, ok.fits, by simp, by simp, ht, h1, h2, by simp, by simp, by simp, ?_, ?_, by simp, h3, h4, ?_,
    hr, hq, hc, by simp [h1], hm⟩
  · have he : t.err = s.err := by rw [hf]
    have hk : t.counters = s.counters := by rw [hf]
    rw [he, hk, hb]
    refine hf.trans ?_
    simp
  · have hk : t.counters = s.counters := by rw [hf]
    rw [hk, payloadDue_nil hs]; simp
  · intro _
    rw [payloadDue_nil hs, hx.1, hx.2]; simp [deframe]
  · exact fun _ h => ⟨h, rfl⟩

/-- Reading in Rx mode, RX_ACTIVE (43_rxdeframer.md R233). -/
theorem rxActive_holds (now : Word) {s : State} {l : List Byte} (ok : RxReady s l) (hph : s.rx.phase = .active) :
    ∃ fed reads sent rest o evs t, rxActive now s = .next t ∧ RxStepped now s l fed reads sent rest o evs t := by
  have run := ok.running
  have hm : s.arb.pending = false ∧ s.arb.cur = .rx := by
    have := run.modes; unfold RxModes at this; rw [hph] at this; exact this
  -- the payload loop, from a state that differs from `s` by the bytes fed
  have payload : ∀ (fed : List Byte) (pre : List Event) (rem : Count) (e : Environment) (er : BitVec 10) (sl : Word),
      e.trace = s.env.trace ++ pre → radioReads pre = fed → sinkWrites pre = [] → fed.length ≤ 1 →
      (notEmptiesAsked pre).length ≤ fed.length → modeReadiesAsked pre = [] → timesAsked pre = [] → readiesAsked pre = [] →
      modesSet pre = [] → (fed ≠ [] → s.rx.sync ≠ .locked) → payloadDue s fed = rem.toNat → 1 ≤ rem.toNat →
      rem ≤ s.cfg.n →
      (∀ l, deframe s.cfg s.rx.sync s.rx.remaining.toNat (fed ++ l) = deframe s.cfg .locked rem.toNat l) →
      ∃ fed reads sent rest o evs t, rxPayload now { s with
          env := e, err := er, rx := { s.rx with sync := .locked, remaining := rem },
          counters := { s.counters with syncLoss := sl } } = .next t ∧
        RxStepped now s l fed reads sent rest o evs t := by
    intro fed pre rem en er sl htr p1 p2 p3 p4 p5 p6 p7 p8 p9 p10 p11 p12 p13
    obtain ⟨reads, sent, rest, o, evs, t, e, d⟩ := rxPayloadLoop_holds now rem.toNat (s := { s with
          env := en, err := er, rx := { s.rx with sync := .locked, remaining := rem },
          counters := { s.counters with syncLoss := sl } }) (l := l)
      ok.holds ok.fits ⟨ok.buffer.room, ok.buffer.depth, ok.buffer.policy⟩ rfl p11 hm
    obtain ⟨d1, d2, d3, d4, d5, d6, d7, d8, d9, d10, d11, d12, d13⟩ := d
    simp only at d4 d13
    rw [BitVec.le_def] at p12
    refine ⟨fed, reads, sent, rest, o, pre ++ evs, t, e, ?_⟩
    have hcur : t.arb.cur = s.arb.cur := by
      rcases d13 with ⟨-, -, h, -⟩ | ⟨-, -, ⟨-, h, -⟩ | ⟨-, h, -⟩⟩ <;> rw [h]
    have tcfg : t.cfg = s.cfg := by rw [d1]
    have hle : reads.length ≤ rem.toNat := by rcases d13 with ⟨h, -⟩ | ⟨h, -⟩ <;> omega
    refine ⟨?_, d3, d4, d5, d6, by rw [d7]; simp [htr], by simp [p1, d8], by simp [p2, d9], p3,
      p9, by rw [p10]; exact hle, ?_, ?_, ?_, by simp; omega, by simp [p5, p6, d11], ?_, ?_, ?_, hcur, fun _ => ⟨hm.2, hm.1⟩, ?_⟩
    · have hl : t.counters.linkTo = s.counters.linkTo := by rw [d1]
      have hs : t.counters.syncLoss = sl := by rw [d1]
      rw [hl, hs]; exact d1
    · rw [p10]
      rcases d13 with ⟨h, -, -, h2, -⟩ | ⟨h, h2, -⟩
      · rw [h2, if_neg (by omega)]; simp
      · rw [h2, if_pos (by omega)]
    · intro _
      rw [p13, deframe_locked _ _ _ p11 hle, p10]
      rcases d13 with ⟨h, g, -⟩ | ⟨h, -, ⟨-, -, -, g⟩ | ⟨-, -, -, g⟩⟩
      · have : (rem - BitVec.ofNat 24 reads.length).toNat = rem.toNat - reads.length := by
          have := rem.isLt
          rw [BitVec.toNat_sub_of_le] <;> simp [BitVec.le_def] <;> omega
        rw [if_neg (by omega), if_neg (by omega), g, ← this]
      · rw [if_pos h, if_pos (by omega), g]; rfl
      · rw [if_pos h, if_pos (by omega), g]; rfl
    · intro ho
      rw [d2, if_neg ho, BitVec.getLsbD_or, show Cause.rxOverrun.mask.getLsbD 3 = true by decide, Bool.or_true]
    · simpa [p7] using d12
    · have hr2 : ∀ k, k ≤ rem.toNat → (rem - BitVec.ofNat 24 k).toNat = rem.toNat - k := by
        intro k hk
        have := rem.isLt
        rw [BitVec.toNat_sub_of_le] <;> simp [BitVec.le_def] <;> omega
      rcases d13 with ⟨h, g, ga, -⟩ | ⟨h, -, ⟨-, ga, -, g⟩ | ⟨hcyc, ga, -, g⟩⟩
      · have h3 := hr2 _ hle
        refine ⟨?_, ?_, ?_, ?_, by rw [g]; simp [hph]⟩
        · unfold RxModes; rw [g, ga]; simp only [hph]; exact hm
        · rw [g]; simp [hph]
        · rw [g]
          simp only [true_iff, ne_eq]
          intro hz; rw [hz] at h3; simp at h3; omega
        · rw [g, tcfg, BitVec.le_def]; simp only; omega
      · refine ⟨?_, ?_, ?_, ?_, by rw [g]; simp [hph]⟩
        · unfold RxModes; rw [g, ga]; simp only [hph]; exact hm
        · rw [g]; simp
        · rw [g]; simp
        · rw [g, tcfg, BitVec.le_def]; simp
      · refine ⟨?_, ?_, ?_, ?_, fun _ => by rw [tcfg]; exact hcyc⟩
        · unfold RxModes; rw [g, ga]; exact ⟨rfl, fun _ => hm.2⟩
        · rw [g]; simp
        · rw [g]; simp
        · rw [g, tcfg, BitVec.le_def]; simp
    · rcases d13 with ⟨-, -, h, -⟩ | ⟨-, -, ⟨-, h, -⟩ | ⟨-, h, -⟩⟩ <;> rw [h]
      · exact ok.settled
      · exact ok.settled
      · simp
    · rcases d13 with ⟨-, -, h, -, h2⟩ | ⟨-, -, ⟨-, h, h2, -⟩ | ⟨-, h, h2, -⟩⟩
      · exact .inl ⟨h, by simp [p8, h2]⟩
      · exact .inl ⟨h, by simp [p8, h2]⟩
      · exact .inr ⟨.idle, by simp, hm.1, by simp [p8, h2], h⟩
  unfold rxActive
  by_cases hl : s.rx.sync = .locked
  · simp only [hl, ne_eq, not_true_eq_false, if_false, if_true]
    have hrem := run.locked.mp hl
    have := payload [] [] s.rx.remaining s.env s.err s.counters.syncLoss (by simp) rfl rfl (by simp) (by simp) rfl rfl rfl rfl
      (by simp) (payloadDue_locked hl []) (by
        have : s.rx.remaining.toNat ≠ 0 := fun h => hrem (BitVec.eq_of_toNat_eq h)
        omega) run.atMostN (fun l => by rw [hl]; rfl)
    rw [← hl] at this
    exact this
  · simp only [ne_eq, hl, not_false_eq_true, if_true]
    have hz : s.rx.remaining = 0 := by
      by_contra h; exact hl (run.locked.mpr h)
    cases hv : s.env.flag with
    | false =>
      have hsf : rxSyncFeed s = (askFifoNotEmpty s).2 := by
        unfold rxSyncFeed; simp only; rw [if_neg (by simp [askFifoNotEmpty, hv])]
      rw [hsf, if_neg (by simpa [askFifoNotEmpty] using hl)]
      refine ⟨[], [], [], l, 0, [.radioFifoNotEmpty false], _, rfl,
        .quiet ok hl rfl ⟨rfl, rfl⟩ (by simp [askFifoNotEmpty, hv]) rfl rfl (by simp) ⟨rfl, rfl⟩ ?_ ok.settled rfl (.inl ⟨rfl, rfl⟩)⟩
      exact ⟨run.modes, run.searching, run.locked, run.atMostN, run.cycles⟩
    | true =>
      generalize hx : (askRadioRead (askFifoNotEmpty s).2).1 = x
      have etr : (askRadioRead (askFifoNotEmpty s).2).2.env.trace =
          s.env.trace ++ [.radioFifoNotEmpty true, .radioRead Config.dummyByte x] := by
        rw [← hx]; simp [askRadioRead, askFifoNotEmpty, hv]
      have hdue := payloadDue_fed hl x
      generalize hd : sdFeed s.cfg.sync0 s.cfg.sync1 s.rx.sync x = dd at hdue
      obtain ⟨d1, d2⟩ := dd
      have hsf : rxSyncFeed s = { s with
          env := (askRadioRead (askFifoNotEmpty s).2).2.env
          err := if d2 = true then s.err ||| Cause.syncLoss.mask else s.err
          rx := { s.rx with sync := d1, remaining := if d1 = .locked then s.cfg.n else s.rx.remaining }
          counters := { s.counters with syncLoss := s.counters.syncLoss + if d2 = true then 1 else 0 } } := by
        unfold rxSyncFeed; simp only; rw [if_pos (by simp [askFifoNotEmpty, hv]), rxFeed_eq, hx]
        have hd' : sdFeed (askRadioRead (askFifoNotEmpty s).2).2.cfg.sync0 (askRadioRead (askFifoNotEmpty s).2).2.cfg.sync1
          (askRadioRead (askFifoNotEmpty s).2).2.rx.sync x = (d1, d2) := hd
        rw [hd']
        rfl
      rw [hsf]
      by_cases h1 : d1 = .locked
      · subst h1
        have hN := ok.size
        obtain ⟨fed, reads, sent, rest, o, evs, t, e, d⟩ :=
          payload [x] [.radioFifoNotEmpty true, .radioRead Config.dummyByte x] s.cfg.n
          (askRadioRead (askFifoNotEmpty s).2).2.env (if d2 = true then s.err ||| Cause.syncLoss.mask else s.err)
          (s.counters.syncLoss + if d2 = true then 1 else 0)
          etr (by simp) (by simp) (by simp) (by simp) (by simp) (by simp) (by simp) (by simp) (fun _ => hl)
          (by rw [hdue, if_pos rfl]) hN (by simp) (fun l => by
            rw [List.cons_append, deframe, if_neg hl, hd]; simp)
        refine ⟨fed, reads, sent, rest, o, evs, t, ?_, d⟩
        rw [← e]
        simp only [if_true]
      · rw [if_neg (by exact h1)]
        refine ⟨[x], [], [], l, 0, [.radioFifoNotEmpty true, .radioRead Config.dummyByte x], _, rfl, ?_⟩
        refine ⟨by simp, ok.holds, ok.fits, by simp, by simp, etr, by simp, by simp, by simp, fun _ => hl, by simp, ?_, ?_, by simp, by simp,
          by simp, fun _ h => ⟨h, rfl⟩, ?_, ok.settled, rfl, fun _ => ⟨hm.2, hm.1⟩, .inl ⟨rfl, by simp⟩⟩
        · simp [hdue, h1]
        · intro _
          rw [List.append_nil, deframe, if_neg hl, hd, hdue]
          simp [h1, deframe]
        · refine ⟨?_, ?_, ?_, ?_, run.cycles⟩
          · have := run.modes
            unfold RxModes at this ⊢
            exact this
          · intro h; exact absurd hph h
          · simp [h1, hz]
          · have := run.atMostN
            simpa [h1] using this

/-- The premises do not depend on the phase alone: entering RX_ACTIVE once Rx is confirmed. -/
theorem RxReady.activate {s : State} {l : List Byte} (ok : RxReady s l) (hp : s.arb.pending = false)
    (hc : s.arb.cur = .rx) : RxReady (s.setRxPhase .active) l :=
  ⟨ok.holds, ok.fits, ⟨ok.buffer.room, ok.buffer.depth, ok.buffer.policy⟩, ok.size,
    ⟨by unfold RxModes; exact ⟨hp, hc⟩, by simp, ok.running.locked, ok.running.atMostN, by simp⟩, ok.settled⟩

/-- One arm of RX_step (43_rxdeframer.md R230). -/
theorem rxPhaseArm_holds (now : Word) {s : State} {l : List Byte} (ok : RxReady s l) :
    ∃ fed reads sent rest o evs t, rxPhaseArm now s = .next t ∧ RxStepped now s l fed reads sent rest o evs t := by
  have run := ok.running
  have modes := run.modes
  unfold RxModes at modes
  have nothing : s.rx.sync ≠ .locked → RxStepped now s l [] [] [] l 0 [] s := fun hl =>
    .quiet ok hl rfl ⟨rfl, rfl⟩ (by simp) rfl rfl (by simp) ⟨rfl, rfl⟩ run ok.settled rfl (.inl ⟨rfl, rfl⟩)
  have request : ∀ (m : RadioMode) (p : RxPhase), s.rx.phase ≠ .active → p = .waitMode → m ≠ .tx → s.arb.pending = false →
      m ≠ s.arb.cur → RxModes (((doSetMode m s).setArb { s.arb with req := m, pending := true, tReq := now }).setRxPhase p) →
      ∃ fed reads sent rest o evs t, requestAndEnter m p now s = .next t ∧ RxStepped now s l fed reads sent rest o evs t := by
    intro m p hph hpa hm hp hc hmodes
    have hsearch := run.searching hph
    refine ⟨[], [], [], l, 0, [.radioSetMode m], _, by unfold requestAndEnter; rw [requestMode_free now hp hc]; rfl, ?_⟩
    refine .quiet ok (by rw [hsearch]; simp) rfl ⟨rfl, rfl⟩ (by simp [doSetMode]) rfl rfl (by simp) ⟨rfl, rfl⟩ ⟨hmodes, ?_, ?_, ?_, by simp [hpa]⟩ (by simp) rfl
      (.inr ⟨m, hm, hp, rfl, rfl⟩)
    · intro _; exact hsearch
    · exact run.locked
    · exact run.atMostN
  unfold rxPhaseArm
  cases hph : s.rx.phase with
  | start =>
    rw [hph] at modes
    simp only [rxStart, modes.1, if_true]
    exact request .rx .waitMode (by simp [hph]) rfl (by simp) modes.1 (by simp [modes.2])
      (by unfold RxModes; simp [doSetMode, modes.2])
  | active => exact rxActive_holds now ok hph
  | cycleIdle =>
    rw [hph] at modes
    have hsearch := run.searching (by simp [hph])
    simp only [rxCycleIdle]
    by_cases hc : s.arb.pending = false ∧ s.arb.cur = .idle
    · rw [if_pos hc]
      exact request .rx .waitMode (by simp [hph]) rfl (by simp) hc.1 (by simp [hc.2])
        (by unfold RxModes; simp [doSetMode, hc.2])
    · rw [if_neg hc]
      exact ⟨[], [], [], l, 0, [], s, rfl, nothing (by rw [hsearch]; simp)⟩
  | waitMode =>
    rw [hph] at modes
    have hsearch := run.searching (by simp [hph])
    simp only [rxWaitMode]
    by_cases hc : s.arb.pending = false ∧ s.arb.cur = .rx
    · rw [if_pos hc]
      obtain ⟨fed, reads, sent, rest, o, evs, t, e, d⟩ := rxActive_holds now (ok.activate hc.1 hc.2) rfl
      refine ⟨fed, reads, sent, rest, o, evs, t, e, ?_⟩
      obtain ⟨d1, d2, d3, d4, d5, d6, d7, d8, d9, d10, d11, d12, d13, d14, d15, d16, d17, d18, d19, d20, d21, d22⟩ := d
      exact ⟨d1.trans rfl, d2, d3, d4, d5, d6, d7, d8, d9, d10, d11, d12, d13, d14, d15, d16, d17, d18, d19, d20, d21, d22⟩
    · rw [if_neg hc]
      exact ⟨[], [], [], l, 0, [], s, rfl, nothing (by rw [hsearch]; simp)⟩

/-- What the link check can do (43_rxdeframer.md R240). -/
theorem rxLinkCheck_holds (now : Word) {s : State} (run : RxRunning s) (hq : s.arb.pending = false → s.arb.req = s.arb.cur) :
    ∃ evs t, rxLinkCheck now s = .next t ∧
      t = { s with env := t.env, err := t.err, rx := t.rx, arb := t.arb, counters := { s.counters with linkTo := t.counters.linkTo } } ∧
      t.env.trace = s.env.trace ++ evs ∧ RxRunning t ∧ (t.arb.pending = false → t.arb.req = t.arb.cur) ∧
      t.arb.cur = s.arb.cur ∧ (timedOut s.cfg.linkTo now s.rx.tLink = false → t = s) ∧
      (t.err = s.err ∨ t.err = s.err ||| Cause.linkTimeout.mask) ∧
      ((t.arb = s.arb ∧ evs = []) ∨ (s.arb.pending = false ∧ evs = [.radioSetMode .idle] ∧
        t.arb = { s.arb with req := .idle, pending := true, tReq := now })) := by
  unfold rxLinkCheck
  by_cases ht : timedOut s.cfg.linkTo now s.rx.tLink = true
  · rw [if_pos ht]
    simp only
    split
    · rename_i hc
      have hph : s.rx.phase = .active := by simpa using hc.2
      have modes := run.modes
      unfold RxModes at modes
      rw [hph] at modes
      refine ⟨[.radioSetMode .idle], _, by unfold requestAndEnter; rw [requestMode_free now (by simpa using modes.1) (by simp [modes.2])]; rfl, ?_⟩
      refine ⟨rfl, by simp [doSetMode], ⟨?_, ?_, ?_, ?_, fun _ => by simpa [doSetMode] using hc.1⟩, by simp, by simp, by simp [ht], .inr rfl, .inr ⟨modes.1, rfl, by simp⟩⟩
      · unfold RxModes; simp [doSetMode, modes.2]
      · simp [doSetMode]
      · simp [doSetMode]
      · simp [doSetMode, BitVec.le_def]
    · refine ⟨[], _, rfl, rfl, by simp, ⟨?_, ?_, ?_, ?_, run.cycles⟩, hq, rfl, by simp [ht], .inr rfl, .inl ⟨rfl, rfl⟩⟩
      · exact run.modes
      · simp
      · simp
      · simp [BitVec.le_def]
  · rw [if_neg ht]
    exact ⟨[], s, rfl, rfl, by simp, run, hq, rfl, fun _ => rfl, .inl rfl, .inl ⟨rfl, rfl⟩⟩

/-- A running receiver's phase (c) always completes, and leaves what `RxStepped` says. -/
theorem rxStep_holds (now : Word) {s : State} {l : List Byte} (ok : RxReady s l) :
    ∃ fed reads sent rest o evs t, rxStep now s = .next t ∧ RxStepped now s l fed reads sent rest o evs t := by
  obtain ⟨fed, reads, sent, rest, o, evs, u, e, d⟩ := rxPhaseArm_holds now ok
  obtain ⟨evs2, t, e2, f1, f2, f3, f4, f5, fs, fe, f6⟩ := rxLinkCheck_holds now d.running d.settled
  have hrxb : t.rxb = u.rxb := by rw [f1]
  have hcnt : t.counters = { u.counters with linkTo := t.counters.linkTo } := by
    generalize hz : t.counters.linkTo = z at f1 ⊢
    rw [f1]
  have hm : radioReads evs2 = [] ∧ sinkWrites evs2 = [] ∧ notEmptiesAsked evs2 = [] ∧ modeReadiesAsked evs2 = [] ∧
      timesAsked evs2 = [] ∧ readiesAsked evs2 = [] := by
    rcases f6 with ⟨-, rfl⟩ | ⟨-, rfl, -⟩ <;> exact ⟨rfl, rfl, rfl, rfl, rfl, rfl⟩
  obtain ⟨m1, m2, m3, m4, m5, m6⟩ := hm
  refine ⟨fed, reads, sent, rest, o, evs ++ evs2, t, by unfold rxStep; rw [e, andThen_next, e2], ?_⟩
  obtain ⟨d1, d2, d3, d4, d5, d6, d7, d8, d9, d10, d11, d12, d13, d14, d15, d16, d17, d18, d19, d20, d21, d22⟩ := d
  refine ⟨?_, by rw [hrxb]; exact d2, d3, d4, d5, by rw [f2, d6, List.append_assoc], by simp [d7, m1], by simp [d8, m2], d9,
    d10, d11, by rw [hcnt]; exact d12, ?_, ?_, by simp [m3, d15], by simp [m4, m5, d16], by simpa [m6] using d17, f3, f4,
    by rw [f5, d20], by simpa [m1] using d21, ?_⟩
  · have h1 : t.counters.framesRx = u.counters.framesRx := by rw [hcnt]
    have h2 : t.counters.syncLoss = u.counters.syncLoss := by rw [hcnt]
    refine f1.trans ?_
    rw [h1, h2, hrxb]
    generalize t.counters.linkTo = z
    rw [d1]
  · intro h0
    have uc : u.cfg = s.cfg := by rw [d1]
    rw [fs (by simp [timedOut, uc, h0])]
    exact d13 h0
  · intro ho
    have := d14 ho
    rcases fe with h | h <;> rw [h]
    · exact this
    · rw [BitVec.getLsbD_or, this, Bool.true_or]
  · rcases d22 with ⟨g1, g2⟩ | ⟨m, g1, g2, g3, g4⟩
    · rcases f6 with ⟨h1, rfl⟩ | ⟨h1, rfl, h2⟩
      · exact .inl ⟨by rw [h1, g1], by simp [g2]⟩
      · exact .inr ⟨.idle, by simp, by rw [← g1]; exact h1, by simp [g2], by rw [h2, g1]⟩
    · rcases f6 with ⟨h1, rfl⟩ | ⟨h1, rfl, h2⟩
      · exact .inr ⟨m, g1, g2, by simp [g3], by rw [h1, g4]⟩
      · rw [g4] at h1; cases h1

end Sys2Proof.Machine
end

