-- ==== Sys2Proof/Laws/Schedule.lean ====
section
/-! SUPPORT. What one scheduler iteration (44_mode_scheduler.md R283) of a running CORE can do, by role. -/

namespace Sys2Proof.Machine

/-! ### The mode poll -/

/-- What phase (d) leaves in `t` (44_mode_scheduler.md R271, R272). -/
structure Polled (now : Word) (s : State) (evs : List Event) (t : State) : Prop where
  frame : t = { s with
    env := t.env, err := t.err, arb := t.arb, counters := { s.counters with hwTo := t.counters.hwTo } }
  trace : t.env.trace = s.env.trace ++ evs
  outcome :
    (s.arb.pending = false ∧ t = s ∧ evs = []) ∨
    (s.arb.pending = true ∧ evs = [.radioModeReady true] ∧ t.err = s.err ∧ t.counters.hwTo = s.counters.hwTo ∧
      t.arb = { s.arb with cur := s.arb.req, pending := false }) ∨
    (s.arb.pending = true ∧ evs = [.radioModeReady false] ∧ t.err = s.err ∧ t.counters.hwTo = s.counters.hwTo ∧
      t.arb = s.arb ∧ timedOut s.cfg.hwWaitTo now s.arb.tReq = false) ∨
    (s.arb.pending = true ∧ evs = [.radioModeReady false, .radioSetMode s.arb.req] ∧
      t.err = s.err ||| Cause.modeTimeout.mask ∧ t.counters.hwTo = s.counters.hwTo + 1 ∧
      t.arb = { s.arb with tReq := now } ∧ timedOut s.cfg.hwWaitTo now s.arb.tReq = true)

theorem modePoll_holds (now : Word) (s : State) : ∃ evs, Polled now s evs (modePoll now s) := by
  unfold modePoll
  by_cases hp : s.arb.pending = true
  · rw [if_pos hp]
    simp only
    cases hv : s.env.flag with
    | true =>
      rw [if_pos (by simp [askModeReady, hv])]
      exact ⟨[.radioModeReady true], rfl, by simp [askModeReady, hv], .inr (.inl ⟨hp, rfl, rfl, rfl, rfl⟩)⟩
    | false =>
      rw [if_neg (by simp [askModeReady, hv])]
      unfold modeTimeoutCheck
      split
      · rename_i ht
        exact ⟨[.radioModeReady false, .radioSetMode s.arb.req], rfl, by simp [askModeReady, doSetMode, hv],
          .inr (.inr (.inr ⟨hp, rfl, rfl, rfl, rfl, ht⟩))⟩
      · rename_i ht
        exact ⟨[.radioModeReady false], rfl, by simp [askModeReady, hv],
          .inr (.inr (.inl ⟨hp, rfl, rfl, rfl, rfl, by simpa [askModeReady] using ht⟩))⟩
  · rw [if_neg hp]
    exact ⟨[], rfl, by simp, .inl ⟨by simpa using hp, rfl, rfl⟩⟩

theorem Polled.tx_same {now : Word} {s t : State} {evs : List Event} (p : Polled now s evs t) : t.tx = s.tx := by
  rw [p.frame]

theorem Polled.rx_same {now : Word} {s t : State} {evs : List Event} (p : Polled now s evs t) : t.rx = s.rx := by
  rw [p.frame]

theorem Polled.cfg_same {now : Word} {s t : State} {evs : List Event} (p : Polled now s evs t) : t.cfg = s.cfg := by
  rw [p.frame]

theorem Polled.arb_cases {now : Word} {s t : State} {evs : List Event} (p : Polled now s evs t) :
    (t.arb.cur = s.arb.cur ∧ t.arb.req = s.arb.req ∧ t.arb.pending = s.arb.pending) ∨
      (s.arb.pending = true ∧ t.arb.cur = s.arb.req ∧ t.arb.req = s.arb.req ∧ t.arb.pending = false) := by
  rcases p.outcome with ⟨-, h, -⟩ | ⟨h, -, -, -, h2⟩ | ⟨-, -, -, -, h2, -⟩ | ⟨-, -, -, -, h2, -⟩
  · exact .inl ⟨by rw [h], by rw [h], by rw [h]⟩
  · exact .inr ⟨h, by rw [h2], by rw [h2], by rw [h2]⟩
  · exact .inl ⟨by rw [h2], by rw [h2], by rw [h2]⟩
  · exact .inl ⟨by rw [h2], by rw [h2], by rw [h2]⟩

theorem Polled.settled {now : Word} {s t : State} {evs : List Event} (p : Polled now s evs t)
    (h : s.arb.pending = false → s.arb.req = s.arb.cur) : t.arb.pending = false → t.arb.req = t.arb.cur := by
  rcases p.arb_cases with ⟨h1, h2, h3⟩ | ⟨-, h1, h2, -⟩
  · rw [h1, h2, h3]; exact h
  · intro _; rw [h1, h2]

theorem Polled.txRunning {now : Word} {s t : State} {evs : List Event} (p : Polled now s evs t) (h : TxRunning s) :
    TxRunning t := by
  have he : wireEnd t = wireEnd s := by rw [wireEnd, wireEnd, p.cfg_same]
  unfold TxRunning at h ⊢
  rw [p.tx_same, he]
  rcases p.arb_cases with ⟨h1, h2, h3⟩ | ⟨h0, h1, h2, h3⟩
  · rw [h1, h2, h3]; exact h
  · rw [h1, h2, h3]
    cases hs : s.tx.state <;> simp only [hs] at h ⊢
    · exact ⟨fun _ => (h.2.1 h0).1, by simp, h.2.2⟩
    · exact ⟨h.1, by simp, h.2.2⟩
    · rw [h.1] at h0; cases h0
    · rw [h.1] at h0; cases h0

theorem Polled.rxModes {now : Word} {s t : State} {evs : List Event} (p : Polled now s evs t) (h : RxModes s) :
    RxModes t := by
  unfold RxModes at h ⊢
  rw [p.rx_same]
  rcases p.arb_cases with ⟨h1, h2, h3⟩ | ⟨h0, h1, h2, h3⟩
  · rw [h1, h2, h3]; exact h
  · rw [h1, h2, h3]
    cases hs : s.rx.phase <;> simp only [hs] at h ⊢
    · rw [h.1] at h0; cases h0
    · exact ⟨h.1, by simp⟩
    · rw [h.1] at h0; cases h0
    · exact ⟨h.1, by simp⟩

/-- The events of phase (d), by kind. -/
theorem Polled.kinds {now : Word} {s t : State} {evs : List Event} (p : Polled now s evs t) :
    radioWrites evs = [] ∧ radioReads evs = [] ∧ sinkWrites evs = [] ∧ sourceBytes evs = [] ∧ timesAsked evs = [] ∧
      validsAsked evs = [] ∧ readiesAsked evs = [] ∧ fullsAsked evs = [] ∧ notEmptiesAsked evs = [] ∧
      txDonesAsked evs = [] ∧ beginsAsked evs = [] ∧ (modeReadiesAsked evs).length ≤ 1 ∧ (modesSet evs).length ≤ 1 := by
  rcases p.outcome with ⟨-, -, rfl⟩ | ⟨-, rfl, -⟩ | ⟨-, rfl, -⟩ | ⟨-, rfl, -⟩ <;> simp

/-- Phase (d) sets no mode but the one whose request is pending. -/
theorem Polled.reissues {now : Word} {s t : State} {evs : List Event} (p : Polled now s evs t) :
    ∀ m ∈ modesSet evs, s.arb.pending = true ∧ m = s.arb.req := by
  rcases p.outcome with ⟨-, -, rfl⟩ | ⟨-, rfl, -⟩ | ⟨-, rfl, -⟩ | ⟨h, rfl, -⟩ <;> simp
  exact h

/-! ### A legal configuration -/

/-- The checks of BEGIN as numbers (45_host_commands.md R307). -/
theorem configLegal_iff (s : State) :
    configLegal s = true ↔
      (1 ≤ s.cfg.n.toNat ∧ s.cfg.n.toNat ≤ s.params.frameMax.toNat) ∧ s.cfg.policy ≠ .reserved ∧
      (s.cfg.role = .tx → s.cfg.n.toNat ≤ s.cfg.capTxBytes.toNat ∧ s.cfg.capTxBytes.toNat ≤ s.params.txbDepthMax.toNat) ∧
      (s.cfg.role = .rx → 1 ≤ s.cfg.capRxBytes.toNat ∧ s.cfg.capRxBytes.toNat ≤ s.params.rxbDepthMax.toNat) := by
  simp only [configLegal, Bool.and_eq_true, Bool.or_eq_true, decide_eq_true_eq, BitVec.le_def, and_assoc,
    BitVec.ofNat_eq_ofNat, BitVec.toNat_ofNat, Nat.reducePow, Nat.one_mod]
  cases s.cfg.role <;> simp

/-! ### A transmitter's iteration -/

/-- What one scheduler iteration of a running transmitter leaves in `t`: `taken` the bytes taken from the source,
`frames` the data of the frames committed, `rest` what TXB holds, `overruns` the overrun events, `evs` the events after
the time was asked. -/
structure TxIterated (s : State) (taken : List Byte) (frames : List (List Byte)) (rest : List Byte) (overruns : Nat)
    (evs : List Event) (t : State) : Prop where
  frame : t = { s with
    txb := t.txb, env := t.env, err := t.err, tx := t.tx, arb := t.arb,
    counters := { s.counters with
      ovrTx := s.counters.ovrTx + BitVec.ofNat 32 overruns, framesTx := t.counters.framesTx, hwTo := t.counters.hwTo } }
  holds : Holds t.txb rest
  data : frames.flatten ++ rest = keptBytes s.cfg.policy s.cfg.capTxBytes.toNat (s.txb.held ++ taken)
  fits : rest.length ≤ s.cfg.capTxBytes.toNat
  budget : taken.length ≤ s.cfg.capTxBytes.toNat
  reject : s.cfg.policy = .reject → (s.txb.held ++ taken).length ≤ s.cfg.capTxBytes.toNat
  source : sourceBytes evs = taken
  chunks : ∀ d ∈ frames, 1 ≤ d.length ∧ d.length ≤ s.cfg.n.toNat
  wire : radioWrites evs ++ inFlight t = inFlight s ++ frames.flatMap (frameImage s.cfg)
  payload : Memory.wf t.tx.payload = true
  running : TxRunning t
  settled : t.arb.pending = false → t.arb.req = t.arb.cur
  trace : t.env.trace = s.env.trace ++ .timeNow s.env.time :: evs
  own : radioWrites evs ≠ [] → s.arb.cur = .tx ∧ s.arb.pending = false
  valids : (validsAsked evs).length = taken.length + 1
  writes : (radioWrites evs).length ≤ (s.cfg.n.toNat + 2) * (1 + s.cfg.capTxBytes.toNat / s.cfg.n.toNat)
  fulls : (fullsAsked evs).length ≤ (radioWrites evs).length + 1
  dones : (txDonesAsked evs).length ≤ 1
  polls : (modeReadiesAsked evs).length ≤ 1
  modes : (modesSet evs).length ≤ 2
  noTime : timesAsked evs = []
  neverRx : ∀ m ∈ modesSet evs, m ≠ .rx

theorem txIteration_holds {s : State} (inv : Inv s) (hrun : s.coreState = .run) (hrole : s.cfg.role = .tx) :
    ∃ taken frames rest overruns evs t, schedulerIteration s = .next t ∧
      TxIterated s taken frames rest overruns evs t := by
  obtain ⟨⟨l1, l2⟩, l3, l4, -⟩ := (configLegal_iff s).mp (inv.legal hrun)
  obtain ⟨l4, l5⟩ := l4 hrole
  obtain ⟨hrunning, -⟩ := inv.transmitter hrun hrole
  have hh : Holds s.txb s.txb.held := .of_slide inv.txbWf inv.txbSlide
  have hlen : s.txb.held.length ≤ s.cfg.capTxBytes.toNat := by
    rw [hh.length, ← BitVec.le_def]; exact inv.txbFits
  obtain ⟨taken, tail, o, s1, e1, d⟩ := sbFillLoop_holds s.env.time s.cfg.capTxBytes.toNat (s := (askNow s).2)
    (l := s.txb.held) hh hlen ⟨by simp; omega, l5, l3⟩
  obtain ⟨a1, a2, a3, a4, a5, a6, a7, a8, a9, a10, -⟩ := d
  simp only [askNow_cfg] at a2 a3 a5 a7 a8
  have c1 : s1.cfg = s.cfg := by rw [a1]; rfl
  have p1 : s1.params = s.params := by rw [a1]; rfl
  have b1 : s1.arb = s.arb := by rw [a1]; rfl
  have x1 : s1.tx = { s.tx with tFill := s1.tx.tFill } := by
    generalize hz : s1.tx.tFill = z at a1 ⊢; rw [a1]; rfl
  have w1 : wireEnd s1 = wireEnd s := by rw [wireEnd, wireEnd, c1]
  have r1 : TxRunning s1 := by
    unfold TxRunning at hrunning ⊢
    rw [x1, b1, w1]; exact hrunning
  have f1 : inFlight s1 = inFlight s := by
    have y1 : s1.tx.payload = s.tx.payload := by rw [x1]
    have y2 : s1.tx.pos = s.tx.pos := by rw [x1]
    have y3 : s1.tx.state = s.tx.state := by rw [x1]
    simp only [inFlight, wireImage, y1, y2, y3, c1]
  obtain ⟨frames, rest, evs2, s2, e2, d2⟩ := txStep_holds s.env.time (s := s1)
    (l := keptBytes s.cfg.policy s.cfg.capTxBytes.toNat (s.txb.held ++ taken))
    ⟨a2, by rw [p1]; omega, ⟨by rw [c1]; exact l1, by rw [c1, p1]; exact l2⟩, by rw [x1]; exact inv.payloadWf, r1,
      by rw [b1]; exact inv.settled⟩
  obtain ⟨evs3, pol⟩ := modePoll_holds s.env.time s2
  have c2 : s2.cfg = s.cfg := by rw [d2.frame]; exact c1
  generalize hs3 : modePoll s.env.time s2 = s3 at pol
  have tailKinds : radioWrites tail = [] ∧ sourceBytes tail = [] ∧ fullsAsked tail = [] ∧ txDonesAsked tail = [] ∧
      modeReadiesAsked tail = [] ∧ modesSet tail = [] ∧ timesAsked tail = [] ∧ (validsAsked tail).length = 1 := by
    rcases a7 with rfl | ⟨rfl, -⟩ | ⟨rfl, -⟩ <;> simp
  obtain ⟨t1, t2, t3, t4, t5, t6, t7, t8⟩ := tailKinds
  obtain ⟨q1, -, -, q2, q3, q4, -, q5, -, q6, -, q7, q8⟩ := pol.kinds
  obtain ⟨n1, n2, n3, n4⟩ := d2.noOther
  refine ⟨taken, frames, rest, o, taken.flatMap takeEvents ++ tail ++ evs2 ++ evs3, s3, ?_, ?_⟩
  · unfold schedulerIteration phaseA phaseB phaseC
    simp only [askNow_fst]
    rw [if_pos (by simpa using hrole)]
    show andThen (sbFillLoop s.env.time s.cfg.capTxBytes.toNat (askNow s).2) _ = _
    rw [e1]
    simp only [andThen_next]
    rw [if_pos (by rw [c1]; exact hrole), e2]
    simp only [andThen_next]
    rw [if_neg (by rw [c2, hrole]; simp)]
    simp [hs3]
  · have fl : rest.length ≤ s.cfg.capTxBytes.toNat := by
      have := congrArg List.length d2.data
      simp at this; omega
    have txb3 : s3.txb = s2.txb := by rw [pol.frame]
    have ctr3 : s3.counters.framesTx = s2.counters.framesTx := by rw [pol.frame]
    have fl3 : inFlight s3 = inFlight s2 := by
      simp only [inFlight, wireImage, pol.tx_same, pol.cfg_same]
    refine ⟨?_, by rw [txb3]; exact d2.holds, d2.data, fl, a4, a5, ?_, by rw [← c1]; exact d2.chunks, ?_,
      by rw [pol.tx_same]; exact d2.payload, pol.txRunning d2.running, pol.settled d2.settled, ?_, ?_, ?_, ?_, ?_, ?_, ?_, ?_, ?_, ?_⟩
    · rw [txb3, ctr3, pol.tx_same]
      refine pol.frame.trans ?_
      generalize s3.counters.hwTo = z3
      generalize s3.err = er3
      generalize s3.env = en3
      generalize s3.arb = ar3
      rw [d2.frame]
      generalize s2.counters.hwTo = z2
      generalize s2.err = er2
      generalize s2.env = en2
      generalize s2.arb = ar2
      generalize s2.txb = tb2
      generalize s2.counters.framesTx = ft2
      generalize s2.tx = tx2
      rw [a1]
      rfl
    · simp [t2, n4, q2]
    · have := d2.wire
      rw [c1, f1] at this
      rw [fl3, ← this]
      simp [t1, q1]
    · rw [pol.trace, d2.trace, a6]; simp
    · simp only [radioWrites_append, radioWrites_takeEvents, t1, q1, List.append_nil, List.nil_append]
      rw [← b1]; exact d2.own
    · simp only [validsAsked_append, validsAsked_takeEvents, n3, q4, List.append_nil, List.length_append, t8]
      simp
    · have hw := d2.writes
      rw [c1] at hw
      simp only [radioWrites_append, radioWrites_takeEvents, t1, q1, List.append_nil, List.nil_append]
      refine hw.trans (Nat.mul_le_mul_left _ (Nat.add_le_add_left (Nat.div_le_div_right a3) 1))
    · simpa [t1, q1, t3, q5] using d2.fulls
    · simpa [t4, q6] using d2.dones
    · simpa [t5, n1] using q7
    · have hm : (modesSet evs2).length ≤ 1 := by
        rcases d2.modes with ⟨-, h⟩ | ⟨m, -, -, h, -⟩ <;> rw [h] <;> simp
      simp [t6]; omega
    · simp [t7, n2, q3]
    · intro m hm
      simp only [modesSet_append, List.mem_append, modesSet_takeEvents, t6, List.not_mem_nil, false_or] at hm
      rcases hm with hm | hm
      · rcases d2.modes with ⟨-, h⟩ | ⟨m', h1, -, h, -⟩ <;> rw [h] at hm <;> simp at hm
        rw [hm]; exact h1
      · obtain ⟨hp, rfl⟩ := pol.reissues m hm
        have := d2.running
        unfold TxRunning at this
        split at this
        · rw [(this.2.1 hp).1]; decide
        · rw [this.1]; decide
        · rw [this.1] at hp; cases hp
        · rw [this.1] at hp; cases hp

/-! ### A receiver's iteration -/

/-- What one scheduler iteration of a running receiver leaves in `t`: `fed` the bytes fed to the detector, `reads` the
payload bytes read, `sent` the bytes delivered, `rest` what RXB holds, `o` the overruns, `evs` the events after the time
was asked. -/
structure RxIterated (s : State) (fed reads sent rest : List Byte) (o : Nat) (evs : List Event) (t : State) : Prop where
  frame : t = { s with
    rxb := t.rxb, env := t.env, err := t.err, rx := t.rx, arb := t.arb,
    counters := { s.counters with
      ovrRx := s.counters.ovrRx + BitVec.ofNat 32 o, framesRx := t.counters.framesRx, linkTo := t.counters.linkTo,
      syncLoss := t.counters.syncLoss, hwTo := t.counters.hwTo } }
  holds : Holds t.rxb rest
  fits : rest.length ≤ s.cfg.capRxBytes.toNat
  kept : (sent ++ rest).Sublist (s.rxb.held ++ reads)
  lost : (s.rxb.held ++ reads).length = (sent ++ rest).length + o
  trace : t.env.trace = s.env.trace ++ .timeNow s.env.time :: evs
  read : radioReads evs = fed ++ reads
  wrote : sinkWrites evs = sent
  one : fed.length ≤ 1
  unlocked : fed ≠ [] → s.rx.sync ≠ .locked
  due : reads.length ≤ payloadDue s fed
  count : t.counters.framesRx = s.counters.framesRx +
    if payloadDue s fed ≠ 0 ∧ reads.length = payloadDue s fed then 1 else 0
  stream : s.cfg.linkTo = 0 → deframe s.cfg s.rx.sync s.rx.remaining.toNat (fed ++ reads) =
    ⟨reads, t.rx.sync, t.rx.remaining.toNat, if payloadDue s fed ≠ 0 ∧ reads.length = payloadDue s fed then 1 else 0⟩
  flagged : o ≠ 0 → t.err.getLsbD 3 = true
  queries : (notEmptiesAsked evs).length ≤ s.cfg.n.toNat + 1
  ready : (∀ b ∈ readiesAsked evs, b = true) → rest = [] ∧ o = 0
  running : RxRunning t
  settled : t.arb.pending = false → t.arb.req = t.arb.cur
  own : radioReads evs ≠ [] → s.arb.cur = .rx ∧ s.arb.pending = false
  polls : (modeReadiesAsked evs).length ≤ 1
  modes : (modesSet evs).length ≤ 2
  noTime : timesAsked evs = []
  neverTx : ∀ m ∈ modesSet evs, m ≠ .tx
  staysInRx : s.cfg.rxIdleCycle = false → (∀ m ∈ modesSet evs, m ≠ .idle) ∧ (s.arb.cur = .rx → t.arb.cur = .rx)

theorem rxIteration_holds {s : State} (inv : Inv s) (hrun : s.coreState = .run) (hrole : s.cfg.role = .rx) :
    ∃ fed reads sent rest o evs t, schedulerIteration s = .next t ∧ RxIterated s fed reads sent rest o evs t := by
  obtain ⟨⟨l1, l2⟩, l3, -, l4⟩ := (configLegal_iff s).mp (inv.legal hrun)
  obtain ⟨l4, l5⟩ := l4 hrole
  obtain ⟨hrunning, -⟩ := inv.receiver hrun hrole
  have hh : Holds s.rxb s.rxb.held := .of_slide inv.rxbWf inv.rxbSlide
  have hlen : s.rxb.held.length ≤ s.cfg.capRxBytes.toNat := by
    rw [hh.length, ← BitVec.le_def]; exact inv.rxbFits
  obtain ⟨k, tail, s1, e1, d⟩ := sbDeliverLoop_holds (s := (askNow s).2) (l := s.rxb.held) hh (hlen.trans l5)
  obtain ⟨a1, a2, a3, a4, a5⟩ := d
  have c1 : s1.cfg = s.cfg := by rw [a1]; rfl
  have p1 : s1.params = s.params := by rw [a1]; rfl
  have b1 : s1.arb = s.arb := by rw [a1]; rfl
  have x1 : s1.rx = s.rx := by rw [a1]; rfl
  have n1 : s1.counters = s.counters := by rw [a1]; rfl
  have r1 : RxRunning s1 := by
    refine ⟨?_, by rw [x1]; exact hrunning.searching, by rw [x1]; exact hrunning.locked, by rw [x1, c1]; exact hrunning.atMostN,
      by rw [x1, c1]; exact hrunning.cycles⟩
    have := hrunning.modes
    unfold RxModes at this ⊢
    rw [x1, b1]; exact this
  obtain ⟨fed, reads, sent, rest, o, evs2, s2, e2, d2⟩ := rxStep_holds s.env.time (s := s1) (l := s.rxb.held.drop k)
    ⟨a2, by rw [c1]; simp; omega, ⟨by rw [c1]; exact l4, by rw [c1, p1]; exact l5, by rw [c1]; exact l3⟩, by rw [c1]; exact l1, r1,
      by rw [b1]; exact inv.settled⟩
  have due1 : ∀ f, payloadDue s1 f = payloadDue s f := by intro f; simp only [payloadDue, x1, c1]
  obtain ⟨evs3, pol⟩ := modePoll_holds s.env.time s2
  have c2 : s2.cfg = s.cfg := by rw [d2.frame]; exact c1
  generalize hs3 : modePoll s.env.time s2 = s3 at pol
  have tailKinds : radioReads tail = [] ∧ sinkWrites tail = [] ∧ notEmptiesAsked tail = [] ∧
      modeReadiesAsked tail = [] ∧ modesSet tail = [] ∧ timesAsked tail = [] := by
    rcases a5 with ⟨-, rfl⟩ | ⟨-, rfl⟩ <;> simp
  obtain ⟨t1, t2, t3, t4, t5, t6⟩ := tailKinds
  obtain ⟨-, q1, q2, -, q3, -, q4, -, q5, -, -, q6, q7⟩ := pol.kinds
  obtain ⟨m1, m2⟩ := d2.noOther
  refine ⟨fed, reads, s.rxb.held.take k ++ sent, rest, o, (s.rxb.held.take k).flatMap deliverEvents ++ tail ++ evs2 ++ evs3, s3, ?_, ?_⟩
  · unfold schedulerIteration phaseA phaseB phaseC
    simp only [askNow_fst]
    rw [if_neg (by simp [hrole])]
    show andThen (sbDeliverLoop s.rxb.pending.toNat (askNow s).2) _ = _
    rw [← hh.length, e1]
    simp only [andThen_next]
    rw [if_neg (by rw [c1, hrole]; simp)]
    simp only [andThen_next]
    rw [if_pos (by rw [c1]; exact hrole), e2]
    simp [hs3]
  · have rxb3 : s3.rxb = s2.rxb := by rw [pol.frame]
    have cf : s3.counters.framesRx = s2.counters.framesRx := by rw [pol.frame]
    have cl : s3.counters.linkTo = s2.counters.linkTo := by rw [pol.frame]
    have cs : s3.counters.syncLoss = s2.counters.syncLoss := by rw [pol.frame]
    have split := List.take_append_drop k s.rxb.held
    refine ⟨?_, by rw [rxb3]; exact d2.holds, by rw [← c1]; exact d2.fits, ?_, ?_, ?_, ?_, ?_, d2.one, ?_, ?_, ?_, ?_, ?_, ?_, ?_, ?_,
      pol.settled d2.settled, ?_, ?_, ?_, ?_, ?_, ?_⟩
    · rw [rxb3, cf, cl, cs, pol.rx_same]
      refine pol.frame.trans ?_
      generalize s3.counters.hwTo = z3
      generalize s3.err = er3
      generalize s3.env = en3
      generalize s3.arb = ar3
      rw [d2.frame]
      generalize s2.counters.framesRx = z1
      generalize s2.counters.linkTo = z2
      generalize s2.counters.syncLoss = z4
      generalize s2.err = er2
      generalize s2.env = en2
      generalize s2.arb = ar2
      generalize s2.rxb = tb2
      generalize s2.rx = tx2
      rw [a1]
      rfl
    · rw [List.append_assoc]
      have := (List.Sublist.refl (s.rxb.held.take k)).append d2.kept
      rwa [← List.append_assoc (s.rxb.held.take k) (s.rxb.held.drop k), split] at this
    · have := d2.lost
      simp at this ⊢; omega
    · rw [pol.trace, d2.trace, a4]; simp
    · simp [t1, q1, d2.read]
    · simp [t2, q2, d2.wrote]
    · intro h; have := d2.unlocked h; rwa [x1] at this
    · rw [← due1]; exact d2.due
    · rw [cf, d2.count, due1, n1]
    · intro h0
      have := d2.stream (by rw [c1]; exact h0)
      rw [x1, c1, due1] at this
      rw [pol.rx_same]; exact this
    · intro ho
      have := d2.flagged ho
      rcases pol.outcome with ⟨-, h, -⟩ | ⟨-, -, h, -⟩ | ⟨-, -, h, -⟩ | ⟨-, -, h, -⟩ <;> rw [h]
      · exact this
      · exact this
      · exact this
      · rw [BitVec.getLsbD_or, this, Bool.true_or]
    · have := d2.queries
      rw [c1] at this
      simpa [t3, q5] using this
    · intro hb
      apply d2.ready
      · intro b h; exact hb b (by simp [h])
      · rcases a5 with ⟨h, -⟩ | ⟨-, rfl⟩
        · simp [h]
        · exact absurd (hb false (by simp)) (by simp)
    · exact ⟨pol.rxModes d2.running.modes, by rw [pol.rx_same]; exact d2.running.searching, by rw [pol.rx_same]; exact d2.running.locked,
        by rw [pol.rx_same, pol.cfg_same]; exact d2.running.atMostN,
        by rw [pol.rx_same, pol.cfg_same]; exact d2.running.cycles⟩
    · have := d2.own
      rw [b1] at this
      simpa [t1, q1] using this
    · simpa [t4, m1] using q6
    · have hm : (modesSet evs2).length ≤ 1 := by
        rcases d2.modes with ⟨-, h⟩ | ⟨m, -, -, h, -⟩ <;> rw [h] <;> simp
      simp [t5]; omega
    · simp [t6, m2, q3]
    · intro m hm
      simp only [modesSet_append, List.mem_append, modesSet_deliverEvents, t5, List.not_mem_nil, false_or] at hm
      rcases hm with hm | hm
      · rcases d2.modes with ⟨-, h⟩ | ⟨m', h1, -, h, -⟩ <;> rw [h] at hm <;> simp at hm
        rw [hm]; exact h1
      · obtain ⟨hp, rfl⟩ := pol.reissues m hm
        have := d2.running.modes
        unfold RxModes at this
        split at this
        · rw [this.1] at hp; cases hp
        · rw [this.1]; decide
        · rw [this.1] at hp; cases hp
        · rw [this.1]; decide
    · intro hc
      have run := d2.running.modes
      have cyc : s2.rx.phase ≠ .cycleIdle := fun h => by
        have := d2.running.cycles h; rw [c2, hc] at this; cases this
      have req : s2.arb.pending = true → s2.arb.req = .rx ∧ s2.arb.cur = .idle := by
        intro hp
        unfold RxModes at run
        split at run
        · rw [run.1] at hp; cases hp
        · exact ⟨run.1, run.2 hp⟩
        · rw [run.1] at hp; cases hp
        · exact absurd (by assumption) cyc
      refine ⟨fun m hm => ?_, fun h => ?_⟩
      · simp only [modesSet_append, List.mem_append, modesSet_deliverEvents, t5, List.not_mem_nil, false_or] at hm
        rcases hm with hm | hm
        · rcases d2.modes with ⟨-, h⟩ | ⟨m', h1, -, h, harb⟩ <;> rw [h] at hm <;> simp at hm
          rw [harb] at req
          rw [hm]
          have r1 : m' = .rx := (req rfl).1
          rw [r1]; decide
        · obtain ⟨hp, rfl⟩ := pol.reissues m hm
          rw [(req hp).1]; decide
      · have h2 : s2.arb.cur = .rx := by rw [d2.cur, b1]; exact h
        rcases pol.arb_cases with ⟨k, -⟩ | ⟨hp, -⟩
        · rw [k]; exact h2
        · rw [(req hp).2] at h2; cases h2

end Sys2Proof.Machine
end

