-- ==== Sys2Proof/Laws/Foretold.lean ====
section
/-! SUPPORT. The operations of one STEP when the environment's answers are foretold, each said once. -/

namespace Sys2Proof.Machine

theorem record_onward (e : Environment) (ev : Event) : e.record ev = e.onward e.flags e.bytes e.times [ev] := rfl

/-! ### Queries -/

theorem askFlag_foretold (ev : Bool → Event) {s : State} {f : Bool} {rest : List Bool} (h : s.env.flags = f :: rest) :
    askFlag ev s = (f, s.setEnv (s.env.onward rest s.env.bytes s.env.times [ev f])) := by
  obtain ⟨h1, h2⟩ := flag_cons s.env f rest h
  unfold askFlag; rw [h1, h2]; rfl

theorem askByte_foretold (ev : Byte → Event) {s : State} {b : Byte} {rest : List Byte} (h : s.env.bytes = b :: rest) :
    askByte ev s = (b, s.setEnv (s.env.onward s.env.flags rest s.env.times [ev b])) := by
  obtain ⟨h1, h2⟩ := byte_cons s.env b rest h
  unfold askByte; rw [h1, h2]; rfl

theorem askNow_foretold {s : State} {t : Word} {rest : List Word} (h : s.env.times = t :: rest) :
    askNow s = (t, s.setEnv (s.env.onward s.env.flags s.env.bytes rest [.timeNow t])) := by
  obtain ⟨h1, h2⟩ := time_cons s.env t rest h
  unfold askNow; rw [h1, h2]; rfl

/-! ### The iteration of each role -/

theorem exec_step_run {s : State} (hr : s.coreState = .run) :
    exec .step s = andThen (schedulerIteration s) fun t => .next (respond .ok 0 t) := by
  show execStep s = _; unfold execStep; rw [if_pos (by simp [permitted, hr])]

/-- A STEP of a transmitter whose source's answers are foretold is its phase (b) after the drain, the mode poll and the
response. -/
theorem exec_step_transmitter {s : State} {now : Word} {ts : List Word} {taken : List Byte} {tail : List Event}
    (inv : Inv s) (hr : s.coreState = .run) (hx : s.cfg.role = .tx) (hk : taken.length ≤ s.cfg.capTxBytes.toNat)
    (hj : s.cfg.policy = .reject → (s.txb.held ++ taken).length ≤ s.cfg.capTxBytes.toNat)
    (ht : tail = [.srcValid false] ∨
      (tail = [.srcValid true] ∧ s.cfg.policy ≠ .reject ∧ taken.length = s.cfg.capTxBytes.toNat) ∨
      (tail = [.srcValid true, .srcOverrun] ∧ s.cfg.policy = .reject ∧
        (s.txb.held ++ taken).length = s.cfg.capTxBytes.toNat))
    {fs : List Bool} {bs : List Byte} (hf : s.env.flags = flagsAnswered (taken.flatMap takeEvents ++ tail) ++ fs)
    (hb : s.env.bytes = bytesAnswered (taken.flatMap takeEvents ++ tail) ++ bs) (hts : s.env.times = now :: ts) :
    ∃ o d, Drained now s.cfg.capTxBytes.toNat (s.setEnv (s.env.onward s.env.flags s.env.bytes ts [.timeNow now]))
        s.txb.held taken tail o d ∧
      d.env = s.env.onward fs bs ts (.timeNow now :: (taken.flatMap takeEvents ++ tail)) ∧
      exec .step s = andThen (txStep now d) fun t => .next (respond .ok 0 (modePoll now t)) := by
  obtain ⟨-, l3, l4, -⟩ := (configLegal_iff s).mp (inv.legal hr)
  obtain ⟨l4, l5⟩ := l4 hx
  have hh : Holds s.txb s.txb.held := .of_slide inv.txbWf inv.txbSlide
  have hlen : s.txb.held.length ≤ s.cfg.capTxBytes.toNat := by rw [hh.length, ← BitVec.le_def]; exact inv.txbFits
  have hn := ((configLegal_iff s).mp (inv.legal hr)).1.1
  obtain ⟨o, d, e, dr, env⟩ := sbFillLoop_foretold now
    (s := s.setEnv (s.env.onward s.env.flags s.env.bytes ts [.timeNow now])) (l := s.txb.held) (taken := taken)
    (tail := tail) hh hlen ⟨hn.trans l4, l5, l3⟩ hk hj ht (fs := fs) (bs := bs) hf hb
  have env' : d.env = s.env.onward fs bs ts (.timeNow now :: (taken.flatMap takeEvents ++ tail)) := by
    rw [env]; exact onward_onward s.env _ _ _ _ _ _ _ _
  have cfg : d.cfg = s.cfg := by rw [dr.frame]; rfl
  refine ⟨o, d, dr, env', ?_⟩
  rw [exec_step_run hr]
  unfold schedulerIteration phaseA phaseB phaseC
  rw [askNow_foretold hts]
  simp only
  rw [if_pos (by simpa using hx), e]
  simp only [andThen_next]
  rw [if_pos (by rw [cfg]; exact hx)]
  cases e : txStep now d with
  | next t =>
    simp only [andThen_next]
    rw [if_neg (by rw [(kept_tx.txStep now e).cfg, cfg, hx]; decide)]
    rfl
  | fault r => rfl
  | refused r => rfl

/-- The sink delivery to a sink whose answers are foretold. -/
theorem sbDeliverLoop_foretold {s : State} {l : List Byte} {k : Nat} (h : Holds s.rxb l)
    (hd : l.length ≤ s.params.rxbDepthMax.toNat) {fs : List Bool}
    (hf : s.env.flags = flagsAnswered (sinkTakes l k) ++ fs) :
    ∃ r, sbDeliverLoop l.length s =
        .next ((s.setRxb r).setEnv (s.env.onward fs s.env.bytes s.env.times (sinkTakes l k))) ∧
      Holds r (l.drop k) ∧ (l.take k = [] → r = s.rxb) := by
  induction l generalizing s k with
  | nil =>
    refine ⟨s.rxb, ?_, by simpa using h, fun _ => rfl⟩
    simp [sinkTakes] at hf
    simp [sbDeliverLoop, sinkTakes, ← hf, Environment.onward, State.setEnv, State.setRxb]
  | cons x l ih =>
    rw [List.length_cons]
    unfold sbDeliverLoop
    cases k with
    | zero =>
      have hf' : s.env.flags = false :: fs := by simpa [sinkTakes] using hf
      simp only [askSinkReady, askFlag_foretold _ hf']
      exact ⟨s.rxb, rfl, h, fun _ => rfl⟩
    | succ k =>
      have hf' : s.env.flags = true :: (flagsAnswered (sinkTakes l k) ++ fs) := by
        rw [hf]; simp [sinkTakes, deliverEvents]
      simp only [askSinkReady, askFlag_foretold _ hf', if_true]
      obtain ⟨r, e, o⟩ := sbTake_holds (b := .rxb) (l := x :: l)
        (s := s.setEnv (s.env.onward (flagsAnswered (sinkTakes l k) ++ fs) s.env.bytes s.env.times [.sinkReady true]))
        1 h (by simp) hd
      rw [e]
      simp only [andThen_next]
      obtain ⟨r', e', o', -⟩ := ih (k := k) (s := doSinkWrite x ((s.setEnv (s.env.onward
        (flagsAnswered (sinkTakes l k) ++ fs) s.env.bytes s.env.times [.sinkReady true])).setBuf .rxb r))
        (by show Holds r l; simpa using o) (Nat.le_of_succ_le hd) rfl
      refine ⟨r', e'.trans ?_, by simpa using o', by simp⟩
      simp [doSinkWrite, act, State.setEnv, State.setBuf, State.setRxb, Environment.onward, Environment.record, sinkTakes,
        deliverEvents]

/-- A STEP of a receiver whose sink's answers to the delivery are foretold is its phase (c) after it, the mode poll and
the response. -/
theorem exec_step_receiver {s : State} {now : Word} {ts : List Word} {k : Nat} (inv : Inv s) (hr : s.coreState = .run)
    (hx : s.cfg.role = .rx) (ht : s.env.times = now :: ts) {fs : List Bool}
    (hf : s.env.flags = flagsAnswered (sinkTakes s.rxb.held k) ++ fs) :
    ∃ r, Holds r (s.rxb.held.drop k) ∧ (s.rxb.held.take k = [] → r = s.rxb) ∧
      exec .step s =
        andThen (rxStep now ((s.setRxb r).setEnv
          (s.env.onward fs s.env.bytes ts (.timeNow now :: sinkTakes s.rxb.held k))))
          fun t => .next (respond .ok 0 (modePoll now t)) := by
  obtain ⟨-, -, -, l4⟩ := (configLegal_iff s).mp (inv.legal hr)
  obtain ⟨-, l5⟩ := l4 hx
  have hh : Holds s.rxb s.rxb.held := .of_slide inv.rxbWf inv.rxbSlide
  have hlen : s.rxb.held.length ≤ s.cfg.capRxBytes.toNat := by rw [hh.length, ← BitVec.le_def]; exact inv.rxbFits
  obtain ⟨r, e, o, same⟩ := sbDeliverLoop_foretold (k := k)
    (s := s.setEnv (s.env.onward s.env.flags s.env.bytes ts [.timeNow now])) (l := s.rxb.held) hh (hlen.trans l5) hf
  refine ⟨r, o, same, ?_⟩
  rw [exec_step_run hr]
  unfold schedulerIteration phaseA phaseB phaseC
  rw [askNow_foretold ht]
  simp only
  rw [if_neg (by simp [hx])]
  unfold sbDeliverToSink
  rw [show (s.setEnv (s.env.onward s.env.flags s.env.bytes ts [.timeNow now])).rxb.pending.toNat = s.rxb.held.length from
    hh.length.symm, e]
  simp only [andThen_next]
  rw [if_neg (by simp [hx])]
  simp only [andThen_next]
  rw [if_pos (by simpa using hx)]
  have env : ((s.setEnv (s.env.onward s.env.flags s.env.bytes ts [.timeNow now])).setRxb r).setEnv
      ((s.setEnv (s.env.onward s.env.flags s.env.bytes ts [.timeNow now])).env.onward fs s.env.bytes ts
        (sinkTakes s.rxb.held k)) =
      (s.setRxb r).setEnv (s.env.onward fs s.env.bytes ts (.timeNow now :: sinkTakes s.rxb.held k)) := by
    simp [State.setEnv, State.setRxb, Environment.onward]
  show andThen (andThen (rxStep now (((s.setEnv (s.env.onward s.env.flags s.env.bytes ts [.timeNow now])).setRxb r).setEnv
      ((s.setEnv (s.env.onward s.env.flags s.env.bytes ts [.timeNow now])).env.onward fs s.env.bytes ts
        (sinkTakes s.rxb.held k)))) _) _ = _
  rw [env]
  cases e : rxStep now ((s.setRxb r).setEnv
    (s.env.onward fs s.env.bytes ts (.timeNow now :: sinkTakes s.rxb.held k))) <;> rfl

/-! ### The mode poll -/

@[simp] theorem timedOut_self (timeout now : Word) : timedOut timeout now now = false := by
  simp [timedOut, elapsed, BitVec.le_def, ← BitVec.toNat_inj]

theorem modePoll_settled (now : Word) {s : State} (h : s.arb.pending = false) : modePoll now s = s := by
  unfold modePoll; rw [if_neg (by simp [h])]

theorem modePoll_foretold (now : Word) {s : State} {ready : Bool} {fs : List Bool} (h : s.arb.pending = true)
    (hf : s.env.flags = ready :: fs) :
    modePoll now s =
      if ready = true then
        (s.setEnv (s.env.onward fs s.env.bytes s.env.times [.radioModeReady ready])).setArb
          ⟨s.arb.req, s.arb.req, false, s.arb.tReq⟩
      else modeTimeoutCheck now (s.setEnv (s.env.onward fs s.env.bytes s.env.times [.radioModeReady ready])) := by
  unfold modePoll; rw [if_pos h]; simp only [askModeReady, askFlag_foretold _ hf]

/-- The first poll of a request made in the same STEP: no time has passed since it. -/
theorem modePoll_fresh {s : State} {now : Word} {cur m : RadioMode} {ready : Bool} {fs : List Bool}
    (h : s.arb = ⟨cur, m, true, now⟩) (hf : s.env.flags = ready :: fs) :
    modePoll now s = (s.setEnv (s.env.onward fs s.env.bytes s.env.times [.radioModeReady ready])).setArb
      (if ready then ⟨m, m, false, now⟩ else ⟨cur, m, true, now⟩) := by
  rw [modePoll_foretold now (by rw [h]) hf]
  have quiet : ∀ x : State, x.arb = s.arb → modeTimeoutCheck now x = x := by
    intro x hx
    unfold modeTimeoutCheck
    rw [if_neg (by rw [hx, h]; simp)]
  cases ready
  · rw [if_neg (by simp), quiet (s.setEnv (s.env.onward fs s.env.bytes s.env.times [.radioModeReady false])) rfl]
    simp [State.setArb, State.setEnv, h]
  · simp [h]

/-! ### The receiver's reading -/

theorem rxActive_locked (now : Word) {s : State} (h : s.rx.sync = .locked) : rxActive now s = rxPayload now s := by
  unfold rxActive; simp only [h, ne_eq, not_true_eq_false, if_false, if_true]

theorem rxActive_unlocked (now : Word) {s t : State} (h : s.rx.sync ≠ .locked) (e : rxSyncFeed s = t)
    (ht : t.rx.sync ≠ .locked) : rxActive now s = .next t := by
  unfold rxActive; simp only; rw [if_pos h, e, if_neg ht]

theorem rxActive_locks (now : Word) {s t : State} (h : s.rx.sync ≠ .locked) (e : rxSyncFeed s = t)
    (ht : t.rx.sync = .locked) : rxActive now s = rxPayload now t := by
  unfold rxActive; simp only; rw [if_pos h, e, if_pos ht]

theorem rxSyncFeed_empty {s : State} {fs : List Bool} (hf : s.env.flags = false :: fs) :
    rxSyncFeed s = s.setEnv (s.env.onward fs s.env.bytes s.env.times [.radioFifoNotEmpty false]) := by
  unfold rxSyncFeed
  simp only [askFifoNotEmpty, askFlag_foretold _ hf]
  rfl

theorem rxSyncFeed_byte {s : State} {b : Byte} {bs : List Byte} {fs : List Bool} (hf : s.env.flags = true :: fs)
    (hb : s.env.bytes = b :: bs) :
    rxSyncFeed s =
      rxFeed b (s.setEnv (s.env.onward fs bs s.env.times [.radioFifoNotEmpty true, .radioRead 0 b])) := by
  unfold rxSyncFeed
  simp only [askFifoNotEmpty, askFlag_foretold _ hf, if_true, askRadioRead]
  rw [askByte_foretold _ (s := s.setEnv (s.env.onward fs s.env.bytes s.env.times [.radioFifoNotEmpty true])) hb]
  show rxFeed b (s.setEnv (Environment.onward (Environment.onward s.env _ _ _ _) _ _ _ _)) = _
  rw [onward_onward]; rfl

theorem rxPayloadLoop_empty (now : Word) (left : Nat) {s : State} {fs : List Bool} (hf : s.env.flags = false :: fs) :
    rxPayloadLoop now (left + 1) s =
      .next (s.setEnv (s.env.onward fs s.env.bytes s.env.times [.radioFifoNotEmpty false])) := by
  unfold rxPayloadLoop
  simp only [askFifoNotEmpty, askFlag_foretold _ hf]
  rfl

/-- `s` with another record for RXB and so many overruns of it raised. -/
def State.served (s : State) (r : StreamBuffer) (overruns : Nat) : State :=
  { s with
    rxb := r
    err := if overruns = 0 then s.err else s.err ||| Cause.rxOverrun.mask
    counters := { s.counters with ovrRx := s.counters.ovrRx + BitVec.ofNat 32 overruns } }

@[simp] theorem served_none (s : State) : s.served s.rxb 0 = s := by simp [State.served]

/-- SB_append on RXB, whatever the policy: what RXB keeps, and the overrun where it is full. -/
theorem sbAppend_kept (x : Byte) {s : State} {l : List Byte} (h : Holds s.rxb l)
    (hc : l.length ≤ s.cfg.capRxBytes.toNat) (ok : RxbReady s) :
    ∃ a r, sbAppend .rxb x s = .next (a, s.served r
        (l.length + 1 - (keptBytes s.cfg.policy s.cfg.capRxBytes.toNat (l ++ [x])).length)) ∧
      Holds r (keptBytes s.cfg.policy s.cfg.capRxBytes.toNat (l ++ [x])) := by
  rcases Nat.lt_or_ge l.length s.cfg.capRxBytes.toNat with lt | ge
  · obtain ⟨r, e, o⟩ := sbAppend_room (b := .rxb) x h lt ok.depth
    have kept := keptBytes_fits s.cfg.policy s.cfg.capRxBytes.toNat (l ++ [x]) (by simp; omega)
    rw [kept]
    exact ⟨.stored, r, by rw [e]; simp [State.served, State.setBuf, State.setRxb], o⟩
  · have heq : l.length = s.cfg.capRxBytes.toNat := by omega
    have full : ¬ (s.buf .rxb).pending < s.capacity .rxb := by
      rw [BitVec.lt_def]; show ¬ s.rxb.pending.toNat < s.cfg.capRxBytes.toNat; rw [← h.length]; omega
    have once : ∀ (r : StreamBuffer) (q : List Byte), q.length = l.length →
        (raise .rxOverrun s).setRxb r = s.served r (l.length + 1 - q.length) := by
      intro r q hq
      rw [hq, Nat.add_sub_cancel_left]; rfl
    have take : (l ++ [x]).take s.cfg.capRxBytes.toNat = l := by rw [← heq]; exact List.take_left' rfl
    cases hpol : s.cfg.policy with
    | reject =>
      simp only [keptBytes, take]
      exact ⟨_, s.rxb, by rw [sbAppend_full_reject x full hpol, ← once s.rxb l rfl]; rfl, h⟩
    | dropNew =>
      simp only [keptBytes, take]
      exact ⟨_, s.rxb, by rw [sbAppend_full_dropNew x full hpol, ← once s.rxb l rfl]; rfl, h⟩
    | dropOld =>
      obtain ⟨r, e, o⟩ := sbAppend_full_dropOld (b := .rxb) x h heq ok.room ok.depth hpol
      have room := ok.room
      have drop : (l ++ [x]).drop ((l ++ [x]).length - s.cfg.capRxBytes.toNat) = l.drop 1 ++ [x] := by
        rw [List.length_append, ← heq, Nat.add_sub_cancel_left, List.length_singleton,
          List.drop_append_of_le_length (by omega)]
      simp only [keptBytes, drop]
      exact ⟨_, r, by rw [e, ← once r (l.drop 1 ++ [x]) (by simp; omega)]; rfl, o⟩
    | reserved => exact absurd hpol ok.policy

theorem keptBytes_length {p : Policy} {cap : Nat} {l : List Byte} {x : Byte} (hp : p ≠ .reserved) :
    (keptBytes p cap (l ++ [x])).length ≤ cap := by
  cases p <;> simp [keptBytes] at hp ⊢
  omega

/-- A payload byte accepted, and delivered to a sink whose answers are foretold. -/
theorem rxAccept_foretold (x : Byte) {k : Nat} {s : State} {l : List Byte} (h : Holds s.rxb l)
    (hc : l.length ≤ s.cfg.capRxBytes.toNat) (ok : RxbReady s) {fs : List Bool}
    (hf : s.env.flags =
      flagsAnswered (sinkTakes (keptBytes s.cfg.policy s.cfg.capRxBytes.toNat (l ++ [x])) k) ++ fs) :
    ∃ r, Holds r ((keptBytes s.cfg.policy s.cfg.capRxBytes.toNat (l ++ [x])).drop k) ∧
      rxAccept x s = .next ((s.served r
          (l.length + 1 - (keptBytes s.cfg.policy s.cfg.capRxBytes.toNat (l ++ [x])).length)).setEnv
        (s.env.onward fs s.env.bytes s.env.times
          (sinkTakes (keptBytes s.cfg.policy s.cfg.capRxBytes.toNat (l ++ [x])) k))) := by
  obtain ⟨a, r, e, o⟩ := sbAppend_kept x h hc ok
  have fits := keptBytes_length (l := l) (x := x) (cap := s.cfg.capRxBytes.toNat) ok.policy
  generalize keptBytes s.cfg.policy s.cfg.capRxBytes.toNat (l ++ [x]) = queue at *
  obtain ⟨r', e', o', -⟩ := sbDeliverLoop_foretold (k := k) (s := s.served r (l.length + 1 - queue.length)) (l := queue) o
    (fits.trans ok.depth) hf
  refine ⟨r', o', ?_⟩
  unfold rxAccept sbDeliverToSink
  rw [e]; simp only [andThen_next]
  rw [show (s.served r (l.length + 1 - queue.length)).rxb.pending.toNat = queue.length from o.length.symm, e']
  rfl

theorem bytesAnswered_sinkTakes (l : List Byte) (k : Nat) : bytesAnswered (sinkTakes l k) = [] := by
  unfold sinkTakes; split <;> simp

theorem timesAsked_sinkTakes (l : List Byte) (k : Nat) : timesAsked (sinkTakes l k) = [] := by
  unfold sinkTakes; split <;> simp

theorem bytesAnswered_readPayload (c : ConfigRegs) (l : List Byte) (pays : List (Byte × Nat)) :
    bytesAnswered (readPayload c l pays).events = pays.map Prod.fst := by
  induction pays generalizing l with
  | nil => rfl
  | cons p pays ih => simp [readPayload, readEvents, bytesAnswered_sinkTakes, ih]

theorem timesAsked_readPayload (c : ConfigRegs) (l : List Byte) (pays : List (Byte × Nat)) :
    timesAsked (readPayload c l pays).events = [] := by
  induction pays generalizing l with
  | nil => rfl
  | cons p pays ih => simp [readPayload, readEvents, timesAsked_sinkTakes, ih]

/-- A run of the payload loop over bytes foretold, up to where it completes the frame or asks for the next byte. -/
theorem rxPayloadLoop_foretold (now : Word) (pays : List (Byte × Nat)) {s : State} {l : List Byte} (h : Holds s.rxb l)
    (hc : l.length ≤ s.cfg.capRxBytes.toNat) (ok : RxbReady s) {left : Nat} (hr : s.rx.remaining.toNat = left)
    (hp : pays.length ≤ left) (h1 : 1 ≤ left) {fs : List Bool} {bs : List Byte}
    (hf : s.env.flags = flagsAnswered (readPayload s.cfg l pays).events ++ fs)
    (hb : s.env.bytes = pays.map Prod.fst ++ bs) :
    ∃ r t, Holds r (readPayload s.cfg l pays).held ∧ (pays = [] → r = s.rxb) ∧
      t = ((s.served r (readPayload s.cfg l pays).overruns).setRemaining
        (BitVec.ofNat 24 (left - pays.length))).setEnv
        (s.env.onward fs bs s.env.times (readPayload s.cfg l pays).events) ∧
      rxPayloadLoop now left s =
        if pays.length = left then rxFrameComplete now t else rxPayloadLoop now (left - pays.length) t := by
  induction pays generalizing s l left with
  | nil =>
    refine ⟨s.rxb, s, h, fun _ => rfl, ?_, by rw [if_neg (by simp; omega)]; rfl⟩
    have : BitVec.ofNat 24 left = s.rx.remaining := by rw [← hr]; simp
    simp [readPayload] at hf hb ⊢
    simp [State.setRemaining, State.setRx, State.setEnv, Environment.onward, this, ← hf, ← hb]
  | cons p pays ih =>
    obtain ⟨x, k⟩ := p
    obtain ⟨left, rfl⟩ : ∃ m, left = m + 1 := ⟨left - 1, by omega⟩
    simp only [readPayload] at hf ⊢
    generalize hq : keptBytes s.cfg.policy s.cfg.capRxBytes.toNat (l ++ [x]) = queue at hf ⊢
    generalize hR : readPayload s.cfg (queue.drop k) pays = R at hf ⊢
    have hf' : s.env.flags = true :: (flagsAnswered (sinkTakes queue k) ++ (flagsAnswered R.events ++ fs)) := by
      rw [hf]; simp [readEvents]
    have hb' : s.env.bytes = x :: (pays.map Prod.fst ++ bs) := by rw [hb]; rfl
    conv => enter [1, r, 1, t, 2, 2, 2, 1]; unfold rxPayloadLoop
    simp only [askFifoNotEmpty, askFlag_foretold _ hf', if_true, askRadioRead]
    simp only [askByte_foretold _ (s := s.setEnv (s.env.onward
      (flagsAnswered (sinkTakes queue k) ++ (flagsAnswered R.events ++ fs)) s.env.bytes s.env.times
      [.radioFifoNotEmpty true])) hb']
    generalize hu : ((s.setEnv (s.env.onward (flagsAnswered (sinkTakes queue k) ++ (flagsAnswered R.events ++ fs))
      s.env.bytes s.env.times [.radioFifoNotEmpty true])).setEnv _).setRemaining _ = u
    have u1 : u = (s.setRemaining (s.rx.remaining - 1)).setEnv (s.env.onward
        (flagsAnswered (sinkTakes queue k) ++ (flagsAnswered R.events ++ fs)) (pays.map Prod.fst ++ bs) s.env.times
        (readEvents x)) := by
      rw [← hu]
      simp [State.setEnv, State.setRx, State.setRemaining, Environment.onward, readEvents]; rfl
    have rem : (s.rx.remaining - 1).toNat = left := by
      rw [BitVec.toNat_sub_of_le (by rw [BitVec.le_def]; simp; omega)]; simp; omega
    have fits := keptBytes_length (l := l) (x := x) (cap := s.cfg.capRxBytes.toNat) ok.policy
    rw [hq] at fits
    have hq' : keptBytes u.cfg.policy u.cfg.capRxBytes.toNat (l ++ [x]) = queue := by rw [u1]; exact hq
    obtain ⟨r, o, e⟩ := rxAccept_foretold x (k := k) (s := u) (l := l) (fs := flagsAnswered R.events ++ fs)
      (by rw [u1]; exact h) (by rw [u1]; exact hc) (by rw [u1]; exact ⟨ok.room, ok.depth, ok.policy⟩)
      (by rw [hq', u1]; rfl)
    rw [hq'] at o e
    rw [e]
    simp only [andThen_next]
    generalize hv : (u.served r (l.length + 1 - queue.length)).setEnv _ = v
    have v1 : v = ((s.served r (l.length + 1 - queue.length)).setRemaining (s.rx.remaining - 1)).setEnv
        (s.env.onward (flagsAnswered R.events ++ fs) (pays.map Prod.fst ++ bs) s.env.times
          (readEvents x ++ sinkTakes queue k)) := by
      rw [← hv, u1]
      simp [State.setEnv, State.setRx, State.setRemaining, Environment.onward, State.served]
    have vcfg : v.cfg = s.cfg := by rw [v1]; rfl
    have vrem : v.rx.remaining = s.rx.remaining - 1 := by rw [v1]; rfl
    have venv : v.env = s.env.onward (flagsAnswered R.events ++ fs) (pays.map Prod.fst ++ bs) s.env.times
        (readEvents x ++ sinkTakes queue k) := by rw [v1]; rfl
    have vrxb : v.rxb = r := by rw [v1]; rfl
    rw [vrem]
    have sum : ∀ (o2 : Nat) (r2 : StreamBuffer) (m : Count) (e2 : Environment),
        ((v.served r2 o2).setRemaining m).setEnv e2 =
          ((s.served r2 (l.length + 1 - queue.length + o2)).setRemaining m).setEnv e2 := by
      intro o2 r2 m e2
      rw [v1]
      generalize l.length + 1 - queue.length = o1
      have add : s.counters.ovrRx + BitVec.ofNat 32 o1 + BitVec.ofNat 32 o2 = s.counters.ovrRx + BitVec.ofNat 32 (o1 + o2) := by
        rw [BitVec.ofNat_add, BitVec.add_assoc]
      by_cases ho1 : o1 = 0 <;> by_cases ho2 : o2 = 0 <;>
        simp [State.served, State.setEnv, State.setRx, State.setRemaining, add, ho1, ho2, BitVec.or_assoc]
    by_cases h0 : left = 0
    · subst h0
      obtain rfl : pays = [] := List.length_eq_zero_iff.mp (by simpa using hp)
      simp only [readPayload] at hR
      subst hR
      have z : s.rx.remaining - 1 = 0 := BitVec.eq_of_toNat_eq rem
      refine ⟨r, v, o, by simp, ?_, by rw [if_pos z, if_pos (by simp)]⟩
      rw [v1, z]; simp
    · have ne : ¬ s.rx.remaining - 1 = 0 := fun hh => by rw [hh] at rem; simp at rem; omega
      obtain ⟨r2, t, o2, -, et, e2⟩ := ih (s := v) (l := queue.drop k) (left := left) (by rw [vrxb]; exact o)
        (by rw [vcfg]; simp; omega) (by rw [v1]; exact ⟨ok.room, ok.depth, ok.policy⟩)
        (by rw [vrem]; exact rem) (by simpa using hp) (by omega) (by rw [vcfg, hR, venv]; rfl) (by rw [venv]; rfl)
      rw [vcfg, hR] at o2 et
      refine ⟨r2, t, o2, by simp, ?_, ?_⟩
      · rw [et, sum, venv, onward_onward]
        simp
      · rw [if_neg ne, e2]
        simp

/-- The payload reads of a STEP whose FIFO empties before the frame's last byte. -/
theorem rxPayload_part (now : Word) (pays : List (Byte × Nat)) {s : State} {l : List Byte} {left : Nat}
    (h : Holds s.rxb l) (hc : l.length ≤ s.cfg.capRxBytes.toNat) (ok : RxbReady s) (hr : s.rx.remaining.toNat = left)
    (hp : pays.length < left) {fs : List Bool} {bs : List Byte}
    (hf : s.env.flags = flagsAnswered ((readPayload s.cfg l pays).events ++ [.radioFifoNotEmpty false]) ++ fs)
    (hb : s.env.bytes = bytesAnswered (readPayload s.cfg l pays).events ++ bs) :
    ∃ r, Holds r (readPayload s.cfg l pays).held ∧ (pays = [] → r = s.rxb) ∧
      rxPayload now s = .next (((s.served r (readPayload s.cfg l pays).overruns).setRemaining
        (BitVec.ofNat 24 (left - pays.length))).setEnv
        (s.env.onward fs bs s.env.times ((readPayload s.cfg l pays).events ++ [.radioFifoNotEmpty false]))) := by
  obtain ⟨r, t, hh, same, ht, e⟩ := rxPayloadLoop_foretold now pays (fs := false :: fs) (bs := bs) h hc ok hr (by omega)
    (by omega) (by simpa using hf) (by rw [hb, bytesAnswered_readPayload])
  refine ⟨r, hh, same, ?_⟩
  unfold rxPayload
  rw [hr, e, if_neg (by omega)]
  obtain ⟨m, hm⟩ : ∃ m, left - pays.length = m + 1 := ⟨left - pays.length - 1, by omega⟩
  rw [hm, rxPayloadLoop_empty now m (fs := fs) (by rw [ht]; rfl), ht, hm]
  show Host.Outcome.next ((((s.served r _).setRemaining _).setEnv _).setEnv
    (Environment.onward (Environment.onward _ _ _ _ _) _ _ _ _)) = _
  rw [onward_onward]; rfl

/-- The payload reads of a STEP that reaches the frame's last byte. -/
theorem rxPayload_all (now : Word) (pays : List (Byte × Nat)) {s : State} {l : List Byte} (h : Holds s.rxb l)
    (hc : l.length ≤ s.cfg.capRxBytes.toNat) (ok : RxbReady s) (hp : pays.length = s.rx.remaining.toNat)
    (h1 : 1 ≤ s.rx.remaining.toNat) {fs : List Bool} {bs : List Byte}
    (hf : s.env.flags = flagsAnswered (readPayload s.cfg l pays).events ++ fs)
    (hb : s.env.bytes = bytesAnswered (readPayload s.cfg l pays).events ++ bs) :
    ∃ r, Holds r (readPayload s.cfg l pays).held ∧
      rxPayload now s = rxFrameComplete now (((s.served r (readPayload s.cfg l pays).overruns).setRemaining 0).setEnv
        (s.env.onward fs bs s.env.times (readPayload s.cfg l pays).events)) := by
  obtain ⟨r, t, hh, -, ht, e⟩ := rxPayloadLoop_foretold now pays (fs := fs) (bs := bs) h hc ok rfl (by omega) h1 hf
    (by rw [hb, bytesAnswered_readPayload])
  refine ⟨r, hh, ?_⟩
  unfold rxPayload
  rw [e, if_pos hp, ht, hp, Nat.sub_self]; rfl

/-- Reading in Rx mode, RX_ACTIVE, short of a frame's end (43_rxdeframer.md R233): `fed` goes to the detector, then the
payload bytes `pays` are read, and `query` is the last look at an empty FIFO, where there is one. -/
theorem rxActive_part (now : Word) {s : State} {l fed : List Byte} {pays : List (Byte × Nat)} {query : List Event}
    (h : Holds s.rxb l) (hc : l.length ≤ s.cfg.capRxBytes.toNat) (ok : RxbReady s) (hn : 1 ≤ s.cfg.n.toNat)
    (hk : s.rx.sync = .locked ↔ s.rx.remaining ≠ 0)
    (hfed : (s.rx.sync = .locked ∧ fed = []) ∨ (s.rx.sync ≠ .locked ∧ fed.length ≤ 1))
    (hpays : pays = [] ∨ pays.length < payloadDue s fed)
    (hq : query = if fed = [] ∨ payloadDue s fed ≠ 0 then [.radioFifoNotEmpty false] else [])
    {fs : List Bool} {bs : List Byte}
    (hf : s.env.flags = flagsAnswered (fed.flatMap readEvents ++ (readPayload s.cfg l pays).events ++ query) ++ fs)
    (hb : s.env.bytes = bytesAnswered (fed.flatMap readEvents ++ (readPayload s.cfg l pays).events ++ query) ++ bs) :
    ∃ r, Holds r (readPayload s.cfg l pays).held ∧ (pays = [] → r = s.rxb) ∧
      rxActive now s = .next (((if s.rx.sync = .firstByteMatched ∧ fed ≠ [] ∧ fed ≠ [s.cfg.sync1]
          then raise .syncLoss else id)
        ((s.served r (readPayload s.cfg l pays).overruns).setRx { s.rx with
          sync := sdRun s.cfg.sync0 s.cfg.sync1 s.rx.sync fed
          remaining := if payloadDue s fed ≠ 0 then BitVec.ofNat 24 (payloadDue s fed - pays.length)
            else s.rx.remaining })).setEnv
        (s.env.onward fs bs s.env.times (fed.flatMap readEvents ++ (readPayload s.cfg l pays).events ++ query))) := by
  have bq : bytesAnswered query = [] := by rw [hq]; split <;> rfl
  rcases hfed with ⟨hl, rfl⟩ | ⟨hl, hlen⟩
  · have due := payloadDue_locked hl []
    have d0 : payloadDue s [] ≠ 0 := by
      rw [due]; exact fun hz => hk.mp hl (BitVec.eq_of_toNat_eq hz)
    rw [if_pos (.inl rfl)] at hq
    subst hq
    have hp : pays.length < payloadDue s [] := hpays.elim (fun hp => by rw [hp]; simp; omega) id
    obtain ⟨r, h1, h2, h3⟩ := rxPayload_part now pays (fs := fs) (bs := bs) h hc ok due.symm hp (by simpa using hf)
      (by simpa using hb)
    refine ⟨r, h1, h2, ?_⟩
    rw [rxActive_locked now hl, h3, if_neg (by rintro ⟨h, -⟩; rw [hl] at h; cases h), if_pos d0]
    rfl
  · match fed, hlen with
    | [], _ =>
      have due := payloadDue_nil hl
      obtain rfl : pays = [] := hpays.elim id fun h => by omega
      rw [if_pos (.inl rfl)] at hq
      subst hq
      refine ⟨s.rxb, h, fun _ => rfl, ?_⟩
      rw [rxActive_unlocked now hl (rxSyncFeed_empty (fs := fs) (by simpa [readPayload] using hf)) hl]
      rw [if_neg (by rintro ⟨-, h, -⟩; exact h rfl), due, if_neg (by simp)]
      have b' : s.env.bytes = bs := by simpa [readPayload] using hb
      simp only [id, List.flatMap_nil, List.nil_append, readPayload, served_none, b']
      rfl
    | [b], _ =>
      have due := payloadDue_fed hl b
      have lost : (sdFeed s.cfg.sync0 s.cfg.sync1 s.rx.sync b).2 = true ↔
          (s.rx.sync = .firstByteMatched ∧ [b] ≠ [] ∧ [b] ≠ [s.cfg.sync1]) := by
        unfold sdFeed
        cases hs : s.rx.sync
        · simp; split <;> rfl
        · by_cases h1 : b = s.cfg.sync1
          · simp [h1]
          · simp only [if_neg h1]; split <;> simp [h1]
        · exact absurd hs hl
      have feed := rxSyncFeed_byte (s := s) (b := b)
        (bs := bytesAnswered ((readPayload s.cfg l pays).events ++ query) ++ bs)
        (fs := flagsAnswered ((readPayload s.cfg l pays).events ++ query) ++ fs) (by rw [hf]; simp [readEvents])
        (by rw [hb]; simp [readEvents])
      generalize hw : rxSyncFeed s = w at feed
      have same : w = ((if s.rx.sync = .firstByteMatched ∧ [b] ≠ [] ∧ [b] ≠ [s.cfg.sync1] then raise .syncLoss else id)
          (s.setRx { s.rx with
            sync := sdRun s.cfg.sync0 s.cfg.sync1 s.rx.sync [b]
            remaining := if sdRun s.cfg.sync0 s.cfg.sync1 s.rx.sync [b] = .locked then s.cfg.n
              else s.rx.remaining })).setEnv
          (s.env.onward (flagsAnswered ((readPayload s.cfg l pays).events ++ query) ++ fs)
            (bytesAnswered ((readPayload s.cfg l pays).events ++ query) ++ bs) s.env.times (readEvents b)) := by
        rw [feed, rxFeed_eq]
        have run : sdRun s.cfg.sync0 s.cfg.sync1 s.rx.sync [b] = (sdFeed s.cfg.sync0 s.cfg.sync1 s.rx.sync b).1 := rfl
        by_cases hl : s.rx.sync = .firstByteMatched ∧ [b] ≠ [] ∧ [b] ≠ [s.cfg.sync1]
        · rw [if_pos hl]
          simp [State.setEnv, State.setRx, lost.mpr hl, run, raise, State.setErr, State.setCounters, Cause.count,
            readEvents]
        · rw [if_neg hl]
          have : (sdFeed s.cfg.sync0 s.cfg.sync1 s.rx.sync b).2 = false := by simpa using mt lost.mp hl
          simp [State.setEnv, State.setRx, this, run, readEvents]
      have ws : w.rx.sync = sdRun s.cfg.sync0 s.cfg.sync1 s.rx.sync [b] := by rw [same]; split <;> rfl
      by_cases hlk : sdRun s.cfg.sync0 s.cfg.sync1 s.rx.sync [b] = .locked
      · have d0 : payloadDue s [b] = s.cfg.n.toNat := by rw [due]; exact if_pos hlk
        have dn : payloadDue s [b] ≠ 0 := by omega
        have keeps : ¬ (s.rx.sync = .firstByteMatched ∧ [b] ≠ [] ∧ [b] ≠ [s.cfg.sync1]) := by
          rintro ⟨hs, -, h3⟩
          have : sdRun s.cfg.sync0 s.cfg.sync1 s.rx.sync [b] =
              if b = s.cfg.sync0 then .firstByteMatched else .searching := by
            show (sdFeed _ _ _ b).1 = _
            rw [hs]; unfold sdFeed; simp only
            rw [if_neg (by rintro rfl; exact h3 rfl)]; split <;> rfl
          rw [hlk] at this; split at this <;> cases this
        rw [if_pos hlk, if_neg keeps] at same
        rw [if_pos (.inr dn)] at hq
        have hp : pays.length < payloadDue s [b] := hpays.elim (fun hp => by rw [hp]; simp; omega) id
        have wc : w.cfg = s.cfg := by rw [same]; rfl
        obtain ⟨r, h1, h2, h3⟩ := rxPayload_part now pays (s := w) (l := l) (left := payloadDue s [b]) (fs := fs)
          (bs := bs) (by rw [same]; exact h) (by rw [wc]; exact hc) (by rw [same]; exact ⟨ok.room, ok.depth, ok.policy⟩)
          (by rw [same, d0]; rfl) hp (by rw [wc, same, hq]; rfl) (by rw [wc, same]; simp [bq])
        rw [wc] at h1 h3
        refine ⟨r, h1, by rw [same] at h2; exact h2, ?_⟩
        rw [rxActive_locks now hl hw (ws.trans hlk), h3, if_pos dn, if_neg keeps, same, hq]
        simp [State.served, State.setRemaining, State.setRx, State.setEnv, Environment.onward]
      · have d0 : payloadDue s [b] = 0 := by rw [due]; exact if_neg hlk
        rw [if_neg hlk] at same
        rw [if_neg (by rintro (h | h); cases h; exact h d0)] at hq
        obtain rfl : pays = [] := hpays.elim id fun h => by omega
        subst hq
        refine ⟨s.rxb, h, fun _ => rfl, ?_⟩
        rw [rxActive_unlocked now hl hw (by rw [ws]; exact hlk), same, d0, if_neg (by simp : ¬ (0 : Nat) ≠ 0)]
        simp only [readPayload, List.append_nil, flagsAnswered_nil, bytesAnswered_nil, List.nil_append, List.flatMap_cons,
          List.flatMap_nil, served_none]

/-! ### The arms of the two dispatchers -/

/-- A running transmitter with a request pending does nothing in phase (b). -/
theorem txStep_pending (now : Word) {s : State} (run : TxRunning s) (hp : s.arb.pending = true) :
    txStep now s = .next s := by
  unfold TxRunning at run
  unfold txStep
  cases hs : s.tx.state <;> simp only [hs] at run ⊢
  · simp only [txIdle]; rw [if_neg (by simp [hp])]
  · simp only [txWaitMode]; rw [if_neg (by simp [hp])]
  · rw [run.1] at hp; cases hp
  · rw [run.1] at hp; cases hp

/-- A running receiver with a request pending does nothing in its arm, and is not in RX_ACTIVE. -/
theorem rxPhaseArm_pending (now : Word) {s : State} (run : RxModes s) (hp : s.arb.pending = true) :
    rxPhaseArm now s = .next s ∧ s.rx.phase ≠ .active := by
  unfold RxModes at run
  unfold rxPhaseArm
  cases hs : s.rx.phase <;> simp only [hs] at run ⊢
  · rw [run.1] at hp; cases hp
  · simp only [rxWaitMode]; rw [if_neg (by simp [hp])]; simp
  · rw [run.1] at hp; cases hp
  · simp only [rxCycleIdle]; rw [if_neg (by simp [hp])]; simp

/-- In RX_START, and in RX_CYCLE_IDLE once Idle is confirmed, the arm requests Rx. -/
theorem rxPhaseArm_requests (now : Word) {s : State} (run : RxModes s) (hq : s.arb.pending = false → s.arb.req = s.arb.cur)
    (hs : s.rx.phase = .start ∨ (s.rx.phase = .cycleIdle ∧ s.arb.pending = false)) :
    rxPhaseArm now s = .next (((doSetMode .rx s).setArb ⟨.idle, .rx, true, now⟩).setRxPhase .waitMode) := by
  unfold RxModes at run
  have hpc : s.arb.pending = false ∧ s.arb.cur = .idle := by
    rcases hs with hs | ⟨hs, hp⟩ <;> rw [hs] at run
    · exact run
    · exact ⟨hp, (hq hp).symm.trans run.1⟩
  unfold rxPhaseArm rxStart rxCycleIdle requestAndEnter
  rcases hs with hs | ⟨hs, -⟩ <;> rw [hs] <;> simp only
  · rw [if_pos hpc.1, requestMode_free now hpc.1 (by rw [hpc.2]; decide)]
    simp [hpc.2]
  · rw [if_pos hpc, requestMode_free now hpc.1 (by rw [hpc.2]; decide)]
    simp [hpc.2]

/-- With Rx confirmed, in RX_ACTIVE or falling through from RX_WAIT_MODE, the arm reads the radio FIFO. -/
theorem rxPhaseArm_reads (now : Word) {s : State} (run : RxModes s) (hq : s.arb.pending = false → s.arb.req = s.arb.cur)
    (hs : s.rx.phase = .active ∨ (s.rx.phase = .waitMode ∧ s.arb.pending = false)) :
    rxPhaseArm now s = rxActive now (s.setRxPhase .active) ∧ s.arb.pending = false ∧ s.arb.cur = .rx := by
  unfold RxModes at run
  unfold rxPhaseArm
  rcases hs with hs | ⟨hs, hp⟩ <;> rw [hs] at run <;> rw [hs] <;> simp only
  · refine ⟨?_, run⟩
    congr 1
    have : s.rx = { s.rx with phase := .active } := by rw [← hs]
    rw [State.setRxPhase, State.setRx, ← this]
  · have hc := (hq hp).symm.trans run.1
    refine ⟨?_, hp, hc⟩
    unfold rxWaitMode
    rw [if_pos ⟨hp, hc⟩]

end Sys2Proof.Machine
end

