-- ==== Sys2Proof/Laws/PerInstr.lean ====
section
/-! SUPPORT. What is said of every command, one lemma per constructor. -/

namespace Sys2Proof.Laws.MatchesTable

/-- The `mask` and the `match` of the command's row of the opcode table (30_encoding.md R113). -/
def row : Instr → CommandWord × CommandWord
  | .nop => (0xFFFFFFFFFFFFFFFF, 0x0000000000000000)
  | .begin => (0xFFFFFFFFFFFFFFFF, 0x0100000000000000)
  | .step => (0xFFFFFFFFFFFFFFFF, 0x0200000000000000)
  | .csrRead _ => (0xFF00FFFFFFFFFFFF, 0x0300000000000000)
  | .csrWrite _ _ => (0xFF00FFFF00000000, 0x0400000000000000)
  | .rxCancel => (0xFFFFFFFFFFFFFFFF, 0x0500000000000000)

/-- The command is well formed, and its word matches its row of the table. -/
def Statement (i : Instr) : Prop := i.wellFormed = true ∧ encode i &&& (row i).1 = (row i).2

theorem nop : Statement .nop := ⟨rfl, rfl⟩

theorem begin : Statement .begin := ⟨rfl, rfl⟩

theorem step : Statement .step := ⟨rfl, rfl⟩

theorem csrRead (addr : CsrAddr) : Statement (.csrRead addr) := by
  refine ⟨?_, ?_⟩ <;> revert addr <;> decide +kernel

theorem csrWrite (addr : CsrAddr) (value : Word) : Statement (.csrWrite addr value) := by
  refine ⟨rfl, ?_⟩
  have mask : ∀ k, k < 64 →
      (0xFF00FFFF00000000 : CommandWord).getLsbD k = (decide (32 ≤ k) && (decide (k < 48) || decide (56 ≤ k))) := by
    decide
  have code : ∀ k, k < 64 →
      (0x0400000000000000 : CommandWord).getLsbD k = (decide (56 ≤ k) && (0x04 : BitVec 8).getLsbD (k - 56)) := by
    decide
  apply BitVec.eq_of_getLsbD_eq
  intro k hk
  simp only [row, encode, wordOf, Instr.fields, BitVec.getLsbD_append, BitVec.getLsbD_and]
  rw [mask k hk, code k hk]
  by_cases h1 : k < 32
  · simp [h1, show ¬ 32 ≤ k by omega, show ¬ 56 ≤ k by omega]
  · by_cases h2 : k - 32 < 16
    · simp [h1, h2, show ¬ 56 ≤ k by omega]
    · by_cases h3 : k - 32 - 16 < 8
      · simp [h1, h2, h3, show ¬ k < 48 by omega, show ¬ 56 ≤ k by omega]
      · simp [h1, h2, h3, show 32 ≤ k by omega, show 56 ≤ k by omega, show k - 32 - 16 - 8 = k - 56 by omega]

theorem rxCancel : Statement .rxCancel := ⟨rfl, rfl⟩

end Sys2Proof.Laws.MatchesTable
end

