-- ==== Sys2Proof/Tests/Slice0.lean ====
section
/-! SUPPORT. Tests on small states, the smoke test of WellFormed, and the witnesses that the hypotheses of the
obligations are met. Expected results are worked out from the spec by hand. -/

namespace Sys2Proof.Tests

open Sys2Proof.Machine Sys2Proof.Claims

/-! ### WellFormed: a word refused by each check, and by that check alone -/

def failsOnly (f : CommandFields) : List Bool :=
  [f.opAssigned, f.rsvIsZero, f.selIsZeroUnlessUsed, f.dataIsZeroUnlessUsed]

theorem test_op_assigned : failsOnly ⟨0x06, 0, 0, 0⟩ = [false, true, true, true] := by decide

theorem test_rsv_is_zero : failsOnly ⟨0x04, 0, 1, 0⟩ = [true, false, true, true] := by decide

theorem test_sel_is_zero : failsOnly ⟨0x05, 0x10, 0, 0⟩ = [true, true, false, true] := by decide

theorem test_data_is_zero : failsOnly ⟨0x03, 0, 0, 1⟩ = [true, true, true, false] := by decide

theorem test_ill_formed_words :
    [(⟨0x06, 0, 0, 0⟩ : CommandFields), ⟨0x04, 0, 1, 0⟩, ⟨0x05, 0x10, 0, 0⟩, ⟨0x03, 0, 0, 1⟩].map (fun f => f.wellFormed)
      = [false, false, false, false] := by decide

/-! ### Decoding: words written bit by bit from the encodings of 30_encoding.md R111, R113 -/

/-- OP 00000000, all else 0. -/
theorem test_decode_nop :
    decode 0b0000000000000000000000000000000000000000000000000000000000000000 = .command .nop := by decide

/-- OP 00000001. -/
theorem test_decode_begin :
    decode 0b0000000100000000000000000000000000000000000000000000000000000000 = .command .begin := by decide

/-- OP 00000010. -/
theorem test_decode_step :
    decode 0b0000001000000000000000000000000000000000000000000000000000000000 = .command .step := by decide

/-- OP 00000011, SEL 10000001. -/
theorem test_decode_csrRead :
    decode 0b0000001110000001000000000000000000000000000000000000000000000000 = .command (.csrRead 0x81) := by decide

/-- OP 00000100, SEL 00000101, DATA 10000000000000000000000000001100. -/
theorem test_decode_csrWrite :
    decode 0b0000010000000101000000000000000010000000000000000000000000001100
      = .command (.csrWrite 0x05 0x8000000C) := by decide

/-- OP 00000101. -/
theorem test_decode_rxCancel :
    decode 0b0000010100000000000000000000000000000000000000000000000000000000 = .command .rxCancel := by decide

/-- RSV's two end bits, 47 and 32, are read. -/
theorem test_decode_rsv :
    decode 0b0000010000000000100000000000000000000000000000000000000000000000 = .illegal .reservedField ∧
    decode 0b0000000000000000000000000000000100000000000000000000000000000000 = .illegal .reservedField := by decide

/-- The host's question, on the row of CSR_WRITE with its operand bits 0. -/
theorem test_decodeTableWord : decodeTableWord 64 0x0400000000000000 = some (.csrWrite 0 0) := by decide

/-! ### The assembler (30_encoding.md R117, R118) -/

theorem test_assemble_lines :
    assemble "steps 2 ; comment\n\nSETCTRL 1, 2, 1, 0xFF\nsteps 0" =
      [some [0x0200000000000000, 0x0200000000000000], some [], some [0x040700000000FF0D], none] := by decide

theorem test_assemble_errors :
    assembleLine "csrw 7, 4294967296" = none ∧ assembleLine "csrr 256" = none ∧ assembleLine "csrw CFG_SYNC 1" = none := by
  decide

/-! ### Small states

N = 2, marker 0x37 0x69, CAP_TX = CAP_RX = 4, FLUSH_TO = 50, LINK_TO = 1000, HW_WAIT_TO = 100, PAD = 0xEE. -/

/-- Registers with this CFG_CTRL. -/
def regs (ctrl : Word) : ConfigRegs := ⟨2, 0x6937, 50, 1000, 100, 4, 4, ctrl⟩

/-- A machine with empty buffers and these answers foretold. -/
def machine (core : CoreState) (ctrl : Word) (tx : TxFramer) (rx : RxDeframer) (arb : ModeArbiter) (flags : List Bool)
    (bytes : List Byte) (times : List Word) : State where
  coreState := core
  cfg := regs ctrl
  err := 0
  counters := ⟨0, 0, 0, 0, 0, 0, 0⟩
  txb := ⟨[], 0, 0⟩
  rxb := ⟨[], 0, 0⟩
  tx := tx
  rx := rx
  arb := arb
  params := ⟨4, 8, 8⟩
  host := ⟨[], []⟩
  env := ⟨flags, bytes, times, 0, []⟩

def quietTx : TxFramer := ⟨[], 0, .idle, 0, 0⟩
def quietRx : RxDeframer := ⟨.start, .searching, 0, 0⟩
def settledIdle : ModeArbiter := ⟨.idle, .idle, false, 0⟩

/-- A machine in UNINIT, or in FAILED. -/
def still (core : CoreState) (flags : List Bool) (times : List Word) : State :=
  machine core 0xEE00 quietTx quietRx settledIdle flags [] times

def failedState : State := { still .failed [] [] with err := 0x002 }

/-- Running transmitters: in a state, with the FRAME payload [0xA1, 0xA2]. -/
def sender (state : TxState) (pos : Pos) (arb : ModeArbiter) (flags : List Bool) (bytes : List Byte) (times : List Word) :
    State :=
  machine .run 0xEE00 ⟨[(0, 0xA1), (1, 0xA2)], pos, state, 0, 0⟩ quietRx arb flags bytes times

/-- TXB holds these bytes. -/
def holding (d : Memory) (n : Count) (s : State) : State := { s with txb := ⟨d, n, n⟩ }

/-- RXB holds these bytes. -/
def received (d : Memory) (n : Count) (s : State) : State := { s with rxb := ⟨d, n, n⟩ }

/-- Running receivers, with RX_IDLE_CYCLE 0 or 1. -/
def listener (ctrl : Word) (phase : RxPhase) (sync : SyncState) (remaining : Count) (arb : ModeArbiter)
    (flags : List Bool) (bytes : List Byte) (times : List Word) : State :=
  machine .run ctrl quietTx ⟨phase, sync, remaining, 0⟩ arb flags bytes times

/-- The next state, if there is one. -/
def after (r : Result State) : Option State :=
  match r with
  | .next t => some t
  | .fault _ => none
  | .refused _ => none

theorem next_of_after {r : Result State} {t : State} (h : after r = some t) : r = .next t := by
  unfold after at h; split at h
  · simpa using h
  · cases h
  · cases h

theorem ends {r : Result State} (h : (after r).isSome = true) : ∃ t, r = .next t := by
  cases r with
  | next t => exact ⟨t, rfl⟩
  | fault f => cases h
  | refused f => cases h

/-- The invariant's clauses of a running transmitter, as a check. -/
def txCheck (s : State) : Bool :=
  Memory.wf s.txb.data && Memory.wf s.rxb.data && Memory.wf s.tx.payload
    && decide (s.txb.writePos = s.txb.pending ∧ s.rxb.writePos = s.rxb.pending ∧ s.txb.pending ≤ s.cfg.capTxBytes
      ∧ s.rxb.pending ≤ s.cfg.capRxBytes ∧ (s.arb.pending = false → s.arb.req = s.arb.cur)
      ∧ s.err.getLsbD 0 = false ∧ s.err.getLsbD 1 = false ∧ configLegal s = true ∧ s.coreState = .run ∧ s.cfg.role = .tx
      ∧ s.rxb.pending = 0 ∧ s.rx.phase = .start ∧ s.rx.sync = .searching ∧ s.rx.remaining = 0)
    && match s.tx.state with
      | .idle => decide ((s.arb.pending = false → s.arb.cur = .idle) ∧
          (s.arb.pending = true → s.arb.req = .idle ∧ s.arb.cur = .tx) ∧ (s.tx.pos = 0 ∨ s.tx.pos = wireEnd s))
      | .waitMode => decide (s.arb.req = .tx ∧ (s.arb.pending = true → s.arb.cur = .idle) ∧ s.tx.pos = 0)
      | .send => decide (s.arb.pending = false ∧ s.arb.cur = .tx ∧ s.tx.pos < wireEnd s)
      | .drain => decide (s.arb.pending = false ∧ s.arb.cur = .tx ∧ s.tx.pos = wireEnd s)

theorem transmitting_of {s : State} (h : txCheck s = true) : transmitting s := by
  simp only [txCheck, Bool.and_eq_true, decide_eq_true_eq] at h
  obtain ⟨⟨⟨⟨w1, w2⟩, w3⟩, a, b, c, d, e, f0, f1, l, r, ro, q⟩, m⟩ := h
  refine ⟨{ txbWf := w1, rxbWf := w2, payloadWf := w3, txbSlide := a, rxbSlide := b, txbFits := c, rxbFits := d,
            settled := e, fatal := ?_, quiet := ?_, legal := fun _ => l, transmitter := ?_, receiver := ?_ }, r, ro⟩
  · exact ⟨fun h => (by rw [r] at h; cases h),
      fun h => h.elim (fun h => by rw [f0] at h; cases h) (fun h => by rw [f1] at h; cases h)⟩
  · intro h; exact absurd r h
  · intro _ _
    refine ⟨?_, ⟨q.1, q.2.1, q.2.2.1, q.2.2.2⟩⟩
    revert m; unfold TxRunning
    cases s.tx.state <;> exact fun m => of_decide_eq_true m
  · intro _ h; rw [ro] at h; cases h

/-- The invariant's clauses of a running receiver, as a check. -/
def rxCheck (s : State) : Bool :=
  Memory.wf s.txb.data && Memory.wf s.rxb.data && Memory.wf s.tx.payload
    && decide (s.txb.writePos = s.txb.pending ∧ s.rxb.writePos = s.rxb.pending ∧ s.txb.pending ≤ s.cfg.capTxBytes
      ∧ s.rxb.pending ≤ s.cfg.capRxBytes ∧ (s.arb.pending = false → s.arb.req = s.arb.cur)
      ∧ s.err.getLsbD 0 = false ∧ s.err.getLsbD 1 = false ∧ configLegal s = true ∧ s.coreState = .run ∧ s.cfg.role = .rx
      ∧ s.txb.pending = 0 ∧ s.tx.state = .idle ∧ s.tx.pos = 0)
    && decide ((s.rx.phase ≠ .active → s.rx.sync = .searching) ∧ (s.rx.sync = .locked ↔ s.rx.remaining ≠ 0)
      ∧ s.rx.remaining ≤ s.cfg.n ∧ (s.rx.phase = .cycleIdle → s.cfg.rxIdleCycle = true))
    && match s.rx.phase with
      | .start => decide (s.arb.pending = false ∧ s.arb.cur = .idle)
      | .waitMode => decide (s.arb.req = .rx ∧ (s.arb.pending = true → s.arb.cur = .idle))
      | .active => decide (s.arb.pending = false ∧ s.arb.cur = .rx)
      | .cycleIdle => decide (s.arb.req = .idle ∧ (s.arb.pending = true → s.arb.cur = .rx))

theorem receiving_of {s : State} (h : rxCheck s = true) : receiving s := by
  simp only [rxCheck, Bool.and_eq_true, decide_eq_true_eq] at h
  obtain ⟨⟨⟨⟨⟨w1, w2⟩, w3⟩, a, b, c, d, e, f0, f1, l, r, ro, q⟩, g1, g2, g3, g4⟩, m⟩ := h
  refine ⟨{ txbWf := w1, rxbWf := w2, payloadWf := w3, txbSlide := a, rxbSlide := b, txbFits := c, rxbFits := d,
            settled := e, fatal := ?_, quiet := ?_, legal := fun _ => l, transmitter := ?_, receiver := ?_ }, r, ro⟩
  · exact ⟨fun h => (by rw [r] at h; cases h),
      fun h => h.elim (fun h => by rw [f0] at h; cases h) (fun h => by rw [f1] at h; cases h)⟩
  · intro h; exact absurd r h
  · intro _ h; rw [ro] at h; cases h
  · intro _ _
    refine ⟨⟨?_, g1, g2, g3, g4⟩, ⟨q.1, q.2.1, q.2.2⟩⟩
    revert m; unfold RxModes
    cases s.rx.phase <;> exact fun m => of_decide_eq_true m

/-! ### One step of each command -/

theorem test_nop : exec .nop failedState = .next (answered .ok 0 failedState) := by
  apply next_of_after; decide

/-- N = 2 fits FRAME_MAX = 4 and CAP_TX = 4: the radio is asked, and answers yes. -/
theorem test_begin_ok :
    exec .begin (still .uninit [true] [7]) = .next (answered .ok 0 { still .run [] [] with
      rx := { quietRx with tLink := 7 }
      env := ⟨[], [], [], 0, [.timeNow 7, .radioBegin true]⟩ }) := by
  apply next_of_after; decide

/-- POLICY 3 is illegal: BAD_CONFIG, and the radio is not asked. -/
theorem test_begin_bad_config :
    exec .begin (machine .uninit 0x0006 quietTx quietRx settledIdle [true] [] [7]) =
      .next (answered .err 0 { machine .failed 0x0006 quietTx quietRx settledIdle [true] [] [] with
        err := 0x002
        env := ⟨[true], [], [], 0, [.timeNow 7]⟩ }) := by
  apply next_of_after; decide

/-- The source offers 0xB1 and then nothing; FLUSH_TO has not passed, so no frame is due. -/
theorem test_step_drain :
    exec .step (sender .idle 0 settledIdle [true, false] [0xB1] [9]) =
      .next (answered .ok 0 { sender .idle 0 settledIdle [] [] [] with
        txb := ⟨[(0, 0xB1)], 1, 1⟩
        tx := ⟨[(0, 0xA1), (1, 0xA2)], 0, .idle, 9, 0⟩
        env := ⟨[], [], [], 0, [.timeNow 9, .srcValid true, .srcData 0xB1, .srcTake, .srcValid false]⟩ }) := by
  apply next_of_after; decide

/-- In FirstByteMatched the first marker byte again: a spurious match, and the detector stays. -/
theorem test_step_spurious_match :
    exec .step (listener 0xEE01 .active .firstByteMatched 0 ⟨.rx, .rx, false, 0⟩ [true] [0x37] [9]) =
      .next (answered .ok 0 { listener 0xEE01 .active .firstByteMatched 0 ⟨.rx, .rx, false, 0⟩ [] [] [] with
        err := 0x080
        counters := ⟨0, 0, 0, 0, 0, 1, 0⟩
        env := ⟨[], [], [], 0, [.timeNow 9, .radioFifoNotEmpty true, .radioRead 0x00 0x37]⟩ }) := by
  apply next_of_after; decide

/-- STATUS: RUN 1, MODE_CUR Rx 1 at 2, MODE_REQ Rx 1 at 4, RX_ACTIVE 2 at 10, Locked 2 at 12. -/
theorem test_csrRead_status :
    exec (.csrRead 0x10) (listener 0xEE01 .active .locked 2 ⟨.rx, .rx, false, 0⟩ [] [] []) =
      .next (answered .ok 0x00002815 (listener 0xEE01 .active .locked 2 ⟨.rx, .rx, false, 0⟩ [] [] [])) := by
  apply next_of_after; decide

theorem test_csrRead_unassigned :
    exec (.csrRead 0x17) failedState = .next (answered .err 0 { failedState with err := 0x202 }) := by
  apply next_of_after; decide

/-- CFG_CTRL keeps bits 15:8 and 3:0 only. -/
theorem test_csrWrite_ctrl :
    exec (.csrWrite 0x07 0xFFFFFFFF) (still .uninit [] []) =
      .next (answered .ok 0 (machine .uninit 0x0000FF0F quietTx quietRx settledIdle [] [] [])) := by
  apply next_of_after; decide

/-- Write 1 to clear: the fatal bit 1 stays, bit 9 goes, bit 2 stays for want of a 1. -/
theorem test_csrWrite_err :
    exec (.csrWrite 0x15 0xFFFFFFFB) { failedState with err := 0x206 } =
      .next (answered .ok 0 { failedState with err := 0x006 }) := by
  apply next_of_after; decide

theorem test_rxCancel :
    exec .rxCancel (listener 0xEE01 .active .locked 2 ⟨.rx, .rx, false, 0⟩ [] [] []) =
      .next (answered .ok 0 (listener 0xEE01 .active .searching 0 ⟨.rx, .rx, false, 0⟩ [] [] [])) := by
  apply next_of_after; decide

theorem test_rxCancel_uninit :
    exec .rxCancel (still .uninit [] []) = .next (answered .err 0 (still .uninit [] [])) := by
  apply next_of_after; decide

/-! ### Witnesses: for each obligation with hypotheses, values that meet all of them together -/

theorem ends_with {r : Result State} (p : State → Bool) (h : (after r).any p = true) : ∃ t, r = .next t ∧ p t = true := by
  cases r with
  | next t => exact ⟨t, rfl, h⟩
  | fault f => cases h
  | refused f => cases h

theorem witness_DecodedWordIsEncoding : decode 0x0401000000006937 = .command (.csrWrite 0x01 0x6937) := by decide

/-- The four kinds of illegal word at the ends of their ranges, and their neighbours that are commands. -/
theorem witness_IllegalWordsExactly :
    ([0x0600000000000000, 0xFF00000000000000, 0x0400000100000000, 0x0300800000000000, 0x0001000000000000,
      0x05FF000000000000, 0x0000000000000001, 0x0280000000000000, 0x0180000000000000, 0x0300000000000001,
      (0x0310000080000000 : CommandWord)].all fun w => (decode w).toOption.isNone) = true ∧
    ([0x0500000000000000, 0x03FF000000000000, (0x04FF0000FFFFFFFF : CommandWord)].all
      fun w => (decode w).toOption.isSome) = true ∧
    ([0x08, 0x0F, 0x16, 0x17, 0x1F, (0xFF : CsrAddr)].all fun a => unassigned a) = true ∧
    ([0x00, 0x07, 0x10, 0x15, 0x18, (0x1E : CsrAddr)].all fun a => !unassigned a) = true := by decide

theorem witness_OpcodeMatchMask :
    (0x03FF000000000000 : CommandWord) &&& 0xFF00FFFFFFFFFFFF = 0x0300000000000000 ∧
    (0x04FF0000FFFFFFFF : CommandWord) &&& 0xFF00FFFF00000000 = 0x0400000000000000 ∧
    opOf 0x0600000000000000 = 6 ∧ opOf 0xFFFFFFFFFFFFFFFF = 255 := by decide

theorem witness_AssemblerPseudo :
    number "1".toList = some 1 ∧ number "0x37".toList = some 0x37 ∧
    number "16777215".toList = some 16777215 ∧ number "255".toList = some 255 ∧ (16777215 <<< 8) + 255 < 2 ^ 32 ∧
    number "0".toList = some 0 ∧ (0xFF <<< 8) + (1 <<< 3) + (2 <<< 1) + 1 < 2 ^ 32 := by decide

theorem witness_StepRunsDecodedCommand :
    ({ failedState with host := ⟨[.command 0x0310000000000000, .reset], []⟩ } : State).host.inputs
      = .command 0x0310000000000000 :: [.reset] ∧ decode 0x0310000000000000 = .command (.csrRead 0x10) := by decide

theorem witness_IllegalWordExecution :
    ({ failedState with host := ⟨[.command 0x0600000000000000], []⟩ } : State).host.inputs
      = .command 0x0600000000000000 :: [] ∧ isIllegal 0x0600000000000000 := ⟨rfl, .reservedOp, by decide⟩

theorem witness_ResetInputResets :
    ({ failedState with host := ⟨[.reset, .command 0], []⟩ } : State).host.inputs = .reset :: [.command 0] := rfl

theorem witness_NopCompletes :
    opOf 0x0000000000000001 = 0 ∧ (0x0000000000000001 : CommandWord) ≠ 0 ∧ opOf 0x00FFFFFFFFFFFFFF = 0 := by decide

/-- The three outcomes of BEGIN. -/
theorem witness_BeginOutcomes :
    (configLegal (machine .uninit 0x0006 quietTx quietRx settledIdle [] [] []) = false) ∧
    (configLegal (still .uninit [false] [7]) = true ∧ (still .uninit [false] [7]).env.afterTime.flag = false) ∧
    (configLegal (still .uninit [true] [7]) = true ∧ (still .uninit [true] [7]).env.afterTime.flag = true) := by decide

/-- A transmitter with this N and CAP_TX, or a receiver with this CAP_RX. -/
def sized (ctrl n capTx capRx : Word) : State :=
  { still .uninit [] [] with cfg := { regs ctrl with frameSize := n, capTx := capTx, capRx := capRx } }

/-- FRAME_MAX = 4, TXB_DEPTH_MAX = RXB_DEPTH_MAX = 8: the ends of each range. -/
theorem witness_ConfigLegalRule :
    ([sized 0 1 1 0, sized 0 4 4 0, sized 0 4 8 0, sized 1 1 0 1, sized 1 4 0 8, sized 4 2 2 0].map configLegal
      = [true, true, true, true, true, true]) ∧
    ([sized 0 0 4 0, sized 0 5 8 0, sized 0 4 3 0, sized 0 4 9 0, sized 1 1 0 0, sized 1 1 0 9, sized 6 2 2 0].map configLegal
      = [false, false, false, false, false, false, false]) := by decide

theorem witness_WrongStateCommands :
    failedState.coreState ≠ .uninit ∧ failedState.coreState ≠ .run ∧ (still .uninit [] []).coreState = .uninit ∧
    (sender .idle 0 settledIdle [] [] []).coreState = .run := by decide

theorem witness_BeginAskedAtMostOnce :
    ∃ t, execAll [.begin, .begin] (still .uninit [true] [7]) = .next t ∧ decide (t.coreState = .run) = true :=
  ends_with _ (by decide)

theorem witness_CsrReadValues :
    ([((0x00 : CsrAddr), (2 : Word)), (0x07, 0xEE01), (0x10, 0x2815), (0x14, 2), (0x1E, 0)].all fun p =>
      decide (p ∈ csrTable (listener 0xEE01 .active .locked 2 ⟨.rx, .rx, false, 0⟩ [] [] []))) = true := by decide

theorem witness_CsrReadUnassigned :
    ([0x08, 0x0F, 0x16, 0x17, 0x1F, (0xFF : CsrAddr)].all fun a => decide
      ((0x08 ≤ a.toNat ∧ a.toNat ≤ 0x0F) ∨ a.toNat = 0x16 ∨ a.toNat = 0x17 ∨ (0x1F ≤ a.toNat ∧ a.toNat ≤ 0xFF)))
      = true := by decide

theorem witness_CsrWriteEffects : (still .uninit [] []).coreState = .uninit := rfl

/-- Each clause at the ends of its range; no address is under two of them, and ERR is under none. -/
theorem witness_CsrWriteFailures :
    failedState.coreState ≠ .uninit ∧
    ([0x00, (0x07 : CsrAddr)].all fun a => decide (a.toNat ≤ 0x07) && !unassigned a && !readOnly a) = true ∧
    ([0x10, 0x14, 0x18, (0x1E : CsrAddr)].all fun a => readOnly a && !unassigned a) = true ∧
    ([0x08, 0x0F, 0x16, 0x17, 0x1F, (0xFF : CsrAddr)].all fun a => unassigned a && !readOnly a) = true ∧
    readOnly 0x15 = false ∧ unassigned 0x15 = false := by decide

theorem witness_ConfigReadBack :
    (still .uninit [] []).coreState = .uninit ∧ ((0x07 : CsrAddr), (0x0000FF0F : Word)) ∈ maskTable ∧
    ((0x07 : CsrAddr), (0xEE00 : Word)) ∈ csrTable (still .uninit [] []) ∧
    ((0x00 : CsrAddr), (2 : Word)) ∈ csrTable (still .uninit [] []) := by decide

theorem witness_ConfigLocked :
    failedState.coreState ≠ .uninit ∧ (∃ t, exec .begin (still .uninit [true] [7]) = .next t) ∧
    ∃ t, execAll [.csrWrite 0x00 9, .step] (sender .idle 0 settledIdle [false] [] [9]) = .next t :=
  ⟨by decide, ends (by decide), ends (by decide)⟩

theorem witness_CoreStateWriters :
    ∃ t, exec .begin (still .uninit [true] [7]) = .next t ∧
      decide (t.coreState ≠ (still .uninit [true] [7]).coreState) = true := ends_with _ (by decide)

theorem witness_FailedUntilReset : failedState.coreState = .failed := rfl

theorem witness_ErrorsAndCountersSticky :
    (∃ t, exec .begin failedState = .next t) ∧ failedState.err.getLsbD 1 = true ∧ Instr.begin ≠ .step ∧
    ∀ v, Instr.begin ≠ .csrWrite 0x15 v := ⟨ends (by decide), by decide, by decide, by intro v h; cases h⟩

theorem witness_ErrReadWriteBack : ∃ u, execAll [.csrRead 0x17, .nop] failedState = .next u := ends (by decide)

theorem witness_RxCancelCompletes :
    (listener 0xEE01 .active .locked 2 ⟨.rx, .rx, false, 0⟩ [] [] []).coreState = .run ∧
    transmitting (sender .idle 0 settledIdle [] [] []) := ⟨rfl, transmitting_of (by decide)⟩

theorem witness_OneResponse :
    (∃ t, exec (.csrRead 0x10) failedState = .next t) ∧ (∃ t, exec (.csrRead 0x17) failedState = .next t) ∧
    ∃ t, exec .begin failedState = .next t := ⟨ends (by decide), ends (by decide), ends (by decide)⟩

/-- A transmitter in the middle of a frame: Tx is confirmed, SYNC0 is written, SYNC1 goes out, and then the FIFO is
full. -/
def sending : State := sender .send 1 ⟨.tx, .tx, false, 0⟩ [false, false, true] [] [9]

/-- A receiver with RX_IDLE_CYCLE = 0 and one payload byte to come, the sink ready. -/
def receivingLast : State := listener 0xEE01 .active .locked 1 ⟨.rx, .rx, false, 0⟩ [true, true] [0xC5] [9]

theorem sending_inv : transmitting sending := transmitting_of (by decide)

theorem receivingLast_inv : receiving receivingLast := receiving_of (by decide)

theorem sending_runs : ∃ t, exec .step sending = .next t ∧ decide (radioWrites t.env.trace = [0x69]) = true :=
  ends_with _ (by decide)

theorem receivingLast_runs : ∃ t, exec .step receivingLast = .next t ∧
    decide (radioReads t.env.trace = [0xC5] ∧ readiesAsked t.env.trace = [true]) = true := ends_with _ (by decide)

theorem witness_TimeAskedOnce :
    (∃ t, exec .begin (still .uninit [true] [7]) = .next t) ∧ (∃ t, exec .step sending = .next t) ∧
    ∃ t, exec .nop sending = .next t := ⟨ends (by decide), ends (by decide), ends (by decide)⟩

theorem witness_StepCompletes :
    (Inv sending ∧ sending.coreState = .run ∧ sending.cfg.role = .tx) ∧
    Inv receivingLast ∧ receivingLast.coreState = .run ∧ receivingLast.cfg.role = .rx := ⟨sending_inv, receivingLast_inv⟩

theorem witness_StepKeepsInvariant :
    Inv (State.withFetchWord sending 64 0x0200000000000000) ∧
    ∃ t, step (State.withFetchWord sending 64 0x0200000000000000) = .next t :=
  ⟨(transmitting_of (by decide)).1, ends (by decide)⟩

theorem witness_NoFaultFromInvariant : Inv sending ∧ Inv receivingLast := ⟨sending_inv.1, receivingLast_inv.1⟩

theorem witness_PortDiscipline :
    ∃ t, execAll [.step, .csrRead 0x10] sending = .next t ∧ decide (t.env.trace ≠ []) = true := ends_with _ (by decide)

theorem witness_RolePorts :
    ((∃ t, exec .step sending = .next t) ∧ sending.cfg.role = .tx) ∧
    (∃ t, exec .step receivingLast = .next t) ∧ receivingLast.cfg.role = .rx :=
  ⟨⟨ends (by decide), rfl⟩, ends (by decide), rfl⟩

theorem witness_FifoOnlyInConfirmedMode :
    (Inv sending ∧ ∃ t, exec .step sending = .next t ∧ decide (radioWrites t.env.trace = [0x69]) = true) ∧
    Inv receivingLast ∧ ∃ t, exec .step receivingLast = .next t ∧
      decide (radioReads t.env.trace = [0xC5] ∧ readiesAsked t.env.trace = [true]) = true :=
  ⟨⟨sending_inv.1, sending_runs⟩, receivingLast_inv.1, receivingLast_runs⟩

theorem witness_ModeGraph :
    (transmitting sending ∧ ∃ t, exec .step sending = .next t) ∧
    receiving receivingLast ∧ receivingLast.cfg.rxIdleCycle = false ∧ receivingLast.arb.cur = .rx ∧
    ∃ t, exec .step receivingLast = .next t :=
  ⟨⟨sending_inv, ends (by decide)⟩, receivingLast_inv, rfl, rfl, ends (by decide)⟩

theorem witness_EventBounds :
    (transmitting sending ∧ ∃ t, exec .step sending = .next t) ∧
    receiving receivingLast ∧ ∃ t, exec .step receivingLast = .next t :=
  ⟨⟨sending_inv, ends (by decide)⟩, receivingLast_inv, ends (by decide)⟩

theorem witness_TransmitStream : transmitting sending ∧ sending.cfg.policy = .reject := ⟨sending_inv, by decide⟩

/-- A receiver with the link timeout disabled. -/
def listening : State := { receivingLast with cfg := { regs 0xEE01 with linkTo := 0 } }

theorem witness_ReceiveStream :
    receiving listening ∧ listening.cfg.linkTo = 0 ∧
    ∃ t, execAll [.step] listening = .next t ∧ decide (t.err.getLsbD 3 = false) = true :=
  ⟨receiving_of (by decide), rfl, ends_with _ (by decide)⟩

theorem witness_FrameImagesDeframe :
    1 ≤ (regs 0xEE00).n.toNat ∧ ∀ d ∈ [[], [0xB1], [(0xB1 : Byte), 0xB2]], d.length ≤ (regs 0xEE00).n.toNat := by decide

/-- A transmitter that takes 0xB1, a frame of its own with N = 1, and sends it in three STEPs. -/
def endA : State :=
  { sender .idle 0 settledIdle [true, false, true, false, false, false, false, false, true, true] [0xB1] [1, 2, 3] with
    cfg := { regs 0xEE00 with frameSize := 1, linkTo := 0 } }

/-- A receiver that reads the three bytes of its wire image in three STEPs. -/
def endR : State :=
  { listener 0xEE01 .start .searching 0 settledIdle [true, true, true, true, true] [0x37, 0x69, 0xB1] [1, 2, 3] with
    cfg := { regs 0xEE01 with frameSize := 1, linkTo := 0 } }

theorem witness_EndToEnd :
    (transmitting endA ∧ endA.cfg.policy = .reject ∧ endA.tx.state = .idle ∧ endA.txb.pending = 0) ∧
    (receiving endR ∧ endR.cfg.linkTo = 0 ∧ endR.rx.sync = .searching ∧ endR.rxb.pending = 0) ∧
    (endR.cfg.n = endA.cfg.n ∧ endR.cfg.sync0 = endA.cfg.sync0 ∧ endR.cfg.sync1 = endA.cfg.sync1) ∧
    (∃ t, execAll [.step, .step, .step] endA = .next t ∧
      decide (t.tx.state = .idle ∧ radioWrites t.env.trace = [0x37, 0x69, 0xB1]) = true) ∧
    ∃ u, execAll (List.replicate 3 .step) endR = .next u ∧
      decide (u.err.getLsbD 3 = false ∧ radioReads u.env.trace = [0x37, 0x69, 0xB1]) = true :=
  ⟨⟨transmitting_of (by decide), by decide, by decide, by decide⟩,
    ⟨receiving_of (by decide), by decide, by decide, by decide⟩, by decide,
    ends_with _ (by decide +kernel), ends_with _ (by decide +kernel)⟩

theorem witness_AlwaysReadySink :
    receiving receivingLast ∧ ∃ t, exec .step receivingLast = .next t ∧
      decide (radioReads t.env.trace = [0xC5] ∧ readiesAsked t.env.trace = [true]) = true :=
  ⟨receivingLast_inv, receivingLast_runs⟩

/-- `sending` with another byte beyond those TXB holds. -/
theorem witness_UnspecifiedBytesUnobservable :
    Inv sending ∧ Alike sending { sending with txb := ⟨[(5, 0x77)], 0, 0⟩ } :=
  ⟨sending_inv.1, ⟨by decide, by decide, by decide, by decide, by decide, by decide⟩⟩

/-- TXB with `n` of its four bytes held, under a policy. -/
def filled (ctrl : Word) (d : Memory) (n : Count) : State := holding d n (machine .run ctrl quietTx quietRx settledIdle [] [] [])

def fullData : Memory := [(0, 0xB1), (1, 0xB2), (2, 0xB3), (3, 0xB4)]

theorem witness_AppendRule :
    (BufferReady .txb (filled 0 [(0, 0xB1), (1, 0xB2), (2, 0xB3)] 3) ∧
      ((filled 0 [(0, 0xB1), (1, 0xB2), (2, 0xB3)] 3).buf .txb).pending < (filled 0 [] 3).capacity .txb) ∧
    ∀ p ∈ [((0x0 : Word), Policy.reject), (0x2, .dropNew), (0x4, .dropOld)],
      BufferReady .txb (filled p.1 fullData 4) ∧ (filled p.1 fullData 4).cfg.policy = p.2 ∧
      ((filled p.1 fullData 4).buf .txb).pending = (filled p.1 fullData 4).capacity .txb := by
  refine ⟨⟨⟨by decide, by decide, by decide, by decide, by decide⟩, by decide⟩, ?_⟩
  intro p hp
  have h : p = (0x0, .reject) ∨ p = (0x2, .dropNew) ∨ p = (0x4, .dropOld) := by simpa using hp
  rcases h with rfl | rfl | rfl
  · exact ⟨⟨by decide, by decide, by decide, by decide, by decide⟩, by decide⟩
  · exact ⟨⟨by decide, by decide, by decide, by decide, by decide⟩, by decide⟩
  · exact ⟨⟨by decide, by decide, by decide, by decide, by decide⟩, by decide⟩

theorem witness_AppendListRule :
    BufferReady .txb (filled 0x4 fullData 4) ∧ (filled 0x4 fullData 4).cfg.policy ≠ .reserved :=
  ⟨⟨by decide, by decide, by decide, by decide, by decide⟩, by decide⟩

/-- All that is held, and one more. -/
theorem witness_TakeRule :
    BufferReady .txb (filled 0 fullData 4) ∧ (4 : Count) ≤ ((filled 0 fullData 4).buf .txb).pending ∧
    ((filled 0 fullData 4).buf .txb).pending < 5 :=
  ⟨⟨by decide, by decide, by decide, by decide, by decide⟩, by decide⟩

theorem witness_FifoLaws :
    BufferReady .txb (filled 0 fullData 4) ∧
    (1 : Count).toNat + (3 : Count).toNat ≤ ((filled 0 fullData 4).buf .txb).pending.toNat :=
  ⟨⟨by decide, by decide, by decide, by decide, by decide⟩, by decide⟩

/-- `s` with just the answers recorded in `evs` foretold. -/
def replies (evs : List Event) (s : State) : State :=
  { s with env := ⟨flagsAnswered evs, bytesAnswered evs, timesAsked evs, 0, []⟩ }

theorem foretells_replies (evs : List Event) (s : State) : foretells evs [] [] [] (replies evs s) := by
  simp [foretells, replies]

theorem transmitting_replies {s : State} (h : txCheck s = true) (evs : List Event) : transmitting (replies evs s) :=
  transmitting_of h

theorem receiving_replies {s : State} (h : rxCheck s = true) (evs : List Event) : receiving (replies evs s) :=
  receiving_of h

/-- The events of a source drain. -/
def drain (taken : List Byte) (tail : List Event) : List Event := taken.flatMap takeEvents ++ tail

/-- R147's example: five bytes offered to an empty TXB of four under REJECT, the budget spent as well. -/
theorem test_source_drain :
    ((after (sbFillFromSource 9
        (replies (drain [1, 2, 3, 4] [.srcValid true, .srcOverrun]) (filled 0 [] 0)))).any fun t =>
      decide (t.txb.held = [1, 2, 3, 4] ∧ t.err = 0x004 ∧ t.counters.ovrTx = 1 ∧ t.tx.tFill = 9 ∧
        t.env.trace = [.srcValid true, .srcData 1, .srcTake, .srcValid true, .srcData 2, .srcTake,
          .srcValid true, .srcData 3, .srcTake, .srcValid true, .srcData 4, .srcTake, .srcValid true, .srcOverrun]))
      = true := by decide +kernel

/-- Each ending: under REJECT with the budget spent, and with TXB full from the start; under DROP_OLD with the budget
spent; the source with no more to offer. No ending is another's. -/
theorem witness_SourceDrain :
    (∀ ctrl ∈ [(0x0 : Word), 0x4], BufferReady .txb (filled ctrl fullData 4) ∧
      (filled ctrl fullData 4).cfg.policy ≠ .reserved) ∧
    BufferReady .txb (filled 0 [] 0) ∧
    (drainEnds [1, 2, 3, 4] [.srcValid true, .srcOverrun] (filled 0 [] 0) ∧
      ¬ drainEnds [1, 2, 3, 4] [.srcValid true] (filled 0 [] 0) ∧
      drainEnds [1, 2, 3, 4] [.srcValid false] (filled 0 [] 0)) ∧
    (drainEnds [] [.srcValid true, .srcOverrun] (filled 0 fullData 4) ∧ ¬ drainEnds [1] [.srcValid false] (filled 0 fullData 4)) ∧
    (drainEnds [1, 2, 3, 4] [.srcValid true] (filled 0x4 fullData 4) ∧
      ¬ drainEnds [1, 2, 3] [.srcValid true] (filled 0x4 fullData 4)) ∧
    foretells (drain [1, 2, 3, 4] [.srcValid true]) [] [] []
      (replies (drain [1, 2, 3, 4] [.srcValid true]) (filled 0x4 fullData 4)) := by
  refine ⟨?_, ⟨by decide, by decide, by decide, by decide, by decide⟩, by decide, by decide, by decide,
    foretells_replies _ _⟩
  intro c hc
  have h : c = 0x0 ∨ c = 0x4 := by simpa using hc
  rcases h with rfl | rfl <;> exact ⟨⟨by decide, by decide, by decide, by decide, by decide⟩, by decide⟩

/-- Each row of the table, with a marker of two different bytes and with one of two equal bytes. -/
theorem witness_SyncFeedTable :
    (0x37 : Byte) ≠ 0x69 ∧ sdFeed 0x37 0x37 .firstByteMatched 0x37 = (.locked, false) ∧
    sdFeed 0x37 0x69 .firstByteMatched 0x37 = (.firstByteMatched, true) ∧
    sdFeed 0x37 0x69 .firstByteMatched 0x00 = (.searching, true) := by decide

/-- 0x37 0x37 and then 0x69: the detector locks at the last byte, after a spurious match. -/
theorem witness_LocksAtFirstMarker :
    sdRun 0x37 0x69 .searching [0x37, 0x37] ≠ .locked ∧
    sdRun 0x37 0x69 .searching ([0x37, 0x37] ++ [0x69]) = .locked := by decide

/-- One byte held and one offered in the STEP, N together; and one byte held since time 0 and none offered, the flush
deadline just reached. -/
theorem witness_TxCommitsFrame :
    (let s := holding [(0, 0xB1)] 1 (sender .idle 0 settledIdle [] [] []);
      let evs := .timeNow 9 :: [(0xB2 : Byte)].flatMap takeEvents ++ [.srcValid false] ++ [.radioSetMode .tx, .radioModeReady true];
      transmitting (replies evs s) ∧ drainEnds [0xB2] [.srcValid false] s ∧ s.cfg.n.toNat ≤ (queued [0xB2] s).length ∧
        foretells evs [] [] [] (replies evs s)) ∧
    (let s := holding [(0, 0xB1)] 1 (sender .idle 0 settledIdle [] [] []);
      let evs := .timeNow 50 :: [].flatMap takeEvents ++ [.srcValid false] ++ [.radioSetMode .tx, .radioModeReady false];
      transmitting (replies evs s) ∧ drainEnds [] [.srcValid false] s ∧ (queued [] s).length = 1 ∧
        s.cfg.flushTo.toNat ≤ ((50 : Word) - fillTime 50 [] s).toNat ∧ foretells evs [] [] [] (replies evs s)) :=
  ⟨⟨transmitting_of (by decide), by decide, by decide, foretells_replies _ _⟩,
    ⟨transmitting_of (by decide), by decide, by decide, by decide, foretells_replies _ _⟩⟩

/-- One byte taken into an empty TXB, its wait just begun; one byte held, the flush deadline just not reached; and a
pending return to Idle, just not timed out. -/
theorem witness_TxIdleWaits :
    (let s := sender .idle 0 settledIdle [] [] [];
      let evs := .timeNow 99 :: [(0xB1 : Byte)].flatMap takeEvents ++ [.srcValid false];
      transmitting (replies evs s) ∧ drainEnds [0xB1] [.srcValid false] s ∧ (queued [0xB1] s).length < s.cfg.n.toNat ∧
        ((99 : Word) - fillTime 99 [0xB1] s).toNat < s.cfg.flushTo.toNat ∧ foretells evs [] [] [] (replies evs s)) ∧
    (let s := holding [(0, 0xB1)] 1 (sender .idle 0 settledIdle [] [] []);
      transmitting s ∧ drainEnds [] [.srcValid false] s ∧ ((49 : Word) - fillTime 49 [] s).toNat < s.cfg.flushTo.toNat) ∧
    (let s := sender .idle 4 ⟨.tx, .idle, true, 0⟩ [] [] [];
      let evs := .timeNow 99 :: [(0xB1 : Byte)].flatMap takeEvents ++ [.srcValid false] ++ pollEvents 99 false s;
      transmitting (replies evs s) ∧ drainEnds [0xB1] [.srcValid false] s ∧ ¬ waitExpired 99 s.arb.tReq s ∧
        foretells evs [] [] [] (replies evs s)) :=
  ⟨⟨transmitting_of (by decide), by decide, by decide, by decide, foretells_replies _ _⟩,
    ⟨transmitting_of (by decide), by decide, by decide⟩,
    ⟨transmitting_of (by decide), by decide, by decide, foretells_replies _ _⟩⟩

/-- A transmitter in TX_SEND with SYNC0 written, the payload 0xA1 0xA2, 0xB1 held and 0xB2 offered: a frame chained. -/
def chaining : State :=
  { holding [(0, 0xB1)] 1 (sender .send 1 ⟨.tx, .tx, false, 0⟩ [] [] []) with
    tx := { (sender .send 1 ⟨.tx, .tx, false, 0⟩ [] [] []).tx with payload := [(0, 0xA1), (1, 0xA2)] } }

/-- What it has to write. -/
def chainedWire : List Byte := [0x69, 0xA1, 0xA2, 0x37, 0x69, 0xB1, 0xB2]

/-- A FIFO that never fills, and one full at once, in the second frame, and before the last byte; TX_WAIT_MODE with Tx
confirmed. -/
theorem witness_FrameSentInOneStep :
    (transmitting chaining ∧ drainEnds [0xB2] [.srcValid false] chaining ∧
      (wireImage chaining).drop chaining.tx.pos.toNat ++ framesOnWire chaining.cfg.sync0 chaining.cfg.sync1
        chaining.cfg.n.toNat ((queued [0xB2] chaining).length / chaining.cfg.n.toNat) (queued [0xB2] chaining)
        = chainedWire) ∧
    (let evs := .timeNow 9 :: [(0xB2 : Byte)].flatMap takeEvents ++ [.srcValid false] ++ chainedWire.flatMap writeEvents;
      foretells evs [] [] [] (replies evs chaining)) ∧
    (∀ j, j ∈ [0, 4, 6] → j < chainedWire.length ∧
      let evs := .timeNow 9 :: [(0xB2 : Byte)].flatMap takeEvents ++ [.srcValid false]
        ++ (chainedWire.take j).flatMap writeEvents ++ [.radioFifoFull true];
      foretells evs [] [] [] (replies evs chaining)) ∧
    transmitting (sender .waitMode 0 ⟨.tx, .tx, false, 0⟩ [false, false, false, false, false] [] [9]) :=
  ⟨⟨transmitting_of (by decide), by decide, by decide⟩, foretells_replies _ _,
    fun j hj => ⟨by have : j = 0 ∨ j = 4 ∨ j = 6 := by simpa using hj
                    rcases this with rfl | rfl | rfl <;> decide, foretells_replies _ _⟩, transmitting_of (by decide)⟩

/-- R194, R193 worked by hand: five bytes go out, the last in the chained frame, and the FIFO is full. -/
theorem test_chained_frame :
    ((after (exec .step (replies (.timeNow 9 :: [(0xB2 : Byte)].flatMap takeEvents ++ [.srcValid false]
        ++ (chainedWire.take 5).flatMap writeEvents ++ [.radioFifoFull true]) chaining))).any fun t =>
      decide (radioWrites t.env.trace = [0x69, 0xA1, 0xA2, 0x37, 0x69] ∧ t.tx.pos = 2 ∧ t.tx.state = .send ∧
        t.counters.framesTx = 1 ∧ t.txb.held = [] ∧ t.tx.payload.prefixBytes 2 = [0xB1, 0xB2])) = true := by
  decide +kernel

/-- The transmission over; still going on at the deadline; still going on before it; each with a byte taken. -/
theorem witness_TxDrainPoll :
    let s := sender .drain 4 ⟨.tx, .tx, false, 0⟩ [] [] [];
    transmitting s ∧ drainEnds [0xB1] [.srcValid false] s ∧ waitExpired 100 s.tx.tWait s ∧ ¬ waitExpired 99 s.tx.tWait s ∧
    ∀ evs : List Event,
      evs ∈ [.timeNow 9 :: [(0xB1 : Byte)].flatMap takeEvents ++ [.srcValid false]
          ++ [.radioTxDone true, .radioSetMode .idle, .radioModeReady true],
        .timeNow 100 :: [0xB1].flatMap takeEvents ++ [.srcValid false]
          ++ [.radioTxDone false, .radioSetMode .idle, .radioModeReady false],
        .timeNow 99 :: [0xB1].flatMap takeEvents ++ [.srcValid false] ++ [.radioTxDone false]] →
      transmitting (replies evs s) ∧ foretells evs [] [] [] (replies evs s) :=
  ⟨transmitting_of (by decide), by decide, by decide, by decide, fun _ _ => ⟨transmitting_replies (by decide) _, foretells_replies _ _⟩⟩

/-- Both roles; a confirmation, and an unconfirmed request at the deadline and before it. -/
theorem witness_ModePollPending :
    (let s := sender .waitMode 0 ⟨.idle, .tx, true, 0⟩ [] [] [];
      drainEnds [0xB1] [.srcValid false] s ∧ waitExpired 100 s.arb.tReq s ∧ ¬ waitExpired 99 s.arb.tReq s ∧
      ∀ ready evs, evs = .timeNow 100 :: [(0xB1 : Byte)].flatMap takeEvents ++ [.srcValid false] ++ pollEvents 100 ready s →
        transmitting (replies evs s) ∧ foretells evs [] [] [] (replies evs s)) ∧
    (let s := received [(0, 0xC4)] 1 (listener 0xEE01 .waitMode .searching 0 ⟨.idle, .rx, true, 0⟩ [] [] []);
      linkAlive 100 s ∧ waitExpired 100 s.arb.tReq s ∧ ¬ waitExpired 99 s.arb.tReq s ∧
      ∀ k ready evs, evs = .timeNow 100 :: sinkTakes s.rxb.held k ++ pollEvents 100 ready s →
        receiving (replies evs s) ∧ foretells evs [] [] [] (replies evs s)) :=
  ⟨⟨by decide, by decide, by decide, fun _ _ _ => ⟨transmitting_replies (by decide) _, foretells_replies _ _⟩⟩,
    ⟨by unfold linkAlive; decide, by decide, by decide, fun _ _ _ _ => ⟨receiving_replies (by decide) _, foretells_replies _ _⟩⟩⟩

/-- RX_START, and RX_CYCLE_IDLE with Idle confirmed and a byte held; the link timer one millisecond short of LINK_TO. -/
theorem witness_RxRequestsRx :
    ∀ s ∈ [listener 0xEE01 .start .searching 0 settledIdle [] [] [],
        received [(0, 0xC4)] 1 (listener 0xEE09 .cycleIdle .searching 0 settledIdle [] [] [])],
      linkAlive 999 s ∧ ∀ k ready evs,
        evs = .timeNow 999 :: sinkTakes s.rxb.held k ++ [.radioSetMode .rx, .radioModeReady ready] →
        receiving (replies evs s) ∧ foretells evs [] [] [] (replies evs s) := by
  intro s hs
  rcases List.mem_pair.mp hs with rfl | rfl <;>
    exact ⟨by unfold linkAlive; decide, fun _ _ _ _ => ⟨receiving_replies (by decide) _, foretells_replies _ _⟩⟩

/-- RX_ACTIVE and RX_WAIT_MODE with Rx confirmed; Searching, and FirstByteMatched with each kind of byte; a byte held and
a sink ready for none or for one. -/
theorem witness_RxFeedsOneByte :
    (∀ s ∈ [listener 0xEE01 .waitMode .searching 0 ⟨.rx, .rx, false, 0⟩ [] [] [],
        received [(0, 0xC4)] 1 (listener 0xEE01 .active .firstByteMatched 0 ⟨.rx, .rx, false, 0⟩ [] [] [])],
      linkAlive 9 s ∧ s.rx.sync ≠ .locked ∧ ∀ k fed evs,
        evs = servedEvents 9 k fed [] s ∨ evs = servedEvents 9 k fed [] s ++ [.radioFifoNotEmpty false] →
        receiving (replies evs s) ∧ foretells evs [] [] [] (replies evs s)) ∧
    (0x37 : Byte) ≠ (regs 0xEE01).sync1 ∧ (0x69 : Byte) = (regs 0xEE01).sync1 := by
  refine ⟨fun s hs => ?_, by decide, by decide⟩
  rcases List.mem_pair.mp hs with rfl | rfl <;>
    exact ⟨by unfold linkAlive; decide, by decide, fun _ _ _ _ => ⟨receiving_replies (by decide) _, foretells_replies _ _⟩⟩

/-- Locked with two bytes to come, RXB with three of its four held; and FirstByteMatched. RX_IDLE_CYCLE = 0 and 1. -/
theorem witness_FrameReceived :
    ∀ ctrl ∈ [(0xEE01 : Word), 0xEE09],
      (let s := received [(0, 0xC1), (1, 0xC2), (2, 0xC3)] 3 (listener ctrl .active .locked 2 ⟨.rx, .rx, false, 0⟩ [] [] []);
        linkAlive 9 s ∧ [((0xC4 : Byte), 0), (0xC5, 0)].length = payloadDue s [] ∧
          [((0xC4 : Byte), 0)].length < payloadDue s [] ∧
          ∀ evs, receiving (replies evs s) ∧ foretells evs [] [] [] (replies evs s)) ∧
      (let s := listener ctrl .active .firstByteMatched 0 ⟨.rx, .rx, false, 0⟩ [] [] [];
        [((0xC4 : Byte), 1), (0xC5, 1)].length = payloadDue s [s.cfg.sync1] ∧
          ∀ evs, receiving (replies evs s) ∧ foretells evs [] [] [] (replies evs s)) := by
  intro c hc
  rcases List.mem_pair.mp hc with rfl | rfl <;>
    exact ⟨⟨by unfold linkAlive; decide, by decide, by decide, fun _ => ⟨receiving_replies (by decide) _, foretells_replies _ _⟩⟩,
      by decide, fun _ => ⟨receiving_replies (by decide) _, foretells_replies _ _⟩⟩

/-- R236, R237, R356 worked by hand: RXB of four holds three, the sink takes none; the first byte fills RXB, the second
is an overrun under REJECT, and still completes the frame; Idle is requested. -/
theorem test_frame_overrun :
    (let s := received [(0, 0xC1), (1, 0xC2), (2, 0xC3)] 3 (listener 0xEE09 .active .locked 2 ⟨.rx, .rx, false, 0⟩ [] [] []);
      (after (exec .step (replies (servedEvents 9 0 [] [(0xC4, 0), (0xC5, 0)] s
        ++ [.radioSetMode .idle, .radioModeReady false]) s))).any fun t =>
        decide (t.rxb.held = [0xC1, 0xC2, 0xC3, 0xC4] ∧ t.err = 0x008 ∧ t.counters.ovrRx = 1 ∧ t.counters.framesRx = 1 ∧
          t.rx = ⟨.cycleIdle, .searching, 0, 9⟩ ∧ t.arb = ⟨.rx, .idle, true, 9⟩ ∧ t.env.trace =
            [.timeNow 9, .sinkReady false, .radioFifoNotEmpty true, .radioRead 0 0xC4, .sinkReady false,
              .radioFifoNotEmpty true, .radioRead 0 0xC5, .sinkReady false, .radioSetMode .idle, .radioModeReady false]))
      = true := by decide +kernel

/-- At the deadline: RX_START; RX_WAIT_MODE with Rx pending; a frame in progress with RX_IDLE_CYCLE = 0 and 1, the FIFO
empty at once and after one byte; and a spurious match in that very STEP. -/
theorem witness_LinkTimeout :
    (∀ s ∈ [listener 0xEE01 .start .searching 0 settledIdle [] [] [],
        listener 0xEE01 .waitMode .searching 0 ⟨.idle, .rx, true, 0⟩ [] [] [],
        listener 0xEE01 .active .locked 2 ⟨.rx, .rx, false, 0⟩ [] [] [],
        listener 0xEE09 .active .firstByteMatched 0 ⟨.rx, .rx, false, 0⟩ [] [] []],
      ¬ linkAlive 1000 s ∧ ∀ evs, receiving (replies evs s) ∧ foretells evs [] [] [] (replies evs s)) ∧
    [((0xC4 : Byte), 1)].length < payloadDue (listener 0xEE01 .active .locked 2 ⟨.rx, .rx, false, 0⟩ [] [] []) [] ∧
    spurious [0x00] (listener 0xEE09 .active .firstByteMatched 0 ⟨.rx, .rx, false, 0⟩ [] [] []) := by
  refine ⟨fun s hs => ?_, by decide, by decide⟩
  simp only [List.mem_cons, List.not_mem_nil, or_false] at hs
  rcases hs with rfl | rfl | rfl | rfl <;>
    exact ⟨by unfold linkAlive; decide, fun _ => ⟨receiving_replies (by decide) _, foretells_replies _ _⟩⟩

end Sys2Proof.Tests
end

section
/-! PROOFS. The state and its invariant: which commands change the configuration, `core_state`, ERR and the counters;
which events a command performs; and that every step keeps the invariant. -/

namespace Sys2Proof.Machine

open Sys2Proof.Claims

/-! ### ERR, bit by bit -/

/-- Bits 0 and 1 of two ERR values whose fatal fields agree. -/
theorem getLsbD_of_fatal {e f : BitVec 10} (h : f.extractLsb' 0 2 = e.extractLsb' 0 2) {k : Nat} (hk : k < 2) :
    f.getLsbD k = e.getLsbD k := by
  simpa [hk] using congrArg (·.getLsbD k) h

/-- Whether a fatal cause is recorded, for two ERR values whose fatal fields agree. -/
theorem fatal_iff_of_fatal {e f : BitVec 10} (h : f.extractLsb' 0 2 = e.extractLsb' 0 2) :
    (f.getLsbD 0 = true ∨ f.getLsbD 1 = true) ↔ (e.getLsbD 0 = true ∨ e.getLsbD 1 = true) := by
  rw [getLsbD_of_fatal h (show 0 < 2 by decide), getLsbD_of_fatal h (show 1 < 2 by decide)]

/-- A bit set stays set where ERR only gains bits. -/
theorem getLsbD_of_sticky {e f : BitVec 10} (h : e ||| f = f) {k : Nat} (he : e.getLsbD k = true) :
    f.getLsbD k = true := by
  rw [← h, BitVec.getLsbD_or, he, Bool.true_or]

/-! ### What a command without a STEP or a BEGIN leaves alone -/

section
variable {i : Instr} {s t : State} {st : Status} {d : Word}

theorem Quietly.coreState_same (q : Quietly i s st d t) : t.coreState = s.coreState := by
  rw [q.frame]; rfl

theorem Quietly.counters_same (q : Quietly i s st d t) : t.counters = s.counters := by
  rw [q.frame]; rfl

theorem Quietly.env_same (q : Quietly i s st d t) : t.env = s.env := by rw [q.frame]; rfl

end

/-! ### CSR accesses, evaluated -/

/-- A CSR access that fails sets CSR_ERR, counts nothing and answers `{ERR, 0}`. -/
theorem csrFailure_eq (s : State) : csrFailure s = .next (answered .err 0 { s with err := s.err ||| 0x200 }) := rfl

/-- Every address from 0x00 to 0x07 names a configuration register (10_state.md R39). -/
theorem Csr.ofAddr_config {a : CsrAddr} (ha : a.toNat ≤ 0x07) : ∃ c, Csr.ofAddr a = some c ∧ c.isConfig = true := by
  cases hc : Csr.ofAddr a with
  | none =>
    have hu := (Csr.ofAddr_unassigned a).mpr hc
    simp only [unassigned, decide_eq_true_eq] at hu
    omega
  | some c => exact ⟨c, rfl, c.isConfig_iff.mpr (Csr.ofAddr_some hc ▸ ha)⟩

/-- Outside UNINIT a write to a configuration register fails (45_host_commands.md R322). -/
theorem exec_csrWrite_locked {s : State} {a : CsrAddr} (v : Word) (ha : a.toNat ≤ 0x07) (hs : s.coreState ≠ .uninit) :
    csrFails (.csrWrite a v) s := by
  obtain ⟨c, hc, hcfg⟩ := Csr.ofAddr_config ha
  rw [csrFails, ← csrFailure_eq]
  show execCsrWrite a v s = csrFailure s
  simp [execCsrWrite, permitted, hc, hcfg, hs]

/-- CSR_READ of ERR (45_host_commands.md R316). -/
theorem exec_csrRead_err (s : State) :
    exec (.csrRead 0x15) s = .next (answered .ok (BitVec.ofNat 32 s.err.toNat) s) := by
  rw [BitVec.ofNat_toNat]; rfl

/-- CSR_WRITE of ERR (45_host_commands.md R321). -/
theorem exec_csrWrite_err (s : State) (v : Word) :
    exec (.csrWrite 0x15 v) s = .next (answered .ok 0 { s with err := errAfterWrite s.err v }) := rfl

/-! ### The configuration lock -/

/-- Outside UNINIT a command keeps the configuration, and does not lead back to UNINIT. -/
theorem exec_keeps_config {i : Instr} {s t : State} (e : exec i s = .next t) (hs : s.coreState ≠ .uninit) :
    t.coreState ≠ .uninit ∧ t.cfg = s.cfg := by
  rcases exec_cases e with ⟨-, hrun, u, hu, rfl⟩ | ⟨-, h, -⟩ | ⟨-, -, _, _, q⟩
  · have k := schedulerIteration_kept hu
    exact ⟨k.coreState.symm ▸ hs, k.cfg⟩
  · exact absurd h hs
  · exact ⟨q.coreState_same.symm ▸ hs, q.cfg.resolve_right fun h => hs h.1⟩

/-- BEGIN never changes the configuration. -/
theorem exec_begin_keeps_config {s t : State} (e : exec .begin s = .next t) : t.cfg = s.cfg := by
  rcases execBegin_next e with ⟨-, b⟩ | ⟨-, rfl⟩
  · exact b.cfg
  · rfl

/-! ### The events of one command -/

/-- The events of each command: STEP in RUN asks the time and then performs events of its role only; BEGIN in UNINIT
asks the time and then at most whether the radio began; every other command performs none. -/
theorem exec_events {i : Instr} {s t : State} (e : exec i s = .next t) :
    (i = .step ∧ s.coreState = .run ∧
      ∃ evs, performs s (.timeNow s.env.time :: evs) t ∧ evs.all (ofRole s.cfg.role) = true) ∨
    (i = .begin ∧ s.coreState = .uninit ∧
      ∃ evs, performs s (.timeNow s.env.time :: evs) t ∧ (evs = [] ∨ ∃ b, evs = [.radioBegin b])) ∨
    (¬ (i = .step ∧ s.coreState = .run) ∧ ¬ (i = .begin ∧ s.coreState = .uninit) ∧ performs s [] t) := by
  rcases exec_cases e with ⟨hi, hrun, u, hu, rfl⟩ | ⟨hi, h, b⟩ | ⟨hstep, hbegin, _, _, q⟩
  · obtain ⟨-, evs, htrace, -, hrole⟩ := schedulerIteration_emits hu
    exact .inl ⟨hi, hrun, evs, by simp [performs, htrace], hrole⟩
  · exact .inr (.inl ⟨hi, h, b.trace⟩)
  · exact .inr (.inr ⟨hstep, hbegin, by simp [performs, q.env_same]⟩)

/-- A stream of a trace is empty where no event of the trace belongs to it. -/
theorem filterMap_eq_nil_of_all {β : Type} {ok : Event → Bool} {f : Event → Option β} {evs : List Event}
    (h : evs.all ok = true) (hf : ∀ e, ok e = true → f e = none) : evs.filterMap f = [] :=
  List.filterMap_eq_nil_iff.mpr fun e he => hf e (List.all_eq_true.mp h e he)

/-- The phases of an iteration do not ask the time. -/
theorem timesAsked_of_role {r : Role} {evs : List Event} (h : evs.all (ofRole r) = true) : timesAsked evs = [] :=
  filterMap_eq_nil_of_all h fun e => by cases e <;> simp [ofRole]

/-- Phases of a transmitter leave the sink and the reading of the radio FIFO alone (10_state.md R68). -/
theorem transmitter_ports {evs : List Event} (h : evs.all (ofRole .tx) = true) :
    readiesAsked evs = [] ∧ sinkWrites evs = [] ∧ radioReads evs = [] :=
  ⟨filterMap_eq_nil_of_all h fun e => by cases e <;> simp [ofRole],
    filterMap_eq_nil_of_all h fun e => by cases e <;> simp [ofRole],
    filterMap_eq_nil_of_all h fun e => by cases e <;> simp [ofRole]⟩

/-- Phases of a receiver leave the source and the writing of the radio FIFO alone (10_state.md R68). -/
theorem receiver_ports {evs : List Event} (h : evs.all (ofRole .rx) = true) :
    validsAsked evs = [] ∧ sourceBytes evs = [] ∧ .srcTake ∉ evs ∧ .srcOverrun ∉ evs ∧ radioWrites evs = [] := by
  have outside : ∀ e, ofRole .rx e = false → e ∉ evs := fun e he hin => by
    have := List.all_eq_true.mp h e hin
    rw [he] at this; cases this
  exact ⟨filterMap_eq_nil_of_all h fun e => by cases e <;> simp [ofRole],
    filterMap_eq_nil_of_all h fun e => by cases e <;> simp [ofRole], outside _ rfl, outside _ rfl,
    filterMap_eq_nil_of_all h fun e => by cases e <;> simp [ofRole]⟩

/-- A running transmitter's iteration, from its result. -/
theorem txIterated_of_next {s t : State} (inv : Inv s) (hrun : s.coreState = .run) (hrole : s.cfg.role = .tx)
    (e : schedulerIteration s = .next t) : ∃ taken frames rest o evs, TxIterated s taken frames rest o evs t := by
  obtain ⟨taken, frames, rest, o, evs, u, hu, it⟩ := txIteration_holds inv hrun hrole
  cases hu.symm.trans e
  exact ⟨taken, frames, rest, o, evs, it⟩

/-- A running receiver's iteration, from its result. -/
theorem rxIterated_of_next {s t : State} (inv : Inv s) (hrun : s.coreState = .run) (hrole : s.cfg.role = .rx)
    (e : schedulerIteration s = .next t) : ∃ fed reads sent rest o evs, RxIterated s fed reads sent rest o evs t := by
  obtain ⟨fed, reads, sent, rest, o, evs, u, hu, it⟩ := rxIteration_holds inv hrun hrole
  cases hu.symm.trans e
  exact ⟨fed, reads, sent, rest, o, evs, it⟩

/-! ### The invariant, operation by operation -/

/-- An empty count is within every bound. -/
theorem count_le_of_zero {a : Count} (h : a = 0) (b : Count) : a ≤ b := by
  rw [h]; exact BitVec.ule_iff_le.mp rfl

theorem TxQuiet.of_same {s t : State} (q : TxQuiet s) (htxb : t.txb = s.txb) (htx : t.tx = s.tx) : TxQuiet t :=
  ⟨htxb ▸ q.empty, htx ▸ q.state, htx ▸ q.pos⟩

theorem RxQuiet.of_same {s t : State} (q : RxQuiet s) (hrxb : t.rxb = s.rxb) (hrx : t.rx = s.rx) : RxQuiet t :=
  ⟨hrxb ▸ q.empty, hrx ▸ q.phase, hrx ▸ q.sync, hrx ▸ q.remaining⟩

/-- The rest state of UNINIT and FAILED stays where no element of it is written. -/
theorem Inv.quiet_of_same {s t : State} (inv : Inv s) (hs : s.coreState ≠ .run) (htxb : t.txb = s.txb)
    (hrxb : t.rxb = s.rxb) (htx : t.tx = s.tx) (hrx : t.rx = s.rx) (harb : t.arb = s.arb) :
    TxQuiet t ∧ RxQuiet t ∧ t.arb.pending = false ∧ t.arb.cur = .idle := by
  obtain ⟨tq, rq, hp, hc⟩ := inv.quiet hs
  exact ⟨tq.of_same htxb htx, rq.of_same hrxb hrx, harb ▸ hp, harb ▸ hc⟩

/-- The invariant speaks neither of the counters, nor of the host, nor of the environment, nor of an ERR bit but the two
fatal ones. -/
theorem Inv.recorded {s : State} (inv : Inv s) (err : BitVec 10) (counters : Counters) (host : HostPort)
    (env : Environment) (fatal : err.extractLsb' 0 2 = s.err.extractLsb' 0 2) :
    Inv { s with err := err, counters := counters, host := host, env := env } :=
  { inv with
    fatal := inv.fatal.trans (fatal_iff_of_fatal fatal).symm
    quiet := fun h => inv.quiet_of_same h rfl rfl rfl rfl rfl
    transmitter := fun h hr => by
      obtain ⟨run, q⟩ := inv.transmitter h hr
      exact ⟨run, q.of_same rfl rfl⟩
    receiver := fun h hr => by
      obtain ⟨run, q⟩ := inv.receiver h hr
      exact ⟨⟨run.modes, run.searching, run.locked, run.atMostN, run.cycles⟩, q.of_same rfl rfl⟩ }

/-- The reset input establishes the invariant (70_reset_and_hazards.md R391). -/
theorem inv_applyReset (s : State) : Inv (applyReset s) where
  txbWf := rfl
  rxbWf := rfl
  payloadWf := rfl
  txbSlide := rfl
  rxbSlide := rfl
  txbFits := count_le_of_zero rfl _
  rxbFits := count_le_of_zero rfl _
  settled _ := rfl
  fatal := by simp [applyReset]
  quiet _ := ⟨⟨rfl, rfl, rfl⟩, ⟨rfl, rfl, rfl, rfl⟩, rfl, rfl⟩
  legal h := by cases h
  transmitter h := by cases h
  receiver h := by cases h

/-- In UNINIT any configuration will do: the buffers are empty (45_host_commands.md R321). -/
theorem Inv.setCfg {s : State} (inv : Inv s) (hs : s.coreState = .uninit) (c : ConfigRegs) : Inv (s.setCfg c) := by
  have hs' : s.coreState ≠ .run := by rw [hs]; decide
  obtain ⟨tq, rq, -, -⟩ := inv.quiet hs'
  have notRun : (s.setCfg c).coreState ≠ .run := hs'
  exact { inv with
    txbFits := count_le_of_zero tq.empty _
    rxbFits := count_le_of_zero rq.empty _
    quiet := fun _ => inv.quiet_of_same (by rw [hs]; decide) rfl rfl rfl rfl rfl
    legal := fun h => absurd h notRun
    transmitter := fun h => absurd h notRun
    receiver := fun h => absurd h notRun }

/-- RX_CANCEL drops the frame in progress (45_host_commands.md R327); a transmitter has none. -/
theorem Inv.rxCancelled {s : State} (inv : Inv s) (hrun : s.coreState = .run) :
    Inv ((sdReset s).setRemaining 0) :=
  { inv with
    quiet := fun h => absurd hrun h
    transmitter := fun h hr => by
      obtain ⟨run, q⟩ := inv.transmitter h hr
      exact ⟨run, q.empty, q.phase, rfl, rfl⟩
    receiver := fun h hr => by
      obtain ⟨run, q⟩ := inv.receiver h hr
      exact ⟨⟨run.modes, fun _ => rfl, by simp [sdReset], count_le_of_zero rfl _, run.cycles⟩, q.of_same rfl rfl⟩ }

/-- A successful BEGIN: both framers start from their reset states with Idle held (45_host_commands.md R306). -/
theorem Inv.started {s : State} (inv : Inv s) (hs : s.coreState = .uninit) (legal : configLegal s = true) (now : Word) :
    Inv ((s.setTLink now).setCoreState .run) := by
  obtain ⟨tq, rq, hp, hc⟩ := inv.quiet (by rw [hs]; decide)
  have notFatal : ¬ (s.err.getLsbD 0 = true ∨ s.err.getLsbD 1 = true) := fun h => by
    have := inv.fatal.mpr h
    rw [hs] at this; cases this
  exact { inv with
    fatal := by simpa using notFatal
    quiet := fun h => absurd rfl h
    legal := fun _ => legal
    transmitter := fun _ _ => ⟨by simp [TxRunning, tq.state, tq.pos, hp, hc], rq.empty, rq.phase, rq.sync, rq.remaining⟩
    receiver := fun _ _ => ⟨⟨by simp [RxModes, rq.phase, hp, hc], fun _ => rq.sync, by simp [rq.sync, rq.remaining],
      count_le_of_zero rq.remaining _, fun h => by simp [rq.phase] at h⟩, tq.empty, tq.state, tq.pos⟩ }

/-- A failed BEGIN records a fatal cause (60_exceptions.md R353, R354). -/
theorem Inv.beginFailed {s : State} (inv : Inv s) (hs : s.coreState = .uninit) {c : Cause}
    (hc : c.mask.getLsbD 0 = true ∨ c.mask.getLsbD 1 = true) : Inv ((raise c s).setCoreState .failed) :=
  { inv with
    fatal := by
      rcases hc with h | h <;> simp [h]
    quiet := fun _ => inv.quiet_of_same (by rw [hs]; decide) rfl rfl rfl rfl rfl
    legal := fun h => by cases h
    transmitter := fun h => by cases h
    receiver := fun h => by cases h }

/-- BEGIN keeps the invariant. -/
theorem execBegin_keeps_inv {s t : State} (inv : Inv s) (e : execBegin s = .next t) : Inv t := by
  unfold execBegin at e
  split at e
  · rename_i hs
    have hs : s.coreState = .uninit := by simpa [permitted] using hs
    have asked : Inv (askNow s).2 := inv.recorded _ _ _ _ rfl
    have begun : Inv (askRadioBegin (askNow s).2).2 := asked.recorded _ _ _ _ rfl
    simp only at e
    split at e
    · rename_i legal
      split at e
      · cases e
        exact (begun.started hs legal _).recorded _ _ _ _ rfl
      · cases e
        exact (begun.beginFailed hs (.inl (by decide))).recorded _ _ _ _ rfl
    · cases e
      exact (asked.beginFailed hs (.inr (by decide))).recorded _ _ _ _ rfl
  · cases e
    exact inv.recorded _ _ _ _ rfl

/-- An iteration leaves a legal configuration legal. -/
theorem Kept.configLegal_same {s t : State} (k : Kept s t) : configLegal t = configLegal s := by
  simp only [configLegal, k.cfg, k.params]

/-- One iteration of a transmitter keeps the invariant. -/
theorem txIteration_keeps_inv {s t : State} (inv : Inv s) (hrun : s.coreState = .run) (hrole : s.cfg.role = .tx)
    (e : schedulerIteration s = .next t) : Inv t := by
  obtain ⟨taken, frames, rest, o, evs, it⟩ := txIterated_of_next inv hrun hrole e
  obtain ⟨-, rq⟩ := inv.transmitter hrun hrole
  have k := schedulerIteration_kept e
  have own := schedulerIteration_txOwn hrole e
  exact {
    txbWf := it.holds.wf
    rxbWf := own.rxb ▸ inv.rxbWf
    payloadWf := it.payload
    txbSlide := it.holds.slide
    rxbSlide := own.rxb ▸ inv.rxbSlide
    txbFits := by rw [BitVec.le_def, ← it.holds.length, k.cfg]; exact it.fits
    rxbFits := by rw [own.rxb, k.cfg]; exact inv.rxbFits
    settled := it.settled
    fatal := by rw [k.coreState, fatal_iff_of_fatal k.fatal]; exact inv.fatal
    quiet := fun h => absurd (k.coreState.trans hrun) h
    legal := fun _ => (k.configLegal_same).trans (inv.legal hrun)
    transmitter := fun _ _ => ⟨it.running, rq.of_same own.rxb own.rx⟩
    receiver := fun _ h => by rw [k.cfg, hrole] at h; cases h }

/-- One iteration of a receiver keeps the invariant. -/
theorem rxIteration_keeps_inv {s t : State} (inv : Inv s) (hrun : s.coreState = .run) (hrole : s.cfg.role = .rx)
    (e : schedulerIteration s = .next t) : Inv t := by
  obtain ⟨fed, reads, sent, rest, o, evs, it⟩ := rxIterated_of_next inv hrun hrole e
  obtain ⟨-, tq⟩ := inv.receiver hrun hrole
  have k := schedulerIteration_kept e
  have own := schedulerIteration_rxOwn hrole e
  exact {
    txbWf := own.txb ▸ inv.txbWf
    rxbWf := it.holds.wf
    payloadWf := own.tx ▸ inv.payloadWf
    txbSlide := own.txb ▸ inv.txbSlide
    rxbSlide := it.holds.slide
    txbFits := by rw [own.txb, k.cfg]; exact inv.txbFits
    rxbFits := by rw [BitVec.le_def, ← it.holds.length, k.cfg]; exact it.fits
    settled := it.settled
    fatal := by rw [k.coreState, fatal_iff_of_fatal k.fatal]; exact inv.fatal
    quiet := fun h => absurd (k.coreState.trans hrun) h
    legal := fun _ => (k.configLegal_same).trans (inv.legal hrun)
    transmitter := fun _ h => by rw [k.cfg, hrole] at h; cases h
    receiver := fun _ _ => ⟨it.running, tq.of_same own.txb own.tx⟩ }

/-- One scheduler iteration in RUN keeps the invariant. -/
theorem schedulerIteration_keeps_inv {s t : State} (inv : Inv s) (hrun : s.coreState = .run)
    (e : schedulerIteration s = .next t) : Inv t := by
  cases hrole : s.cfg.role with
  | tx => exact txIteration_keeps_inv inv hrun hrole e
  | rx => exact rxIteration_keeps_inv inv hrun hrole e

/-- RX_CANCEL in RUN, evaluated (45_host_commands.md R327). -/
theorem exec_rxCancel_run {s : State} (hrun : s.coreState = .run) :
    exec .rxCancel s = .next (respond .ok 0 ((sdReset s).setRemaining 0)) := by
  show execRxCancel s = _
  simp [execRxCancel, permitted, hrun]

/-- A command that is no STEP in RUN and no BEGIN in UNINIT keeps the invariant. -/
theorem Quietly.keeps_inv {i : Instr} {s t : State} {st : Status} {d : Word} (q : Quietly i s st d t) (inv : Inv s)
    (e : exec i s = .next t) : Inv t := by
  rcases q.rx with hrx | ⟨rfl, hrun⟩
  · rcases q.cfg with hcfg | ⟨hs, -⟩
    · rw [q.frame, hrx, hcfg]
      exact inv.recorded _ _ _ _ q.fatal
    · rw [q.frame, hrx]
      exact (inv.setCfg hs t.cfg).recorded _ _ _ _ q.fatal
  · rw [exec_rxCancel_run hrun] at e
    cases e
    exact (inv.rxCancelled hrun).recorded _ _ _ _ rfl

/-- Every command keeps the invariant. -/
theorem exec_keeps_inv {i : Instr} {s t : State} (inv : Inv s) (e : exec i s = .next t) : Inv t := by
  rcases exec_cases e with ⟨-, hrun, u, hu, rfl⟩ | ⟨rfl, -, -⟩ | ⟨-, -, _, _, q⟩
  · exact (schedulerIteration_keeps_inv inv hrun hu).recorded _ _ _ _ rfl
  · exact execBegin_keeps_inv inv e
  · exact q.keeps_inv inv e

/-- An illegal word keeps the invariant: ILLEGAL_CMD is not fatal. -/
theorem execIllegal_keeps_inv {s t : State} (inv : Inv s) (e : execIllegal s = .next t) : Inv t := by
  cases e
  exact inv.recorded _ _ _ _ (mask_fatal .illegalCmd (by decide) _)

/-- What `step` does, by what the host presents (45_host_commands.md R301). -/
theorem step_cases {s t : State} (e : step s = .next t) :
    (s.host.inputs = [] ∧ t = s) ∨ ∃ x rest, s.host.inputs = x :: rest ∧
      ((x = .reset ∧ t = applyReset (s.setHost { s.host with inputs := rest })) ∨
        (∃ w i, x = .command w ∧ decode w = .command i ∧ exec i (s.setHost { s.host with inputs := rest }) = .next t) ∨
        (∃ w why, x = .command w ∧ decode w = .illegal why ∧
          execIllegal (s.setHost { s.host with inputs := rest }) = .next t)) := by
  unfold step nextInput at e
  rcases hin : s.host.inputs with - | ⟨x, rest⟩ <;> rw [hin] at e
  · cases e; exact .inl ⟨rfl, rfl⟩
  · refine .inr ⟨x, rest, rfl, ?_⟩
    cases x with
    | reset => cases e; exact .inl ⟨rfl, rfl⟩
    | command w =>
      simp only at e
      split at e
      · exact .inr (.inl ⟨w, _, rfl, ‹_›, e⟩)
      · exact .inr (.inr ⟨w, _, rfl, ‹_›, e⟩)

end Sys2Proof.Machine

section

open Sys2Proof Sys2Proof.Machine Sys2Proof.Claims

/-- Settles O32: the invariant passes over the host taking an input, and each kind of input keeps it. -/
theorem stepKeepsInvariant : Obligations.StepKeepsInvariant := by
  intro s t inv e
  rcases step_cases e with ⟨-, rfl⟩ | ⟨x, rest, -, he⟩
  · exact inv
  · have presented : Inv (s.setHost { s.host with inputs := rest }) := inv.recorded _ _ _ _ rfl
    rcases he with ⟨-, rfl⟩ | ⟨_, i, -, -, he⟩ | ⟨_, _, -, -, he⟩
    · exact inv_applyReset _
    · exact exec_keeps_inv presented he
    · exact execIllegal_keeps_inv presented he

/-- Settles O21: the failing write from the CSR map, and the lock over command sequences by induction over them with
"still not in UNINIT" carried along. -/
theorem configLocked : Obligations.ConfigLocked := by
  refine ⟨fun s a v => exec_csrWrite_locked v, fun s t => exec_begin_keeps_config, fun cmds s t hs e => ?_⟩
  have locked : s.coreState ≠ .uninit → t.coreState ≠ .uninit ∧ t.cfg = s.cfg :=
    execAll_rel (R := fun s t => s.coreState ≠ .uninit → t.coreState ≠ .uninit ∧ t.cfg = s.cfg)
      (fun _ h => ⟨h, rfl⟩)
      (fun _ _ _ h k hs => ⟨(k (h hs).1).1, (k (h hs).1).2.trans (h hs).2⟩)
      (fun _ _ _ e => exec_keeps_config e) cmds e
  exact (locked hs).2

/-- Settles O22, by what each command can do. -/
theorem coreStateWriters : Obligations.CoreStateWriters := by
  intro i s t e changed
  rcases exec_cases e with ⟨-, -, u, hu, rfl⟩ | ⟨hi, hs, b⟩ | ⟨-, -, _, _, q⟩
  · exact absurd (schedulerIteration_kept hu).coreState changed
  · exact ⟨hi, hs, by rcases b.core with h | h <;> simp [h]⟩
  · exact absurd q.coreState_same changed

/-- Settles O25, by what each command can do. -/
theorem errorsAndCountersSticky : Obligations.ErrorsAndCountersSticky := by
  intro i s t e
  rcases exec_cases e with ⟨hi, -, u, hu, rfl⟩ | ⟨-, -, b⟩ | ⟨-, -, _, _, q⟩
  · have k := schedulerIteration_kept hu
    exact ⟨fun _ => k.sticky, fun _ _ => getLsbD_of_sticky k.sticky, fun h => absurd hi h⟩
  · exact ⟨fun _ => b.sticky, fun _ _ => getLsbD_of_sticky b.sticky, fun _ => b.counters⟩
  · exact ⟨fun noWrite => q.err.resolve_right fun ⟨v, hv⟩ => noWrite v hv,
      fun _ hk h => (getLsbD_of_fatal q.fatal hk).trans h, fun _ => q.counters_same⟩

/-- Settles O26: a write to ERR is write-1-to-clear on bits 2 to 9, whatever state it meets. -/
theorem errReadWriteBack : Obligations.ErrReadWriteBack := by
  intro s u cmds _
  refine ⟨exec_csrRead_err s, _, exec_csrWrite_err u _, fun k hk => ?_⟩
  have seen : (BitVec.ofNat 32 s.err.toNat).getLsbD k = s.err.getLsbD k := by
    rw [BitVec.ofNat_toNat, BitVec.getLsbD_setWidth, decide_eq_true (show k < 32 by omega), Bool.true_and]
  rw [errAfterWrite_bit _ _ k hk, seen, Bool.not_and, ← decide_not]
  simp only [Nat.not_le]

/-- Settles O29, from the events of each command. -/
theorem timeAskedOnce : Obligations.TimeAskedOnce := by
  intro i s t e
  rcases exec_events e with ⟨hi, hs, evs, p, hrole⟩ | ⟨hi, hs, evs, p, hevs⟩ | ⟨hstep, hbegin, p⟩
  · refine ⟨_, p, ?_⟩
    rw [if_pos (.inr ⟨hi, hs⟩)]
    simp [timesAsked_of_role hrole]
  · refine ⟨_, p, ?_⟩
    rw [if_pos (.inl ⟨hi, hs⟩)]
    rcases hevs with rfl | ⟨b, rfl⟩ <;> simp
  · refine ⟨[], p, ?_⟩
    rw [if_neg (not_or.mpr ⟨hbegin, hstep⟩)]

/-- Settles O35, from the events of each command. -/
theorem rolePorts : Obligations.RolePorts := by
  intro i s t e
  rcases exec_events e with ⟨-, -, evs, p, hrole⟩ | ⟨-, -, evs, p, hevs⟩ | ⟨-, -, p⟩
  · refine ⟨_, p, fun hr => ?_, fun hr => ?_⟩ <;> rw [hr] at hrole
    · simpa using transmitter_ports hrole
    · simpa using receiver_ports hrole
  · refine ⟨_, p, ?_⟩
    rcases hevs with rfl | ⟨b, rfl⟩ <;> simp
  · exact ⟨[], p, by simp⟩

/-- Settles O36: the role of the STEP leaves one of the two FIFO directions, and what the iteration says of that one. -/
theorem fifoOnlyInConfirmedMode : Obligations.FifoOnlyInConfirmedMode := by
  intro s t inv e
  rcases exec_cases e with ⟨-, hrun, u, hu, rfl⟩ | ⟨hi, -, -⟩ | ⟨-, -, _, _, q⟩
  · obtain ⟨-, evs, htrace, -, hports⟩ := schedulerIteration_emits hu
    refine ⟨.timeNow s.env.time :: evs, by simp [performs, htrace], ?_⟩
    cases hrole : s.cfg.role with
    | tx =>
      obtain ⟨_, _, _, _, evs', it⟩ := txIterated_of_next inv hrun hrole hu
      have same : evs' = evs := by simpa [htrace] using it.trace.symm
      rw [hrole] at hports
      exact ⟨by simpa [same] using it.own, by simp [(transmitter_ports hports).2.2]⟩
    | rx =>
      obtain ⟨_, _, _, _, _, evs', it⟩ := rxIterated_of_next inv hrun hrole hu
      have same : evs' = evs := by simpa [htrace] using it.trace.symm
      rw [hrole] at hports
      exact ⟨by simp [(receiver_ports hports).2.2.2.2], by simpa [same] using it.own⟩
  · cases hi
  · exact ⟨[], by simp [performs, q.env_same], by simp, by simp⟩

end
end

section
/-! PROOFS. The streams of a run: every port event stands after the one it needs, and what a REJECT transmitter writes
is whole frame images of the source's bytes. -/

namespace Sys2Proof.Machine

open Sys2Proof.Claims

/-! ### Events from one state to the next -/

theorem performs_nil {s t : State} (h : t.env = s.env) : performs s [] t := by simp [performs, h]

/-- The events of two runs, one after the other. -/
theorem performs_append {s t u : State} {a b : List Event} (h : performs s a t) (k : performs t b u) :
    performs s (a ++ b) u := by
  rw [performs] at h k ⊢
  rw [k, h, List.append_assoc]

/-! ### The discipline of the ports -/

/-- The events performed from `s` to `t` may stand after any event. -/
def KeepsDiscipline (s t : State) : Prop := ∃ evs, performs s evs t ∧ ∀ prev, disciplined prev evs = true

theorem KeepsDiscipline.of_silent {s t : State} (h : t.env = s.env) : KeepsDiscipline s t :=
  ⟨[], performs_nil h, fun _ => rfl⟩

theorem KeepsDiscipline.trans {s t u : State} (h : KeepsDiscipline s t) (k : KeepsDiscipline t u) :
    KeepsDiscipline s u := by
  obtain ⟨a, pa, da⟩ := h
  obtain ⟨b, pb, db⟩ := k
  exact ⟨a ++ b, performs_append pa pb, fun prev => disciplined_append a b prev (da prev) db⟩

/-- Asking the time needs no event before it. -/
theorem disciplined_timeNow {evs : List Event} (now : Word) (h : ∀ prev, disciplined prev evs = true)
    (prev : Option Event) : disciplined prev (.timeNow now :: evs) = true := h (some (.timeNow now))

/-- Every command keeps the discipline: the phases of a STEP by the induction over the scheduler's loops, BEGIN because
its two queries need nothing before them, and any other command because it performs no event. -/
theorem exec_keepsDiscipline {i : Instr} {s t : State} (e : exec i s = .next t) : KeepsDiscipline s t := by
  rcases exec_cases e with ⟨-, -, u, hu, rfl⟩ | ⟨-, -, b⟩ | ⟨-, -, _, _, q⟩
  · obtain ⟨-, evs, htrace, hd, -⟩ := schedulerIteration_emits hu
    exact ⟨.timeNow s.env.time :: evs, by simp [performs, htrace], disciplined_timeNow _ hd⟩
  · obtain ⟨evs, htrace, hevs⟩ := b.trace
    refine ⟨.timeNow s.env.time :: evs, htrace, disciplined_timeNow _ fun prev => ?_⟩
    rcases hevs with rfl | ⟨b, rfl⟩ <;> rfl
  · exact .of_silent q.env_same

/-! ### Completion -/

/-- From the invariant no scheduler iteration stops (40_streambuffer.md R145, 44_mode_scheduler.md R270). -/
theorem schedulerIteration_completes {s : State} (inv : Inv s) (hrun : s.coreState = .run) :
    ∃ t, schedulerIteration s = .next t := by
  cases hrole : s.cfg.role with
  | tx =>
    obtain ⟨_, _, _, _, _, t, e, -⟩ := txIteration_holds inv hrun hrole
    exact ⟨t, e⟩
  | rx =>
    obtain ⟨_, _, _, _, _, _, t, e, -⟩ := rxIteration_holds inv hrun hrole
    exact ⟨t, e⟩

/-- Each branch of BEGIN ends with a response (45_host_commands.md R306). -/
theorem execBegin_completes (s : State) : ∃ t, execBegin s = .next t := by
  unfold execBegin
  dsimp only
  repeat' split
  all_goals exact ⟨_, rfl⟩

/-- An assigned address is read, any other answers CSR_ERR (45_host_commands.md R316, R317). -/
theorem execCsrRead_completes (a : CsrAddr) (s : State) : ∃ t, execCsrRead a s = .next t := by
  unfold execCsrRead
  repeat' split
  all_goals exact ⟨_, rfl⟩

/-- A write is made or answers CSR_ERR (45_host_commands.md R321, R322). -/
theorem execCsrWrite_completes (a : CsrAddr) (v : Word) (s : State) : ∃ t, execCsrWrite a v s = .next t := by
  unfold execCsrWrite
  repeat' split
  all_goals exact ⟨_, rfl⟩

theorem execRxCancel_completes (s : State) : ∃ t, execRxCancel s = .next t := by
  unfold execRxCancel
  split <;> exact ⟨_, rfl⟩

/-- STEP completes from the invariant: in RUN its iteration does, elsewhere it is refused with a response. -/
theorem execStep_completes {s : State} (inv : Inv s) : ∃ t, execStep s = .next t := by
  by_cases hrun : s.coreState = .run
  · obtain ⟨u, hu⟩ := schedulerIteration_completes inv hrun
    exact ⟨respond .ok 0 u, by simp [execStep, permitted, hrun, hu]⟩
  · exact ⟨respond .err 0 s, by simp [execStep, permitted, hrun, wrongState]⟩

/-- From the invariant every command completes. -/
theorem exec_completes (i : Instr) {s : State} (inv : Inv s) : ∃ t, exec i s = .next t := by
  cases i with
  | nop => exact ⟨respond .ok 0 s, rfl⟩
  | begin => exact execBegin_completes s
  | step => exact execStep_completes inv
  | csrRead a => exact execCsrRead_completes a s
  | csrWrite a v => exact execCsrWrite_completes a v s
  | rxCancel => exact execRxCancel_completes s

/-! ### The transmit stream -/

/-- A command that is no STEP in RUN and no BEGIN in UNINIT leaves TXB and the TxFramer alone. -/
theorem Quietly.tx_same {i : Instr} {s t : State} {st : Status} {d : Word} (q : Quietly i s st d t) :
    t.txb = s.txb ∧ t.tx = s.tx := by
  rw [q.frame]; exact ⟨rfl, rfl⟩

/-- What is still to be written of the frame in progress depends on the TxFramer and the configuration alone. -/
theorem inFlight_congr {s t : State} (htx : t.tx = s.tx) (hcfg : t.cfg = s.cfg) : inFlight t = inFlight s := by
  simp only [inFlight, wireImage, htx, hcfg]

/-- No command takes a CORE out of RUN. -/
theorem exec_keeps_run {i : Instr} {s t : State} (e : exec i s = .next t) (hrun : s.coreState = .run) :
    t.coreState = .run := by
  rcases exec_cases e with ⟨-, -, u, hu, rfl⟩ | ⟨-, h, -⟩ | ⟨-, -, _, _, q⟩
  · exact (schedulerIteration_kept hu).coreState.trans hrun
  · rw [hrun] at h; cases h
  · exact q.coreState_same.trans hrun

/-- A running transmitter stays one, with the same configuration, whatever the command. -/
theorem exec_keeps_transmitting {i : Instr} {s t : State} (h : transmitting s) (e : exec i s = .next t) :
    transmitting t ∧ t.cfg = s.cfg := by
  obtain ⟨inv, hrun, hrole⟩ := h
  have hcfg : t.cfg = s.cfg := (exec_keeps_config e (by rw [hrun]; decide)).2
  exact ⟨⟨exec_keeps_inv inv e, exec_keeps_run e hrun, by rw [hcfg]; exact hrole⟩, hcfg⟩

/-- From `s` to `t` the events `evs` were performed and the frames with data `frames` committed: the bytes written are
those frames' images, the frame in progress apart, and the source's bytes are the frames' data, TXB apart. -/
structure Transmitted (s : State) (evs : List Event) (frames : List (List Byte)) (t : State) : Prop where
  trace : performs s evs t
  cfg : t.cfg = s.cfg
  wire : radioWrites evs ++ inFlight t = inFlight s ++ frames.flatMap (frameImage s.cfg)
  data : frames.flatten ++ t.txb.held = s.txb.held ++ sourceBytes evs
  chunks : ∀ d ∈ frames, 1 ≤ d.length ∧ d.length ≤ s.cfg.n.toNat

/-- Nothing performed, and the transmit side left alone. -/
theorem Transmitted.of_same {s t : State} (henv : t.env = s.env) (hcfg : t.cfg = s.cfg) (htxb : t.txb = s.txb)
    (htx : t.tx = s.tx) : Transmitted s [] [] t where
  trace := performs_nil henv
  cfg := hcfg
  wire := by simp [inFlight_congr htx hcfg]
  data := by simp [htxb]
  chunks := by simp

theorem Transmitted.trans {s t u : State} {a b : List Event} {f g : List (List Byte)} (h : Transmitted s a f t)
    (k : Transmitted t b g u) : Transmitted s (a ++ b) (f ++ g) u where
  trace := performs_append h.trace k.trace
  cfg := k.cfg.trans h.cfg
  wire := calc
    radioWrites (a ++ b) ++ inFlight u
      = radioWrites a ++ (radioWrites b ++ inFlight u) := by rw [radioWrites_append, List.append_assoc]
    _ = (radioWrites a ++ inFlight t) ++ g.flatMap (frameImage s.cfg) := by rw [k.wire, h.cfg, List.append_assoc]
    _ = inFlight s ++ (f ++ g).flatMap (frameImage s.cfg) := by rw [h.wire, List.flatMap_append, List.append_assoc]
  data := calc
    (f ++ g).flatten ++ u.txb.held
      = f.flatten ++ (g.flatten ++ u.txb.held) := by rw [List.flatten_append, List.append_assoc]
    _ = (f.flatten ++ t.txb.held) ++ sourceBytes b := by rw [k.data, List.append_assoc]
    _ = s.txb.held ++ sourceBytes (a ++ b) := by rw [h.data, sourceBytes_append, List.append_assoc]
  chunks d hd := by
    rcases List.mem_append.mp hd with hf | hg
    · exact h.chunks d hf
    · exact h.cfg ▸ k.chunks d hg

/-- One iteration under REJECT: every byte taken fits in TXB, so none is lost between the source and the frames. -/
theorem TxIterated.transmitted {s t : State} {taken rest : List Byte} {frames : List (List Byte)} {o : Nat}
    {evs : List Event} (it : TxIterated s taken frames rest o evs t) (hpol : s.cfg.policy = .reject) :
    Transmitted s (.timeNow s.env.time :: evs) frames t where
  trace := it.trace
  cfg := by rw [it.frame]
  wire := by simpa using it.wire
  data := by simpa [it.holds.held, it.source, keptBytes_fits _ _ _ (it.reject hpol)] using it.data
  chunks := it.chunks

/-- Every command a running REJECT transmitter executes. -/
theorem exec_transmitted {i : Instr} {s t : State} (h : transmitting s) (hpol : s.cfg.policy = .reject)
    (e : exec i s = .next t) : ∃ evs frames, Transmitted s evs frames t := by
  obtain ⟨inv, hrun, hrole⟩ := h
  rcases exec_cases e with ⟨-, -, u, hu, rfl⟩ | ⟨-, hs, -⟩ | ⟨-, -, _, _, q⟩
  · obtain ⟨_, frames, _, _, evs, it⟩ := txIterated_of_next inv hrun hrole hu
    have responded : Transmitted u [] [] (respond .ok 0 u) := .of_same rfl rfl rfl rfl
    exact ⟨_, _, (it.transmitted hpol).trans responded⟩
  · rw [hrun] at hs; cases hs
  · have hcfg : t.cfg = s.cfg := (exec_keeps_config e (by rw [hrun]; decide)).2
    exact ⟨[], [], .of_same q.env_same hcfg q.tx_same.1 q.tx_same.2⟩

/-- Every run of commands of a running REJECT transmitter completes, by induction over the commands. -/
theorem execAll_transmitted (cmds : List Instr) {s : State} (h : transmitting s) (hpol : s.cfg.policy = .reject) :
    ∃ evs frames t, execAll cmds s = .next t ∧ transmitting t ∧ Transmitted s evs frames t := by
  induction cmds generalizing s with
  | nil => exact ⟨[], [], s, rfl, h, .of_same rfl rfl rfl rfl⟩
  | cons i rest ih =>
    obtain ⟨u, e⟩ := exec_completes i h.1
    obtain ⟨hu, hcfg⟩ := exec_keeps_transmitting h e
    obtain ⟨a, f, first⟩ := exec_transmitted h hpol e
    obtain ⟨b, g, t, run, ht, others⟩ := ih hu (hcfg ▸ hpol)
    exact ⟨a ++ b, f ++ g, t, (andThen_eq_next _ _ _).mpr ⟨u, e, run⟩, ht, first.trans others⟩

end Sys2Proof.Machine

section

open Sys2Proof Sys2Proof.Machine Sys2Proof.Claims

/-- Settles O34: every command keeps the discipline, and so does every run of commands. -/
theorem portDiscipline : Obligations.PortDiscipline := by
  intro cmds s t e
  obtain ⟨evs, p, hd⟩ : KeepsDiscipline s t :=
    execAll_rel (fun _ => .of_silent rfl) (fun _ _ _ h k => h.trans k) (fun _ _ _ => exec_keepsDiscipline) cmds e
  exact ⟨evs, p, hd none⟩

/-- Settles O39, by the stream invariant `Transmitted` of each command, carried over the run. -/
theorem transmitStream : Obligations.TransmitStream := by
  intro cmds s h hpol
  obtain ⟨evs, frames, t, run, ht, tr⟩ := execAll_transmitted cmds h hpol
  exact ⟨evs, frames, t, run, tr.trace, ht, tr.wire, tr.data, tr.chunks⟩

end
end

section
/-! PROOFS. The encoding: a word decodes to a command exactly when its fields are that command's (30_encoding.md R111 to
R115), what the assembler makes of a line (R117, R118), and the step that runs a presented word. -/

namespace Sys2Proof

/-! ### The four checks of a command's fields -/

theorem CommandFields.wellFormed_iff (f : CommandFields) :
    f.wellFormed = true ↔
      f.op.toNat ≤ 0x05 ∧ f.rsv = 0 ∧ (f.op = 0x03 ∨ f.op = 0x04 ∨ f.sel = 0) ∧ (f.op = 0x04 ∨ f.data = 0) := by
  simp [CommandFields.wellFormed, opAssigned, rsvIsZero, selIsZeroUnlessUsed, dataIsZeroUnlessUsed, and_assoc]

/-- Every command is well formed and matches its row of the table (30_encoding.md R113). -/
theorem matchesTable (i : Instr) : Laws.MatchesTable.Statement i := by
  cases i with
  | nop => exact Laws.MatchesTable.nop
  | begin => exact Laws.MatchesTable.begin
  | step => exact Laws.MatchesTable.step
  | csrRead addr => exact Laws.MatchesTable.csrRead addr
  | csrWrite addr value => exact Laws.MatchesTable.csrWrite addr value
  | rxCancel => exact Laws.MatchesTable.rxCancel

/-- The four checks leave exactly the fields that some command has. -/
theorem CommandFields.wellFormed_iff_exists (f : CommandFields) : f.wellFormed = true ↔ ∃ i : Instr, f = i.fields := by
  constructor
  · obtain ⟨op, sel, rsv, data⟩ := f
    rw [wellFormed_iff]
    rintro ⟨hop, hrsv, hsel, hdata⟩
    dsimp only at hop hrsv hsel hdata
    subst hrsv
    have codes : op = 0 ∨ op = 1 ∨ op = 2 ∨ op = 3 ∨ op = 4 ∨ op = 5 := by bv_omega
    rcases codes with rfl | rfl | rfl | rfl | rfl | rfl
    · exact ⟨.nop, by simp_all [Instr.fields]⟩
    · exact ⟨.begin, by simp_all [Instr.fields]⟩
    · exact ⟨.step, by simp_all [Instr.fields]⟩
    · exact ⟨.csrRead sel, by simp_all [Instr.fields]⟩
    · exact ⟨.csrWrite sel data, rfl⟩
    · exact ⟨.rxCancel, by simp_all [Instr.fields]⟩
  · rintro ⟨i, rfl⟩
    exact (matchesTable i).1

/-! ### The decoder -/

theorem decodeNoData_eq_command (f : CommandFields) (i j : Instr) :
    decodeNoData f i = .command j ↔ f.data = 0 ∧ i = j := by
  unfold decodeNoData
  split <;> simp_all

theorem decodeBare_eq_command (f : CommandFields) (i j : Instr) :
    decodeBare f i = .command j ↔ f.sel = 0 ∧ f.data = 0 ∧ i = j := by
  unfold decodeBare
  split <;> simp_all [decodeNoData_eq_command]

@[simp] theorem fieldsOf_encode (i : Instr) : fieldsOf (encode i) = i.fields := fieldsOf_wordOf _

@[simp] theorem decode_encode (i : Instr) : decode (encode i) = .command i := by
  unfold decode
  rw [fieldsOf_encode]
  cases i <;> rfl

/-- Whatever the decoder reads as a command has that command's fields. -/
theorem fieldsOf_of_decode {w : CommandWord} {i : Instr} (h : decode w = .command i) : fieldsOf w = i.fields := by
  unfold decode at h
  generalize fieldsOf w = f at h ⊢
  obtain ⟨op, sel, rsv, data⟩ := f
  dsimp only at h
  split_ifs at h with hrsv h0 h1 h2 h3 h4 h5 <;> obtain rfl : rsv = 0 := not_not.mp hrsv
  · obtain ⟨rfl, rfl, rfl⟩ := (decodeBare_eq_command _ _ _).mp h
    rw [Instr.fields, ← h0]
  · obtain ⟨rfl, rfl, rfl⟩ := (decodeBare_eq_command _ _ _).mp h
    rw [Instr.fields, ← h1]
  · obtain ⟨rfl, rfl, rfl⟩ := (decodeBare_eq_command _ _ _).mp h
    rw [Instr.fields, ← h2]
  · obtain ⟨rfl, rfl⟩ := (decodeNoData_eq_command _ _ _).mp h
    rw [Instr.fields, ← h3]
  · cases h
    rw [Instr.fields, ← h4]
  · obtain ⟨rfl, rfl, rfl⟩ := (decodeBare_eq_command _ _ _).mp h
    rw [Instr.fields, ← h5]

/-- A word decodes to a command exactly when it is the command's word. -/
theorem decode_eq_command_iff (w : CommandWord) (i : Instr) : decode w = .command i ↔ w = encode i := by
  constructor
  · intro h
    rw [← wordOf_fieldsOf w, fieldsOf_of_decode h, encode]
  · rintro rfl
    exact decode_encode i

/-! ### Masks, field by field -/

theorem fieldsOf_inj (v w : CommandWord) : fieldsOf v = fieldsOf w ↔ v = w :=
  ⟨fun h => by rw [← wordOf_fieldsOf v, h, wordOf_fieldsOf], fun h => h ▸ rfl⟩

/-- A masked comparison of words is one of each field. -/
theorem and_eq_iff_fields (w mask value : CommandWord) :
    w &&& mask = value ↔
      (fieldsOf w).op &&& (fieldsOf mask).op = (fieldsOf value).op ∧
      (fieldsOf w).sel &&& (fieldsOf mask).sel = (fieldsOf value).sel ∧
      (fieldsOf w).rsv &&& (fieldsOf mask).rsv = (fieldsOf value).rsv ∧
      (fieldsOf w).data &&& (fieldsOf mask).data = (fieldsOf value).data := by
  rw [← fieldsOf_inj]
  simp [fieldsOf, BitVec.extractLsb'_and]

/-- A word is a command's when its fields are. -/
theorem eq_encode_iff_fields (w : CommandWord) (i : Instr) : w = encode i ↔ fieldsOf w = i.fields := by
  rw [← fieldsOf_inj, fieldsOf_encode]

/-- The row of CSR_READ (30_encoding.md R113) fixes every field but SEL. -/
theorem and_csrRead_mask_iff (w : CommandWord) :
    w &&& 0xFF00FFFFFFFFFFFF = 0x0300000000000000 ↔ w = encode (.csrRead (fieldsOf w).sel) := by
  rw [and_eq_iff_fields, eq_encode_iff_fields,
    show fieldsOf 0xFF00FFFFFFFFFFFF = ⟨BitVec.allOnes 8, 0#8, BitVec.allOnes 16, BitVec.allOnes 32⟩ by decide,
    show fieldsOf 0x0300000000000000 = ⟨0x03, 0, 0, 0⟩ by decide]
  generalize fieldsOf w = f
  obtain ⟨op, sel, rsv, data⟩ := f
  simp only [Instr.fields, CommandFields.mk.injEq, BitVec.and_allOnes, BitVec.and_zero, BitVec.ofNat_eq_ofNat, true_and]

/-- The row of CSR_WRITE (30_encoding.md R113) fixes OP and RSV. -/
theorem and_csrWrite_mask_iff (w : CommandWord) :
    w &&& 0xFF00FFFF00000000 = 0x0400000000000000 ↔ w = encode (.csrWrite (fieldsOf w).sel (fieldsOf w).data) := by
  rw [and_eq_iff_fields, eq_encode_iff_fields,
    show fieldsOf 0xFF00FFFF00000000 = ⟨BitVec.allOnes 8, 0#8, BitVec.allOnes 16, 0#32⟩ by decide,
    show fieldsOf 0x0400000000000000 = ⟨0x04, 0, 0, 0⟩ by decide]
  generalize fieldsOf w = f
  obtain ⟨op, sel, rsv, data⟩ := f
  simp only [Instr.fields, CommandFields.mk.injEq, BitVec.and_allOnes, BitVec.and_zero, BitVec.ofNat_eq_ofNat, true_and]

end Sys2Proof

namespace Sys2Proof.Machine

open Sys2Proof.Claims

/-! ### The illegal words -/

/-- A word is illegal exactly when it is no command's (30_encoding.md R114). -/
theorem isIllegal_iff_no_command (w : CommandWord) : isIllegal w ↔ ¬ ∃ i, decode w = .command i := by
  unfold isIllegal
  cases decode w <;> simp

/-- The decoder refuses exactly the words whose fields fail a check (30_encoding.md R115). -/
theorem isIllegal_iff_wellFormed (w : CommandWord) : isIllegal w ↔ ¬ (fieldsOf w).wellFormed = true := by
  simp only [isIllegal_iff_no_command, CommandFields.wellFormed_iff_exists, decode_eq_command_iff, eq_encode_iff_fields]

theorem fieldsOf_op_toNat (w : CommandWord) : (fieldsOf w).op.toNat = opOf w := by
  simp only [fieldsOf, opOf, BitVec.extractLsb'_toNat, Nat.shiftRight_eq_div_pow]
  omega

theorem fieldsOf_sel_toNat (w : CommandWord) : (fieldsOf w).sel.toNat = selOf w := by
  simp [fieldsOf, selOf, BitVec.extractLsb'_toNat, Nat.shiftRight_eq_div_pow]

theorem fieldsOf_rsv_toNat (w : CommandWord) : (fieldsOf w).rsv.toNat = rsvOf w := by
  simp [fieldsOf, rsvOf, BitVec.extractLsb'_toNat, Nat.shiftRight_eq_div_pow]

theorem fieldsOf_data_toNat (w : CommandWord) : (fieldsOf w).data.toNat = dataOf w := by
  simp [fieldsOf, dataOf, BitVec.extractLsb'_toNat]

/-- The illegal words by the numbers in their fields (30_encoding.md R115). -/
theorem isIllegal_iff_numbers (w : CommandWord) :
    isIllegal w ↔
      6 ≤ opOf w ∨ rsvOf w ≠ 0 ∨
      ((opOf w = 0 ∨ opOf w = 1 ∨ opOf w = 2 ∨ opOf w = 5) ∧ (selOf w ≠ 0 ∨ dataOf w ≠ 0)) ∨
      (opOf w = 3 ∧ dataOf w ≠ 0) := by
  rw [isIllegal_iff_wellFormed, CommandFields.wellFormed_iff]
  simp only [BitVec.toNat_eq, fieldsOf_op_toNat, fieldsOf_sel_toNat, fieldsOf_rsv_toNat, fieldsOf_data_toNat,
    BitVec.ofNat_eq_ofNat, BitVec.toNat_ofNat]
  omega

/-! ### An unassigned CSR address -/

/-- CSR_READ of an unassigned address fails (45_host_commands.md R317). -/
theorem exec_csrRead_unassigned {a : CsrAddr} (ha : unassigned a = true) (s : State) : csrFails (.csrRead a) s := by
  rw [csrFails, ← csrFailure_eq]
  show execCsrRead a s = csrFailure s
  simp [execCsrRead, permitted, (Csr.ofAddr_unassigned a).mp ha]

/-- CSR_WRITE of an unassigned address fails (45_host_commands.md R322). -/
theorem exec_csrWrite_unassigned {a : CsrAddr} (ha : unassigned a = true) (v : Word) (s : State) :
    csrFails (.csrWrite a v) s := by
  rw [csrFails, ← csrFailure_eq]
  show execCsrWrite a v s = csrFailure s
  simp [execCsrWrite, permitted, (Csr.ofAddr_unassigned a).mp ha]

/-! ### The assembler -/

theorem imm32_of_number {t : List Char} {v : Nat} (h : number t = some v) (hv : v < 2 ^ 32) :
    imm32 t = some (BitVec.ofNat 32 v) := by
  rw [imm32, h]
  exact if_pos hv

theorem writeOf_of_lt (c : Csr) {v : Nat} (hv : v < 2 ^ 32) :
    writeOf c v = some [.csrWrite c.addr (BitVec.ofNat 32 v)] := if_pos hv

theorem commandsOf_steps (t : List Char) : commandsOf "steps" [t] = (number t).bind stepsOf := rfl

theorem commandsOf_clrerr (t : List Char) :
    commandsOf "clrerr" [t] = (imm32 t).map fun y => [.csrWrite (Csr.addr .err) y] := rfl

theorem commandsOf_csrw (a t : List Char) :
    commandsOf "csrw" [a, [','], t] = (csrOperand a).bind fun x => (imm32 t).map fun y => [.csrWrite x y] := rfl

theorem commandsOf_setsync (t0 t1 : List Char) :
    commandsOf "setsync" [t0, [','], t1] = (number t0).bind fun x => (number t1).bind fun y => setSyncOf x y := rfl

theorem commandsOf_setctrl (t0 t1 t2 t3 : List Char) :
    commandsOf "setctrl" [t0, [','], t1, [','], t2, [','], t3] =
      (number t0).bind fun w => (number t1).bind fun x => (number t2).bind fun y => (number t3).bind fun z =>
        setCtrlOf w x y z := rfl

/-- A name the table of 10_state.md R39 holds is that CSR's address. -/
theorem csrOperand_name (c : Csr) : csrOperand c.name.toList = some c.addr := by cases c <;> decide

/-- A line of one command: its word, which decodes to the command. -/
theorem assembleLine_eq_encode {line : String} {i : Instr}
    (h : commandsOfTokens (tokensFrom [] line.toList) = some [i]) : assembleLine line = some [encode i] := by
  simp [assembleLine, h]

/-! ### The step that runs a presented word -/

theorem nextInput_cons {s : State} {x : HostInput} {rest : List HostInput} (h : s.host.inputs = x :: rest) :
    nextInput s = some (x, { s with host := { s.host with inputs := rest } }) := by
  simp only [nextInput, h, State.setHost]

theorem step_of_command {s : State} {w : CommandWord} {rest : List HostInput} {i : Instr}
    (h : s.host.inputs = .command w :: rest) (hw : decode w = .command i) :
    step s = exec i { s with host := { s.host with inputs := rest } } := by
  simp [step, nextInput_cons h, hw]

theorem step_of_illegal {s : State} {w : CommandWord} {rest : List HostInput}
    (h : s.host.inputs = .command w :: rest) (hw : isIllegal w) :
    step s = execIllegal { s with host := { s.host with inputs := rest } } := by
  obtain ⟨why, hw⟩ := hw
  simp [step, nextInput_cons h, hw]

/-- An illegal word sets ILLEGAL_CMD, counts nothing and answers `{ERR, 0}` (60_exceptions.md R361). -/
theorem execIllegal_eq (s : State) : execIllegal s = .next (answered .err 0 { s with err := s.err ||| 0x100 }) := rfl

/-- Presenting a command's word as a number presents that word. -/
theorem withFetchWord_toNat (s : State) (w : CommandWord) : s.withFetchWord 64 w.toNat = present w s := by
  rw [State.withFetchWord, Nat.mod_eq_of_lt w.isLt, BitVec.ofNat_toNat, BitVec.setWidth_eq]

end Sys2Proof.Machine

section

open Sys2Proof Sys2Proof.Machine Sys2Proof.Claims

/-- Settles O1: the four checks from the command's row of the table, and the decoder on the command's own fields. -/
theorem decodeEncodeRoundTrip : Obligations.DecodeEncodeRoundTrip :=
  fun i => ⟨(matchesTable i).1, decode_encode i⟩

/-- Settles O2: a word with a command's fields is that command's word. -/
theorem decodedWordIsEncoding : Obligations.DecodedWordIsEncoding :=
  fun w i h => ((decode_eq_command_iff w i).mp h).symm

/-- Settles O3: the four checks read as numbers, and an unassigned address through the CSR map. -/
theorem illegalWordsExactly : Obligations.IllegalWordsExactly :=
  ⟨isIllegal_iff_numbers, fun a v s ha =>
    ⟨decode_encode (.csrRead a), exec_csrRead_unassigned ha s,
      decode_encode (.csrWrite a v), exec_csrWrite_unassigned ha v s⟩⟩

/-- Settles O5: a row whose mask is all ones names one word; the two CSR rows leave the operand fields free. -/
theorem opcodeMatchMask : Obligations.OpcodeMatchMask := by
  intro w
  have ones : w &&& 0xFFFFFFFFFFFFFFFF = w := BitVec.and_allOnes
  rw [ones]
  refine ⟨decode_eq_command_iff w .nop, decode_eq_command_iff w .begin, decode_eq_command_iff w .step, ?_, ?_,
    decode_eq_command_iff w .rxCancel, fun hop => (isIllegal_iff_numbers w).mpr (.inl hop)⟩
  · rw [and_csrRead_mask_iff]
    exact decode_eq_command_iff w _
  · rw [and_csrWrite_mask_iff]
    exact decode_eq_command_iff w _

/-- Settles O6, by what each mnemonic does with its operands. -/
theorem assemblerPseudo : Obligations.AssemblerPseudo := by
  refine ⟨fun t k ht hk => ?_, fun t => ?_, fun t0 t1 b0 b1 h0 h1 hlt => ?_,
    fun t0 t1 t2 t3 role policy cycle pad h0 h1 h2 h3 hlt => ?_⟩
  · rw [commandsOf_steps, ht]
    exact if_pos hk
  · rw [commandsOf_clrerr, commandsOf_csrw, show csrOperand "err".toList = _ from csrOperand_name .err]
    rfl
  · rw [commandsOf_setsync, h0, h1]
    exact writeOf_of_lt .cfgSync hlt
  · rw [commandsOf_setctrl, h0, h1, h2, h3]
    exact writeOf_of_lt .cfgCtrl hlt

/-- Settles O4: each line's one command, by evaluation; its word, and what that decodes to, by the lemmas. -/
theorem workedEncodings : Obligations.WorkedEncodings := by
  refine ⟨⟨assembleLine_eq_encode (i := .nop) (by decide), decode_encode .nop⟩,
    ⟨assembleLine_eq_encode (i := .begin) (by decide), decode_encode .begin⟩,
    ⟨assembleLine_eq_encode (i := .step) (by decide), decode_encode .step⟩,
    ⟨assembleLine_eq_encode (i := .csrRead 0x10) (by decide), decode_encode (.csrRead 0x10)⟩,
    ⟨assembleLine_eq_encode (i := .csrRead 0x15) (by decide), decode_encode (.csrRead 0x15)⟩,
    ⟨assembleLine_eq_encode (i := .csrWrite 0x00 4) (by decide), decode_encode (.csrWrite 0x00 4)⟩,
    ⟨assembleLine_eq_encode (i := .csrWrite 0x01 0x6937) (by decide),
      assembleLine_eq_encode (i := .csrWrite 0x01 0x6937) (by decide), decode_encode (.csrWrite 0x01 0x6937)⟩,
    ⟨assembleLine_eq_encode (i := .csrWrite 0x02 50) (by decide), decode_encode (.csrWrite 0x02 50)⟩,
    ⟨assembleLine_eq_encode (i := .csrWrite 0x05 12) (by decide), decode_encode (.csrWrite 0x05 12)⟩,
    ⟨assembleLine_eq_encode (i := .csrWrite 0x07 1) (by decide), decode_encode (.csrWrite 0x07 1)⟩,
    ⟨assembleLine_eq_encode (i := .csrWrite 0x15 0x3FC) (by decide), decode_encode (.csrWrite 0x15 0x3FC)⟩,
    ⟨assembleLine_eq_encode (i := .rxCancel) (by decide), decode_encode .rxCancel⟩,
    (isIllegal_iff_numbers _).mpr (by decide), (isIllegal_iff_numbers _).mpr (by decide),
    (isIllegal_iff_numbers _).mpr (by decide)⟩

/-- Settles O7: the step on a command word, the second part at the state with that word presented. -/
theorem stepRunsDecodedCommand : Obligations.StepRunsDecodedCommand := by
  refine ⟨fun s w rest i => step_of_command, fun s i => ?_⟩
  rw [withFetchWord_toNat]
  exact step_of_command rfl (decode_encode i)

/-- Settles O8: what an illegal word does, at the state with the word taken. -/
theorem illegalWordExecution : Obligations.IllegalWordExecution := by
  intro s w rest h hw
  rw [step_of_illegal h hw, execIllegal_eq]

end
end

section
/-! PROOFS. Progress, and the StreamBuffer: no step from the invariant stops; what appending and taking leave in a buffer,
in terms of the bytes held (40_streambuffer.md R141 to R146); and the source drain (R147). -/

namespace Sys2Proof.Claims

open Sys2Proof.Machine

/-! ### What the premises say in numbers -/

section
variable {b : Buf} {s : State}

theorem BufferReady.holds (h : BufferReady b s) : Holds (s.buf b) (s.buf b).held := .of_slide h.canonical h.slide

theorem BufferReady.length (h : BufferReady b s) : (s.buf b).held.length = (s.buf b).pending.toNat := h.holds.length

theorem BufferReady.held_le (h : BufferReady b s) : (s.buf b).held.length ≤ (s.capacity b).toNat := by
  rw [h.length, ← BitVec.le_def]; exact h.fits

theorem BufferReady.capacity_le (h : BufferReady b s) : (s.capacity b).toNat ≤ (s.depthMax b).toNat := by
  rw [← BitVec.le_def]; exact h.depth

theorem BufferReady.held_le_depth (h : BufferReady b s) : (s.buf b).held.length ≤ (s.depthMax b).toNat :=
  h.held_le.trans h.capacity_le

theorem BufferReady.txbReady (h : BufferReady .txb s) (hp : s.cfg.policy ≠ .reserved) : TxbReady s :=
  ⟨h.room, h.capacity_le, hp⟩

end

end Sys2Proof.Claims

namespace Sys2Proof.Machine

open Sys2Proof.Claims

/-! ### Progress -/

theorem step_of_nothing {s : State} (h : s.host.inputs = []) : step s = .next s := by
  simp [step, nextInput, h]

theorem step_of_reset {s : State} {rest : List HostInput} (h : s.host.inputs = .reset :: rest) :
    step s = .next (applyReset { s with host := { s.host with inputs := rest } }) := by
  simp [step, nextInput_cons h]

/-! ### Buffer records -/

theorem setBuf_setBuf (s : State) (b : Buf) (r q : StreamBuffer) : (s.setBuf b r).setBuf b q = s.setBuf b q := by
  cases b <;> rfl

theorem setBuf_same (s : State) (b : Buf) : s.setBuf b (s.buf b) = s := by cases b <;> rfl

theorem raise_setBuf (c : Cause) (s : State) (b : Buf) (r : StreamBuffer) :
    raise c (s.setBuf b r) = (raise c s).setBuf b r := by cases b <;> rfl

theorem iterate_raise_setBuf (c : Cause) (n : Nat) (s : State) (b : Buf) (r : StreamBuffer) :
    (raise c)^[n] (s.setBuf b r) = ((raise c)^[n] s).setBuf b r := by
  induction n generalizing s with
  | zero => rfl
  | succ n ih => rw [Function.iterate_succ_apply, raise_setBuf, ih, Function.iterate_succ_apply]

theorem Holds.pending_eq {r : StreamBuffer} {l : List Byte} (h : Holds r l) {n : Count} (hn : l.length = n.toNat) :
    r.pending = n := BitVec.eq_of_toNat_eq (h.length.symm.trans hn)

/-! ### What a buffer keeps -/

/-- What is kept of the bytes kept and of more bytes is what is kept of them all. -/
theorem keptBytes_append {p : Policy} (hp : p ≠ .reserved) (cap : Nat) (l m : List Byte) :
    keptBytes p cap (keptBytes p cap l ++ m) = keptBytes p cap (l ++ m) := by
  have first : (l.take cap ++ m).take cap = (l ++ m).take cap := by
    rw [List.take_append, List.take_append, List.take_take, Nat.min_self, List.length_take]
    rcases Nat.le_total cap l.length with h | h
    · rw [Nat.min_eq_left h, Nat.sub_self, Nat.sub_eq_zero_of_le h]
    · rw [Nat.min_eq_right h]
  cases p with
  | reject => exact first
  | dropNew => exact first
  | dropOld =>
    simp only [keptBytes]
    rw [← List.drop_append_of_le_length (Nat.sub_le _ _), List.drop_drop]
    congr 1
    simp only [List.length_drop, List.length_append]
    omega
  | reserved => exact absurd rfl hp

/-- Under REJECT a full buffer keeps what it holds. -/
theorem keptBytes_reject_full {cap : Nat} {l : List Byte} (h : l.length = cap) (m : List Byte) :
    keptBytes .reject cap (l ++ m) = l := List.take_left' h

/-! ### Appending -/

/-- SB_append on a sound buffer, under every policy but 3: what it keeps, the overrun where it is full, and the result
(40_streambuffer.md R141, R149). -/
theorem sbAppend_keeps {b : Buf} {s : State} {l : List Byte} (x : Byte) (h : Holds (s.buf b) l)
    (hc : l.length ≤ (s.capacity b).toNat) (h1 : 1 ≤ (s.capacity b).toNat)
    (hd : (s.capacity b).toNat ≤ (s.depthMax b).toNat) (hp : s.cfg.policy ≠ .reserved) :
    ∃ a r, sbAppend b x s =
        .next (a, (if l.length < (s.capacity b).toNat then s else raise b.overrun s).setBuf b r) ∧
      (a = .stored ↔ l.length < (s.capacity b).toNat) ∧
      Holds r (keptBytes s.cfg.policy (s.capacity b).toNat (l ++ [x])) := by
  rcases Nat.lt_or_ge l.length (s.capacity b).toNat with lt | ge
  · obtain ⟨r, e, o⟩ := sbAppend_room x h lt hd
    refine ⟨.stored, r, by rw [e, if_pos lt], by simp [lt], ?_⟩
    rwa [keptBytes_fits _ _ _ (by simpa using lt)]
  · have full : l.length = (s.capacity b).toNat := by omega
    have notLess : ¬ (s.buf b).pending < s.capacity b := by rw [BitVec.lt_def, ← h.length]; omega
    have take : (l ++ [x]).take (s.capacity b).toNat = l := List.take_left' full
    rw [if_neg (by omega)]
    cases hpol : s.cfg.policy with
    | reject =>
      refine ⟨.rejected, s.buf b, ?_, by simp; omega, by simp only [keptBytes, take]; exact h⟩
      rw [sbAppend_full_reject x notLess hpol, ← raise_buf b.overrun, setBuf_same]
    | dropNew =>
      refine ⟨.droppedNew, s.buf b, ?_, by simp; omega, by simp only [keptBytes, take]; exact h⟩
      rw [sbAppend_full_dropNew x notLess hpol, ← raise_buf b.overrun, setBuf_same]
    | dropOld =>
      obtain ⟨r, e, o⟩ := sbAppend_full_dropOld x h full h1 hd hpol
      refine ⟨.droppedOld, r, e, by simp; omega, ?_⟩
      have drop : (l ++ [x]).drop ((l ++ [x]).length - (s.capacity b).toNat) = l.drop 1 ++ [x] := by
        rw [List.length_append, full, Nat.add_sub_cancel_left, List.length_singleton,
          List.drop_append_of_le_length (by omega)]
      simp only [keptBytes, drop]
      exact o
    | reserved => exact absurd hpol hp

/-- How often appending `len` bytes where there is room for `room` raises the overrun: once under REJECT, which stops
there, and once a byte too many otherwise (40_streambuffer.md R142). -/
def excess (p : Policy) (room len : Nat) : Nat :=
  if p = .reject then (if room < len then 1 else 0) else len - room

theorem excess_fits (p : Policy) {room len : Nat} (h : len ≤ room) : excess p room len = 0 := by
  unfold excess
  split
  · exact if_neg (by omega)
  · omega

/-- SB_append_list on a sound buffer, by induction on the list: each byte is stored while there is room; the first one
without room ends the list under REJECT, and is an overrun more under the other policies. -/
theorem sbAppendListFrom_keeps {b : Buf} (list : List Byte) {s : State} {l : List Byte} (h : Holds (s.buf b) l)
    (hc : l.length ≤ (s.capacity b).toNat) (h1 : 1 ≤ (s.capacity b).toNat)
    (hd : (s.capacity b).toNat ≤ (s.depthMax b).toNat) (hp : s.cfg.policy ≠ .reserved) (stored : Nat) (ovr : Bool) :
    ∃ r, sbAppendListFrom b stored ovr list s =
        .next ((stored + min list.length ((s.capacity b).toNat - l.length),
            ovr || decide ((s.capacity b).toNat - l.length < list.length)),
          ((raise b.overrun)^[excess s.cfg.policy ((s.capacity b).toNat - l.length) list.length] s).setBuf b r) ∧
      Holds r (keptBytes s.cfg.policy (s.capacity b).toNat (l ++ list)) := by
  induction list generalizing s l stored ovr with
  | nil =>
    refine ⟨s.buf b, ?_, by simpa [keptBytes_fits _ _ _ hc] using h⟩
    simp [sbAppendListFrom, excess_fits, setBuf_same]
  | cons x rest ih =>
    obtain ⟨a, r, e, hs, hr⟩ := sbAppend_keeps x h hc h1 hd hp
    rcases Nat.lt_or_ge l.length (s.capacity b).toNat with lt | ge
    · rw [if_pos lt] at e
      rw [sbAppendListFrom, e, andThen_next, if_pos (hs.mpr lt)]
      rw [keptBytes_fits _ _ _ (by simpa using lt)] at hr
      obtain ⟨r', e', hr'⟩ := ih (s := s.setBuf b r) (l := l ++ [x]) (by simpa using hr) (by simpa using lt)
        (by simpa using h1) (by simpa using hd) (by simpa using hp) (stored + 1) ovr
      simp only [setBuf_capacity, setBuf_cfg, iterate_raise_setBuf, setBuf_setBuf, List.append_assoc,
        List.cons_append, List.nil_append, List.length_append, List.length_cons, List.length_nil] at e' hr'
      refine ⟨r', e'.trans ?_, hr'⟩
      have count : stored + 1 + min rest.length ((s.capacity b).toNat - (l.length + (0 + 1))) =
          stored + min (rest.length + 1) ((s.capacity b).toNat - l.length) := by omega
      have more : (s.capacity b).toNat - (l.length + (0 + 1)) < rest.length ↔
          (s.capacity b).toNat - l.length < rest.length + 1 := by omega
      have same : excess s.cfg.policy ((s.capacity b).toNat - (l.length + (0 + 1))) rest.length =
          excess s.cfg.policy ((s.capacity b).toNat - l.length) (rest.length + 1) := by
        simp only [excess, more]
        split <;> omega
      rw [count, same, List.length_cons, decide_eq_decide.mpr more]
    · have full : l.length = (s.capacity b).toNat := by omega
      have noRoom : (s.capacity b).toNat - l.length = 0 := by omega
      rw [if_neg (by omega)] at e
      rw [sbAppendListFrom, e, andThen_next, if_neg (mt hs.mp (by omega))]
      simp only [setBuf_cfg, raise_cfg, noRoom]
      by_cases hpol : s.cfg.policy = .reject
      · rw [if_pos hpol]
        rw [hpol, keptBytes_reject_full full] at hr ⊢
        exact ⟨r, by simp [excess], hr⟩
      · rw [if_neg hpol]
        have len := keptBytes_length (l := l) (x := x) (cap := (s.capacity b).toNat) hp
        have len' : (s.capacity b).toNat ≤ (keptBytes s.cfg.policy (s.capacity b).toNat (l ++ [x])).length := by
          cases hq : s.cfg.policy <;> simp [keptBytes] <;> omega
        obtain ⟨r', e', hr'⟩ := ih (s := (raise b.overrun s).setBuf b r)
          (l := keptBytes s.cfg.policy (s.capacity b).toNat (l ++ [x])) (by simpa using hr) (by simpa using len)
          (by simpa using h1) (by simpa using hd) (by simpa using hp) stored true
        simp only [setBuf_capacity, setBuf_cfg, raise_capacity, raise_cfg, iterate_raise_setBuf, setBuf_setBuf,
          keptBytes_append hp, List.append_assoc, List.cons_append, List.nil_append, Nat.sub_eq_zero_of_le len'] at e' hr'
        refine ⟨r', e'.trans ?_, hr'⟩
        rw [← Function.iterate_succ_apply]
        simp [excess, hpol]

/-! ### Taking -/

theorem Holds.eq_mk {r : StreamBuffer} {l : List Byte} (h : Holds r l) : r = ⟨r.data, r.pending, r.pending⟩ := by
  obtain ⟨d, w, p⟩ := r
  obtain rfl : w = p := h.slide
  rfl

/-- SB_take of nothing changes nothing. -/
theorem sbTake_zero {b : Buf} {s : State} {l : List Byte} (h : Holds (s.buf b) l)
    (hd : l.length ≤ (s.depthMax b).toNat) : sbTake b 0 s = .next ([], s) := by
  have fits : ¬ s.depthMax b < (s.buf b).pending := by rw [BitVec.lt_def, ← h.length]; omega
  have same : s.setBuf b ⟨(s.buf b).data, (s.buf b).pending, (s.buf b).pending⟩ = s := by rw [← h.eq_mk, setBuf_same]
  simp [sbTake, fits, Memory.shiftDown_zero _ _ _ h.wf, same, Memory.prefixBytes]

/-! ### The source drain -/

/-- A drain of the whole budget ends in one of the three ways of 40_streambuffer.md R147. -/
theorem Drained.ends {now : Word} {s t : State} {e : Environment} {taken : List Byte} {tail : List Event} {o : Nat}
    (dr : Drained now s.cfg.capTxBytes.toNat (s.setEnv e) s.txb.held taken tail o t) : drainEnds taken tail s := by
  refine ⟨dr.budget, dr.reject, ?_⟩
  rcases dr.last with noMore | ⟨htail, spent, hrej⟩ | refused
  · exact .inl noMore
  · refine .inr (.inl ⟨htail, fun hp => ?_, spent⟩)
    have := hrej hp
    simp only [List.length_append, State.setEnv_cfg] at this
    omega
  · exact .inr (.inr refused)

/-- What a drain leaves, its events and answers apart. -/
theorem Drained.filled {now : Word} {left : Nat} {s d : State} {e : Environment} {taken : List Byte}
    {tail : List Event} {o : Nat} (dr : Drained now left (s.setEnv e) s.txb.held taken tail o d) :
    Filled now taken tail s (d.setEnv s.env) where
  frame := by
    obtain rfl : o = drainOverruns taken tail s := dr.count
    have herr : d.err = if drainOverruns taken tail s = 0 then s.err else s.err ||| 0x004 := dr.err
    have hfill : d.tx.tFill = fillTime now taken s := dr.timer
    rw [← herr, ← hfill]
    conv_lhs => rw [dr.frame]
    rfl
  held := dr.holds.held
  slide := dr.holds.slide
  same := dr.same

theorem setEnv_env_same (s : State) : s.setEnv s.env = s := rfl

end Sys2Proof.Machine

section

open Sys2Proof Sys2Proof.Machine Sys2Proof.Claims

/-- Settles O33: with a command word presented, because every command completes from the invariant; otherwise at once. -/
theorem noFaultFromInvariant : Obligations.NoFaultFromInvariant := by
  intro s inv
  rcases hin : s.host.inputs with - | ⟨x, rest⟩
  · exact ⟨s, step_of_nothing hin⟩
  · cases x with
    | reset => exact ⟨_, step_of_reset hin⟩
    | command w =>
      by_cases hw : ∃ i, decode w = .command i
      · obtain ⟨i, hi⟩ := hw
        rw [step_of_command hin hi]
        exact exec_completes i (inv.recorded _ _ _ _ rfl)
      · exact ⟨_, (step_of_illegal hin ((isIllegal_iff_no_command w).mpr hw)).trans (execIllegal_eq _)⟩

/-- Settles O45: with room, and full under each policy. -/
theorem appendRule : Obligations.AppendRule := by
  intro b x s h
  have held := h.length
  have room := h.room
  have small := count_lt (s.capacity b)
  refine ⟨fun lt => ?_, fun full => ?_⟩
  · rw [BitVec.lt_def] at lt
    obtain ⟨r, e, o⟩ := sbAppend_room x h.holds (by omega) h.capacity_le
    have grown : r.pending = (s.buf b).pending + 1 := o.pending_eq (by rw [BitVec.toNat_add]; simp; omega)
    exact ⟨r, e, o.held, grown, by rw [o.slide, grown, h.slide]⟩
  · have notLess : ¬ (s.buf b).pending < s.capacity b := by rw [full, BitVec.lt_def]; omega
    refine ⟨sbAppend_full_reject x notLess, sbAppend_full_dropNew x notLess, fun hp => ?_⟩
    obtain ⟨r, e, o⟩ := sbAppend_full_dropOld x h.holds (by rw [held, full]) h.room h.capacity_le hp
    have same : r.pending = (s.buf b).pending := o.pending_eq (by
      rw [full] at held ⊢; simp; omega)
    exact ⟨r, e, o.held, same, by rw [o.slide, same, h.slide]⟩

/-- Settles O46, by the induction on the list. -/
theorem appendListRule : Obligations.AppendListRule := by
  intro b l s h hp
  obtain ⟨r, e, o⟩ := sbAppendListFrom_keeps l h.holds h.held_le h.room h.capacity_le hp 0 false
  rw [h.length, Nat.zero_add, Bool.false_or] at e
  exact ⟨r, _, e, o.held, o.slide, rfl⟩

/-- Settles O47: what SB_take does up to `pending`, at 0 and beyond `pending`. -/
theorem takeRule : Obligations.TakeRule := by
  intro b n s h
  refine ⟨fun hn => ?_, sbTake_zero h.holds h.held_le_depth, sbTake_beyond n⟩
  obtain ⟨r, e, o⟩ := sbTake_holds n h.holds (by rw [h.length]; exact hn) h.held_le_depth
  exact ⟨r, e, o.held, o.pending_eq (by rw [List.length_drop, h.length, BitVec.toNat_sub_of_le hn]), o.slide⟩

/-- Settles O48: both ways leave the bytes held without the first `n + m`. -/
theorem fifoLaws : Obligations.FifoLaws := by
  intro b n m s h hnm
  have held := h.length
  have depth := h.held_le_depth
  have sum : (n + m).toNat = n.toNat + m.toNat := by
    have := count_lt (s.buf b).pending
    rw [BitVec.toNat_add]; omega
  obtain ⟨r1, e1, o1⟩ := sbTake_holds n h.holds (by omega) depth
  obtain ⟨r2, e2, o2⟩ := sbTake_holds (s := s.setBuf b r1) m (by rw [setBuf_buf]; exact o1) (by simp; omega)
    (by simp; omega)
  obtain ⟨r, e, o⟩ := sbTake_holds (n + m) h.holds (by omega) depth
  rw [setBuf_setBuf] at e2
  rw [sum, List.take_add] at e
  rw [List.drop_drop] at o2
  rw [sum] at o
  have same : r2.pending = r.pending := o2.pending_eq o.length
  exact ⟨_, _, _, _, _, e1, e2, e, by rw [setBuf_buf, setBuf_buf, o2.held, o.held], by rw [setBuf_buf, setBuf_buf, same],
    by rw [setBuf_buf, setBuf_buf, o2.slide, o.slide, same], by rw [setBuf_setBuf, setBuf_buf]⟩

/-- Settles O49: the drain completes and ends as the rule says, and with the answers foretold it is the one foretold. -/
theorem sourceDrain : Obligations.SourceDrain := by
  intro now s h hp
  have ready := h.txbReady hp
  refine ⟨?_, fun taken tail evs fs bs ts ⟨budget, reject, ends⟩ hevs ⟨hf, hb, ht⟩ => ?_⟩
  · obtain ⟨taken, tail, o, t, e, dr⟩ := sbFillLoop_holds now s.cfg.capTxBytes.toNat h.holds h.held_le ready
    rw [← setEnv_env_same s] at dr
    exact ⟨taken, tail, t.setEnv s.env, t, dr.ends, dr.filled, e, rfl, by rw [performs, dr.trace, List.append_assoc]; rfl⟩
  · subst hevs
    obtain ⟨o, t, e, dr, env⟩ := sbFillLoop_foretold now h.holds h.held_le ready budget reject ends hf hb
    rw [← setEnv_env_same s] at dr
    refine ⟨t.setEnv s.env, dr.filled, ?_⟩
    have silent : timesAsked (taken.flatMap takeEvents ++ tail) = [] := by
      rcases ends with rfl | ⟨rfl, -⟩ | ⟨rfl, -⟩ <;> simp
    rw [silent, List.nil_append] at ht
    rw [ht] at env
    rw [e, show t = t.setEnv (s.env.onward fs bs ts (taken.flatMap takeEvents ++ tail)) by rw [← env]; rfl]
    rfl

/-- Settles O43: what was sent and what is held are, in order, some of what was held and read. -/
theorem alwaysReadySink : Obligations.AlwaysReadySink := by
  intro s t ⟨inv, hrun, hrole⟩ e
  rw [exec_step_run hrun, andThen_eq_next] at e
  obtain ⟨u, hu, hresp⟩ := e
  cases hresp
  obtain ⟨fed, reads, sent, rest, o, evs, it⟩ := rxIterated_of_next inv hrun hrole hu
  refine ⟨.timeNow s.env.time :: evs, it.trace, fun hready => ?_⟩
  obtain ⟨rfl, rfl⟩ := it.ready (by simpa using hready)
  have count : u.counters.ovrRx = s.counters.ovrRx := by rw [it.frame]; simp
  refine ⟨it.holds.held, it.holds.pending_eq (n := 0) rfl, count, ?_⟩
  have kept : sent.Sublist (s.rxb.held ++ reads) := by simpa using it.kept
  simp only [sinkWrites_cons, radioReads_cons, List.nil_append, it.wrote, it.read]
  exact kept.trans ((List.Sublist.refl _).append (List.sublist_append_right fed reads))

end
end

section
/-! PROOFS. One STEP with the environment's answers foretold: what is common to both roles, and the transmitter's STEPs
(42_txframer.md; 44_mode_scheduler.md R270 to R272). -/

namespace Sys2Proof.Claims

open Sys2Proof.Machine

/-! ### What a drain leaves alone -/

section
variable {now : Word} {taken : List Byte} {tail : List Event} {s d : State}

theorem Filled.cfg (f : Filled now taken tail s d) : d.cfg = s.cfg := by rw [f.frame]
theorem Filled.arb (f : Filled now taken tail s d) : d.arb = s.arb := by rw [f.frame]
theorem Filled.params (f : Filled now taken tail s d) : d.params = s.params := by rw [f.frame]
theorem Filled.tx (f : Filled now taken tail s d) : d.tx = { s.tx with tFill := fillTime now taken s } := by
  rw [f.frame]
theorem Filled.framesTx (f : Filled now taken tail s d) : d.counters.framesTx = s.counters.framesTx := by rw [f.frame]

end

end Sys2Proof.Claims

namespace Sys2Proof.Machine

open Sys2Proof.Claims

/-! ### States with events performed

A state of a STEP is `performed fs bs ts evs d`: `d` but for the events `evs` performed since and the answers left. -/

section
variable (fs : List Bool) (bs : List Byte) (ts : List Word) (evs : List Event) (s : State)

@[simp] theorem performed_cfg : (performed fs bs ts evs s).cfg = s.cfg := rfl
@[simp] theorem performed_counters : (performed fs bs ts evs s).counters = s.counters := rfl
@[simp] theorem performed_tx : (performed fs bs ts evs s).tx = s.tx := rfl
@[simp] theorem performed_rx : (performed fs bs ts evs s).rx = s.rx := rfl
@[simp] theorem performed_arb : (performed fs bs ts evs s).arb = s.arb := rfl
@[simp] theorem performed_flags : (performed fs bs ts evs s).env.flags = fs := rfl
@[simp] theorem performed_bytes : (performed fs bs ts evs s).env.bytes = bs := rfl
@[simp] theorem performed_times : (performed fs bs ts evs s).env.times = ts := rfl

theorem performed_performed (fs' : List Bool) (bs' : List Byte) (ts' : List Word) (evs' : List Event) :
    performed fs' bs' ts' evs' (performed fs bs ts evs s) = performed fs' bs' ts' (evs ++ evs') s := by
  simp [performed]

theorem setEnv_onward : s.setEnv (s.env.onward fs bs ts evs) = performed fs bs ts evs s := rfl

theorem respond_performed : respond .ok 0 (performed fs bs ts evs s) = stepped fs bs ts evs s := rfl

theorem askFlag_performed (event : Bool → Event) (f : Bool) :
    askFlag event (performed (f :: fs) bs ts evs s) = (f, performed fs bs ts (evs ++ [event f]) s) := by
  rw [askFlag_foretold event (performed_flags (f :: fs) bs ts evs s)]
  exact congrArg (Prod.mk f) (performed_performed _ _ _ _ _ _ _ _ _)

theorem doSetMode_performed (m : RadioMode) :
    doSetMode m (performed fs bs ts evs s) = performed fs bs ts (evs ++ [.radioSetMode m]) s :=
  performed_performed _ _ _ _ _ _ _ _ _

end

/-! ### A mode request and the mode poll -/

section
variable {fs : List Bool} {bs : List Byte} {ts : List Word} {evs : List Event} {s : State}

theorem requestMode_performed {m : RadioMode} (now : Word) (hp : s.arb.pending = false) (hm : m ≠ s.arb.cur) :
    requestMode m now (performed fs bs ts evs s) =
      .next (performed fs bs ts (evs ++ [.radioSetMode m]) { s with arb := ⟨s.arb.cur, m, true, now⟩ }) := by
  rw [requestMode_holds (s := performed fs bs ts evs s) now hp hm, doSetMode_performed]
  rfl

/-- The first poll of a mode requested in the same STEP. -/
theorem modePoll_requested {now : Word} {cur m : RadioMode} (ready : Bool) (h : s.arb = ⟨cur, m, true, now⟩) :
    modePoll now (performed (ready :: fs) bs ts evs s) =
      performed fs bs ts (evs ++ [.radioModeReady ready]) { s with arb := requested m cur now ready } := by
  rw [modePoll_fresh (s := performed (ready :: fs) bs ts evs s) h rfl, setEnv_onward, performed_performed]
  rfl

/-- With no request pending the STEP ends where its phases ended. -/
theorem finish_settled (now : Word) (h : s.arb.pending = false) :
    (andThen (.next (performed fs bs ts evs s)) fun t => .next (respond .ok 0 (modePoll now t)) : Result State) =
      .next (stepped fs bs ts evs s) := by
  rw [andThen_next, modePoll_settled now (s := performed fs bs ts evs s) h, respond_performed]

/-- With a mode requested in the STEP it ends with the first poll. -/
theorem finish_requested {now : Word} {cur m : RadioMode} (ready : Bool) (h : s.arb = ⟨cur, m, true, now⟩) :
    (andThen (.next (performed (ready :: fs) bs ts evs s)) fun t => .next (respond .ok 0 (modePoll now t)) :
      Result State) =
      .next (stepped fs bs ts (evs ++ [.radioModeReady ready]) { s with arb := requested m cur now ready }) := by
  rw [andThen_next, modePoll_requested ready h, respond_performed]

theorem flagsAnswered_pollEvents (now : Word) (ready : Bool) (s : State) :
    flagsAnswered (pollEvents now ready s) = [ready] := by
  unfold pollEvents; split <;> rfl

theorem bytesAnswered_pollEvents (now : Word) (ready : Bool) (s : State) :
    bytesAnswered (pollEvents now ready s) = [] := by
  unfold pollEvents; split <;> rfl

theorem timesAsked_pollEvents (now : Word) (ready : Bool) (s : State) : timesAsked (pollEvents now ready s) = [] := by
  unfold pollEvents; split <;> rfl

/-- The poll depends on the arbiter and the configuration alone. -/
theorem pollEvents_congr {d : State} (now : Word) (ready : Bool) (harb : d.arb = s.arb) (hcfg : d.cfg = s.cfg) :
    pollEvents now ready d = pollEvents now ready s := by
  simp only [pollEvents, waitExpired, harb, hcfg]

theorem timedOut_eq_true_iff (timeout now start : Word) :
    timedOut timeout now start = true ↔ timeout ≠ 0 ∧ timeout ≤ now - start := decide_eq_true_iff

/-- A request whose wait has expired is re-issued (44_mode_scheduler.md R272). -/
theorem modeTimeoutCheck_expired {now : Word} (expired : waitExpired now s.arb.tReq s) :
    modeTimeoutCheck now (performed fs bs ts evs s) =
      performed fs bs ts (evs ++ [.radioSetMode s.arb.req]) (polled now false s) := by
  rw [polled, if_neg Bool.false_ne_true, if_pos expired]
  refine (if_pos ((timedOut_eq_true_iff _ _ _).mpr expired)).trans ?_
  show State.setArb (doSetMode _ (performed _ _ _ _ (raise _ s))) _ = _
  rw [doSetMode_performed]
  rfl

theorem modeTimeoutCheck_alive {now : Word} (alive : ¬ waitExpired now s.arb.tReq s) :
    modeTimeoutCheck now (performed fs bs ts evs s) = performed fs bs ts evs (polled now false s) := by
  rw [polled, if_neg Bool.false_ne_true, if_neg alive]
  exact if_neg (mt (timedOut_eq_true_iff _ _ _).mp alive)

/-- A pending request polled: confirmed, re-issued once its wait has expired, or still waited for. -/
theorem modePoll_pending (now : Word) (ready : Bool) (h : s.arb.pending = true) :
    modePoll now (performed (ready :: fs) bs ts evs s) =
      performed fs bs ts (evs ++ pollEvents now ready s) (polled now ready s) := by
  rw [modePoll_foretold now (s := performed (ready :: fs) bs ts evs s) h rfl, setEnv_onward, performed_performed]
  cases ready with
  | true => rfl
  | false =>
    refine (if_neg Bool.false_ne_true).trans ?_
    by_cases expired : waitExpired now s.arb.tReq s
    · refine (modeTimeoutCheck_expired expired).trans ?_
      rw [pollEvents, if_pos ⟨rfl, expired⟩, List.append_assoc]
      rfl
    · refine (modeTimeoutCheck_alive expired).trans ?_
      rw [pollEvents, if_neg (fun hh => expired hh.2)]
      rfl

/-- With a request pending all along the STEP ends with the poll of it. -/
theorem finish_pending {now : Word} {d : State} (ready : Bool) (h : s.arb.pending = true) (harb : d.arb = s.arb)
    (hcfg : d.cfg = s.cfg) :
    (andThen (.next (performed (flagsAnswered (pollEvents now ready s) ++ fs)
      (bytesAnswered (pollEvents now ready s) ++ bs) ts evs d)) fun t => .next (respond .ok 0 (modePoll now t)) :
      Result State) = .next (stepped fs bs ts (evs ++ pollEvents now ready s) (polled now ready d)) := by
  rw [flagsAnswered_pollEvents, bytesAnswered_pollEvents, andThen_next]
  show Host.Outcome.next (respond .ok 0 (modePoll now (performed (ready :: fs) bs ts evs d))) = _
  rw [modePoll_pending now ready (by rw [harb]; exact h), respond_performed, pollEvents_congr now ready harb hcfg]

end

/-! ### A transmitter's STEP up to its phase (b) -/

/-- A STEP of a running transmitter whose answers are foretold is its phase (b) after the drain, the mode poll and the
response. -/
theorem exec_step_transmitting {s : State} {now : Word} {taken : List Byte} {tail rest : List Event} {fs : List Bool}
    {bs : List Byte} {ts : List Word} (h : transmitting s) (ends : drainEnds taken tail s)
    (silent : timesAsked rest = [])
    (told : foretells (.timeNow now :: taken.flatMap takeEvents ++ tail ++ rest) fs bs ts s) :
    ∃ d, Filled now taken tail s d ∧ TxReady d (queued taken s) ∧
      exec .step s = andThen (txStep now (performed (flagsAnswered rest ++ fs) (bytesAnswered rest ++ bs) ts
          (.timeNow now :: taken.flatMap takeEvents ++ tail) d))
        fun t => .next (respond .ok 0 (modePoll now t)) := by
  obtain ⟨inv, hrun, hrole⟩ := h
  obtain ⟨hf, hb, ht⟩ := told
  have quiet : timesAsked tail = [] := by rcases ends.2.2 with rfl | ⟨rfl, -⟩ | ⟨rfl, -⟩ <;> rfl
  obtain ⟨o, d, dr, env, e⟩ := exec_step_transmitter (now := now) (ts := ts) (taken := taken) (tail := tail)
    (fs := flagsAnswered rest ++ fs) (bs := bytesAnswered rest ++ bs) inv hrun hrole ends.1 ends.2.1 ends.2.2
    (by rw [hf]; simp) (by rw [hb]; simp) (by rw [ht]; simp [silent, quiet])
  have f : Filled now taken tail s (d.setEnv s.env) := dr.filled
  obtain ⟨⟨size, fits⟩, -, caps, -⟩ := (configLegal_iff s).mp (inv.legal hrun)
  obtain ⟨running, -⟩ := inv.transmitter hrun hrole
  have hparams : d.params = s.params := f.params
  have hcfg : d.cfg = s.cfg := f.cfg
  have harb : d.arb = s.arb := f.arb
  have htx : d.tx = { s.tx with tFill := fillTime now taken s } := f.tx
  refine ⟨d.setEnv s.env, f, ⟨dr.holds, ?_, ⟨?_, ?_⟩, ?_, ?_, ?_⟩, ?_⟩
  · exact dr.fits.trans ((caps hrole).2.trans (by rw [State.setEnv_params, hparams]))
  · rw [State.setEnv_cfg, hcfg]; exact size
  · rw [State.setEnv_cfg, State.setEnv_params, hcfg, hparams]; exact fits
  · rw [State.setEnv_tx, htx]; exact inv.payloadWf
  · unfold TxRunning at running ⊢
    rw [State.setEnv_tx, State.setEnv_arb, htx, harb, wireEnd, State.setEnv_cfg, hcfg]
    exact running
  · rw [State.setEnv_arb, harb]; exact inv.settled
  · rw [e]
    congr 2
    rw [show d = d.setEnv d.env from rfl, env]
    rfl

/-- With a request pending the STEP is the drain and the poll. -/
theorem exec_step_transmitting_pending {s : State} {now : Word} {taken : List Byte} {tail : List Event} {ready : Bool}
    {fs : List Bool} {bs : List Byte} {ts : List Word} (h : transmitting s) (hp : s.arb.pending = true)
    (ends : drainEnds taken tail s)
    (told : foretells (.timeNow now :: taken.flatMap takeEvents ++ tail ++ pollEvents now ready s) fs bs ts s) :
    ∃ d, Filled now taken tail s d ∧ exec .step s = .next (stepped fs bs ts
      (.timeNow now :: taken.flatMap takeEvents ++ tail ++ pollEvents now ready s) (polled now ready d)) := by
  obtain ⟨d, f, ok, e⟩ := exec_step_transmitting h ends (timesAsked_pollEvents now ready s) told
  refine ⟨d, f, e.trans ?_⟩
  rw [txStep_pending now (s := performed _ _ _ _ d) ok.running (by rw [performed_arb, f.arb]; exact hp)]
  exact finish_pending ready hp f.arb f.cfg

/-! ### TX_IDLE -/

/-- `frame_due()` by the bytes held (42_txframer.md R191). -/
theorem frameDue_iff (now : Word) {s : State} {l : List Byte} (h : Holds s.txb l) :
    frameDue now s = true ↔ s.cfg.n.toNat ≤ l.length ∨
      (0 < l.length ∧ s.cfg.flushTo.toNat ≤ (now - s.tx.tFill).toNat) := by
  simp [frameDue, elapsed, BitVec.le_def, BitVec.lt_def, h.length]

/-- TX_IDLE with no frame due does nothing. -/
theorem txStep_waits (now : Word) {s : State} (hs : s.tx.state = .idle) (hd : frameDue now s = false) :
    txStep now s = .next s := by
  rw [txStep, hs]
  simp only [txIdle]
  rw [if_neg (by simp [hd])]

/-- The image of the frame whose data are the oldest bytes of TXB, up to N (42_txframer.md R192). -/
theorem frameImage_take (c : ConfigRegs) (l : List Byte) :
    frameImage c (l.take c.n.toNat) =
      c.sync0 :: c.sync1 :: (l.take c.n.toNat ++ List.replicate (c.n.toNat - l.length) c.pad) := by
  rw [frameImage, List.length_take, show c.n.toNat - min c.n.toNat l.length = c.n.toNat - l.length by omega]

/-- TX_IDLE with a frame due commits it and requests Tx. -/
theorem txStep_commits (now : Word) {s : State} {l : List Byte} {fs : List Bool} {bs : List Byte} {ts : List Word}
    {evs : List Event} (ok : TxReady s l) (hs : s.tx.state = .idle) (hp : s.arb.pending = false)
    (hd : frameDue now s = true) :
    ∃ r payload, txStep now (performed fs bs ts evs s) = .next (performed fs bs ts (evs ++ [.radioSetMode .tx]) { s with
        txb := r
        tx := { s.tx with payload := payload, pos := 0, state := .waitMode }
        arb := ⟨.idle, .tx, true, now⟩ }) ∧
      Holds r (l.drop s.cfg.n.toNat) ∧
      s.cfg.sync0 :: s.cfg.sync1 :: payload.prefixBytes s.cfg.n.toNat = frameImage s.cfg (l.take s.cfg.n.toNat) ∧
      ∀ i, s.cfg.n.toNat ≤ i → payload.read i = s.tx.payload.read i := by
  have idle : s.arb.cur = .idle := by
    have run := ok.running
    unfold TxRunning at run
    rw [hs] at run
    exact run.1 hp
  obtain ⟨r, payload, e, hr, -, bytes, beyond⟩ := commitFrame_holds (s := performed fs bs ts evs s) ok.holds ok.depth
    ⟨ok.frame.size, ok.frame.fits⟩
  refine ⟨r, payload, ?_, hr, by rw [frameImage_take]; exact congrArg _ (congrArg _ bytes), beyond⟩
  rw [txStep, performed_tx, hs]
  simp only [txIdle]
  rw [if_pos ⟨hp, hd⟩, e, andThen_next]
  show andThen (requestMode .tx now (performed fs bs ts evs { s with
    txb := r, tx := { s.tx with payload := payload, pos := 0 } })) _ = _
  rw [requestMode_performed (s := { s with txb := r, tx := { s.tx with payload := payload, pos := 0 } }) now hp
    (by simp [idle]), andThen_next]
  simp only [idle]
  rfl

/-! ### TX_SEND -/

/-- With Tx confirmed, a transmitter that begins or resumes a frame runs the send loop. -/
theorem txStep_sends (now : Word) {s : State} {l : List Byte} (ok : TxReady s l)
    (hs : s.tx.state = .send ∨ (s.tx.state = .waitMode ∧ s.arb.pending = false)) :
    txStep now s = txSend now (s.setTxState .send) ∧ s.tx.pos.toNat < s.cfg.n.toNat + 2 ∧ s.arb.pending = false := by
  have run := ok.running
  unfold TxRunning at run
  rcases hs with hs | ⟨hs, hp⟩ <;> rw [hs] at run
  · obtain ⟨hp, -, hpos⟩ := run
    rw [BitVec.lt_def, wireEnd_toNat] at hpos
    refine ⟨?_, hpos, hp⟩
    have : s.setTxState .send = s := by rw [State.setTxState, ← hs]; rfl
    rw [txStep, hs, this]
  · obtain ⟨hreq, -, hpos⟩ := run
    refine ⟨?_, by rw [hpos]; simp, hp⟩
    rw [txStep, hs]
    exact if_pos ⟨hp, (ok.settled hp).symm.trans hreq⟩

section
variable {now : Word} {taken : List Byte} {tail evs evs' : List Event} {s d t : State} {fs fs' : List Bool}
  {bs bs' : List Byte} {ts ts' : List Word} {l w : List Byte} {k : Nat}

/-- Entering TX_SEND changes nothing of what is to go on the wire. -/
theorem pendingWire_send (f : Filled now taken tail s d) :
    pendingWire (performed fs bs ts evs (d.setTxState .send)) (queued taken s) =
      (wireImage s).drop s.tx.pos.toNat ++ framesOnWire s.cfg.sync0 s.cfg.sync1 s.cfg.n.toNat
        ((queued taken s).length / s.cfg.n.toNat) (queued taken s) := by
  simp only [pendingWire, wireImage, performed_cfg, performed_tx, State.setTxState_cfg, State.setTxState_tx, f.cfg,
    f.tx]

/-- What a send loop that performed `evs'` leaves, in terms of the state before it. -/
theorem Sent.performed_eq (sent : Sent now (performed fs bs ts evs (d.setTxState .send)) l w k t)
    (henv : t.env = (performed fs bs ts evs (d.setTxState .send)).env.onward fs' bs' ts' evs') :
    t = performed fs' bs' ts' (evs ++ evs') { d with
      txb := t.txb
      tx := { d.tx with payload := t.tx.payload, pos := t.tx.pos, state := t.tx.state, tWait := t.tx.tWait }
      counters := { d.counters with framesTx := t.counters.framesTx } } := by
  refine sent.frame.trans ?_
  rw [henv]
  exact performed_performed fs bs ts evs { d with
    txb := t.txb
    tx := { d.tx with payload := t.tx.payload, pos := t.tx.pos, state := t.tx.state, tWait := t.tx.tWait }
    counters := { d.counters with framesTx := t.counters.framesTx } } fs' bs' ts' evs'

/-- A STEP ends with its send loop: no request is pending. -/
theorem Sent.finish (sent : Sent now (performed fs bs ts evs (d.setTxState .send)) l w k t)
    (et : txSend now (performed fs bs ts evs (d.setTxState .send)) = .next t)
    (henv : t.env = (performed fs bs ts evs (d.setTxState .send)).env.onward fs' bs' ts' evs')
    (hp : d.arb.pending = false) :
    (andThen (txSend now (performed fs bs ts evs (d.setTxState .send)))
        fun t => .next (respond .ok 0 (modePoll now t))) =
      .next (stepped fs' bs' ts' (evs ++ evs') { d with
        txb := t.txb
        tx := { d.tx with payload := t.tx.payload, pos := t.tx.pos, state := t.tx.state, tWait := t.tx.tWait }
        counters := { d.counters with framesTx := t.counters.framesTx } }) :=
  (congrArg (andThen · _) (et.trans (congrArg Host.Outcome.next (sent.performed_eq henv)))).trans
    (finish_settled now hp)

/-- What the send loop leaves in TXB and in the payload of FRAME. -/
theorem Sent.sentFrames (f : Filled now taken tail s d)
    (sent : Sent now (performed fs bs ts evs (d.setTxState .send)) (queued taken s) w k t) :
    sentFrames k (queued taken s) s t.txb t.tx.payload := by
  obtain ⟨-, holds, -, -, frameBytes, beyond, -, -⟩ := sent
  simp only [performed_cfg, performed_tx, State.setTxState_cfg, State.setTxState_tx, f.cfg, f.tx]
    at holds frameBytes beyond
  exact ⟨holds.held, holds.slide, frameBytes, beyond⟩

end

theorem pos_eq_ofNat {p : Pos} {n : Nat} (h : p.toNat = n) : p = BitVec.ofNat 25 n := by
  rw [← h, BitVec.ofNat_toNat, BitVec.setWidth_eq]

/-- A STEP that sends is the send loop after the drain, and the response. -/
theorem exec_step_sending {s : State} {now : Word} {taken : List Byte} {tail rest : List Event} {fs : List Bool}
    {bs : List Byte} {ts : List Word} (h : transmitting s)
    (hs : s.tx.state = .send ∨ (s.tx.state = .waitMode ∧ s.arb.pending = false)) (ends : drainEnds taken tail s)
    (silent : timesAsked rest = [])
    (told : foretells (.timeNow now :: taken.flatMap takeEvents ++ tail ++ rest) fs bs ts s) :
    ∃ d, Filled now taken tail s d ∧ TxReady d (queued taken s) ∧ s.tx.pos.toNat < s.cfg.n.toNat + 2 ∧
      d.arb.pending = false ∧
      exec .step s = andThen (txSend now (performed (flagsAnswered rest ++ fs) (bytesAnswered rest ++ bs) ts
          (.timeNow now :: taken.flatMap takeEvents ++ tail) (d.setTxState .send)))
        fun t => .next (respond .ok 0 (modePoll now t)) := by
  obtain ⟨d, f, ok, e⟩ := exec_step_transmitting h ends silent told
  obtain ⟨e', pos, hp⟩ := txStep_sends now (s := performed (flagsAnswered rest ++ fs) (bytesAnswered rest ++ bs) ts
      (.timeNow now :: taken.flatMap takeEvents ++ tail) d) (l := queued taken s)
    ⟨ok.holds, ok.depth, ⟨ok.frame.size, ok.frame.fits⟩, ok.payload, ok.running, ok.settled⟩
    (by rw [performed_tx, performed_arb, f.tx, f.arb]; exact hs)
  rw [performed_tx, performed_cfg, f.tx, f.cfg] at pos
  exact ⟨d, f, ok, pos, hp, e.trans (congrArg (andThen · _) e')⟩

/-! ### TX_DRAIN -/

/-- What TX_DRAIN holds of the arbiter. -/
theorem TxReady.draining {s : State} {l : List Byte} (ok : TxReady s l) (hs : s.tx.state = .drain) :
    s.arb.pending = false ∧ s.arb.cur = .tx := by
  have run := ok.running
  unfold TxRunning at run
  rw [hs] at run
  exact ⟨run.1, run.2.1⟩

section
variable {s : State} {fs : List Bool} {bs : List Byte} {ts : List Word} {evs : List Event}

/-- The return to Idle at the end of TX_DRAIN. -/
theorem requestIdle_performed (now : Word) (hp : s.arb.pending = false) (hc : s.arb.cur = .tx) :
    (andThen (requestMode .idle now (performed fs bs ts evs s)) fun t => .next (t.setTxState .idle) : Result State) =
      .next (performed fs bs ts (evs ++ [.radioSetMode .idle]) { s with
        tx := { s.tx with state := .idle }, arb := ⟨.tx, .idle, true, now⟩ }) := by
  rw [requestMode_performed now hp (by simp [hc]), andThen_next, hc]
  rfl

/-- Transmission done (42_txframer.md R195). -/
theorem txStep_done (now : Word) (hs : s.tx.state = .drain) (hp : s.arb.pending = false) (hc : s.arb.cur = .tx) :
    txStep now (performed (true :: fs) bs ts evs s) =
      .next (performed fs bs ts (evs ++ [.radioTxDone true, .radioSetMode .idle]) { s with
        tx := { s.tx with state := .idle }, arb := ⟨.tx, .idle, true, now⟩ }) := by
  rw [txStep, performed_tx, hs]
  simp only [txDrainPoll, askTxDone, askFlag_performed, if_true]
  rw [requestIdle_performed now hp hc, List.append_assoc]
  rfl

/-- Transmission not done, and the wait for it expired (42_txframer.md R195, 60_exceptions.md R359). -/
theorem txStep_drainTimeout (now : Word) (hs : s.tx.state = .drain) (hp : s.arb.pending = false) (hc : s.arb.cur = .tx)
    (expired : waitExpired now s.tx.tWait s) :
    txStep now (performed (false :: fs) bs ts evs s) =
      .next (performed fs bs ts (evs ++ [.radioTxDone false, .radioSetMode .idle]) { s with
        tx := { s.tx with state := .idle }
        arb := ⟨.tx, .idle, true, now⟩
        err := s.err ||| 0x040
        counters := { s.counters with hwTo := s.counters.hwTo + 1 } }) := by
  rw [txStep, performed_tx, hs]
  simp only [txDrainPoll, askTxDone, askFlag_performed, performed_cfg, performed_tx, Bool.false_eq_true, if_false]
  rw [if_pos ((timedOut_eq_true_iff _ _ _).mpr expired)]
  show andThen (requestMode .idle now (performed fs bs ts _ (raise .drainTimeout s))) _ = _
  rw [requestIdle_performed (s := raise .drainTimeout s) now hp hc, List.append_assoc]
  rfl

/-- Transmission not done, and still waited for (42_txframer.md R195). -/
theorem txStep_draining (now : Word) (hs : s.tx.state = .drain) (alive : ¬ waitExpired now s.tx.tWait s) :
    txStep now (performed (false :: fs) bs ts evs s) =
      .next (performed fs bs ts (evs ++ [.radioTxDone false]) s) := by
  rw [txStep, performed_tx, hs]
  simp only [txDrainPoll, askTxDone, askFlag_performed, performed_cfg, performed_tx, Bool.false_eq_true, if_false]
  rw [if_neg (mt (timedOut_eq_true_iff _ _ _).mp alive)]

end

end Sys2Proof.Machine

section

open Sys2Proof Sys2Proof.Machine Sys2Proof.Claims

/-- Settles O52: a drain and the commit, the request for Tx and its first poll. -/
theorem txCommitsFrame : Obligations.TxCommitsFrame := by
  intro s now taken tail evs ready fs bs ts h hs hp ends due hevs told
  subst hevs
  obtain ⟨d, f, ok, e⟩ := exec_step_transmitting h ends rfl told
  obtain ⟨r, payload, e', hr, image, beyond⟩ := txStep_commits now (fs := ready :: fs) (bs := bs) (ts := ts)
    (evs := .timeNow now :: taken.flatMap takeEvents ++ tail) ok (by rw [f.tx]; exact hs) (by rw [f.arb]; exact hp)
    ((frameDue_iff now ok.holds).mpr (by rw [f.cfg, f.tx]; exact due))
  rw [f.cfg] at hr image beyond
  refine ⟨d, r, payload, f, e.trans ?_, hr.held, hr.slide, image, fun i hi => (beyond i hi).trans (by rw [f.tx])⟩
  refine (congrArg (andThen · _) e').trans ((finish_requested ready rfl).trans ?_)
  rw [List.append_assoc]
  rfl

/-- Settles O53: with nothing pending and no frame due phase (b) does nothing, and with a request pending neither. -/
theorem txIdleWaits : Obligations.TxIdleWaits := by
  intro s now taken tail evs ready fs bs ts h hs ends told
  refine ⟨fun hp few waits hevs => ?_, fun hp hevs => ?_⟩ <;> subst hevs
  · obtain ⟨d, f, ok, e⟩ := exec_step_transmitting h ends (rest := []) rfl (by rwa [List.append_nil])
    refine ⟨d, f, e.trans ?_⟩
    have notDue : frameDue now d = false := by
      rw [← Bool.not_eq_true, frameDue_iff now ok.holds, f.cfg, f.tx]
      rintro (full | ⟨some, passed⟩)
      · omega
      · dsimp only at passed
        omega
    rw [txStep_waits now (s := performed _ _ _ _ d) (by rw [performed_tx, f.tx]; exact hs) notDue]
    exact finish_settled now (by rw [f.arb]; exact hp)
  · exact exec_step_transmitting_pending h hp ends told

/-- Settles O54: the send loop foretold, to its end or to the full FIFO, after any drain. -/
theorem frameSentInOneStep : Obligations.FrameSentInOneStep := by
  intro s now taken wire tail evs fs bs ts h hs ends told hwire
  refine ⟨fun hevs => ?_, fun j hj hevs => ?_⟩ <;> subst hevs
  · obtain ⟨d, f, ok, pos, hp, e⟩ := exec_step_sending h hs ends (by simp) told
    have send := (txSend_foretold now (s := performed (flagsAnswered (wire.flatMap writeEvents) ++ fs)
      (bytesAnswered (wire.flatMap writeEvents) ++ bs) ts (.timeNow now :: taken.flatMap takeEvents ++ tail)
      (d.setTxState .send)) ok.holds ok.depth ⟨ok.frame.size, ok.frame.fits⟩
      (by simpa [f.tx, f.cfg] using pos) (fs := fs)).1
    rw [pendingWire_send f, ← hwire] at send
    obtain ⟨t, et, sent, hstate, hpos, hwait, hcount, henv⟩ := send (by simp)
    refine ⟨d, t.txb, t.tx.payload, f, e.trans ((sent.finish et henv hp).trans ?_), by
      simpa [f.cfg] using sent.sentFrames f⟩
    have hend : t.tx.pos = BitVec.ofNat 25 (s.cfg.n.toNat + 2) :=
      pos_eq_ofNat (by rw [hpos, wireEnd_toNat]; simp [f.cfg])
    rw [hstate, hwait, hcount, hend]
    simp [f.cfg, f.framesTx]
  · obtain ⟨d, f, ok, pos, hp, e⟩ := exec_step_sending h hs ends
      (rest := (wire.take j).flatMap writeEvents ++ [.radioFifoFull true]) (by simp) (by simpa using told)
    have send := (txSend_foretold now (s := performed
      (flagsAnswered ((wire.take j).flatMap writeEvents ++ [.radioFifoFull true]) ++ fs)
      (bytesAnswered ((wire.take j).flatMap writeEvents ++ [.radioFifoFull true]) ++ bs) ts
      (.timeNow now :: taken.flatMap takeEvents ++ tail) (d.setTxState .send)) ok.holds ok.depth
      ⟨ok.frame.size, ok.frame.fits⟩ (by simpa [f.tx, f.cfg] using pos) (fs := fs)).2 j
    rw [pendingWire_send f, ← hwire] at send
    obtain ⟨t, et, sent, hstate, hpos, hwait, hcount, henv⟩ := send hj (by simp [Nat.min_eq_left hj.le])
    refine ⟨d, t.txb, t.tx.payload, f, e.trans ((sent.finish et henv hp).trans ?_), by
      simpa [f.cfg, f.tx] using sent.sentFrames f⟩
    rw [hstate, hwait, hcount, pos_eq_ofNat hpos]
    simp [f.cfg, f.tx, f.framesTx]

/-- Settles O55: the three outcomes of the poll of TX_DRAIN, after any drain. -/
theorem txDrainPoll : Obligations.TxDrainPoll := by
  intro s now taken tail evs ready fs bs ts h hs ends told
  refine ⟨fun hevs => ?_, fun hevs expired => ?_, fun hevs alive => ?_⟩ <;> subst hevs <;>
    obtain ⟨d, f, ok, e⟩ := exec_step_transmitting h ends rfl told <;>
    have hd : d.tx.state = .drain := (by rw [f.tx]; exact hs) <;>
    obtain ⟨hp, hc⟩ := ok.draining hd <;>
    refine ⟨d, f, e.trans ?_⟩
  · refine (congrArg (andThen · _) (txStep_done now hd hp hc)).trans ((finish_requested ready rfl).trans ?_)
    simp only [List.append_assoc]
    rfl
  · have expired' : waitExpired now d.tx.tWait d := by rw [waitExpired, f.cfg, f.tx]; exact expired
    refine (congrArg (andThen · _) (txStep_drainTimeout now hd hp hc expired')).trans
      ((finish_requested ready rfl).trans ?_)
    simp only [List.append_assoc]
    rfl
  · have alive' : ¬ waitExpired now d.tx.tWait d := by rw [waitExpired, f.cfg, f.tx]; exact alive
    refine (congrArg (andThen · _) (txStep_draining now hd alive')).trans (finish_settled now hp)

end
end

section
/-! PROOFS. One STEP of a receiver with the environment's answers foretold (43_rxdeframer.md; 44_mode_scheduler.md R270
to R272). -/

namespace Sys2Proof.Claims

open Sys2Proof.Machine

/-! ### What a delivery and the payload reads leave alone -/

section
variable {k : Nat} {pays : List (Byte × Nat)} {s d : State}

theorem Served.cfg (v : Served k pays s d) : d.cfg = s.cfg := by rw [v.frame]
theorem Served.arb (v : Served k pays s d) : d.arb = s.arb := by rw [v.frame]
theorem Served.rx (v : Served k pays s d) : d.rx = s.rx := by rw [v.frame]

theorem Served.linkAlive_iff (now : Word) (v : Served k pays s d) : linkAlive now d ↔ linkAlive now s := by
  simp only [linkAlive, v.cfg, v.rx]

/-- The delivery at the start of a STEP. -/
theorem Served.of_delivery {r : StreamBuffer} (h : Holds r (s.rxb.held.drop k))
    (same : s.rxb.held.take k = [] → r = s.rxb) : Served k [] s (s.setRxb r) where
  frame := by simp [readPayload, State.setRxb]
  held := h.held
  slide := h.slide
  same := fun hk _ => same hk

/-- The payload reads after it. -/
theorem Served.of_reads {r : StreamBuffer} (v : Served k [] s d)
    (h : Holds r (readPayload d.cfg (s.rxb.held.drop k) pays).held) (same : pays = [] → r = d.rxb) :
    Served k pays s (d.served r (readPayload d.cfg (s.rxb.held.drop k) pays).overruns) where
  frame := by
    have delivered : d = s.setRxb d.rxb := by
      conv_lhs => rw [v.frame]
      simp [readPayload, State.setRxb]
    rw [v.cfg, delivered]
    rfl
  held := by rw [← v.cfg]; exact h.held
  slide := h.slide
  same := fun hk hp => (same hp).trans (v.same hk rfl)

end

end Sys2Proof.Claims

namespace Sys2Proof.Machine

open Sys2Proof.Claims

/-! ### A receiver's STEP up to its phase (c) -/

/-- A running receiver is ready for its phase (c) whatever of RXB was delivered. -/
theorem receiving_ready {s : State} {r : StreamBuffer} {l : List Byte} (h : receiving s) (hr : Holds r l)
    (hl : l.length ≤ s.rxb.held.length) : RxReady (s.setRxb r) l := by
  obtain ⟨inv, hrun, hrole⟩ := h
  obtain ⟨⟨size, -⟩, policy, -, caps⟩ := (configLegal_iff s).mp (inv.legal hrun)
  obtain ⟨running, -⟩ := inv.receiver hrun hrole
  refine ⟨hr, ?_, ⟨(caps hrole).1, (caps hrole).2, policy⟩, size,
    ⟨?_, running.searching, running.locked, running.atMostN, running.cycles⟩, inv.settled⟩
  · have held : s.rxb.held.length = s.rxb.pending.toNat := (Holds.of_slide inv.rxbWf inv.rxbSlide).length
    have fits := inv.rxbFits
    rw [BitVec.le_def] at fits
    exact hl.trans (held.trans_le fits)
  · exact running.modes

theorem servedEvents_none (now : Word) (k : Nat) (s : State) :
    servedEvents now k [] [] s = .timeNow now :: sinkTakes s.rxb.held k := by
  simp [servedEvents, readPayload]

/-- A STEP of a running receiver whose answers are foretold is its phase (c) after the delivery, the mode poll and the
response. -/
theorem exec_step_receiving {s : State} {now : Word} {k : Nat} {rest : List Event} {fs : List Bool} {bs : List Byte}
    {ts : List Word} (h : receiving s) (silent : timesAsked rest = [])
    (told : foretells (.timeNow now :: sinkTakes s.rxb.held k ++ rest) fs bs ts s) :
    ∃ d, Served k [] s d ∧ RxReady d (s.rxb.held.drop k) ∧
      exec .step s = andThen (rxStep now (performed (flagsAnswered rest ++ fs) (bytesAnswered rest ++ bs) ts
          (.timeNow now :: sinkTakes s.rxb.held k) d))
        fun t => .next (respond .ok 0 (modePoll now t)) := by
  have running := h
  obtain ⟨inv, hrun, hrole⟩ := running
  obtain ⟨hf, hb, ht⟩ := told
  obtain ⟨r, hr, same, e⟩ := exec_step_receiver (now := now) (ts := ts) (k := k) (fs := flagsAnswered rest ++ fs) inv
    hrun hrole (by rw [ht]; simp [silent, timesAsked_sinkTakes]) (by rw [hf]; simp)
  refine ⟨s.setRxb r, .of_delivery hr same, receiving_ready h hr (by simp), e.trans ?_⟩
  have left : s.env.bytes = bytesAnswered rest ++ bs := by rw [hb]; simp [bytesAnswered_sinkTakes]
  rw [left]
  rfl

/-! ### The link check -/

section
variable {now : Word} {s : State} {fs : List Bool} {bs : List Byte} {ts : List Word} {evs : List Event}

theorem timedOut_link_iff : timedOut s.cfg.linkTo now s.rx.tLink = true ↔ ¬ linkAlive now s := by
  rw [timedOut_eq_true_iff, linkAlive, not_or, BitVec.not_lt]

/-- The link timer alive, `RX_link_check` does nothing (43_rxdeframer.md R240). -/
theorem rxLinkCheck_alive (alive : linkAlive now s) :
    rxLinkCheck now (performed fs bs ts evs s) = .next (performed fs bs ts evs s) :=
  if_neg fun h => timedOut_link_iff.mp h alive

/-- The link timer expired, and Idle not to be requested. -/
theorem rxLinkCheck_lost (expired : ¬ linkAlive now s) (stays : ¬ (s.cfg.rxIdleCycle = true ∧ s.rx.phase = .active)) :
    rxLinkCheck now (performed fs bs ts evs s) = .next (performed fs bs ts evs (linkLost now s)) :=
  (if_pos (timedOut_link_iff.mpr expired)).trans (if_neg stays)

/-- The request for Idle that cycles the radio. -/
def cycling (now : Word) (s : State) : State :=
  { s with rx := { s.rx with phase := .cycleIdle }, arb := ⟨.rx, .idle, true, now⟩ }

theorem requestAndEnter_performed {m : RadioMode} (p : RxPhase) (hp : s.arb.pending = false) (hm : m ≠ s.arb.cur) :
    requestAndEnter m p now (performed fs bs ts evs s) = .next (performed fs bs ts (evs ++ [.radioSetMode m]) { s with
      rx := { s.rx with phase := p }, arb := ⟨s.arb.cur, m, true, now⟩ }) := by
  rw [requestAndEnter, requestMode_performed now hp hm]
  rfl

/-- The link timer expired in RX_ACTIVE with RX_IDLE_CYCLE = 1: the radio is cycled through Idle. -/
theorem rxLinkCheck_cycles (expired : ¬ linkAlive now s) (cycle : s.cfg.rxIdleCycle = true)
    (active : s.rx.phase = .active) (hp : s.arb.pending = false) (hc : s.arb.cur = .rx) :
    rxLinkCheck now (performed fs bs ts evs s) =
      .next (performed fs bs ts (evs ++ [.radioSetMode .idle]) (cycling now (linkLost now s))) := by
  refine ((if_pos (timedOut_link_iff.mpr expired)).trans (if_pos ⟨cycle, active⟩)).trans ?_
  rw [cycling, ← hc]
  exact requestAndEnter_performed (s := linkLost now s) _ hp (by show _ ≠ s.arb.cur; simp [hc])

/-! ### The end of a frame -/

/-- What a completed frame leaves, the request for Idle apart (43_rxdeframer.md R237). -/
def frameDone (now : Word) (s : State) : State :=
  { s with
    rx := { s.rx with sync := .searching, tLink := now }
    counters := { s.counters with framesRx := s.counters.framesRx + 1 } }

theorem rxFrameComplete_stays (stays : s.cfg.rxIdleCycle = false) :
    rxFrameComplete now (performed fs bs ts evs s) = .next (performed fs bs ts evs (frameDone now s)) :=
  if_neg (by simp [stays])

theorem rxFrameComplete_cycles (cycle : s.cfg.rxIdleCycle = true) (hp : s.arb.pending = false) (hc : s.arb.cur = .rx) :
    rxFrameComplete now (performed fs bs ts evs s) =
      .next (performed fs bs ts (evs ++ [.radioSetMode .idle]) (cycling now (frameDone now s))) := by
  refine (if_pos cycle).trans ?_
  rw [cycling, ← hc]
  exact requestAndEnter_performed (s := frameDone now s) _ hp (by show _ ≠ s.arb.cur; simp [hc])

/-- At the time of the last sign of the link the link timer is alive. -/
theorem linkAlive_self (h : s.rx.tLink = now) : linkAlive now s := by
  rw [← not_not (a := linkAlive now s), ← timedOut_link_iff, h, timedOut_self]
  exact Bool.false_ne_true

theorem linkAlive_frameDone (now : Word) (s : State) : linkAlive now (frameDone now s) := linkAlive_self rfl

theorem linkAlive_cycling (now : Word) (s : State) : linkAlive now (cycling now (frameDone now s)) := linkAlive_self rfl

end

/-! ### The arm of a phase that reads -/

/-- What reading short of a frame's end leaves: `fed` went to the detector, `pays` are the payload bytes read after
(43_rxdeframer.md R233 to R235). -/
def reading (fed : List Byte) (pays : List (Byte × Nat)) (s d : State) : State :=
  (if spurious fed s then syncLost else id) { d with rx := { d.rx with
    phase := .active
    sync := sdRun s.cfg.sync0 s.cfg.sync1 s.rx.sync fed
    remaining := if payloadDue s fed ≠ 0 then BitVec.ofNat 24 (payloadDue s fed - pays.length) else s.rx.remaining } }

theorem payloadDue_congr {s d : State} (hrx : d.rx = s.rx) (hcfg : d.cfg = s.cfg) (fed : List Byte) :
    payloadDue d fed = payloadDue s fed := by
  simp only [payloadDue, hrx, hcfg]

theorem reading_spurious {fed : List Byte} {s : State} (h : spurious fed s) (pays : List (Byte × Nat)) (d : State) :
    reading fed pays s d = syncLost { d with rx := { d.rx with
      phase := .active
      sync := sdRun s.cfg.sync0 s.cfg.sync1 s.rx.sync fed
      remaining :=
        if payloadDue s fed ≠ 0 then BitVec.ofNat 24 (payloadDue s fed - pays.length) else s.rx.remaining } } := by
  rw [reading, if_pos h]

theorem reading_clean {fed : List Byte} {s : State} (h : ¬ spurious fed s) (pays : List (Byte × Nat)) (d : State) :
    reading fed pays s d = { d with rx := { d.rx with
      phase := .active
      sync := sdRun s.cfg.sync0 s.cfg.sync1 s.rx.sync fed
      remaining :=
        if payloadDue s fed ≠ 0 then BitVec.ofNat 24 (payloadDue s fed - pays.length) else s.rx.remaining } } := by
  rw [reading, if_neg h]
  rfl

/-- Reading depends on the receiver's registers and the configuration alone. -/
theorem reading_congr {s d : State} (hrx : d.rx = s.rx) (hcfg : d.cfg = s.cfg) (fed : List Byte)
    (pays : List (Byte × Nat)) (e : State) : reading fed pays d e = reading fed pays s e := by
  have same : spurious fed d ↔ spurious fed s := by simp only [spurious, hrx, hcfg]
  by_cases lost : spurious fed s
  · rw [reading_spurious lost, reading_spurious (same.mpr lost), payloadDue_congr hrx hcfg, hrx, hcfg]
  · rw [reading_clean lost, reading_clean (mt same.mp lost), payloadDue_congr hrx hcfg, hrx, hcfg]

theorem reading_arb (fed : List Byte) (pays : List (Byte × Nat)) (s d : State) :
    (reading fed pays s d).arb = d.arb := by
  rw [reading]; split <;> rfl

theorem reading_cfg (fed : List Byte) (pays : List (Byte × Nat)) (s d : State) :
    (reading fed pays s d).cfg = d.cfg := by
  rw [reading]; split <;> rfl

theorem reading_phase (fed : List Byte) (pays : List (Byte × Nat)) (s d : State) :
    (reading fed pays s d).rx.phase = .active := by
  rw [reading]; split <;> rfl

theorem linkAlive_reading (now : Word) (fed : List Byte) (pays : List (Byte × Nat)) (s d : State) :
    linkAlive now (reading fed pays s d) ↔ linkAlive now d := by
  rw [reading]; split <;> rfl

/-- The link timeout forgets what the detector and the frame in progress came to. -/
theorem linkLost_reading (now : Word) (fed : List Byte) (pays : List (Byte × Nat)) (s d : State) :
    linkLost now (reading fed pays s d) = linkLost now
      (if spurious fed s then syncLost { d with rx := { d.rx with phase := .active } }
        else { d with rx := { d.rx with phase := .active } }) := by
  rw [reading]; split <;> rfl

section
variable {s d : State} {b : Byte}

/-- An unlocked receiver that finds the FIFO empty. -/
theorem reading_nothing (hl : s.rx.sync ≠ .locked) (hrx : d.rx = s.rx) :
    reading [] [] s d = { d with rx := { d.rx with phase := .active } } := by
  rw [reading_clean (by simp), payloadDue_nil hl, if_neg (by simp), ← hrx]
  rfl

theorem payloadDue_searching (hs : s.rx.sync = .searching) : payloadDue s [b] = 0 := by
  rw [payloadDue_fed (by simp [hs]), hs, sdFeed]
  split <;> simp_all

/-- A byte fed in Searching (41_syncdetector.md R170). -/
theorem reading_searching (hs : s.rx.sync = .searching) (hrx : d.rx = s.rx) :
    reading [b] [] s d = { d with rx := { d.rx with
      phase := .active, sync := if b = s.cfg.sync0 then .firstByteMatched else .searching } } := by
  rw [reading_clean (by simp [hs]), payloadDue_searching hs, if_neg (by simp), ← hrx, sdRun]
  simp only [List.foldl, hrx, hs, sdFeed]
  split <;> rfl

/-- A mismatch in FirstByteMatched: the byte is re-examined (41_syncdetector.md R170). -/
theorem sdFeed_mismatch (sync0 : Byte) {sync1 : Byte} (hb : b ≠ sync1) :
    (sdFeed sync0 sync1 .firstByteMatched b).1 = if b = sync0 then .firstByteMatched else .searching := by
  simp only [sdFeed]
  rw [if_neg hb]
  split <;> rfl

theorem payloadDue_mismatch (hs : s.rx.sync = .firstByteMatched) (hb : b ≠ s.cfg.sync1) : payloadDue s [b] = 0 := by
  rw [payloadDue_fed (by simp [hs]), hs, sdFeed_mismatch _ hb]
  split <;> simp_all

theorem reading_mismatch (hs : s.rx.sync = .firstByteMatched) (hb : b ≠ s.cfg.sync1) (hrx : d.rx = s.rx) :
    reading [b] [] s d = syncLost { d with rx := { d.rx with
      phase := .active, sync := if b = s.cfg.sync0 then .firstByteMatched else .searching } } := by
  rw [reading_spurious ⟨hs, by simp, by simpa using hb⟩, payloadDue_mismatch hs hb, if_neg (by simp),
    ← sdFeed_mismatch _ hb, ← hs, ← hrx]
  rfl

/-- The marker completed makes all N payload bytes due (43_rxdeframer.md R234). -/
theorem payloadDue_marker (hs : s.rx.sync = .firstByteMatched) : payloadDue s [s.cfg.sync1] = s.cfg.n.toNat := by
  rw [payloadDue_fed (by simp [hs]), hs, sdFeed]
  simp

theorem reading_marker (hs : s.rx.sync = .firstByteMatched) (hn : 1 ≤ s.cfg.n.toNat) :
    reading [s.cfg.sync1] [] s d = { d with rx := { d.rx with
      phase := .active, sync := .locked, remaining := s.cfg.n } } := by
  rw [reading_clean (by simp), payloadDue_marker hs, if_pos (by omega)]
  simp [sdRun, hs, sdFeed]

/-- Payload bytes read short of the frame's end, by a receiver locked before or by the byte fed. -/
theorem reading_part {fed : List Byte} {pays : List (Byte × Nat)}
    (hfed : (s.rx.sync = .locked ∧ fed = []) ∨ (s.rx.sync = .firstByteMatched ∧ fed = [s.cfg.sync1]))
    (hp : pays.length < payloadDue s fed) (hph : d.rx.phase = .active) :
    reading fed pays s d = { d with rx := { d.rx with
      sync := .locked, remaining := BitVec.ofNat 24 (payloadDue s fed - pays.length) } } := by
  have locked : sdRun s.cfg.sync0 s.cfg.sync1 s.rx.sync fed = .locked := by
    rcases hfed with ⟨hs, rfl⟩ | ⟨hs, rfl⟩ <;> simp [sdRun, hs, sdFeed]
  have clean : ¬ spurious fed s := by
    rcases hfed with ⟨hs, rfl⟩ | ⟨hs, rfl⟩ <;> simp
  rw [reading_clean clean, locked, if_pos (by omega), ← hph]

end

section
variable {now : Word} {s d : State} {l : List Byte} {k : Nat} {fed : List Byte} {pays : List (Byte × Nat)}
  {evs query rest : List Event} {fs : List Bool} {bs : List Byte} {ts : List Word}

/-- The arm of a receiver with Rx confirmed, short of a frame's end. -/
theorem rxPhaseArm_reading (ok : RxReady d l)
    (hs : d.rx.phase = .active ∨ (d.rx.phase = .waitMode ∧ d.arb.pending = false))
    (hfed : (d.rx.sync = .locked ∧ fed = []) ∨ (d.rx.sync ≠ .locked ∧ fed.length ≤ 1))
    (hpays : pays = [] ∨ pays.length < payloadDue d fed)
    (hq : query = if fed = [] ∨ payloadDue d fed ≠ 0 then [.radioFifoNotEmpty false] else [])
    {flags : List Bool} {bytes : List Byte}
    (hf : flags = flagsAnswered (fed.flatMap readEvents ++ (readPayload d.cfg l pays).events ++ query) ++ fs)
    (hb : bytes = bytesAnswered (fed.flatMap readEvents ++ (readPayload d.cfg l pays).events ++ query) ++ bs) :
    ∃ r, Holds r (readPayload d.cfg l pays).held ∧ (pays = [] → r = d.rxb) ∧
      rxPhaseArm now (performed flags bytes ts evs d) =
      .next (performed fs bs ts (evs ++ (fed.flatMap readEvents ++ (readPayload d.cfg l pays).events ++ query))
        (reading fed pays d (d.served r (readPayload d.cfg l pays).overruns))) := by
  obtain ⟨r, hr, same, e⟩ := rxActive_part now (s := (performed flags bytes ts evs d).setRxPhase .active) ok.holds
    ok.fits ⟨ok.buffer.room, ok.buffer.depth, ok.buffer.policy⟩ ok.size ok.running.locked hfed hpays hq hf hb
  obtain ⟨arm, -⟩ := rxPhaseArm_reads now (s := performed flags bytes ts evs d) ok.running.modes ok.settled hs
  refine ⟨r, hr, same, (arm.trans e).trans (congrArg Host.Outcome.next ?_)⟩
  rw [← performed_performed flags bytes ts]
  by_cases lost : spurious fed d
  · rw [reading_spurious lost]
    refine (congrArg (fun x : State → State => (x _).setEnv _) (if_pos lost)).trans ?_
    rfl
  · rw [reading_clean lost]
    refine (congrArg (fun x : State → State => (x _).setEnv _) (if_neg lost)).trans ?_
    rfl

/-- A STEP that reads short of a frame's end is that reading, then the link check. -/
theorem exec_step_reading (h : receiving s)
    (hs : s.rx.phase = .active ∨ (s.rx.phase = .waitMode ∧ s.arb.pending = false))
    (hfed : (s.rx.sync = .locked ∧ fed = []) ∨ (s.rx.sync ≠ .locked ∧ fed.length ≤ 1))
    (hpays : pays = [] ∨ pays.length < payloadDue s fed)
    (hq : query = if fed = [] ∨ payloadDue s fed ≠ 0 then [.radioFifoNotEmpty false] else [])
    (silent : timesAsked rest = []) (told : foretells (servedEvents now k fed pays s ++ query ++ rest) fs bs ts s) :
    ∃ d, Served k pays s d ∧ d.arb.pending = false ∧ d.arb.cur = .rx ∧
      exec .step s = andThen (rxLinkCheck now (performed (flagsAnswered rest ++ fs) (bytesAnswered rest ++ bs) ts
          (servedEvents now k fed pays s ++ query) (reading fed pays s d)))
        fun t => .next (respond .ok 0 (modePoll now t)) := by
  have assoc : servedEvents now k fed pays s ++ query ++ rest = .timeNow now :: sinkTakes s.rxb.held k ++
      (fed.flatMap readEvents ++ (readPayload s.cfg (s.rxb.held.drop k) pays).events ++ query ++ rest) := by
    simp [servedEvents]
  rw [assoc] at told
  have quiet : timesAsked query = [] := by subst hq; split <;> rfl
  obtain ⟨d, v, ok, e⟩ := exec_step_receiving h (by simp [silent, quiet, timesAsked_readPayload]) told
  have hs' : d.rx.phase = .active ∨ (d.rx.phase = .waitMode ∧ d.arb.pending = false) := by rw [v.rx, v.arb]; exact hs
  obtain ⟨r, hr, same, e'⟩ := rxPhaseArm_reading (now := now) (query := query) (fs := flagsAnswered rest ++ fs)
    (bs := bytesAnswered rest ++ bs) (ts := ts) (evs := .timeNow now :: sinkTakes s.rxb.held k) ok hs'
    (by rw [v.rx]; exact hfed) (by rw [payloadDue_congr v.rx v.cfg]; exact hpays)
    (by rw [payloadDue_congr v.rx v.cfg]; exact hq) rfl rfl
  obtain ⟨-, hp, hc⟩ := rxPhaseArm_reads now ok.running.modes ok.settled hs'
  refine ⟨_, v.of_reads hr same, hp, hc, e.trans ?_⟩
  rw [reading_congr v.rx v.cfg, v.cfg] at e'
  rw [v.cfg, rxStep, flagsAnswered_append _ rest, bytesAnswered_append _ rest, List.append_assoc (flagsAnswered _),
    List.append_assoc (bytesAnswered _), e', andThen_next]
  simp only [servedEvents, List.append_assoc, List.cons_append]

/-- With the link timer alive such a STEP ends where it has read to. -/
theorem exec_step_reading_alive (h : receiving s)
    (hs : s.rx.phase = .active ∨ (s.rx.phase = .waitMode ∧ s.arb.pending = false))
    (hfed : (s.rx.sync = .locked ∧ fed = []) ∨ (s.rx.sync ≠ .locked ∧ fed.length ≤ 1))
    (hpays : pays = [] ∨ pays.length < payloadDue s fed)
    (hq : query = if fed = [] ∨ payloadDue s fed ≠ 0 then [.radioFifoNotEmpty false] else [])
    (alive : linkAlive now s) (told : foretells (servedEvents now k fed pays s ++ query) fs bs ts s) :
    ∃ d, Served k pays s d ∧
      exec .step s = .next (stepped fs bs ts (servedEvents now k fed pays s ++ query) (reading fed pays s d)) := by
  obtain ⟨d, v, hp, -, e⟩ := exec_step_reading h hs hfed hpays hq (rest := []) rfl (by rwa [List.append_nil])
  rw [rxLinkCheck_alive ((linkAlive_reading now fed pays s d).mpr ((v.linkAlive_iff now).mpr alive))] at e
  exact ⟨d, v, e.trans (finish_settled now ((congrArg ModeArbiter.pending (reading_arb fed pays s d)).trans hp))⟩

/-- The marker completed: the detector locks, and all N payload bytes are due (43_rxdeframer.md R234). -/
theorem rxSyncFeed_marker (hs : d.rx.sync = .firstByteMatched) :
    rxSyncFeed (performed (true :: fs) (d.cfg.sync1 :: bs) ts evs d) =
      performed fs bs ts (evs ++ readEvents d.cfg.sync1)
        { d with rx := { d.rx with sync := .locked, remaining := d.cfg.n } } := by
  rw [rxSyncFeed_byte (s := performed (true :: fs) (d.cfg.sync1 :: bs) ts evs d) rfl rfl, rxFeed_eq, setEnv_onward,
    performed_times, performed_performed]
  simp [hs, sdFeed, performed, readEvents]

/-- The payload reads up to the frame's last byte. -/
theorem rxPayload_completes (h : Holds d.rxb l) (hl : l.length ≤ d.cfg.capRxBytes.toNat) (ok : RxbReady d)
    (hp : pays.length = d.rx.remaining.toNat) (h1 : 1 ≤ d.rx.remaining.toNat) :
    ∃ r, Holds r (readPayload d.cfg l pays).held ∧
      rxPayload now (performed (flagsAnswered (readPayload d.cfg l pays).events ++ fs)
        (bytesAnswered (readPayload d.cfg l pays).events ++ bs) ts evs d) =
      rxFrameComplete now (performed fs bs ts (evs ++ (readPayload d.cfg l pays).events)
        ((d.served r (readPayload d.cfg l pays).overruns).setRemaining 0)) := by
  obtain ⟨r, hr, e⟩ := rxPayload_all now pays (s := performed (flagsAnswered (readPayload d.cfg l pays).events ++ fs)
    (bytesAnswered (readPayload d.cfg l pays).events ++ bs) ts evs d) h hl ⟨ok.room, ok.depth, ok.policy⟩ hp h1 rfl rfl
  refine ⟨r, hr, e.trans (congrArg (rxFrameComplete now) ?_)⟩
  rw [← performed_performed (flagsAnswered (readPayload d.cfg l pays).events ++ fs)
    (bytesAnswered (readPayload d.cfg l pays).events ++ bs) ts]
  rfl

/-- What reading a frame's last byte leaves, before the frame is completed (43_rxdeframer.md R235). -/
def lastRead (d : State) : State := { d with rx := { d.rx with sync := .locked, remaining := 0 } }

/-- The arm of a locked receiver, or of one that this byte locks, up to the frame's last byte. -/
theorem rxPhaseArm_completes (ok : RxReady d l) (hs : d.rx.phase = .active)
    (hfed : (d.rx.sync = .locked ∧ fed = []) ∨ (d.rx.sync = .firstByteMatched ∧ fed = [d.cfg.sync1]))
    (hp : pays.length = payloadDue d fed) :
    ∃ r, Holds r (readPayload d.cfg l pays).held ∧ pays ≠ [] ∧
      rxPhaseArm now (performed
        (flagsAnswered (fed.flatMap readEvents ++ (readPayload d.cfg l pays).events) ++ fs)
        (bytesAnswered (fed.flatMap readEvents ++ (readPayload d.cfg l pays).events) ++ bs) ts evs d) =
      rxFrameComplete now (performed fs bs ts (evs ++ (fed.flatMap readEvents ++ (readPayload d.cfg l pays).events))
        (lastRead (d.served r (readPayload d.cfg l pays).overruns))) := by
  have arm : ∀ flags bytes, rxPhaseArm now (performed flags bytes ts evs d) =
      rxActive now (performed flags bytes ts evs d) := by
    intro flags bytes
    rw [rxPhaseArm, performed_rx, hs]
  rw [arm]
  rcases hfed with ⟨locked, rfl⟩ | ⟨matched, rfl⟩
  · rw [payloadDue_locked locked] at hp
    have due : 1 ≤ d.rx.remaining.toNat := by
      have := mt BitVec.eq_of_toNat_eq (ok.running.locked.mp locked)
      simp at this
      omega
    obtain ⟨r, hr, e⟩ := rxPayload_completes (now := now) (fs := fs) (bs := bs) (ts := ts) (evs := evs) ok.holds ok.fits
      ok.buffer hp due
    refine ⟨r, hr, List.ne_nil_of_length_pos (by omega), ?_⟩
    rw [rxActive_locked now (s := performed _ _ ts evs d) locked]
    refine e.trans ?_
    rw [lastRead, ← locked]
    rfl
  · have size := ok.size
    have step : sdRun d.cfg.sync0 d.cfg.sync1 d.rx.sync [d.cfg.sync1] = .locked := by simp [sdRun, matched, sdFeed]
    have hp' : pays.length = d.cfg.n.toNat := by rw [hp, payloadDue, if_neg (by simp [matched]), if_pos step]
    obtain ⟨r, hr, e⟩ := rxPayload_completes (now := now) (fs := fs) (bs := bs) (ts := ts)
      (d := { d with rx := { d.rx with sync := .locked, remaining := d.cfg.n } })
      (evs := evs ++ readEvents d.cfg.sync1) ok.holds ok.fits ⟨ok.buffer.room, ok.buffer.depth, ok.buffer.policy⟩ hp'
      size
    refine ⟨r, hr, List.ne_nil_of_length_pos (by omega), ?_⟩
    refine (rxActive_locks now (s := performed _ _ ts evs d) (by simp [matched]) (rxSyncFeed_marker matched) rfl).trans
      (e.trans ?_)
    rw [List.append_assoc]
    rfl

/-- A STEP that reads a frame's last byte is those reads, the frame's completion and the link check. -/
theorem exec_step_completing (h : receiving s) (hs : s.rx.phase = .active)
    (hfed : (s.rx.sync = .locked ∧ fed = []) ∨ (s.rx.sync = .firstByteMatched ∧ fed = [s.cfg.sync1]))
    (hp : pays.length = payloadDue s fed) (silent : timesAsked rest = [])
    (told : foretells (servedEvents now k fed pays s ++ rest) fs bs ts s) :
    ∃ d, Served k pays s d ∧ d.arb.pending = false ∧ d.arb.cur = .rx ∧
      exec .step s = andThen (andThen (rxFrameComplete now (performed (flagsAnswered rest ++ fs)
          (bytesAnswered rest ++ bs) ts (servedEvents now k fed pays s) (lastRead d)))
          fun t => rxLinkCheck now t)
        fun t => .next (respond .ok 0 (modePoll now t)) := by
  have assoc : servedEvents now k fed pays s ++ rest = .timeNow now :: sinkTakes s.rxb.held k ++
      (fed.flatMap readEvents ++ (readPayload s.cfg (s.rxb.held.drop k) pays).events ++ rest) := by
    simp [servedEvents]
  rw [assoc] at told
  obtain ⟨d, v, ok, e⟩ := exec_step_receiving h (by simp [silent, timesAsked_readPayload]) told
  have hs' : d.rx.phase = .active := by rw [v.rx]; exact hs
  obtain ⟨r, hr, some, e'⟩ := rxPhaseArm_completes (now := now) (fs := flagsAnswered rest ++ fs)
    (bs := bytesAnswered rest ++ bs) (ts := ts) (evs := .timeNow now :: sinkTakes s.rxb.held k) ok hs'
    (by rw [v.rx, v.cfg]; exact hfed) (hp.trans (payloadDue_congr v.rx v.cfg fed).symm)
  obtain ⟨-, hp, hc⟩ := rxPhaseArm_reads now ok.running.modes ok.settled (.inl hs')
  refine ⟨_, v.of_reads hr fun none => absurd none some, hp, hc, e.trans ?_⟩
  rw [v.cfg] at e'
  rw [v.cfg, rxStep, flagsAnswered_append _ rest, bytesAnswered_append _ rest, List.append_assoc (flagsAnswered _),
    List.append_assoc (bytesAnswered _), e']
  simp only [servedEvents, List.append_assoc, List.cons_append]

/-- What the request for Rx leaves (43_rxdeframer.md R231, R238). -/
def rxRequested (now : Word) (d : State) : State :=
  { d with rx := { d.rx with phase := .waitMode }, arb := ⟨.idle, .rx, true, now⟩ }

/-- A STEP that requests Rx, then the link check. -/
theorem exec_step_requesting {ready : Bool} (h : receiving s)
    (hs : s.rx.phase = .start ∨ (s.rx.phase = .cycleIdle ∧ s.arb.pending = false))
    (told : foretells (.timeNow now :: sinkTakes s.rxb.held k ++ [.radioSetMode .rx, .radioModeReady ready])
      fs bs ts s) :
    ∃ d, Served k [] s d ∧
      exec .step s = andThen (rxLinkCheck now (performed (ready :: fs) bs ts
          (.timeNow now :: sinkTakes s.rxb.held k ++ [.radioSetMode .rx]) (rxRequested now d)))
        fun t => .next (respond .ok 0 (modePoll now t)) := by
  obtain ⟨d, v, ok, e⟩ := exec_step_receiving h rfl told
  refine ⟨d, v, e.trans (congrArg (andThen · _) ?_)⟩
  rw [rxStep, rxPhaseArm_requests now (s := performed _ _ ts _ d) ok.running.modes ok.settled
    (by rw [performed_rx, performed_arb, v.rx, v.arb]; exact hs), andThen_next, doSetMode_performed]
  rfl

/-- A STEP with a request pending does nothing in its arm, then the link check. -/
theorem exec_step_receiving_pending (h : receiving s) (hp : s.arb.pending = true) (silent : timesAsked rest = [])
    (told : foretells (.timeNow now :: sinkTakes s.rxb.held k ++ rest) fs bs ts s) :
    ∃ d, Served k [] s d ∧ d.rx.phase ≠ .active ∧
      exec .step s = andThen (rxLinkCheck now (performed (flagsAnswered rest ++ fs) (bytesAnswered rest ++ bs) ts
          (.timeNow now :: sinkTakes s.rxb.held k) d))
        fun t => .next (respond .ok 0 (modePoll now t)) := by
  obtain ⟨d, v, ok, e⟩ := exec_step_receiving h silent told
  obtain ⟨arm, inactive⟩ := rxPhaseArm_pending now (s := performed (flagsAnswered rest ++ fs) (bytesAnswered rest ++ bs)
    ts (.timeNow now :: sinkTakes s.rxb.held k) d) ok.running.modes (by rw [performed_arb, v.arb]; exact hp)
  refine ⟨d, v, inactive, e.trans (congrArg (andThen · _) ?_)⟩
  rw [rxStep, arm, andThen_next]

end

end Sys2Proof.Machine

section

open Sys2Proof Sys2Proof.Machine Sys2Proof.Claims

/-- Settles O56: with a request pending neither role's phase does anything, so the STEP is phase (a) and the poll. -/
theorem modePollPending : Obligations.ModePollPending := by
  intro s now ready evs fs bs ts inv hrun hp told
  refine ⟨fun taken tail hrole ends hevs => ?_, fun k hrole alive hevs => ?_⟩ <;> subst hevs
  · exact exec_step_transmitting_pending ⟨inv, hrun, hrole⟩ hp ends told
  · obtain ⟨d, v, -, e⟩ := exec_step_receiving_pending ⟨inv, hrun, hrole⟩ hp (timesAsked_pollEvents now ready s) told
    rw [rxLinkCheck_alive ((v.linkAlive_iff now).mpr alive)] at e
    exact ⟨d, v, e.trans (finish_pending ready hp v.arb v.cfg)⟩

/-- Settles O57: the arm requests Rx, and the link timer is alive. -/
theorem rxRequestsRx : Obligations.RxRequestsRx := by
  intro s now k ready evs fs bs ts h hs alive hevs told
  subst hevs
  obtain ⟨d, v, e⟩ := exec_step_requesting h hs told
  have alive' : linkAlive now (rxRequested now d) := (v.linkAlive_iff now).mpr alive
  refine ⟨d, v, e.trans ?_⟩
  rw [rxLinkCheck_alive alive']
  refine (finish_requested ready rfl).trans ?_
  rw [List.append_assoc]
  rfl

/-- Settles O58: the FIFO empty, and each row of the detector. -/
theorem rxFeedsOneByte : Obligations.RxFeedsOneByte := by
  intro s now k b evs fs bs ts h hs unlocked alive told
  refine ⟨fun hevs => ?_, fun hevs searching => ?_, fun hevs matched mismatch => ?_, fun hevs matched marker => ?_⟩ <;>
    subst hevs
  · obtain ⟨d, v, e⟩ := exec_step_reading_alive h hs (.inr ⟨unlocked, by simp⟩) (.inl rfl) (if_pos (.inl rfl)).symm
      alive told
    rw [reading_nothing unlocked v.rx] at e
    exact ⟨d, v, e⟩
  · obtain ⟨d, v, e⟩ := exec_step_reading_alive h hs (fed := [b]) (.inr ⟨unlocked, by simp⟩) (.inl rfl) (query := [])
      (by simp [payloadDue_searching searching]) alive (by rwa [List.append_nil])
    rw [reading_searching searching v.rx, List.append_nil] at e
    exact ⟨d, v, e⟩
  · obtain ⟨d, v, e⟩ := exec_step_reading_alive h hs (fed := [b]) (.inr ⟨unlocked, by simp⟩) (.inl rfl) (query := [])
      (by simp [payloadDue_mismatch matched mismatch]) alive (by rwa [List.append_nil])
    rw [reading_mismatch matched mismatch v.rx, List.append_nil] at e
    exact ⟨d, v, e⟩
  · subst marker
    have running := h
    obtain ⟨inv, hrun, -⟩ := running
    obtain ⟨⟨size, -⟩, -⟩ := (configLegal_iff s).mp (inv.legal hrun)
    obtain ⟨d, v, e⟩ := exec_step_reading_alive h hs (.inr ⟨unlocked, by simp⟩) (.inl rfl)
      (if_pos (.inr (by rw [payloadDue_marker matched]; omega))).symm alive told
    rw [reading_marker matched size] at e
    exact ⟨d, v, e⟩

/-- Settles O59: the payload reads foretold, to the frame's last byte or short of it. -/
theorem frameReceived : Obligations.FrameReceived := by
  intro s now k fed pays ready evs fs bs ts h hs hfed told
  refine ⟨fun hp stays hevs => ?_, fun hp cycle hevs => ?_, fun hp alive hevs => ?_⟩ <;> subst hevs
  · obtain ⟨d, v, idle, -, e⟩ := exec_step_completing h hs hfed hp (rest := []) rfl (by rwa [List.append_nil])
    have stays' : (lastRead d).cfg.rxIdleCycle = false := (congrArg ConfigRegs.rxIdleCycle v.cfg).trans stays
    rw [rxFrameComplete_stays stays', andThen_next, rxLinkCheck_alive (linkAlive_frameDone now _)] at e
    exact ⟨d, v, e.trans (finish_settled now idle)⟩
  · obtain ⟨d, v, idle, hc, e⟩ := exec_step_completing h hs hfed hp rfl told
    have cycle' : (lastRead d).cfg.rxIdleCycle = true := (congrArg ConfigRegs.rxIdleCycle v.cfg).trans cycle
    rw [rxFrameComplete_cycles cycle' idle hc, andThen_next, rxLinkCheck_alive (linkAlive_cycling now _)] at e
    refine ⟨d, v, e.trans ((finish_requested ready rfl).trans ?_)⟩
    rw [List.append_assoc]
    rfl
  · have due : payloadDue s fed ≠ 0 := by omega
    obtain ⟨d, v, e⟩ := exec_step_reading_alive h (.inl hs)
      (hfed.imp_right fun ⟨matched, one⟩ => ⟨by simp [matched], by simp [one]⟩) (.inr hp) (if_pos (.inr due)).symm
      alive told
    rw [reading_part hfed hp (by rw [v.rx]; exact hs)] at e
    exact ⟨d, v, e⟩

/-- Settles O60: the arm of each phase, then the link timer expired. -/
theorem linkTimeout : Obligations.LinkTimeout := by
  intro s now k ready evs fs bs ts h expired told
  refine ⟨fun hs hevs => ?_, fun hp hevs => ?_, fun fed pays query hs hfed hpays hq => ⟨fun stays hevs => ?_,
    fun cycle hevs => ?_⟩⟩ <;> subst hevs
  · rw [servedEvents_none] at told ⊢
    obtain ⟨d, v, e⟩ := exec_step_requesting h hs told
    have expired' : ¬ linkAlive now (rxRequested now d) := mt (v.linkAlive_iff now).mp expired
    rw [rxLinkCheck_lost expired' (by simp [rxRequested])] at e
    refine ⟨d, v, e.trans ((finish_requested ready rfl).trans ?_)⟩
    rw [List.append_assoc]
    rfl
  · rw [servedEvents_none] at told ⊢
    obtain ⟨d, v, inactive, e⟩ := exec_step_receiving_pending h hp (timesAsked_pollEvents now ready s) told
    rw [rxLinkCheck_lost (mt (v.linkAlive_iff now).mp expired) (fun active => inactive active.2)] at e
    exact ⟨d, v, e.trans (finish_pending (d := linkLost now d) ready hp v.arb v.cfg)⟩
  · obtain ⟨d, v, idle, -, e⟩ := exec_step_reading h hs hfed hpays hq (rest := []) rfl (by rwa [List.append_nil])
    rw [rxLinkCheck_lost (by rw [linkAlive_reading, v.linkAlive_iff]; exact expired)
      (by rw [reading_cfg, v.cfg, stays]; simp)] at e
    refine ⟨d, v, e.trans ((finish_settled now ?_).trans ?_)⟩
    · exact (congrArg ModeArbiter.pending (reading_arb fed pays s d)).trans idle
    · rw [linkLost_reading]
      rfl
  · obtain ⟨d, v, idle, hc, e⟩ := exec_step_reading h hs hfed hpays hq rfl told
    rw [rxLinkCheck_cycles (by rw [linkAlive_reading, v.linkAlive_iff]; exact expired)
      (by rw [reading_cfg, v.cfg, cycle]) (reading_phase fed pays s d) (by rw [reading_arb]; exact idle)
      (by rw [reading_arb]; exact hc)] at e
    refine ⟨d, v, e.trans ((finish_requested ready rfl).trans ?_)⟩
    rw [linkLost_reading, List.append_assoc]
    by_cases lost : spurious fed s
    · rw [if_pos lost, if_pos lost]; rfl
    · rw [if_neg lost, if_neg lost]; rfl

end
end

section
/-! PROOFS. The SyncDetector and the receive stream: the detector's table and its search for the marker
(41_syncdetector.md R170, R175), and what any number of STEPs makes of the radio's bytes (R171; 43_rxdeframer.md R233 to
R237). -/

namespace Sys2Proof.Machine

open Sys2Proof.Claims

/-! ### The detector, byte by byte -/

section
variable {sync0 sync1 b : Byte}

theorem sdFeed_searching_first (h : b = sync0) : sdFeed sync0 sync1 .searching b = (.firstByteMatched, false) :=
  if_pos h

theorem sdFeed_searching_other (h : b ≠ sync0) : sdFeed sync0 sync1 .searching b = (.searching, false) := if_neg h

theorem sdFeed_matched_second (h : b = sync1) : sdFeed sync0 sync1 .firstByteMatched b = (.locked, false) := if_pos h

/-- The byte that ends a spurious match may itself start the marker. -/
theorem sdFeed_matched_first (h1 : b ≠ sync1) (h0 : b = sync0) :
    sdFeed sync0 sync1 .firstByteMatched b = (.firstByteMatched, true) := (if_neg h1).trans (if_pos h0)

theorem sdFeed_matched_other (h1 : b ≠ sync1) (h0 : b ≠ sync0) :
    sdFeed sync0 sync1 .firstByteMatched b = (.searching, true) := (if_neg h1).trans (if_neg h0)

/-- The detector locks at SYNC1 in FirstByteMatched only, and stays Locked (90_conflicts.md C11). -/
theorem sdFeed_eq_locked_iff (st : SyncState) :
    (sdFeed sync0 sync1 st b).1 = .locked ↔ st = .locked ∨ (st = .firstByteMatched ∧ b = sync1) := by
  cases st with
  | searching =>
    by_cases h0 : b = sync0
    · rw [sdFeed_searching_first h0]; simp
    · rw [sdFeed_searching_other h0]; simp
  | firstByteMatched =>
    by_cases h1 : b = sync1
    · rw [sdFeed_matched_second h1]; simp [h1]
    · rw [sdFeed_mismatch sync0 h1]; split <;> simp [h1]
  | locked => simp [sdFeed]

/-- Unless it locks, the detector remembers of the bytes fed only whether the last was SYNC0. -/
theorem sdFeed_eq_firstByteMatched_iff {st : SyncState} (h : (sdFeed sync0 sync1 st b).1 ≠ .locked) :
    (sdFeed sync0 sync1 st b).1 = .firstByteMatched ↔ b = sync0 := by
  rw [Ne, sdFeed_eq_locked_iff, not_or] at h
  obtain ⟨unlocked, noMarker⟩ := h
  cases st with
  | searching =>
    by_cases h0 : b = sync0
    · rw [sdFeed_searching_first h0]; simp [h0]
    · rw [sdFeed_searching_other h0]; simp [h0]
  | firstByteMatched =>
    have h1 : b ≠ sync1 := fun h1 => noMarker ⟨rfl, h1⟩
    simp [sdFeed_mismatch sync0 h1]
  | locked => exact absurd rfl unlocked

end

/-! ### The search for the marker -/

theorem sdRun_concat (sync0 sync1 : Byte) (st : SyncState) (l : List Byte) (b : Byte) :
    sdRun sync0 sync1 st (l ++ [b]) = (sdFeed sync0 sync1 (sdRun sync0 sync1 st l) b).1 :=
  List.foldl_concat ..

/-- A marker in a longer list was there before, or the last byte completes it. -/
theorem hasMarker_concat (sync0 sync1 : Byte) (l : List Byte) (b : Byte) :
    hasMarker sync0 sync1 (l ++ [b]) ↔ hasMarker sync0 sync1 l ∨ (l.getLast? = some sync0 ∧ b = sync1) := by
  constructor
  · rintro ⟨u, v, h⟩
    rcases v.eq_nil_or_concat' with rfl | ⟨v, c, rfl⟩
    · obtain ⟨rfl, last⟩ := List.append_inj' (h.trans (List.append_cons u sync0 [sync1])) rfl
      exact .inr ⟨List.getLast?_concat, List.singleton_inj.mp last⟩
    · obtain ⟨rfl, -⟩ := List.append_inj' (h.trans (List.append_assoc u (sync0 :: sync1 :: v) [c]).symm) rfl
      exact .inl ⟨u, v, rfl⟩
  · rintro (⟨u, v, rfl⟩ | ⟨hlast, rfl⟩)
    · exact ⟨u, v ++ [b], by simp⟩
    · obtain ⟨u, rfl⟩ := List.getLast?_eq_some_iff.mp hlast
      exact ⟨u, [], by simp⟩

/-- Until it locks, the detector is in FirstByteMatched exactly after SYNC0. -/
theorem sdRun_eq_firstByteMatched_iff {sync0 sync1 : Byte} {l : List Byte}
    (h : sdRun sync0 sync1 .searching l ≠ .locked) :
    sdRun sync0 sync1 .searching l = .firstByteMatched ↔ l.getLast? = some sync0 := by
  rcases l.eq_nil_or_concat' with rfl | ⟨l, b, rfl⟩
  · simp [sdRun]
  · rw [sdRun_concat] at h ⊢
    rw [sdFeed_eq_firstByteMatched_iff h, List.getLast?_concat, Option.some.injEq]

/-- Locked after one byte more: locked before it, or by it as SYNC1 right after SYNC0. -/
theorem sdRun_concat_eq_locked_iff (sync0 sync1 : Byte) (l : List Byte) (b : Byte) :
    sdRun sync0 sync1 .searching (l ++ [b]) = .locked ↔
      sdRun sync0 sync1 .searching l = .locked ∨ (l.getLast? = some sync0 ∧ b = sync1) := by
  rw [sdRun_concat, sdFeed_eq_locked_iff]
  by_cases h : sdRun sync0 sync1 .searching l = .locked
  · simp [h]
  · simp [h, sdRun_eq_firstByteMatched_iff h]

/-- The detector has locked exactly when the marker has occurred, by induction on the last byte. -/
theorem sdRun_eq_locked_iff (sync0 sync1 : Byte) (l : List Byte) :
    sdRun sync0 sync1 .searching l = .locked ↔ hasMarker sync0 sync1 l := by
  induction l using List.reverseRecOn with
  | nil => simp [sdRun, hasMarker]
  | append_singleton l b ih => rw [sdRun_concat_eq_locked_iff, hasMarker_concat, ih]

/-! ### The receive stream -/

/-- What a receiver makes of the radio bytes read in `evs`, as one stream from its state `s`. -/
def deframed (s : State) (evs : List Event) : Deframed :=
  deframe s.cfg s.rx.sync s.rx.remaining.toNat (radioReads evs)

/-- From `s` to `t` the events `evs` were performed, and the radio bytes read were framed as one stream; with no overrun
recorded, RXB and the sink have its payload in order. -/
structure Deframing (s : State) (evs : List Event) (t : State) : Prop where
  trace : performs s evs t
  cfg : t.cfg = s.cfg
  sticky : s.err.getLsbD 3 = true → t.err.getLsbD 3 = true
  sync : t.rx.sync = (deframed s evs).sync
  remaining : t.rx.remaining.toNat = (deframed s evs).remaining
  frames : t.counters.framesRx = s.counters.framesRx + BitVec.ofNat 32 (deframed s evs).frames
  payload : t.err.getLsbD 3 = false → sinkWrites evs ++ t.rxb.held = s.rxb.held ++ (deframed s evs).payload

/-- Nothing performed, and the receive side left alone. -/
theorem Deframing.of_same {s t : State} (henv : t.env = s.env) (hcfg : t.cfg = s.cfg) (herr : t.err = s.err)
    (hrx : t.rx = s.rx) (hcount : t.counters = s.counters) (hrxb : t.rxb = s.rxb) : Deframing s [] t where
  trace := performs_nil henv
  cfg := hcfg
  sticky h := herr ▸ h
  sync := by rw [hrx]; rfl
  remaining := by rw [hrx]; rfl
  frames := by simp [hcount, deframed, deframe]
  payload _ := by simp [hrxb, deframed, deframe]

/-- The stream goes on from where the first STEPs left it. -/
theorem Deframing.deframed_append {s t : State} {a : List Event} (h : Deframing s a t) (b : List Event) :
    deframed s (a ++ b) = ⟨(deframed s a).payload ++ (deframed t b).payload, (deframed t b).sync,
      (deframed t b).remaining, (deframed s a).frames + (deframed t b).frames⟩ := by
  have resumed : deframed t b = deframe s.cfg (deframed s a).sync (deframed s a).remaining (radioReads b) := by
    rw [deframed, h.cfg, h.sync, h.remaining]
  rw [resumed, deframed, radioReads_append, deframe_append]
  rfl

theorem Deframing.trans {s t u : State} {a b : List Event} (h : Deframing s a t) (k : Deframing t b u) :
    Deframing s (a ++ b) u where
  trace := performs_append h.trace k.trace
  cfg := k.cfg.trans h.cfg
  sticky e := k.sticky (h.sticky e)
  sync := by rw [k.sync, h.deframed_append]
  remaining := by rw [k.remaining, h.deframed_append]
  frames := by rw [k.frames, h.frames, h.deframed_append, BitVec.ofNat_add, BitVec.add_assoc]
  payload clear := by
    have before : t.err.getLsbD 3 = false := Bool.eq_false_iff.mpr fun e => Bool.eq_false_iff.mp clear (k.sticky e)
    calc sinkWrites (a ++ b) ++ u.rxb.held
      _ = sinkWrites a ++ (sinkWrites b ++ u.rxb.held) := by rw [sinkWrites_append, List.append_assoc]
      _ = (sinkWrites a ++ t.rxb.held) ++ (deframed t b).payload := by rw [k.payload clear, List.append_assoc]
      _ = s.rxb.held ++ (deframed s (a ++ b)).payload := by
        rw [h.payload before, h.deframed_append, List.append_assoc]

/-- With no overrun nothing is lost: what was sent and what RXB holds are all that was held and read. -/
theorem RxIterated.lossless {s t : State} {fed reads sent rest : List Byte} {o : Nat} {evs : List Event}
    (it : RxIterated s fed reads sent rest o evs t) (clear : t.err.getLsbD 3 = false) :
    sent ++ rest = s.rxb.held ++ reads := by
  have nothingLost : o = 0 := by
    by_contra h
    exact Bool.eq_false_iff.mp clear (it.flagged h)
  exact it.kept.eq_of_length (by rw [it.lost, nothingLost, Nat.add_zero])

/-- The bytes an iteration reads are a stretch of the stream, up to the end of a frame at most. -/
theorem RxIterated.deframed_eq {s t : State} {fed reads sent rest : List Byte} {o : Nat} {evs : List Event}
    (it : RxIterated s fed reads sent rest o evs t) (hlink : s.cfg.linkTo = 0) (now : Word) :
    deframed s (.timeNow now :: evs) = ⟨reads, t.rx.sync, t.rx.remaining.toNat,
      if payloadDue s fed ≠ 0 ∧ reads.length = payloadDue s fed then 1 else 0⟩ := by
  rw [← it.stream hlink, ← it.read]
  rfl

/-- One iteration, the link timeout disabled. -/
theorem RxIterated.deframing {s t : State} {fed reads sent rest : List Byte} {o : Nat} {evs : List Event}
    (it : RxIterated s fed reads sent rest o evs t) (k : Kept s t) (hlink : s.cfg.linkTo = 0) :
    Deframing s (.timeNow s.env.time :: evs) t where
  trace := it.trace
  cfg := k.cfg
  sticky := getLsbD_of_sticky k.sticky
  sync := by rw [it.deframed_eq hlink]
  remaining := by rw [it.deframed_eq hlink]
  frames := by
    rw [it.deframed_eq hlink, it.count]
    split <;> rfl
  payload clear := by
    rw [it.deframed_eq hlink, it.holds.held, ← it.lossless clear, ← it.wrote]
    rfl

/-- A running receiver stays one, whatever the command. -/
theorem exec_keeps_receiving {i : Instr} {s t : State} (h : receiving s) (e : exec i s = .next t) : receiving t := by
  obtain ⟨inv, hrun, hrole⟩ := h
  have hcfg : t.cfg = s.cfg := (exec_keeps_config e (by rw [hrun]; decide)).2
  exact ⟨exec_keeps_inv inv e, exec_keeps_run e hrun, by rw [hcfg]; exact hrole⟩

/-- Every STEP a running receiver executes. -/
theorem exec_step_deframing {s t : State} (h : receiving s) (hlink : s.cfg.linkTo = 0) (e : exec .step s = .next t) :
    ∃ evs, Deframing s evs t := by
  obtain ⟨inv, hrun, hrole⟩ := h
  rw [exec_step_run hrun, andThen_eq_next] at e
  obtain ⟨u, hu, hresp⟩ := e
  cases hresp
  obtain ⟨_, _, _, _, _, evs, it⟩ := rxIterated_of_next inv hrun hrole hu
  have responded : Deframing u [] (respond .ok 0 u) := .of_same rfl rfl rfl rfl rfl rfl
  exact ⟨_, (it.deframing (schedulerIteration_kept hu) hlink).trans responded⟩

/-- Any number of STEPs of a running receiver completes, by induction over them. -/
theorem execAll_steps_deframing (k : Nat) {s : State} (h : receiving s) (hlink : s.cfg.linkTo = 0) :
    ∃ evs t, execAll (List.replicate k .step) s = .next t ∧ receiving t ∧ Deframing s evs t := by
  induction k generalizing s with
  | zero => exact ⟨[], s, rfl, h, .of_same rfl rfl rfl rfl rfl rfl⟩
  | succ k ih =>
    obtain ⟨u, e⟩ := exec_completes .step h.1
    obtain ⟨a, first⟩ := exec_step_deframing h hlink e
    obtain ⟨b, t, run, ht, others⟩ := ih (exec_keeps_receiving h e) (first.cfg ▸ hlink)
    exact ⟨a ++ b, t, (andThen_eq_next _ _ _).mpr ⟨u, e, run⟩, ht, first.trans others⟩

end Sys2Proof.Machine

section

open Sys2Proof Sys2Proof.Machine Sys2Proof.Claims

/-- Settles O40, by the stream invariant `Deframing` of each STEP, carried over the run. -/
theorem receiveStream : Obligations.ReceiveStream := by
  intro k s h hlink
  obtain ⟨evs, t, run, ht, d⟩ := execAll_steps_deframing k h hlink
  exact ⟨evs, t, run, d.trace, ht, d.sync, d.remaining, d.frames, d.payload⟩

/-- Settles O51: the detector has locked exactly when the marker has occurred, and until then it knows the last byte. -/
theorem locksAtFirstMarker : Obligations.LocksAtFirstMarker := by
  refine fun sync0 sync1 l => ⟨sdRun_eq_firstByteMatched_iff, fun b => ?_⟩
  rw [Ne, sdRun_concat_eq_locked_iff, sdRun_eq_locked_iff]
  tauto

/-- Settles O50, row by row. -/
theorem syncFeedTable : Obligations.SyncFeedTable := fun _ _ _ =>
  ⟨sdFeed_searching_first, sdFeed_searching_other, sdFeed_matched_second, sdFeed_matched_first, sdFeed_matched_other⟩

end
end

section
/-! PROOFS. The RxDeframer against the TxFramer: frame images read from Searching give the frames back, padded to N
(41_syncdetector.md R171; 42_txframer.md R192), and so a transmitter and a receiver of one framing carry the source's
bytes to the sink (43_rxdeframer.md R241). -/

namespace Sys2Proof.Machine

open Sys2Proof.Claims

/-! ### A frame's padding -/

theorem frameImage_eq_padded (c : ConfigRegs) (d : List Byte) : frameImage c d = c.sync0 :: c.sync1 :: padded c d := rfl

theorem length_padded {c : ConfigRegs} {d : List Byte} (h : d.length ≤ c.n.toNat) :
    (padded c d).length = c.n.toNat := by
  rw [padded, List.length_append, List.length_replicate, Nat.add_sub_of_le h]

theorem padded_full {c : ConfigRegs} {d : List Byte} (h : d.length = c.n.toNat) : padded c d = d := by
  simp [padded, h]

theorem flatMap_padded_full {c : ConfigRegs} {frames : List (List Byte)} (h : ∀ d ∈ frames, d.length = c.n.toNat) :
    frames.flatMap (padded c) = frames.flatten := by
  rw [List.flatMap_congr fun d hd => padded_full (h d hd), List.flatMap_id']

/-! ### Deframing frame images -/

/-- The deframer looks at the marker and the payload size of a configuration only. -/
theorem deframe_congr {c c' : ConfigRegs} (hn : c.n = c'.n) (h0 : c.sync0 = c'.sync0) (h1 : c.sync1 = c'.sync1)
    (st : SyncState) (rem : Nat) (l : List Byte) : deframe c st rem l = deframe c' st rem l := by
  induction l generalizing st rem with
  | nil => rfl
  | cons b rest ih => simp only [deframe, ih, hn, h0, h1]

/-- From Searching the marker locks the detector, whatever the two marker bytes, and N payload bytes are due. -/
theorem deframe_marker (c : ConfigRegs) (rem : Nat) (l : List Byte) :
    deframe c .searching rem (c.sync0 :: c.sync1 :: l) = deframe c .locked c.n.toNat l := by
  have first : deframe c .searching rem (c.sync0 :: c.sync1 :: l) =
      deframe c .firstByteMatched rem (c.sync1 :: l) := by
    simp [deframe, sdFeed_searching_first]
  have second : deframe c .firstByteMatched rem (c.sync1 :: l) = deframe c .locked c.n.toNat l := by
    simp [deframe, sdFeed_matched_second]
  exact first.trans second

theorem deframe_frameImage {c : ConfigRegs} {d : List Byte} (hn : 1 ≤ c.n.toNat) (hd : d.length ≤ c.n.toNat)
    (rem : Nat) : deframe c .searching rem (frameImage c d) = ⟨padded c d, .searching, 0, 1⟩ := by
  rw [frameImage_eq_padded, deframe_marker, deframe_locked c _ _ hn (length_padded hd).le, if_pos (length_padded hd)]

/-- Each image ends where the search for the next marker begins, so the images are read one by one, whatever bytes the
payloads hold. -/
theorem deframe_frameImages {c : ConfigRegs} {frames : List (List Byte)} (hn : 1 ≤ c.n.toNat)
    (hd : ∀ d ∈ frames, d.length ≤ c.n.toNat) :
    deframe c .searching 0 (frames.flatMap (frameImage c)) =
      ⟨frames.flatMap (padded c), .searching, 0, frames.length⟩ := by
  induction frames with
  | nil => rfl
  | cons d rest ih =>
    obtain ⟨hhead, htail⟩ := List.forall_mem_cons.mp hd
    rw [List.flatMap_cons, deframe_append, deframe_frameImage hn hhead, ih htail, List.flatMap_cons, List.length_cons,
      Nat.add_comm]

/-! ### Two COREs on one link -/

/-- The events of a run are those its trace gained. -/
theorem performs_unique {s t : State} {a b : List Event} (h : performs s a t) (k : performs s b t) : a = b :=
  List.append_cancel_left (h.symm.trans k)

/-- In TX_IDLE no frame is in progress. -/
theorem inFlight_idle {s : State} (h : s.tx.state = .idle) : inFlight s = [] := if_pos h

/-- An empty buffer holds no byte. -/
theorem held_eq_nil {b : StreamBuffer} (h : b.pending = 0) : b.held = [] := by
  simp [StreamBuffer.held, h, Memory.prefixBytes]

theorem one_le_n_of_running {s : State} (inv : Inv s) (hrun : s.coreState = .run) : 1 ≤ s.cfg.n.toNat :=
  ((configLegal_iff s).mp (inv.legal hrun)).1.1

/-- A Searching receiver has no payload byte left to read. -/
theorem remaining_of_searching {r : State} (h : receiving r) (hs : r.rx.sync = .searching) : r.rx.remaining = 0 := by
  obtain ⟨inv, hrun, hrole⟩ := h
  by_contra payloadLeft
  have locked : r.rx.sync = .locked := (inv.receiver hrun hrole).1.locked.mpr payloadLeft
  exact absurd (hs.symm.trans locked) (by decide)

/-- What a REJECT transmitter's run did, told of its given end and events. -/
theorem transmitted_of_run {cmds : List Instr} {s t : State} {evs : List Event} (h : transmitting s)
    (hpol : s.cfg.policy = .reject) (e : execAll cmds s = .next t) (p : performs s evs t) :
    ∃ frames, Transmitted s evs frames t := by
  obtain ⟨evs', frames, t', e', -, tr⟩ := execAll_transmitted cmds h hpol
  obtain rfl : t' = t := Host.Outcome.next.inj (e'.symm.trans e)
  obtain rfl : evs' = evs := performs_unique tr.trace p
  exact ⟨frames, tr⟩

/-- What a receiver's STEPs did, told of their given end and events. -/
theorem deframing_of_run {k : Nat} {s t : State} {evs : List Event} (h : receiving s) (hlink : s.cfg.linkTo = 0)
    (e : execAll (List.replicate k .step) s = .next t) (p : performs s evs t) : Deframing s evs t := by
  obtain ⟨evs', t', e', -, df⟩ := execAll_steps_deframing k h hlink
  obtain rfl : t' = t := Host.Outcome.next.inj (e'.symm.trans e)
  obtain rfl : evs' = evs := performs_unique df.trace p
  exact df

/-- A transmitter idle and empty at the start and idle at the end wrote whole frame images only, and its frames with
what TXB still holds are the source's bytes. -/
theorem Transmitted.whole {s t : State} {evs : List Event} {frames : List (List Byte)} (tr : Transmitted s evs frames t)
    (hs : s.tx.state = .idle) (hempty : s.txb.pending = 0) (ht : t.tx.state = .idle) :
    radioWrites evs = frames.flatMap (frameImage s.cfg) ∧ frames.flatten ++ t.txb.held = sourceBytes evs := by
  have wire := tr.wire
  have data := tr.data
  rw [inFlight_idle ht, inFlight_idle hs, List.append_nil, List.nil_append] at wire
  rw [held_eq_nil hempty, List.nil_append] at data
  exact ⟨wire, data⟩

/-- A Searching receiver that reads whole frame images of its own framing deframes them to their padded data. -/
theorem deframed_frameImages {r : State} {c : ConfigRegs} {evs : List Event} {frames : List (List Byte)}
    (h : receiving r) (hs : r.rx.sync = .searching) (hn : r.cfg.n = c.n) (h0 : r.cfg.sync0 = c.sync0)
    (h1 : r.cfg.sync1 = c.sync1) (hd : ∀ d ∈ frames, d.length ≤ c.n.toNat)
    (hread : radioReads evs = frames.flatMap (frameImage c)) :
    deframed r evs = ⟨frames.flatMap (padded c), .searching, 0, frames.length⟩ := by
  have size : 1 ≤ c.n.toNat := hn ▸ one_le_n_of_running h.1 h.2.1
  rw [deframed, hs, remaining_of_searching h hs, hread, deframe_congr hn h0 h1]
  exact deframe_frameImages size hd

end Sys2Proof.Machine

section

open Sys2Proof Sys2Proof.Machine Sys2Proof.Claims

/-- Settles O41, by induction over the frames. -/
theorem frameImagesDeframe : Obligations.FrameImagesDeframe := fun _ _ hn hd => deframe_frameImages hn hd

/-- Settles O42: the transmit stream invariant `Transmitted` gives the radio's bytes as frame images, and the receive
stream invariant `Deframing` what a receiver makes of them. -/
theorem endToEnd : Obligations.EndToEnd := by
  intro cmds k a r t u sent got ha hpol hidle htxb hr hlink hsearch hrxb hn h0 h1 runA sentEvs hend runR gotEvs clear
    link
  obtain ⟨frames, tr⟩ := transmitted_of_run ha hpol runA sentEvs
  obtain ⟨wrote, data⟩ := tr.whole hidle htxb hend
  have df : Deframing r got u := deframing_of_run hr hlink runR gotEvs
  have read : deframed r got = ⟨frames.flatMap (padded a.cfg), .searching, 0, frames.length⟩ :=
    deframed_frameImages hr hsearch hn h0 h1 (fun d hd => (tr.chunks d hd).2) (link.trans wrote)
  have sunk : sinkWrites got ++ u.rxb.held = frames.flatMap (padded a.cfg) := by
    rw [df.payload clear, held_eq_nil hrxb, read, List.nil_append]
  refine ⟨frames, data, tr.chunks, sunk, by rw [df.sync, read], by rw [df.frames, read], fun full => ?_⟩
  rw [sunk, flatMap_padded_full full, data]

end
end

section
/-! PROOFS. The modes and the port events of one STEP: the transition graph of the confirmed mode by role, and how many
events of each kind a STEP performs (44_mode_scheduler.md section 1, R273, R287; 43_rxdeframer.md R242). -/

namespace Sys2Proof.Machine

open Sys2Proof.Claims

/-! ### The iteration of a STEP -/

/-- The events of a transmitter's STEP and the state it leaves are those of one scheduler iteration. -/
theorem exec_step_txIterated {s t : State} (h : transmitting s) (e : exec .step s = .next t) :
    ∃ taken frames rest o evs u, TxIterated s taken frames rest o evs u ∧ t.arb = u.arb ∧
      performs s (.timeNow s.env.time :: evs) t := by
  obtain ⟨inv, hrun, hrole⟩ := h
  rw [exec_step_run hrun, andThen_eq_next] at e
  obtain ⟨u, hu, hresp⟩ := e
  cases hresp
  obtain ⟨taken, frames, rest, o, evs, it⟩ := txIterated_of_next inv hrun hrole hu
  exact ⟨taken, frames, rest, o, evs, u, it, rfl, it.trace⟩

/-- The events of a receiver's STEP and the state it leaves are those of one scheduler iteration. -/
theorem exec_step_rxIterated {s t : State} (h : receiving s) (e : exec .step s = .next t) :
    ∃ fed reads sent rest o evs u, RxIterated s fed reads sent rest o evs u ∧ t.arb = u.arb ∧
      performs s (.timeNow s.env.time :: evs) t := by
  obtain ⟨inv, hrun, hrole⟩ := h
  rw [exec_step_run hrun, andThen_eq_next] at e
  obtain ⟨u, hu, hresp⟩ := e
  cases hresp
  obtain ⟨fed, reads, sent, rest, o, evs, it⟩ := rxIterated_of_next inv hrun hrole hu
  exact ⟨fed, reads, sent, rest, o, evs, u, it, rfl, it.trace⟩

/-! ### The confirmed mode, by role -/

/-- A transmitter's confirmed mode is Idle or Tx: in TX_WAIT_MODE because it is Idle until Tx is confirmed. -/
theorem TxRunning.cur_ne_rx {s : State} (run : TxRunning s) (settled : s.arb.pending = false → s.arb.req = s.arb.cur) :
    s.arb.cur ≠ .rx := by
  cases hs : s.tx.state <;> simp only [TxRunning, hs] at run
  case idle =>
    obtain ⟨idle, leaving, -⟩ := run
    cases hp : s.arb.pending with
    | false => simp [idle hp]
    | true => simp [(leaving hp).2]
  case waitMode =>
    obtain ⟨req, waiting, -⟩ := run
    cases hp : s.arb.pending with
    | false => simp [← settled hp, req]
    | true => simp [waiting hp]
  case send | drain =>
    obtain ⟨-, cur, -⟩ := run
    simp [cur]

/-- A receiver's confirmed mode is Idle or Rx: a mode it waits for is confirmed or the one before it is still held. -/
theorem RxModes.cur_ne_tx {s : State} (modes : RxModes s) (settled : s.arb.pending = false → s.arb.req = s.arb.cur) :
    s.arb.cur ≠ .tx := by
  cases hs : s.rx.phase <;> simp only [RxModes, hs] at modes
  case start | active =>
    obtain ⟨-, cur⟩ := modes
    simp [cur]
  case waitMode | cycleIdle =>
    obtain ⟨req, waiting⟩ := modes
    cases hp : s.arb.pending with
    | false => simp [← settled hp, req]
    | true => simp [waiting hp]

/-! ### How many bytes a receiver reads and delivers -/

/-- The payload bytes due in one STEP are those of one frame at most. -/
theorem payloadDue_le {s : State} (atMostN : s.rx.remaining ≤ s.cfg.n) (fed : List Byte) :
    payloadDue s fed ≤ s.cfg.n.toNat := by
  unfold payloadDue
  split
  · exact BitVec.le_def.mp atMostN
  · split
    · exact Nat.le_refl _
    · exact Nat.zero_le _

section
variable {s t : State} {fed reads sent rest : List Byte} {o : Nat} {evs : List Event}

theorem RxIterated.payload_le (it : RxIterated s fed reads sent rest o evs t) (h : receiving s) :
    reads.length ≤ s.cfg.n.toNat :=
  it.due.trans (payloadDue_le (h.1.receiver h.2.1 h.2.2).1.atMostN fed)

/-- What reaches the sink was held at the STEP's start or read in it, so no more than that does. -/
theorem RxIterated.delivered_le (it : RxIterated s fed reads sent rest o evs t) (inv : Inv s) :
    sent.length ≤ s.rxb.pending.toNat + reads.length := by
  have held : s.rxb.held.length = s.rxb.pending.toNat := (Holds.of_slide inv.rxbWf inv.rxbSlide).length
  have balance := it.lost
  simp only [List.length_append] at balance
  omega

end

end Sys2Proof.Machine

section

open Sys2Proof Sys2Proof.Machine Sys2Proof.Claims

/-- Settles O37: what a role's iteration sets the radio to, and the mode its running state allows. -/
theorem modeGraph : Obligations.ModeGraph := by
  intro s t inv hrun e
  cases hrole : s.cfg.role with
  | tx =>
    obtain ⟨_, _, _, _, evs, u, it, harb, p⟩ := exec_step_txIterated ⟨inv, hrun, hrole⟩ e
    refine ⟨_, p, fun _ => ⟨?_, by simpa using it.neverRx⟩, nofun, nofun⟩
    rw [harb]; exact it.running.cur_ne_rx it.settled
  | rx =>
    obtain ⟨_, _, _, _, _, evs, u, it, harb, p⟩ := exec_step_rxIterated ⟨inv, hrun, hrole⟩ e
    refine ⟨_, p, nofun, fun _ => ⟨?_, by simpa using it.neverTx⟩, fun _ hcycle => ?_⟩
    · rw [harb]; exact it.running.modes.cur_ne_tx it.settled
    · rw [harb]; simpa using it.staysInRx hcycle

/-- Settles O38: the bounds of a role's iteration, those on a receiver's reads and deliveries from the payload of one
frame. -/
theorem eventBounds : Obligations.EventBounds := by
  intro s t inv hrun e
  cases hrole : s.cfg.role with
  | tx =>
    obtain ⟨taken, _, _, _, evs, u, it, -, p⟩ := exec_step_txIterated ⟨inv, hrun, hrole⟩ e
    have budget : (sourceBytes evs).length ≤ s.cfg.capTxBytes.toNat := by rw [it.source]; exact it.budget
    have valids : (validsAsked evs).length = (sourceBytes evs).length + 1 := by rw [it.source]; exact it.valids
    refine ⟨_, p, by simpa using it.polls, by simpa using it.modes, fun _ => ?_, nofun⟩
    simp only [sourceBytes_cons, validsAsked_cons, radioWrites_cons, fullsAsked_cons, txDonesAsked_cons, List.nil_append]
    exact ⟨budget, valids, by omega, it.writes, it.fulls, it.dones⟩
  | rx =>
    have run : receiving s := ⟨inv, hrun, hrole⟩
    obtain ⟨fed, reads, sent, _, _, evs, u, it, -, p⟩ := exec_step_rxIterated run e
    have one : fed.length ≤ 1 := it.one
    have payload : reads.length ≤ s.cfg.n.toNat := it.payload_le run
    have delivered : sent.length ≤ s.rxb.pending.toNat + reads.length := it.delivered_le inv
    have queries : (notEmptiesAsked evs).length ≤ s.cfg.n.toNat + 1 := it.queries
    refine ⟨_, p, by simpa using it.polls, by simpa using it.modes, nofun, fun _ => ?_⟩
    simp only [radioReads_cons, notEmptiesAsked_cons, sinkWrites_cons, List.nil_append, it.read, it.wrote,
      List.length_append]
    omega

end
end

section
/-! PROOFS. The host commands (45_host_commands.md): what each CSR access reads and writes, the wrong-state commands, the
three outcomes of BEGIN, which configurations are legal, the life in FAILED, and the completion of STEP. -/

namespace Sys2Proof.Machine

open Sys2Proof.Claims

/-! ### What one iteration counts -/

/-- A transmitter's iteration counts frames sent, overruns of TXB and hardware timeouts only (10_state.md R46). -/
theorem TxIterated.counters_frame {s t : State} {taken rest : List Byte} {frames : List (List Byte)} {o : Nat}
    {evs : List Event} (it : TxIterated s taken frames rest o evs t) :
    t.counters = { s.counters with
      framesTx := t.counters.framesTx, ovrTx := t.counters.ovrTx, hwTo := t.counters.hwTo } := by
  have frame := congrArg State.counters it.frame
  have ovr : t.counters.ovrTx = s.counters.ovrTx + BitVec.ofNat 32 o := congrArg Counters.ovrTx frame
  rw [ovr]
  exact frame

/-- A receiver's iteration counts frames received, overruns of RXB, link timeouts, lost markers and hardware timeouts
only (10_state.md R46). -/
theorem RxIterated.counters_frame {s t : State} {fed reads sent rest : List Byte} {o : Nat} {evs : List Event}
    (it : RxIterated s fed reads sent rest o evs t) :
    t.counters = { s.counters with
      framesRx := t.counters.framesRx, ovrRx := t.counters.ovrRx, linkTo := t.counters.linkTo,
      syncLoss := t.counters.syncLoss, hwTo := t.counters.hwTo } := by
  have frame := congrArg State.counters it.frame
  have ovr : t.counters.ovrRx = s.counters.ovrRx + BitVec.ofNat 32 o := congrArg Counters.ovrRx frame
  rw [ovr]
  exact frame

/-! ### Wrong-state commands -/

/-- A command not permitted in the present `core_state` is a wrong-state command (45_host_commands.md R302). -/
theorem exec_wrongState {i : Instr} {s : State} (h : permitted i s.coreState = false) :
    exec i s = .next (answered .err 0 s) := by
  cases i with
  | nop => cases h
  | begin => exact if_neg (by simp [h])
  | step => exact if_neg (by simp [h])
  | csrRead a => cases h
  | csrWrite a v => cases h
  | rxCancel => exact if_neg (by simp [h])

/-- A command answered OK is no wrong-state command: the two responses differ. -/
theorem exec_ne_wrongState_of_ok {i : Instr} {s u : State} {d : Word} (e : exec i s = .next (respond .ok d u))
    (h : u.host = s.host) : exec i s ≠ .next (answered .err 0 s) := by
  intro refused
  rw [e] at refused
  have responses := congrArg (fun t => t.host.responses) (Host.Outcome.next.inj refused)
  simp [answered, h] at responses

/-- STEP in RUN never answers as a wrong-state command: if it completes, it answers OK. -/
theorem exec_step_run_ne_wrongState {s : State} (hrun : s.coreState = .run) :
    exec .step s ≠ .next (answered .err 0 s) := by
  intro e
  have iterated := e
  rw [exec_step_run hrun, andThen_eq_next] at iterated
  obtain ⟨u, hu, answer⟩ := iterated
  exact exec_ne_wrongState_of_ok (e.trans answer.symm) (schedulerIteration_kept hu).host e

/-- BEGIN leaves UNINIT, even where it fails (45_host_commands.md R306). -/
theorem exec_begin_leaves_uninit {s t : State} (e : exec .begin s = .next t) : t.coreState ≠ .uninit := by
  rcases execBegin_next e with ⟨-, b⟩ | ⟨h, rfl⟩
  · rcases b.core with h | h <;> simp [h]
  · exact h

/-! ### CSR accesses of an assigned address -/

theorem and_fullMask (v : Word) : v &&& 0xFFFFFFFF = v := BitVec.and_allOnes

/-- CSR_READ of an assigned address (45_host_commands.md R316). -/
theorem exec_csrRead_addr (c : Csr) (s : State) :
    exec (.csrRead c.addr) s = .next (answered .ok (readCsr s c) s) := by
  show execCsrRead c.addr s = _
  rw [execCsrRead, if_pos (show permitted (.csrRead c.addr) s.coreState = true from rfl), c.ofAddr_addr]
  rfl

/-- CSR_WRITE of a configuration register in UNINIT (45_host_commands.md R321). -/
theorem exec_csrWrite_config {c : Csr} (hc : c.isConfig = true) {s : State} (hs : s.coreState = .uninit) (v : Word) :
    exec (.csrWrite c.addr v) s = .next (answered .ok 0 (s.setCfg (s.cfg.write c v))) := by
  show execCsrWrite c.addr v s = _
  simp only [execCsrWrite, permitted, c.ofAddr_addr, hc, hs, if_true]
  rfl

/-- A read-only CSR is neither a configuration register nor ERR (10_state.md R39). -/
theorem Csr.not_writable_of_readOnly {c : Csr} (h : readOnly c.addr = true) : c.isConfig = false ∧ c ≠ .err := by
  revert h
  cases c <;> decide

/-- CSR_WRITE of a read-only address fails (45_host_commands.md R322). -/
theorem exec_csrWrite_readOnly {a : CsrAddr} (ha : readOnly a = true) (v : Word) (s : State) :
    csrFails (.csrWrite a v) s := by
  cases hc : Csr.ofAddr a with
  | none => exact exec_csrWrite_unassigned ((Csr.ofAddr_unassigned a).mpr hc) v s
  | some c =>
    obtain ⟨hconfig, herr⟩ := Csr.not_writable_of_readOnly (Csr.ofAddr_some hc ▸ ha)
    rw [csrFails, ← csrFailure_eq]
    show execCsrWrite a v s = csrFailure s
    simp [execCsrWrite, permitted, hc, hconfig, herr]

/-! ### STATUS -/

theorem CoreState.toNat_bits (c : CoreState) : c.bits.toNat = coreCode c := by cases c <;> rfl
theorem RadioMode.toNat_bits (m : RadioMode) : m.bits.toNat = modeCode m := by cases m <;> rfl
theorem TxState.toNat_bits (x : TxState) : x.bits.toNat = txCode x := by cases x <;> rfl
theorem RxPhase.toNat_bits (p : RxPhase) : p.bits.toNat = rxCode p := by cases p <;> rfl
theorem SyncState.toNat_bits (x : SyncState) : x.bits.toNat = syncCode x := by cases x <;> rfl

/-- A word of two parts as a number. -/
theorem toNat_append_eq_add {m n : Nat} (x : BitVec m) (y : BitVec n) :
    (x ++ y).toNat = x.toNat * 2 ^ n + y.toNat := by
  rw [BitVec.toNat_append, ← Nat.shiftLeft_add_eq_or_of_lt y.isLt, Nat.shiftLeft_eq]

/-- STATUS as a number is the sum of its fields at their places (10_state.md R40). -/
theorem toNat_statusWord (s : State) : (statusWord s).toNat = statusNumber s := by
  simp only [statusWord, statusNumber, toNat_append_eq_add, CoreState.toNat_bits, RadioMode.toNat_bits,
    TxState.toNat_bits, RxPhase.toNat_bits, SyncState.toNat_bits, BitVec.toNat_ofBool, BitVec.toNat_ofNat]
  omega

/-! ### The tables of addresses -/

theorem Csr.mem_all (c : Csr) : c ∈ Csr.all := by cases c <;> decide

/-- The table of 10_state.md R39 lists for each CSR its address and what it reads as. -/
theorem csrTable_eq (s : State) : csrTable s = Csr.all.map fun c => (c.addr, readCsr s c) := by
  have status : BitVec.ofNat 32 (statusNumber s) = statusWord s := by
    rw [← toNat_statusWord, BitVec.ofNat_toNat, BitVec.setWidth_eq]
  simp only [csrTable, status, BitVec.ofNat_toNat]
  simp only [Csr.all, List.map, Csr.addr, readCsr, Csr.wmask, and_fullMask, errWord]

theorem mem_csrTable_iff (s : State) (a : CsrAddr) (v : Word) :
    (a, v) ∈ csrTable s ↔ ∃ c : Csr, c.addr = a ∧ readCsr s c = v := by
  simp [csrTable_eq, Csr.mem_all]

/-- The table of masks lists for each configuration register its address and its writable bits
(45_host_commands.md R321). -/
theorem mem_maskTable {a : CsrAddr} {m : Word} (h : (a, m) ∈ maskTable) :
    ∃ c : Csr, c.isConfig = true ∧ c.addr = a ∧ c.wmask = m := by
  have table : maskTable = (Csr.all.filter Csr.isConfig).map fun c => (c.addr, c.wmask) := by decide
  rw [table, List.mem_map] at h
  obtain ⟨c, hc, heq⟩ := h
  exact ⟨c, (List.mem_filter.mp hc).2, congrArg Prod.fst heq, congrArg Prod.snd heq⟩

theorem Csr.addr_inj {c d : Csr} : c.addr = d.addr ↔ c = d := by
  refine ⟨fun h => ?_, congrArg Csr.addr⟩
  have same := c.ofAddr_addr
  rw [h, d.ofAddr_addr] at same
  exact (Option.some.inj same).symm

/-! ### Reading back a configuration register -/

section
variable (r : ConfigRegs) (c : Csr) (v : Word)

@[simp] theorem ConfigRegs.write_frameSize :
    (r.write c v).frameSize = if c = .cfgFrameSize then v &&& Csr.wmask .cfgFrameSize else r.frameSize := by
  cases c <;> rfl
@[simp] theorem ConfigRegs.write_sync :
    (r.write c v).sync = if c = .cfgSync then v &&& Csr.wmask .cfgSync else r.sync := by cases c <;> rfl
@[simp] theorem ConfigRegs.write_flushTo :
    (r.write c v).flushTo = if c = .cfgFlushTo then v &&& Csr.wmask .cfgFlushTo else r.flushTo := by cases c <;> rfl
@[simp] theorem ConfigRegs.write_linkTo :
    (r.write c v).linkTo = if c = .cfgLinkTo then v &&& Csr.wmask .cfgLinkTo else r.linkTo := by cases c <;> rfl
@[simp] theorem ConfigRegs.write_hwWaitTo :
    (r.write c v).hwWaitTo = if c = .cfgHwWaitTo then v &&& Csr.wmask .cfgHwWaitTo else r.hwWaitTo := by
  cases c <;> rfl
@[simp] theorem ConfigRegs.write_capTx :
    (r.write c v).capTx = if c = .cfgCapTx then v &&& Csr.wmask .cfgCapTx else r.capTx := by cases c <;> rfl
@[simp] theorem ConfigRegs.write_capRx :
    (r.write c v).capRx = if c = .cfgCapRx then v &&& Csr.wmask .cfgCapRx else r.capRx := by cases c <;> rfl
@[simp] theorem ConfigRegs.write_ctrl :
    (r.write c v).ctrl = if c = .cfgCtrl then v &&& Csr.wmask .cfgCtrl else r.ctrl := by cases c <;> rfl

end

/-- A configuration register reads back the bits written (45_host_commands.md R316, R321). -/
theorem readCsr_write_same {c : Csr} (hc : c.isConfig = true) (s : State) (v : Word) :
    readCsr (s.setCfg (s.cfg.write c v)) c = v &&& c.wmask := by
  revert hc
  cases c <;> simp [Csr.isConfig, Csr.addr, readCsr, BitVec.and_assoc]

/-- A write to a configuration register changes what no other CSR reads as. -/
theorem readCsr_write_other {c d : Csr} (h : c ≠ d) (s : State) (v : Word) :
    readCsr (s.setCfg (s.cfg.write c v)) d = readCsr s d := by
  cases d <;> simp [readCsr, statusWord, h]

/-! ### The address ranges of the failing accesses -/

/-- The unassigned addresses by their ranges (10_state.md R39). -/
theorem unassigned_of_range {a : CsrAddr}
    (h : (0x08 ≤ a.toNat ∧ a.toNat ≤ 0x0F) ∨ a.toNat = 0x16 ∨ a.toNat = 0x17 ∨ (0x1F ≤ a.toNat ∧ a.toNat ≤ 0xFF)) :
    unassigned a = true :=
  decide_eq_true (by omega)

/-! ### A legal configuration, from the registers' bits -/

section
variable (c : ConfigRegs)

theorem ConfigRegs.toNat_n : c.n.toNat = c.frameSize.toNat % 2 ^ 24 := by simp [ConfigRegs.n]

theorem ConfigRegs.toNat_capTxBytes : c.capTxBytes.toNat = c.capTx.toNat % 2 ^ 24 := by simp [ConfigRegs.capTxBytes]

theorem ConfigRegs.toNat_capRxBytes : c.capRxBytes.toNat = c.capRx.toNat % 2 ^ 24 := by simp [ConfigRegs.capRxBytes]

/-- ROLE = RX is bit 0 of CFG_CTRL set (10_state.md R37). -/
theorem ConfigRegs.role_eq_rx_iff : c.role = .rx ↔ c.ctrl.toNat % 2 = 1 := by
  simp [ConfigRegs.role, BitVec.getLsbD, Nat.testBit_zero]

/-- ROLE = TX is bit 0 of CFG_CTRL clear (10_state.md R37). -/
theorem ConfigRegs.role_eq_tx_iff : c.role = .tx ↔ c.ctrl.toNat % 2 = 0 := by
  have other : c.role = .tx ↔ ¬ c.role = .rx := by cases c.role <;> simp
  rw [other, c.role_eq_rx_iff]
  omega

/-- POLICY is bits 2:1 of CFG_CTRL (10_state.md R37). -/
theorem ConfigRegs.policy_eq_reserved_iff : c.policy = .reserved ↔ c.ctrl.toNat / 2 % 4 = 3 := by
  have field : (c.ctrl.extractLsb' 1 2).toNat = c.ctrl.toNat / 2 % 4 := by
    simp [BitVec.extractLsb'_toNat, Nat.shiftRight_eq_div_pow]
  rw [ConfigRegs.policy, ← field]
  generalize c.ctrl.extractLsb' 1 2 = p
  revert p
  decide

end

/-! ### BEGIN in UNINIT -/

@[simp] theorem record_afterFlag (e : Environment) (ev : Event) : (e.record ev).afterFlag = e.afterFlag.record ev := by
  cases h : e.flags <;> simp [Environment.afterFlag, Environment.record, h]

/-- Asking the time, written out (10_state.md R66). -/
theorem askNow_snd (s : State) :
    (askNow s).2 = { s with env := { s.env.afterTime with trace := s.env.trace ++ [.timeNow s.env.time] } } := by
  rw [← afterTime_trace s.env]
  rfl

/-- Asking the time and then the radio to begin, written out. -/
theorem askRadioBegin_askNow_snd (s : State) :
    (askRadioBegin (askNow s).2).2 = { s with env := { s.env.afterTime.afterFlag with
      trace := s.env.trace ++ [.timeNow s.env.time, .radioBegin s.env.afterTime.flag] } } := by
  show s.setEnv ((s.env.afterTime.record (.timeNow s.env.time)).afterFlag.record
    (.radioBegin s.env.afterTime.flag)) = _
  rw [record_afterFlag]
  simp [State.setEnv, Environment.record]

section
variable {s : State}

/-- BEGIN with an illegal configuration (45_host_commands.md R306). -/
theorem exec_begin_badConfig (hs : s.coreState = .uninit) (illegal : configLegal s = false) :
    exec .begin s = .next (beginFailed .badConfig (askNow s).2) := by
  have asked : configLegal (askNow s).2 = false := illegal
  show execBegin s = _
  simp [execBegin, permitted, hs, asked]

/-- BEGIN with a legal configuration that the radio refuses (45_host_commands.md R306). -/
theorem exec_begin_refused (hs : s.coreState = .uninit) (legal : configLegal s = true)
    (answer : s.env.afterTime.flag = false) :
    exec .begin s = .next (beginFailed .beginFail (askRadioBegin (askNow s).2).2) := by
  have asked : configLegal (askNow s).2 = true := legal
  have begun : (askRadioBegin (askNow s).2).1 = false := answer
  show execBegin s = _
  simp [execBegin, permitted, hs, asked, begun]

/-- BEGIN with a legal configuration that the radio accepts (45_host_commands.md R306). -/
theorem exec_begin_started (hs : s.coreState = .uninit) (legal : configLegal s = true)
    (answer : s.env.afterTime.flag = true) :
    exec .begin s =
      .next (respond .ok 0 (((askRadioBegin (askNow s).2).2.setTLink s.env.time).setCoreState .run)) := by
  have asked : configLegal (askNow s).2 = true := legal
  have begun : (askRadioBegin (askNow s).2).1 = true := answer
  show execBegin s = _
  simp [execBegin, permitted, hs, asked, begun]

end

/-! ### How often the radio is asked to begin -/

/-- From `s` to `t` the radio is asked to begin only where UNINIT is left, and then once. -/
def BeginsOnLeaving (s t : State) : Prop :=
  (s.coreState ≠ .uninit → t.coreState ≠ .uninit) ∧
  ∃ evs, performs s evs t ∧
    (beginsAsked evs = [] ∨ (s.coreState = .uninit ∧ t.coreState ≠ .uninit ∧ (beginsAsked evs).length = 1))

theorem BeginsOnLeaving.refl (s : State) : BeginsOnLeaving s s := ⟨id, [], performs_nil rfl, .inl rfl⟩

/-- UNINIT is left at most once, so only one of two parts can ask. -/
theorem BeginsOnLeaving.trans {s t u : State} (h : BeginsOnLeaving s t) (k : BeginsOnLeaving t u) :
    BeginsOnLeaving s u := by
  obtain ⟨leftS, a, pa, ha⟩ := h
  obtain ⟨leftT, b, pb, hb⟩ := k
  refine ⟨leftT ∘ leftS, a ++ b, performs_append pa pb, ?_⟩
  rw [beginsAsked_append]
  rcases ha with ha | ⟨hs, ht, ha⟩ <;> rcases hb with hb | ⟨ht', hu, hb⟩
  · exact .inl (by rw [ha, hb]; rfl)
  · exact .inr ⟨not_not.mp fun hs => leftS hs ht', hu, by rw [ha]; exact hb⟩
  · exact .inr ⟨hs, leftT ht, by rw [hb, List.append_nil]; exact ha⟩
  · exact absurd ht' ht

/-- The phases of an iteration do not ask the radio to begin. -/
theorem beginsAsked_of_role {r : Role} {evs : List Event} (h : evs.all (ofRole r) = true) : beginsAsked evs = [] :=
  filterMap_eq_nil_of_all h fun e => by cases e <;> simp [ofRole]

theorem exec_beginsOnLeaving {i : Instr} {s t : State} (e : exec i s = .next t) : BeginsOnLeaving s t := by
  refine ⟨fun hs => (exec_keeps_config e hs).1, ?_⟩
  rcases exec_events e with ⟨-, -, evs, p, hrole⟩ | ⟨rfl, hs, evs, p, hevs⟩ | ⟨-, -, p⟩
  · exact ⟨_, p, .inl (by simpa using beginsAsked_of_role hrole)⟩
  · refine ⟨_, p, ?_⟩
    rcases hevs with rfl | ⟨b, rfl⟩
    · exact .inl rfl
    · exact .inr ⟨hs, exec_begin_leaves_uninit e, rfl⟩
  · exact ⟨[], p, .inl rfl⟩

/-! ### Commands in FAILED -/

/-- Outside RUN every command completes, whatever the state. -/
theorem exec_completes_of_not_run (i : Instr) {s : State} (hs : s.coreState ≠ .run) : ∃ t, exec i s = .next t := by
  cases i with
  | nop => exact ⟨respond .ok 0 s, rfl⟩
  | begin => exact execBegin_completes s
  | step => exact ⟨_, exec_wrongState (by simp [permitted, hs])⟩
  | csrRead a => exact execCsrRead_completes a s
  | csrWrite a v => exact execCsrWrite_completes a v s
  | rxCancel => exact execRxCancel_completes s

/-- What commands executed in FAILED leave in `t`, `rs` the responses: nothing but the responses and the clearable bits
of ERR is changed, and the commands not permitted there are refused (45_host_commands.md R302, 60_exceptions.md R367). -/
structure RunInFailed (cmds : List Instr) (s : State) (rs : List Response) (t : State) : Prop where
  frame : t = { s with err := t.err, host := { s.host with responses := s.host.responses ++ rs } }
  fatal : t.err.extractLsb' 0 2 = s.err.extractLsb' 0 2
  count : rs.length = cmds.length
  refused : ∀ p ∈ cmds.zip rs, permitted p.1 .failed = false → p.2 = ⟨.err, 0⟩

theorem RunInFailed.nil (s : State) : RunInFailed [] s [] s := ⟨by simp, rfl, rfl, nofun⟩

theorem RunInFailed.coreState_same {cmds : List Instr} {s t : State} {rs : List Response}
    (r : RunInFailed cmds s rs t) : t.coreState = s.coreState := by rw [r.frame]

theorem RunInFailed.cons {i : Instr} {cmds : List Instr} {s t u : State} {r rs : List Response}
    (h : RunInFailed [i] s r t) (k : RunInFailed cmds t rs u) : RunInFailed (i :: cmds) s (r ++ rs) u where
  frame := by
    have frame := k.frame
    rw [h.frame] at frame
    simpa using frame
  fatal := k.fatal.trans h.fatal
  count := by simp [h.count, k.count, Nat.add_comm]
  refused p hp := by
    rw [← List.singleton_append, List.zip_append h.count.symm, List.mem_append] at hp
    exact hp.elim (h.refused p) (k.refused p)

/-- One command in FAILED: refused, or quietly done with the configuration and the detector left alone. -/
theorem exec_in_failed (i : Instr) {s : State} (hs : s.coreState = .failed) :
    ∃ r t, exec i s = .next t ∧ RunInFailed [i] s [r] t := by
  cases hp : permitted i s.coreState with
  | false => exact ⟨_, _, exec_wrongState hp, rfl, rfl, rfl, by simp⟩
  | true =>
    obtain ⟨t, e⟩ := exec_completes_of_not_run i (s := s) (by rw [hs]; decide)
    rcases exec_cases e with ⟨-, h, -⟩ | ⟨-, h, -⟩ | ⟨-, -, st, d, q⟩
    · rw [hs] at h; cases h
    · rw [hs] at h; cases h
    · have cfg : t.cfg = s.cfg := q.cfg.resolve_right fun h => by rw [hs] at h; cases h.1
      have rx : t.rx = s.rx := q.rx.resolve_right fun h => by rw [hs] at h; cases h.2
      have frame := q.frame
      rw [cfg, rx] at frame
      exact ⟨⟨st, d⟩, t, e, frame, q.fatal, rfl, by simp [← hs, hp]⟩

theorem execAll_in_failed (cmds : List Instr) {s : State} (hs : s.coreState = .failed) :
    ∃ rs t, execAll cmds s = .next t ∧ RunInFailed cmds s rs t := by
  induction cmds generalizing s with
  | nil => exact ⟨[], s, rfl, .nil s⟩
  | cons i rest ih =>
    obtain ⟨r, t, e, one⟩ := exec_in_failed i hs
    obtain ⟨rs, u, es, more⟩ := ih (one.coreState_same.trans hs)
    exact ⟨[r] ++ rs, u, (andThen_eq_next _ _ _).mpr ⟨t, e, es⟩, one.cons more⟩

end Sys2Proof.Machine

section

open Sys2Proof Sys2Proof.Machine Sys2Proof.Claims

/-- Settles O30: an iteration completes from the invariant, and what it leaves alone by role. -/
theorem stepCompletes : Obligations.StepCompletes := by
  intro s inv hrun
  obtain ⟨u, hu⟩ := schedulerIteration_completes inv hrun
  obtain ⟨-, evs, htrace, -, -⟩ := schedulerIteration_emits hu
  have kept := schedulerIteration_kept hu
  refine ⟨evs, respond .ok 0 u, by rw [exec_step_run hrun, hu]; rfl, by simp [performs, htrace],
    by rw [respond_host, kept.host], kept.coreState.trans hrun, kept.cfg, kept.params, kept.sticky,
    fun hrole => ?_, fun hrole => ?_⟩
  · have own := schedulerIteration_txOwn hrole hu
    obtain ⟨_, _, _, _, _, it⟩ := txIterated_of_next inv hrun hrole hu
    exact ⟨own.rxb, own.rx, own.err, it.counters_frame⟩
  · have own := schedulerIteration_rxOwn hrole hu
    obtain ⟨_, _, _, _, _, _, it⟩ := rxIterated_of_next inv hrun hrole hu
    exact ⟨own.txb, own.tx, own.err, it.counters_frame⟩

/-- Settles O12: the branches of BEGIN, each with its queries written out. -/
theorem beginOutcomes : Obligations.BeginOutcomes := by
  intro s hs
  refine ⟨fun illegal => ?_, fun legal answer => ?_, fun legal answer => ?_⟩
  · rw [exec_begin_badConfig hs illegal, askNow_snd]
    rfl
  · rw [exec_begin_refused hs legal answer, askRadioBegin_askNow_snd, answer]
    rfl
  · rw [exec_begin_started hs legal answer, askRadioBegin_askNow_snd, answer]
    rfl

/-- Settles O13: the checks as numbers, and each field as bits of its register. -/
theorem configLegalRule : Obligations.ConfigLegalRule := by
  intro s
  rw [configLegal_iff, ne_eq, s.cfg.policy_eq_reserved_iff, s.cfg.role_eq_tx_iff, s.cfg.role_eq_rx_iff,
    s.cfg.toNat_n, s.cfg.toNat_capTxBytes, s.cfg.toNat_capRxBytes]

/-- Settles O15, by induction over the commands: the radio is asked to begin only by a BEGIN that leaves UNINIT, which
no command enters. -/
theorem beginAskedAtMostOnce : Obligations.BeginAskedAtMostOnce := by
  intro cmds s t e
  obtain ⟨-, evs, p, h⟩ := execAll_rel (R := BeginsOnLeaving) BeginsOnLeaving.refl (fun _ _ _ => BeginsOnLeaving.trans)
    (fun _ _ _ => exec_beginsOnLeaving) cmds e
  rcases h with h | ⟨hs, -, h⟩
  · exact ⟨evs, p, by simp [h], fun _ => h⟩
  · exact ⟨evs, p, h.le, fun hne => absurd hs hne⟩

/-- Settles O16: the table lists what CSR_READ answers, and the word is the command's encoding. -/
theorem csrReadValues : Obligations.CsrReadValues := by
  intro s a v h
  obtain ⟨c, rfl, rfl⟩ := (mem_csrTable_iff s a v).mp h
  exact ⟨exec_csrRead_addr c s, decode_encode (.csrRead c.addr)⟩

/-- Settles O18: each configuration register by its write, and ERR bit by bit. -/
theorem csrWriteEffects : Obligations.CsrWriteEffects := by
  intro s v
  refine ⟨fun hs => ?_, ⟨_, exec_csrWrite_err s v, errAfterWrite_bit s.err v⟩, fun a => decode_encode (.csrWrite a v)⟩
  have stored : ∀ (c : Csr) (r : ConfigRegs), c.isConfig = true → s.cfg.write c v = r →
      exec (.csrWrite c.addr v) s = .next (answered .ok 0 (s.setCfg r)) :=
    fun c r hc h => h ▸ exec_csrWrite_config hc hs v
  exact ⟨stored .cfgFrameSize _ rfl rfl, stored .cfgSync _ rfl rfl,
    stored .cfgFlushTo _ rfl (by rw [ConfigRegs.write, Csr.wmask, and_fullMask]),
    stored .cfgLinkTo _ rfl (by rw [ConfigRegs.write, Csr.wmask, and_fullMask]),
    stored .cfgHwWaitTo _ rfl (by rw [ConfigRegs.write, Csr.wmask, and_fullMask]),
    stored .cfgCapTx _ rfl rfl, stored .cfgCapRx _ rfl rfl, stored .cfgCtrl _ rfl rfl⟩

/-- Settles O19: a locked register, a read-only address, an unassigned one. -/
theorem csrWriteFailures : Obligations.CsrWriteFailures := by
  intro s a v h
  rcases h with ⟨ha, hs⟩ | ha | ha
  · exact exec_csrWrite_locked v ha hs
  · exact exec_csrWrite_readOnly (decide_eq_true ha) v s
  · exact exec_csrWrite_unassigned (unassigned_of_range ha) v s

/-- Settles O20: the write goes to one register under its mask, and reads of the others do not see it. -/
theorem configReadBack : Obligations.ConfigReadBack := by
  intro s a b v m old hs hmask hold hb
  obtain ⟨c, hc, rfl, rfl⟩ := mem_maskTable hmask
  obtain ⟨d, rfl, rfl⟩ := (mem_csrTable_iff s b old).mp hold
  refine ⟨_, exec_csrWrite_config hc hs v, (exec_csrRead_addr d _).trans ?_⟩
  have value : readCsr (s.setCfg (s.cfg.write c v)) d = if d.addr = c.addr then v &&& c.wmask else readCsr s d := by
    by_cases h : c = d
    · subst h
      rw [if_pos rfl, readCsr_write_same hc]
    · rw [if_neg fun same => h (Csr.addr_inj.mp same).symm, readCsr_write_other h]
  rw [← value]
  rfl

/-- Settles O23, by induction over the commands executed in FAILED. -/
theorem failedUntilReset : Obligations.FailedUntilReset := by
  intro cmds s hs
  obtain ⟨rs, t, e, run⟩ := execAll_in_failed cmds hs
  have host : t.host = { s.host with responses := s.host.responses ++ rs } := congrArg State.host run.frame
  refine ⟨t, e, by rw [host]; exact run.frame, run.fatal, rs, host, run.count, fun p hp hcmd => run.refused p hp ?_⟩
  rcases hcmd with h | h | h <;> rw [h] <;> rfl

/-- Settles O28, by what each command can do. -/
theorem oneResponse : Obligations.OneResponse := by
  intro i s t e
  rcases exec_cases e with ⟨rfl, -, u, hu, rfl⟩ | ⟨rfl, -, b⟩ | ⟨-, -, st, d, q⟩
  · exact ⟨.ok, 0, by rw [respond_host, (schedulerIteration_kept hu).host], .inr ⟨.inl nofun, rfl⟩⟩
  · obtain ⟨st, host⟩ := b.host
    exact ⟨st, 0, host, .inr ⟨.inl nofun, rfl⟩⟩
  · refine ⟨st, d, congrArg State.host q.frame, q.data.imp_left ?_⟩
    rintro ⟨c, rfl, rfl, rfl⟩
    exact ⟨c.addr, rfl, rfl, (mem_csrTable_iff s _ _).mpr ⟨c, rfl, rfl⟩⟩

/-- Settles O11: NOP evaluated, and the fields of a word with OP = 0 that is not the zero word. -/
theorem nopCompletes : Obligations.NopCompletes := by
  refine ⟨fun s => rfl, decode_encode .nop, fun w hop hw => (isIllegal_iff_numbers w).mpr ?_⟩
  have nonzero : w.toNat ≠ 0 := fun h => hw (BitVec.eq_of_toNat_eq h)
  simp only [opOf, rsvOf, selOf, dataOf] at hop ⊢
  omega

/-- Settles O14: the wrong-state rows from `permitted`; in the others the answer is OK or the state is left. -/
theorem wrongStateCommands : Obligations.WrongStateCommands := by
  intro s
  refine ⟨fun hs => exec_wrongState (by simp [permitted, hs]),
    fun hs => ⟨exec_wrongState (by simp [permitted, hs]), exec_wrongState (by simp [permitted, hs])⟩,
    fun hs e => exec_begin_leaves_uninit e hs,
    fun hrun => ⟨exec_step_run_ne_wrongState hrun, exec_ne_wrongState_of_ok (exec_rxCancel_run hrun) rfl⟩,
    exec_ne_wrongState_of_ok (u := s) rfl rfl, exec_ne_wrongState_of_ok (u := s) (exec_csrRead_addr .status s) rfl,
    fun v => exec_ne_wrongState_of_ok (u := { s with err := errAfterWrite s.err v }) (exec_csrWrite_err s v) rfl⟩

/-- Settles O17: the ranges are the unassigned addresses. -/
theorem csrReadUnassigned : Obligations.CsrReadUnassigned :=
  fun s _ ha => exec_csrRead_unassigned (unassigned_of_range ha) s

/-- Settles O27: RX_CANCEL evaluated; a transmitter's detector is already Searching with nothing remaining. -/
theorem rxCancelCompletes : Obligations.RxCancelCompletes := by
  refine ⟨fun s => exec_rxCancel_run, fun s h => ?_, decode_encode .rxCancel⟩
  obtain ⟨inv, hrun, hrole⟩ := h
  obtain ⟨-, quiet⟩ := inv.transmitter hrun hrole
  have same : (sdReset s).setRemaining 0 = s := by
    show { s with rx := { s.rx with sync := .searching, remaining := 0 } } = s
    rw [← quiet.sync, ← quiet.remaining]
  rw [exec_rxCancel_run hrun, same]
  rfl

end
end

section
/-! PROOFS. What taking an exception records (60_exceptions.md R352): the bit of its cause, its counter, nothing else. -/

namespace Sys2Proof.Machine

/-- The whole effect of `raise`, for a cause whose mask and count are known. -/
theorem raise_eq_of_counted {c : Cause} {s : State} {m : BitVec 10} {k : Counters} (hmask : c.mask = m)
    (hcount : c.count s.counters = k) : raise c s = { s with err := s.err ||| m, counters := k } := by
  subst hmask hcount
  rfl

/-- A cause without a counter leaves ERR as the only register changed. -/
theorem raise_eq_of_uncounted {c : Cause} {s : State} {m : BitVec 10} (hmask : c.mask = m)
    (hcount : c.count s.counters = s.counters) : raise c s = { s with err := s.err ||| m } :=
  raise_eq_of_counted hmask hcount

end Sys2Proof.Machine

section

open Sys2Proof Sys2Proof.Machine Sys2Proof.Claims

/-- Settles O24: the effect of `raise` at each cause's mask and count, in the order of the codes. -/
theorem raiseRule : Obligations.RaiseRule := by
  intro s
  exact ⟨
    -- R353, R354: BEGIN_FAIL and BAD_CONFIG have no counter.
    raise_eq_of_uncounted rfl rfl, raise_eq_of_uncounted rfl rfl,
    -- R355 to R360: the overruns, the timeouts and the lost marker are counted.
    raise_eq_of_counted rfl rfl, raise_eq_of_counted rfl rfl, raise_eq_of_counted rfl rfl,
    raise_eq_of_counted rfl rfl, raise_eq_of_counted rfl rfl, raise_eq_of_counted rfl rfl,
    -- R361, R362: ILLEGAL_CMD and CSR_ERR have no counter.
    raise_eq_of_uncounted rfl rfl, raise_eq_of_uncounted rfl rfl⟩

end
end

section
/-! PROOFS. Reset, and what it leaves open: the reset values (70_reset_and_hazards.md R391), and no sequence of commands
from the invariant tells two alike states apart. -/

namespace Sys2Proof.Machine

/-! ### Reset -/

/-- After reset every CSR reads 0, the six views among them (70_reset_and_hazards.md R391). -/
theorem readCsr_reset (c : Csr) : readCsr State.reset c = 0 := by cases c <;> rfl

/-- The state after reset is one that the reset input leaves. -/
theorem applyReset_reset : applyReset State.reset = State.reset := rfl

/-! ### What alike states answer alike -/

section
variable {s t : State}

/-- Reading a CSR reads no byte array (45_host_commands.md R316). -/
theorem Alike.readCsr (h : Alike s t) (c : Csr) : readCsr t c = readCsr s c := by
  obtain ⟨_, _, _, rfl⟩ := h.shape
  cases c <;> rfl

/-- `config_legal()` reads the configuration and the parameters only (45_host_commands.md R307). -/
theorem Alike.configLegal (h : Alike s t) : configLegal t = configLegal s := by
  unfold Machine.configLegal
  rw [h.cfg, h.params]

/-- Another configuration, with which N may change: in TX_IDLE no frame is committed, so no payload is pinned by N. -/
theorem Alike.setCfg (h : Alike s t) (idle : s.tx.state = .idle) (c : ConfigRegs) : Alike (s.setCfg c) (t.setCfg c) := by
  obtain ⟨_, _, _, rfl⟩ := h.shape
  exact ⟨rfl, h.txbSlide, h.rxbSlide, h.txbHeld, h.rxbHeld, fun busy => absurd idle busy⟩

/-! ### The commands -/

theorem Alike.wrongState (h : Alike s t) : OutcomeRel Alike (wrongState s) (wrongState t) := h.respond _ _

theorem Alike.csrFailure (h : Alike s t) : OutcomeRel Alike (csrFailure s) (csrFailure t) := (h.raise _).respond _ _

theorem Alike.beginFailed (h : Alike s t) (c : Cause) : Alike (beginFailed c s) (beginFailed c t) :=
  ((h.raise c).setCoreState _).respond _ _

theorem Alike.execNop (h : Alike s t) : OutcomeRel Alike (execNop s) (execNop t) := h.respond _ _

theorem Alike.execBegin (h : Alike s t) : OutcomeRel Alike (execBegin s) (execBegin t) := by
  obtain ⟨sameTime, asked⟩ := h.askNow
  obtain ⟨sameAnswer, begun⟩ := asked.askFlag .radioBegin
  unfold Machine.execBegin
  simp only [h.coreState, sameTime, asked.configLegal, askRadioBegin, sameAnswer]
  exact .ite (fun _ => .ite
    (fun _ => .ite (fun _ => ((begun.setTLink _).setCoreState _).respond _ _) fun _ => begun.beginFailed _)
    fun _ => asked.beginFailed _) fun _ => h.wrongState

theorem Alike.execStep (h : Alike s t) : OutcomeRel Alike (execStep s) (execStep t) := by
  unfold Machine.execStep
  rw [h.coreState]
  exact .ite (fun _ => h.schedulerIteration.andThen fun _ _ k => k.respond _ _) fun _ => h.wrongState

theorem Alike.execCsrRead (h : Alike s t) (a : CsrAddr) : OutcomeRel Alike (execCsrRead a s) (execCsrRead a t) := by
  unfold Machine.execCsrRead
  rw [h.coreState]
  refine .ite (fun _ => ?_) fun _ => h.wrongState
  cases Csr.ofAddr a with
  | none => exact h.csrFailure
  | some c =>
    simp only [h.readCsr c]
    exact h.respond _ _

/-- A configuration register is written in UNINIT only, where the invariant has TX_IDLE (45_host_commands.md R306,
R322). -/
theorem Alike.execCsrWrite (h : Alike s t) (inv : Inv s) (a : CsrAddr) (v : Word) :
    OutcomeRel Alike (execCsrWrite a v s) (execCsrWrite a v t) := by
  have idle (uninit : s.coreState = .uninit) : s.tx.state = .idle := by
    obtain ⟨quiet, -⟩ := inv.quiet (by simp [uninit])
    exact quiet.state
  unfold Machine.execCsrWrite
  rw [h.coreState, h.cfg, h.err]
  refine .ite (fun _ => ?_) fun _ => h.wrongState
  cases Csr.ofAddr a with
  | none => exact h.csrFailure
  | some c =>
    exact .ite
      (fun _ => .ite (fun uninit => (h.setCfg (idle uninit) _).respond _ _) fun _ => h.csrFailure)
      fun _ => .ite (fun _ => (h.setErr _).respond _ _) fun _ => h.csrFailure

theorem Alike.execRxCancel (h : Alike s t) : OutcomeRel Alike (execRxCancel s) (execRxCancel t) := by
  unfold Machine.execRxCancel
  rw [h.coreState]
  exact .ite (fun _ => ((h.setSync _).setRemaining _).respond _ _) fun _ => h.wrongState

/-- No command tells two alike states apart. -/
theorem Alike.exec (h : Alike s t) (inv : Inv s) (i : Instr) : OutcomeRel Alike (exec i s) (exec i t) := by
  cases i with
  | nop => exact h.execNop
  | begin => exact h.execBegin
  | step => exact h.execStep
  | csrRead a => exact h.execCsrRead a
  | csrWrite a v => exact h.execCsrWrite inv a v
  | rxCancel => exact h.execRxCancel

/-! ### Runs of commands -/

/-- Where one side completes, so does the other, in a related value. -/
theorem OutcomeRel.of_next {α : Type} {R : α → α → Prop} {a : α} {y : Result α} (h : OutcomeRel R (.next a) y) :
    ∃ b, y = .next b ∧ R a b := by
  cases y with
  | next b => exact ⟨b, rfl, h⟩
  | fault r => exact h.elim
  | refused r => exact h.elim

/-- No run of commands tells two alike states apart: each command completes from the invariant, and leaves the invariant
and alike states to the next. -/
theorem Alike.execAll (h : Alike s t) (inv : Inv s) (cmds : List Instr) :
    ∃ s' t', execAll cmds s = .next s' ∧ execAll cmds t = .next t' ∧ Alike s' t' := by
  induction cmds generalizing s t with
  | nil => exact ⟨s, t, rfl, rfl, h⟩
  | cons i rest ih =>
    obtain ⟨u, hu⟩ := exec_completes i inv
    have related := h.exec inv i
    rw [hu] at related
    obtain ⟨v, hv, k⟩ := related.of_next
    obtain ⟨s', t', runs, runt, k'⟩ := ih k (exec_keeps_inv inv hu)
    exact ⟨s', t', (andThen_eq_next _ _ _).mpr ⟨u, hu, runs⟩, (andThen_eq_next _ _ _).mpr ⟨v, hv, runt⟩, k'⟩

end

/-- With nothing held and no frame committed, nothing pins the contents of the three arrays. -/
theorem Alike.of_empty {s : State} (d1 d2 d3 : Memory) (htxb : s.txb.writePos = 0 ∧ s.txb.pending = 0)
    (hrxb : s.rxb.writePos = 0 ∧ s.rxb.pending = 0) (idle : s.tx.state = .idle) : Alike s { s with
      txb := { s.txb with data := d1 }, rxb := { s.rxb with data := d2 }, tx := { s.tx with payload := d3 } } where
  same := rfl
  txbSlide := htxb.1.trans htxb.2.symm
  rxbSlide := hrxb.1.trans hrxb.2.symm
  txbHeld := by simp [StreamBuffer.held, Memory.prefixBytes, htxb.2]
  rxbHeld := by simp [StreamBuffer.held, Memory.prefixBytes, hrxb.2]
  payload busy := absurd idle busy

end Sys2Proof.Machine

section

open Sys2Proof Sys2Proof.Machine Sys2Proof.Claims

/-- Settles O44: the relation `Alike` carried over the run beside the invariant, trace and responses being no bytes of an
array; and reset, which holds nothing and has no frame committed. -/
theorem unspecifiedBytesUnobservable : Obligations.UnspecifiedBytesUnobservable := by
  refine ⟨fun cmds s t inv h => ?_, fun d1 d2 d3 => .of_empty d1 d2 d3 ⟨rfl, rfl⟩ ⟨rfl, rfl⟩ rfl⟩
  obtain ⟨s', t', runs, runt, k⟩ := h.execAll inv cmds
  exact ⟨s', t', runs, runt, k, by rw [k.env], by rw [k.host]⟩

/-- Settles O9: what the step on the reset input does, which is the state written out. -/
theorem resetInputResets : Obligations.ResetInputResets := fun _ _ h => step_of_reset h

/-- Settles O10: the values are those of `resetCore`; each view is the read of its CSR, 0 after reset. -/
theorem resetValues : Obligations.ResetValues := by
  refine ⟨rfl, rfl, rfl, rfl, ⟨rfl, rfl, rfl, rfl⟩, ⟨rfl, rfl, rfl, rfl⟩, ⟨rfl, rfl, rfl, rfl⟩, ⟨rfl, rfl, rfl, rfl⟩, ?_⟩
  intro a ha
  have viewed : a ∈ [Csr.status, .txPending, .rxPending, .txPos, .rxRemaining, .err].map Csr.addr := ha
  obtain ⟨c, -, rfl⟩ := List.mem_map.mp viewed
  rw [exec_csrRead_addr, readCsr_reset]

/-- Settles O31: the reset input establishes the invariant from any state, and reset is one of the states it leaves. -/
theorem resetMeetsInvariant : Obligations.ResetMeetsInvariant :=
  ⟨applyReset_reset ▸ inv_applyReset State.reset, inv_applyReset⟩

end
end
